-- ==== Sys2Proof/Word.lean ====
section
/-! DEFINITION. The word types of the WE32100: 32-bit words, 16-bit halfwords and 8-bit bytes (00_scope.md R8
`WORD_BITS`, 20_memory.md R240). -/

namespace Sys2Proof

/-- A 32-bit word: a register, an address, a word of memory (R8, R100). -/
abbrev Word := BitVec 32

/-- A 16-bit halfword (R240). -/
abbrev Half := BitVec 16

/-- An 8-bit byte, the smallest addressable unit (R200). -/
abbrev Byte := BitVec 8

end Sys2Proof
end

