-- ==== Sys2Proof/Config.lean ====
section
/-! DEFINITION. The implementation parameters of 00_scope.md R8. The constants of the address map stand here as plain
definitions; every parameter that R8 gives alternatives, marks OPEN or takes as an argument of `create` is a field of
`Params`, which the state holds and no step changes, so that a statement about every state holds for every value
(93_implementation_defined.md, treatment `parameter`; log entries 2 and 22). -/

namespace Sys2Proof

namespace Config

/-- `ROM_BASE` (R8, R201). -/
def romBase : Nat := 0x00000000

/-- `ROM_MAX`: the longest ROM image, up to the DUART window (R8). -/
def romMax : Nat := 0x00200000

/-- `DUART_BASE` (R8, R201). -/
def duartBase : Nat := 0x00200000

/-- The DUART window is 0x40 bytes (R8, R860). -/
def duartSize : Nat := 0x40

/-- `RAM_BASE` (R8, R201). -/
def ramBase : Nat := 0x00700000

/-- `RAM_MAX`: RAM up to the top of the address space (R8). -/
def ramMax : Nat := 0xFF900000

/-- The longest instruction: INSFW or EXTFW with four 6-byte operands (R300, R321). -/
def maxInstrBytes : Nat := 25

/-- The PSW bits that exist: 31:26 read as 0 and ignore writes (R110, R111). -/
def pswMask : Word := 0x03FFFFFF#32

end Config

/-- `ALIGN_POLICY` (R220). -/
inductive AlignPolicy where
  | trap
  | permit
  deriving DecidableEq, Repr

/-- `RESET_ENTRY` (R900, R902). -/
inductive ResetEntry where
  | direct
  | pcbVector
  deriving DecidableEq, Repr

/-- `FIELD_WRAP` (R581 to R586). -/
inductive FieldWrap where
  | rotate
  | fault
  deriving DecidableEq, Repr

/-- The parameters of R8 that a machine is created with. -/
structure Params where
  /-- Length of `ROM_IMAGE` in bytes (R202). -/
  romSize : Nat
  /-- `RAM_SIZE` in bytes (R202). -/
  ramSize : Nat
  /-- `GATE_L1_BASE` (R820). -/
  gateL1Base : Word
  /-- `ALIGN_POLICY` (R220). -/
  alignPolicy : AlignPolicy
  /-- `RESET_ENTRY` (R900, R902). -/
  resetEntry : ResetEntry
  /-- `RESET_PSW` (R140). -/
  resetPsw : Word
  /-- `RX_CAPACITY` (R869). -/
  rxCapacity : Nat
  /-- `TX_CAPACITY` (R871). -/
  txCapacity : Nat
  /-- `IRQ_PRIORITY[s]` for the five sources (R840). -/
  irqPriority : Vector (BitVec 4) 5
  /-- `BAUD_DELAY[0]`: steps a character for ACR bit 7 = 0 (R872). -/
  baudDelay0 : Vector Nat 16
  /-- `BAUD_DELAY[1]`: steps a character for ACR bit 7 = 1 (R872). -/
  baudDelay1 : Vector Nat 16
  /-- `ETYPE_PERSISTS` (R322). -/
  etypePersists : Bool
  /-- `FIELD_WRAP` (R581). -/
  fieldWrap : FieldWrap
  /-- `MVERNO_VALUE` (R727). -/
  mvernoValue : Word
  /-- `BELL_BYTE` (R885). -/
  bellByte : Byte
  /-- `MOV_SETS_FLAGS` (R450). -/
  movSetsFlags : Bool
  deriving DecidableEq, Repr

/-- The defaults of R8 and the delay table of R872, with the two sizes that `create` takes as arguments. -/
def Params.ofSizes (romSize ramSize : Nat) : Params where
  romSize := romSize
  ramSize := ramSize
  gateL1Base := 0x00700000#32
  alignPolicy := .trap
  resetEntry := .direct
  resetPsw := 0x0001E000#32
  rxCapacity := 16
  txCapacity := 16
  irqPriority := #v[13, 13, 13, 13, 13]
  baudDelay0 := #v[200000, 90909, 74349, 50000, 33333, 16667, 8333, 9524,
                   4167, 2083, 1389, 1042, 260, 1042, 1042, 1042]
  baudDelay1 := #v[133333, 90909, 74349, 66667, 33333, 16667, 8333, 5000,
                   4167, 2083, 5556, 1042, 521, 1042, 1042, 1042]
  etypePersists := true
  fieldWrap := .rotate
  mvernoValue := 0x0000001A#32
  bellByte := 0x07#8
  movSetsFlags := true

/-- DESIGN CHOICE (log entry 2): the parameters at `State.reset`. R8 takes the two sizes as arguments of `create`; the
model names their largest allowed values. -/
def Params.default : Params := .ofSizes Config.romMax Config.ramMax

/-- The parameter values R8 and R202 allow; `RESET_PSW` is any word. -/
def Params.valid (p : Params) : Bool :=
  decide (1 ≤ p.romSize ∧ p.romSize ≤ Config.romMax ∧ p.ramSize ≤ Config.ramMax ∧
    1 ≤ p.rxCapacity ∧ 1 ≤ p.txCapacity) &&
  p.irqPriority.all (· != 0) && p.baudDelay0.all (1 ≤ ·) && p.baudDelay1.all (1 ≤ ·)

end Sys2Proof
end

