-- ==== Sys2Proof/Syntax.lean ====
section
/-! DEFINITION. The instruction syntax: operand forms (30_encoding.md R320), operand classes (40_addressing_modes.md R400)
and one constructor of `Instr` for each of the 180 rows of spec/opcode_table.json. The forms record exactly what the
decoder saw (descriptor and extension bytes), so that re-encoding is exact (R343). -/

namespace Sys2Proof

/-- A register number 0..15 (10_state.md R101). -/
abbrev RegNum := Fin 16

/-- The six expanded types of R320, descriptors 0xE0, 0xE2, 0xE3, 0xE4, 0xE6, 0xE7. -/
inductive EType where
  | uword
  | uhalf
  | ubyte
  | sword
  | shalf
  | sbyte
  deriving DecidableEq, Repr

/-- Access widths (20_memory.md R240). -/
inductive Size where
  | byte
  | half
  | word
  deriving DecidableEq, Repr

/-- An operand type: width and signedness (40_addressing_modes.md R400). -/
structure OpType where
  size : Size
  signed : Bool
  deriving DecidableEq, Repr

/-- The operand forms of the descriptor table R320, each with its register and extension value. -/
inductive Form where
  /-- 0x00-0x3F: the value 0..63. -/
  | posLit (v : Fin 64)
  /-- 0xF0-0xFF: descriptor 0xF0 + k, the value k - 16 (R404). -/
  | negLit (k : Fin 16)
  /-- 0x4r: register r (r not 15). -/
  | reg (r : RegNum)
  /-- 0x4F: word immediate. -/
  | wordImm (v : Word)
  /-- 0x5F: halfword immediate. -/
  | halfImm (v : Half)
  /-- 0x6F: byte immediate. -/
  | byteImm (v : Byte)
  /-- 0x5r: register deferred (r not 11, not 15). -/
  | regDef (r : RegNum)
  /-- 0x6k: FP short offset, k = 0..14. -/
  | fpShort (k : Fin 15)
  /-- 0x7k: AP short offset, k = 0..14. -/
  | apShort (k : Fin 15)
  /-- 0x7F: absolute. -/
  | absolute (a : Word)
  /-- 0xEF: absolute deferred. -/
  | absDef (a : Word)
  /-- 0x8r: word displacement (r not 11). -/
  | wordDisp (r : RegNum) (d : Word)
  /-- 0x9r: word displacement deferred. -/
  | wordDispDef (r : RegNum) (d : Word)
  /-- 0xAr: halfword displacement. -/
  | halfDisp (r : RegNum) (d : Half)
  /-- 0xBr: halfword displacement deferred. -/
  | halfDispDef (r : RegNum) (d : Half)
  /-- 0xCr: byte displacement. -/
  | byteDisp (r : RegNum) (d : Byte)
  /-- 0xDr: byte displacement deferred. -/
  | byteDispDef (r : RegNum) (d : Byte)
  deriving DecidableEq, Repr

/-- A general operand: an optional expanded type and a form (R302 `G`, R322). -/
structure Operand where
  etype : Option EType
  form : Form
  deriving DecidableEq, Repr

/-- Operand classes (R400): value read, value written, read then written, address, register named (SAVE, RESTORE);
the memory operand of the interlocked swaps (R462); and the operands of a refused opcode, which are never decoded
when the opcode is executed (47_system.md R720, R756). -/
inductive OpClass where
  | read
  | write
  | modify
  | addr
  | regName
  | memModify
  | ignored
  deriving DecidableEq, Repr

/-- An operand field of an instruction (R302): a general operand with its class, or a raw field. -/
inductive Field where
  | g (c : OpClass) (o : Operand)
  | raw8 (b : Byte)
  | raw16 (h : Half)
  | raw32 (w : Word)
  deriving DecidableEq, Repr

/-- The instructions: one constructor per row of spec/opcode_table.json, operands in encoding order. -/
inductive Instr where
  -- Data movement and stack (41_data_movement.md)
  /-- MOVW (R451). -/
  | movw (src dst : Operand)
  /-- MOVH (R452). -/
  | movh (src dst : Operand)
  /-- MOVB (R453). -/
  | movb (src dst : Operand)
  /-- MOVAW (R454). -/
  | movaw (src dst : Operand)
  /-- CLRW (R455). -/
  | clrw (dst : Operand)
  /-- CLRH (R456). -/
  | clrh (dst : Operand)
  /-- CLRB (R457). -/
  | clrb (dst : Operand)
  /-- PUSHW (R458). -/
  | pushw (src : Operand)
  /-- PUSHAW (R459). -/
  | pushaw (src : Operand)
  /-- POPW (R460). -/
  | popw (dst : Operand)
  /-- SWAPWI (R462). -/
  | swapwi (dst : Operand)
  /-- SWAPHI (R463). -/
  | swaphi (dst : Operand)
  /-- SWAPBI (R464). -/
  | swapbi (dst : Operand)
  -- Integer arithmetic (42_arithmetic.md)
  /-- ADDW2 (R501). -/
  | addw2 (src dst : Operand)
  /-- ADDH2 (R502). -/
  | addh2 (src dst : Operand)
  /-- ADDB2 (R503). -/
  | addb2 (src dst : Operand)
  /-- ADDW3 (R504). -/
  | addw3 (src1 src2 dst : Operand)
  /-- ADDH3 (R505). -/
  | addh3 (src1 src2 dst : Operand)
  /-- ADDB3 (R506). -/
  | addb3 (src1 src2 dst : Operand)
  /-- SUBW2 (R507). -/
  | subw2 (src dst : Operand)
  /-- SUBH2 (R508). -/
  | subh2 (src dst : Operand)
  /-- SUBB2 (R509). -/
  | subb2 (src dst : Operand)
  /-- SUBW3 (R510). -/
  | subw3 (src1 src2 dst : Operand)
  /-- SUBH3 (R511). -/
  | subh3 (src1 src2 dst : Operand)
  /-- SUBB3 (R512). -/
  | subb3 (src1 src2 dst : Operand)
  /-- MULW2 (R513). -/
  | mulw2 (src dst : Operand)
  /-- MULH2 (R514). -/
  | mulh2 (src dst : Operand)
  /-- MULB2 (R515). -/
  | mulb2 (src dst : Operand)
  /-- MULW3 (R516). -/
  | mulw3 (src1 src2 dst : Operand)
  /-- MULH3 (R517). -/
  | mulh3 (src1 src2 dst : Operand)
  /-- MULB3 (R518). -/
  | mulb3 (src1 src2 dst : Operand)
  /-- DIVW2 (R519). -/
  | divw2 (src dst : Operand)
  /-- DIVH2 (R520). -/
  | divh2 (src dst : Operand)
  /-- DIVB2 (R521). -/
  | divb2 (src dst : Operand)
  /-- DIVW3 (R522). -/
  | divw3 (src1 src2 dst : Operand)
  /-- DIVH3 (R523). -/
  | divh3 (src1 src2 dst : Operand)
  /-- DIVB3 (R524). -/
  | divb3 (src1 src2 dst : Operand)
  /-- MODW2 (R525). -/
  | modw2 (src dst : Operand)
  /-- MODH2 (R526). -/
  | modh2 (src dst : Operand)
  /-- MODB2 (R527). -/
  | modb2 (src dst : Operand)
  /-- MODW3 (R528). -/
  | modw3 (src1 src2 dst : Operand)
  /-- MODH3 (R529). -/
  | modh3 (src1 src2 dst : Operand)
  /-- MODB3 (R530). -/
  | modb3 (src1 src2 dst : Operand)
  /-- INCW (R531). -/
  | incw (dst : Operand)
  /-- INCH (R532). -/
  | inch (dst : Operand)
  /-- INCB (R533). -/
  | incb (dst : Operand)
  /-- DECW (R534). -/
  | decw (dst : Operand)
  /-- DECH (R535). -/
  | dech (dst : Operand)
  /-- DECB (R536). -/
  | decb (dst : Operand)
  /-- MNEGW (R537). -/
  | mnegw (src dst : Operand)
  /-- MNEGH (R538). -/
  | mnegh (src dst : Operand)
  /-- MNEGB (R539). -/
  | mnegb (src dst : Operand)
  -- Logical, shift, rotate and bit field (43_logical_shift_field.md)
  /-- ANDW2 (R551). -/
  | andw2 (src dst : Operand)
  /-- ANDH2 (R552). -/
  | andh2 (src dst : Operand)
  /-- ANDB2 (R553). -/
  | andb2 (src dst : Operand)
  /-- ANDW3 (R554). -/
  | andw3 (src1 src2 dst : Operand)
  /-- ANDH3 (R555). -/
  | andh3 (src1 src2 dst : Operand)
  /-- ANDB3 (R556). -/
  | andb3 (src1 src2 dst : Operand)
  /-- ORW2 (R557). -/
  | orw2 (src dst : Operand)
  /-- ORH2 (R558). -/
  | orh2 (src dst : Operand)
  /-- ORB2 (R559). -/
  | orb2 (src dst : Operand)
  /-- ORW3 (R560). -/
  | orw3 (src1 src2 dst : Operand)
  /-- ORH3 (R561). -/
  | orh3 (src1 src2 dst : Operand)
  /-- ORB3 (R562). -/
  | orb3 (src1 src2 dst : Operand)
  /-- XORW2 (R563). -/
  | xorw2 (src dst : Operand)
  /-- XORH2 (R564). -/
  | xorh2 (src dst : Operand)
  /-- XORB2 (R565). -/
  | xorb2 (src dst : Operand)
  /-- XORW3 (R566). -/
  | xorw3 (src1 src2 dst : Operand)
  /-- XORH3 (R567). -/
  | xorh3 (src1 src2 dst : Operand)
  /-- XORB3 (R568). -/
  | xorb3 (src1 src2 dst : Operand)
  /-- MCOMW (R569). -/
  | mcomw (src dst : Operand)
  /-- MCOMH (R570). -/
  | mcomh (src dst : Operand)
  /-- MCOMB (R571). -/
  | mcomb (src dst : Operand)
  /-- ALSW3 (R572). -/
  | alsw3 (count src dst : Operand)
  /-- ARSW3 (R573). -/
  | arsw3 (count src dst : Operand)
  /-- ARSH3 (R574). -/
  | arsh3 (count src dst : Operand)
  /-- ARSB3 (R575). -/
  | arsb3 (count src dst : Operand)
  /-- LLSW3 (R576). -/
  | llsw3 (count src dst : Operand)
  /-- LLSH3 (R577). -/
  | llsh3 (count src dst : Operand)
  /-- LLSB3 (R578). -/
  | llsb3 (count src dst : Operand)
  /-- LRSW3 (R579). -/
  | lrsw3 (count src dst : Operand)
  /-- ROTW (R580). -/
  | rotw (count src dst : Operand)
  /-- INSFW (R581). -/
  | insfw (width offset src dst : Operand)
  /-- INSFH (R582). -/
  | insfh (width offset src dst : Operand)
  /-- INSFB (R583). -/
  | insfb (width offset src dst : Operand)
  /-- EXTFW (R584). -/
  | extfw (width offset src dst : Operand)
  /-- EXTFH (R585). -/
  | extfh (width offset src dst : Operand)
  /-- EXTFB (R586). -/
  | extfb (width offset src dst : Operand)
  -- Compare, test and bit test (44_compare_branch.md)
  /-- CMPW (R601). -/
  | cmpw (src1 src2 : Operand)
  /-- CMPH (R602). -/
  | cmph (src1 src2 : Operand)
  /-- CMPB (R603). -/
  | cmpb (src1 src2 : Operand)
  /-- TSTW (R604). -/
  | tstw (src : Operand)
  /-- TSTH (R605). -/
  | tsth (src : Operand)
  /-- TSTB (R606). -/
  | tstb (src : Operand)
  /-- BITW (R607). -/
  | bitw (src1 src2 : Operand)
  /-- BITH (R608). -/
  | bith (src1 src2 : Operand)
  /-- BITB (R609). -/
  | bitb (src1 src2 : Operand)
  -- Branches (44_compare_branch.md)
  /-- BRB (R611). -/
  | brb (disp : Byte)
  /-- BRH (R612). -/
  | brh (disp : Half)
  /-- BGEB (R613). -/
  | bgeb (disp : Byte)
  /-- BGEH (R614). -/
  | bgeh (disp : Half)
  /-- BGB (R615). -/
  | bgb (disp : Byte)
  /-- BGH (R616). -/
  | bgh (disp : Half)
  /-- BLB (R617). -/
  | blb (disp : Byte)
  /-- BLH (R618). -/
  | blh (disp : Half)
  /-- BLEB (R619). -/
  | bleb (disp : Byte)
  /-- BLEH (R620). -/
  | bleh (disp : Half)
  /-- BGEUB (R621). -/
  | bgeub (disp : Byte)
  /-- BGEUH (R622). -/
  | bgeuh (disp : Half)
  /-- BGUB (R623). -/
  | bgub (disp : Byte)
  /-- BGUH (R624). -/
  | bguh (disp : Half)
  /-- BLUB (R625). -/
  | blub (disp : Byte)
  /-- BLUH (R626). -/
  | bluh (disp : Half)
  /-- BLEUB (R627). -/
  | bleub (disp : Byte)
  /-- BLEUH (R628). -/
  | bleuh (disp : Half)
  /-- BVCB (R629). -/
  | bvcb (disp : Byte)
  /-- BVCH (R630). -/
  | bvch (disp : Half)
  /-- BNEUB (R631). -/
  | bneub (disp : Byte)
  /-- BNEUH (R632). -/
  | bneuh (disp : Half)
  /-- BVSB (R633). -/
  | bvsb (disp : Byte)
  /-- BVSH (R634). -/
  | bvsh (disp : Half)
  /-- BEUB (R635). -/
  | beub (disp : Byte)
  /-- BEUH (R636). -/
  | beuh (disp : Half)
  /-- BNEB (R637). -/
  | bneb (disp : Byte)
  /-- BNEH (R638). -/
  | bneh (disp : Half)
  /-- BEB (R639). -/
  | beb (disp : Byte)
  /-- BEH (R640). -/
  | beh (disp : Half)
  -- Conditional returns and jump (44_compare_branch.md)
  /-- RGEQ (R641). -/
  | rgeq
  /-- RGTR (R642). -/
  | rgtr
  /-- RLSS (R643). -/
  | rlss
  /-- RLEQ (R644). -/
  | rleq
  /-- RGEQU (R645). -/
  | rgequ
  /-- RGTRU (R646). -/
  | rgtru
  /-- RLSSU (R647). -/
  | rlssu
  /-- RLEQU (R648). -/
  | rlequ
  /-- RVC (R649). -/
  | rvc
  /-- RNEQU (R650). -/
  | rnequ
  /-- RVS (R651). -/
  | rvs
  /-- REQLU (R652). -/
  | reqlu
  /-- RNEQ (R653). -/
  | rneq
  /-- REQL (R654). -/
  | reql
  /-- JMP (R655). -/
  | jmp (dst : Operand)
  -- Call, return and register save (45_call_stack.md)
  /-- CALL (R661). -/
  | call (argp dst : Operand)
  /-- RET (R662). -/
  | ret
  /-- SAVE (R663). -/
  | save (first : Operand)
  /-- RESTORE (R664). -/
  | restore (first : Operand)
  /-- JSB (R665). -/
  | jsb (dst : Operand)
  /-- RSB (R666). -/
  | rsb
  /-- BSBB (R667). -/
  | bsbb (disp : Byte)
  /-- BSBH (R668). -/
  | bsbh (disp : Half)
  -- Block and string (46_block_string.md)
  /-- MOVBLW (R701). -/
  | movblw
  /-- STRCPY (R702). -/
  | strcpy
  /-- STREND (R703). -/
  | strend
  -- System, trap-generating and refused (47_system.md)
  /-- HALT (R721). -/
  | halt
  /-- NOP (R722). -/
  | nop
  /-- NOP2 (R723). -/
  | nop2 (ignored : Byte)
  /-- NOP3 (R724). -/
  | nop3 (ignored : Half)
  /-- BPT (R725). -/
  | bpt
  /-- EXTOP (R726). -/
  | extop
  /-- MVERNO (R727). -/
  | mverno
  /-- GATE (R728). -/
  | gate
  /-- RETG (R741). -/
  | retg
  /-- WAIT (R745). -/
  | wait
  /-- CFLUSH (R748). -/
  | cflush
  /-- INTACK (R750). -/
  | intack
  /-- CALLPS (R751). -/
  | callps
  /-- RETPS (R752). -/
  | retps
  /-- ENBVJMP (R753). -/
  | enbvjmp
  /-- DISVJMP (R754). -/
  | disvjmp
  /-- MOVTRW (R755). -/
  | movtrw (src dst : Operand)
  /-- SPOP (R757). -/
  | spop (cmd : Word)
  /-- SPOPRS (R758). -/
  | spoprs (cmd : Word) (src : Operand)
  /-- SPOPRD (R759). -/
  | spoprd (cmd : Word) (src : Operand)
  /-- SPOPRT (R760). -/
  | spoprt (cmd : Word) (src : Operand)
  /-- SPOPS2 (R761). -/
  | spops2 (cmd : Word) (src dst : Operand)
  /-- SPOPD2 (R762). -/
  | spopd2 (cmd : Word) (src dst : Operand)
  /-- SPOPT2 (R763). -/
  | spopt2 (cmd : Word) (src dst : Operand)
  /-- SPOPWS (R764). -/
  | spopws (cmd : Word) (dst : Operand)
  /-- SPOPWD (R765). -/
  | spopwd (cmd : Word) (dst : Operand)
  /-- SPOPWT (R766). -/
  | spopwt (cmd : Word) (dst : Operand)
  deriving DecidableEq, Repr

/-- The operand fields of an instruction in encoding order, with the class of each general operand (R340, R342). -/
def Instr.fields : Instr → List Field
  | .movw src dst => [.g .read src, .g .write dst]
  | .movh src dst => [.g .read src, .g .write dst]
  | .movb src dst => [.g .read src, .g .write dst]
  | .movaw src dst => [.g .addr src, .g .write dst]
  | .clrw dst => [.g .write dst]
  | .clrh dst => [.g .write dst]
  | .clrb dst => [.g .write dst]
  | .pushw src => [.g .read src]
  | .pushaw src => [.g .addr src]
  | .popw dst => [.g .write dst]
  | .swapwi dst => [.g .memModify dst]
  | .swaphi dst => [.g .memModify dst]
  | .swapbi dst => [.g .memModify dst]
  | .addw2 src dst => [.g .read src, .g .modify dst]
  | .addh2 src dst => [.g .read src, .g .modify dst]
  | .addb2 src dst => [.g .read src, .g .modify dst]
  | .addw3 src1 src2 dst => [.g .read src1, .g .read src2, .g .write dst]
  | .addh3 src1 src2 dst => [.g .read src1, .g .read src2, .g .write dst]
  | .addb3 src1 src2 dst => [.g .read src1, .g .read src2, .g .write dst]
  | .subw2 src dst => [.g .read src, .g .modify dst]
  | .subh2 src dst => [.g .read src, .g .modify dst]
  | .subb2 src dst => [.g .read src, .g .modify dst]
  | .subw3 src1 src2 dst => [.g .read src1, .g .read src2, .g .write dst]
  | .subh3 src1 src2 dst => [.g .read src1, .g .read src2, .g .write dst]
  | .subb3 src1 src2 dst => [.g .read src1, .g .read src2, .g .write dst]
  | .mulw2 src dst => [.g .read src, .g .modify dst]
  | .mulh2 src dst => [.g .read src, .g .modify dst]
  | .mulb2 src dst => [.g .read src, .g .modify dst]
  | .mulw3 src1 src2 dst => [.g .read src1, .g .read src2, .g .write dst]
  | .mulh3 src1 src2 dst => [.g .read src1, .g .read src2, .g .write dst]
  | .mulb3 src1 src2 dst => [.g .read src1, .g .read src2, .g .write dst]
  | .divw2 src dst => [.g .read src, .g .modify dst]
  | .divh2 src dst => [.g .read src, .g .modify dst]
  | .divb2 src dst => [.g .read src, .g .modify dst]
  | .divw3 src1 src2 dst => [.g .read src1, .g .read src2, .g .write dst]
  | .divh3 src1 src2 dst => [.g .read src1, .g .read src2, .g .write dst]
  | .divb3 src1 src2 dst => [.g .read src1, .g .read src2, .g .write dst]
  | .modw2 src dst => [.g .read src, .g .modify dst]
  | .modh2 src dst => [.g .read src, .g .modify dst]
  | .modb2 src dst => [.g .read src, .g .modify dst]
  | .modw3 src1 src2 dst => [.g .read src1, .g .read src2, .g .write dst]
  | .modh3 src1 src2 dst => [.g .read src1, .g .read src2, .g .write dst]
  | .modb3 src1 src2 dst => [.g .read src1, .g .read src2, .g .write dst]
  | .incw dst => [.g .modify dst]
  | .inch dst => [.g .modify dst]
  | .incb dst => [.g .modify dst]
  | .decw dst => [.g .modify dst]
  | .dech dst => [.g .modify dst]
  | .decb dst => [.g .modify dst]
  | .mnegw src dst => [.g .read src, .g .write dst]
  | .mnegh src dst => [.g .read src, .g .write dst]
  | .mnegb src dst => [.g .read src, .g .write dst]
  | .andw2 src dst => [.g .read src, .g .modify dst]
  | .andh2 src dst => [.g .read src, .g .modify dst]
  | .andb2 src dst => [.g .read src, .g .modify dst]
  | .andw3 src1 src2 dst => [.g .read src1, .g .read src2, .g .write dst]
  | .andh3 src1 src2 dst => [.g .read src1, .g .read src2, .g .write dst]
  | .andb3 src1 src2 dst => [.g .read src1, .g .read src2, .g .write dst]
  | .orw2 src dst => [.g .read src, .g .modify dst]
  | .orh2 src dst => [.g .read src, .g .modify dst]
  | .orb2 src dst => [.g .read src, .g .modify dst]
  | .orw3 src1 src2 dst => [.g .read src1, .g .read src2, .g .write dst]
  | .orh3 src1 src2 dst => [.g .read src1, .g .read src2, .g .write dst]
  | .orb3 src1 src2 dst => [.g .read src1, .g .read src2, .g .write dst]
  | .xorw2 src dst => [.g .read src, .g .modify dst]
  | .xorh2 src dst => [.g .read src, .g .modify dst]
  | .xorb2 src dst => [.g .read src, .g .modify dst]
  | .xorw3 src1 src2 dst => [.g .read src1, .g .read src2, .g .write dst]
  | .xorh3 src1 src2 dst => [.g .read src1, .g .read src2, .g .write dst]
  | .xorb3 src1 src2 dst => [.g .read src1, .g .read src2, .g .write dst]
  | .mcomw src dst => [.g .read src, .g .write dst]
  | .mcomh src dst => [.g .read src, .g .write dst]
  | .mcomb src dst => [.g .read src, .g .write dst]
  | .alsw3 count src dst => [.g .read count, .g .read src, .g .write dst]
  | .arsw3 count src dst => [.g .read count, .g .read src, .g .write dst]
  | .arsh3 count src dst => [.g .read count, .g .read src, .g .write dst]
  | .arsb3 count src dst => [.g .read count, .g .read src, .g .write dst]
  | .llsw3 count src dst => [.g .read count, .g .read src, .g .write dst]
  | .llsh3 count src dst => [.g .read count, .g .read src, .g .write dst]
  | .llsb3 count src dst => [.g .read count, .g .read src, .g .write dst]
  | .lrsw3 count src dst => [.g .read count, .g .read src, .g .write dst]
  | .rotw count src dst => [.g .read count, .g .read src, .g .write dst]
  | .insfw width offset src dst => [.g .read width, .g .read offset, .g .read src, .g .modify dst]
  | .insfh width offset src dst => [.g .read width, .g .read offset, .g .read src, .g .modify dst]
  | .insfb width offset src dst => [.g .read width, .g .read offset, .g .read src, .g .modify dst]
  | .extfw width offset src dst => [.g .read width, .g .read offset, .g .read src, .g .write dst]
  | .extfh width offset src dst => [.g .read width, .g .read offset, .g .read src, .g .write dst]
  | .extfb width offset src dst => [.g .read width, .g .read offset, .g .read src, .g .write dst]
  | .cmpw src1 src2 => [.g .read src1, .g .read src2]
  | .cmph src1 src2 => [.g .read src1, .g .read src2]
  | .cmpb src1 src2 => [.g .read src1, .g .read src2]
  | .tstw src => [.g .read src]
  | .tsth src => [.g .read src]
  | .tstb src => [.g .read src]
  | .bitw src1 src2 => [.g .read src1, .g .read src2]
  | .bith src1 src2 => [.g .read src1, .g .read src2]
  | .bitb src1 src2 => [.g .read src1, .g .read src2]
  | .brb disp => [.raw8 disp]
  | .brh disp => [.raw16 disp]
  | .bgeb disp => [.raw8 disp]
  | .bgeh disp => [.raw16 disp]
  | .bgb disp => [.raw8 disp]
  | .bgh disp => [.raw16 disp]
  | .blb disp => [.raw8 disp]
  | .blh disp => [.raw16 disp]
  | .bleb disp => [.raw8 disp]
  | .bleh disp => [.raw16 disp]
  | .bgeub disp => [.raw8 disp]
  | .bgeuh disp => [.raw16 disp]
  | .bgub disp => [.raw8 disp]
  | .bguh disp => [.raw16 disp]
  | .blub disp => [.raw8 disp]
  | .bluh disp => [.raw16 disp]
  | .bleub disp => [.raw8 disp]
  | .bleuh disp => [.raw16 disp]
  | .bvcb disp => [.raw8 disp]
  | .bvch disp => [.raw16 disp]
  | .bneub disp => [.raw8 disp]
  | .bneuh disp => [.raw16 disp]
  | .bvsb disp => [.raw8 disp]
  | .bvsh disp => [.raw16 disp]
  | .beub disp => [.raw8 disp]
  | .beuh disp => [.raw16 disp]
  | .bneb disp => [.raw8 disp]
  | .bneh disp => [.raw16 disp]
  | .beb disp => [.raw8 disp]
  | .beh disp => [.raw16 disp]
  | .rgeq => []
  | .rgtr => []
  | .rlss => []
  | .rleq => []
  | .rgequ => []
  | .rgtru => []
  | .rlssu => []
  | .rlequ => []
  | .rvc => []
  | .rnequ => []
  | .rvs => []
  | .reqlu => []
  | .rneq => []
  | .reql => []
  | .jmp dst => [.g .addr dst]
  | .call argp dst => [.g .addr argp, .g .addr dst]
  | .ret => []
  | .save first => [.g .regName first]
  | .restore first => [.g .regName first]
  | .jsb dst => [.g .addr dst]
  | .rsb => []
  | .bsbb disp => [.raw8 disp]
  | .bsbh disp => [.raw16 disp]
  | .movblw => []
  | .strcpy => []
  | .strend => []
  | .halt => []
  | .nop => []
  | .nop2 ignored => [.raw8 ignored]
  | .nop3 ignored => [.raw16 ignored]
  | .bpt => []
  | .extop => []
  | .mverno => []
  | .gate => []
  | .retg => []
  | .wait => []
  | .cflush => []
  | .intack => []
  | .callps => []
  | .retps => []
  | .enbvjmp => []
  | .disvjmp => []
  | .movtrw src dst => [.g .ignored src, .g .ignored dst]
  | .spop cmd => [.raw32 cmd]
  | .spoprs cmd src => [.raw32 cmd, .g .ignored src]
  | .spoprd cmd src => [.raw32 cmd, .g .ignored src]
  | .spoprt cmd src => [.raw32 cmd, .g .ignored src]
  | .spops2 cmd src dst => [.raw32 cmd, .g .ignored src, .g .ignored dst]
  | .spopd2 cmd src dst => [.raw32 cmd, .g .ignored src, .g .ignored dst]
  | .spopt2 cmd src dst => [.raw32 cmd, .g .ignored src, .g .ignored dst]
  | .spopws cmd dst => [.raw32 cmd, .g .ignored dst]
  | .spopwd cmd dst => [.raw32 cmd, .g .ignored dst]
  | .spopwt cmd dst => [.raw32 cmd, .g .ignored dst]

end Sys2Proof
end

