-- ==== Sys2Proof/WellFormed.lean ====
section
/-! DEFINITION. Well-formed instructions: every operand form has an encoding (30_encoding.md R320) and is legal in its
class (40_addressing_modes.md R411, 41_data_movement.md R462, 45_call_stack.md R663). -/

namespace Sys2Proof

/-- The form is a row of R320: register 15 has no register or register-deferred form (0x4F and 0x5F are immediates),
and register 11 (PSW) is no base (0x5B, 0x8B, ... are invalid). -/
def Form.encodable : Form → Bool
  | .reg r => r != 15
  | .regDef r => r != 11 && r != 15
  | .wordDisp r _ | .wordDispDef r _ | .halfDisp r _ | .halfDispDef r _ | .byteDisp r _ | .byteDispDef r _ => r != 11
  | _ => true

/-- A literal or an immediate (R404, R405): no destination, no address. -/
def Form.isImmediate : Form → Bool
  | .posLit _ | .negLit _ | .wordImm _ | .halfImm _ | .byteImm _ => true
  | _ => false

/-- A register form (R406). -/
def Form.isRegister : Form → Bool
  | .reg _ => true
  | _ => false

/-- A memory form: it has an effective address (R409). -/
def Form.isMemory (f : Form) : Bool :=
  !f.isImmediate && !f.isRegister

/-- R411: which forms are legal in a class. SAVE and RESTORE need register r3..r14 (R663, R664); the interlocked swaps
need a memory operand (R462); the operands of a refused opcode are never checked (R720). -/
def Operand.legalFor : OpClass → Operand → Bool
  | .read, o => o.form.encodable
  | .write, o => o.form.encodable && !o.form.isImmediate
  | .modify, o => o.form.encodable && !o.form.isImmediate
  | .addr, o => o.form.encodable && o.form.isMemory && o.etype.isNone
  | .regName, o =>
    o.etype.isNone && match o.form with
      | .reg r => r != 15 && decide (3 ≤ r)
      | _ => false
  | .memModify, o => o.form.encodable && o.form.isMemory
  | .ignored, o => o.form.encodable

/-- Every general operand has an encoding. -/
def Field.encodable : Field → Bool
  | .g _ o => o.form.encodable
  | _ => true

/-- Every general operand is legal in its class. -/
def Field.wellFormed : Field → Bool
  | .g c o => o.legalFor c
  | _ => true

/-- Every operand of the instruction has an encoding. -/
def Instr.encodable (i : Instr) : Bool :=
  i.fields.all Field.encodable

/-- Every operand of the instruction is legal in its class (hence has an encoding). -/
def Instr.wellFormed (i : Instr) : Bool :=
  i.fields.all Field.wellFormed

end Sys2Proof
end

