-- ==== Sys2Proof/Decode.lean ====
section
/-! DEFINITION. The decoder and the encoder (30_encoding.md, 40_addressing_modes.md R403). `decode` is total on any
bytes and rejects by name; the opcode tables are R340 and R342 row by row. -/

namespace Sys2Proof

/-- Why the decoder rejects an instruction. -/
inductive DecodeWhy where
  /-- The bytes end before the instruction does: the next byte could not be fetched (BusFault, R230, R345). -/
  | truncated
  /-- An opcode that is not in the map (IllegalInstruction, R341). -/
  | undefinedOpcode
  /-- A descriptor that is invalid (InvalidDescriptor, R320, R322, R411). -/
  | invalidDescriptor
  /-- A refused opcode whose operand bytes are no operands: they are never decoded when it is executed, so the refusal
  itself is raised (R720, R755, R756); privileged for MOVTRW. -/
  | refusedOpcode (privileged : Bool)
  deriving DecidableEq, Repr

/-- A rejection: why, and the bytes not yet fetched when it was found. -/
abbrev DecodeStop := DecodeWhy × List Byte

/-- A rejection of a whole instruction: also the mnemonic, where the opcode was identified (R132). -/
structure DecodeError where
  why : DecodeWhy
  mnemonic : Option String
  rest : List Byte
  deriving DecidableEq, Repr

/-- The operand check of R411 that decoding and executing use. -/
def operandOk (c : OpClass) (o : Operand) : Bool :=
  o.legalFor c

/-! ## Raw fields: little-endian in the instruction stream (20_memory.md R232) -/

/-- A halfword from its stream bytes, the first one least significant (R232). -/
def halfOfStream (b0 b1 : Byte) : Half :=
  b1 ++ b0

/-- A word from its stream bytes, the first one least significant (R232). -/
def wordOfStream (b0 b1 b2 b3 : Byte) : Word :=
  b3 ++ b2 ++ b1 ++ b0

/-- The stream bytes of a halfword (R232). -/
def streamOfHalf (h : Half) : List Byte :=
  [h.extractLsb' 0 8, h.extractLsb' 8 8]

/-- The stream bytes of a word (R232). -/
def streamOfWord (w : Word) : List Byte :=
  [w.extractLsb' 0 8, w.extractLsb' 8 8, w.extractLsb' 16 8, w.extractLsb' 24 8]

/-- Fetch a byte and go on. -/
def take8 {α : Type} (bs : List Byte) (k : Byte → List Byte → Except DecodeStop α) : Except DecodeStop α :=
  match bs with
  | b :: rest => k b rest
  | [] => .error (.truncated, [])

/-- Fetch two bytes as a halfword and go on. -/
def take16 {α : Type} (bs : List Byte) (k : Half → List Byte → Except DecodeStop α) : Except DecodeStop α :=
  match bs with
  | b0 :: b1 :: rest => k (halfOfStream b0 b1) rest
  | _ => .error (.truncated, [])

/-- Fetch four bytes as a word and go on. -/
def take32 {α : Type} (bs : List Byte) (k : Word → List Byte → Except DecodeStop α) : Except DecodeStop α :=
  match bs with
  | b0 :: b1 :: b2 :: b3 :: rest => k (wordOfStream b0 b1 b2 b3) rest
  | _ => .error (.truncated, [])

/-! ## Operands -/

/-- The register field `d[3:0]` of a descriptor (R310). -/
def descReg (d : Byte) : RegNum :=
  Fin.ofNat 16 d.toNat

/-- The expanded-type descriptors of R320. -/
def etypeOf (d : Byte) : Option EType :=
  match d.toNat with
  | 0xE0 => some .uword
  | 0xE2 => some .uhalf
  | 0xE3 => some .ubyte
  | 0xE4 => some .sword
  | 0xE6 => some .shalf
  | 0xE7 => some .sbyte
  | _ => none

/-- A displacement form's register: 11 (PSW) is invalid (R320). -/
def dispReg {α : Type} (d : Byte) (rest : List Byte) (k : RegNum → Except DecodeStop α) : Except DecodeStop α :=
  if descReg d = 11 then .error (.invalidDescriptor, rest) else k (descReg d)

/-- The descriptor table of R320, by mode field `d[7:4]`, for a descriptor that is not an expanded type. -/
def decodeForm (d : Byte) (rest : List Byte) : Except DecodeStop (Form × List Byte) :=
  let r := descReg d
  match d.toNat / 16 with
  | 0 | 1 | 2 | 3 => .ok (.posLit (Fin.ofNat 64 d.toNat), rest)
  | 4 => if r = 15 then take32 rest fun v rest => .ok (.wordImm v, rest) else .ok (.reg r, rest)
  | 5 =>
    if r = 15 then take16 rest fun v rest => .ok (.halfImm v, rest)
    else if r = 11 then .error (.invalidDescriptor, rest)
    else .ok (.regDef r, rest)
  | 6 =>
    if h : r.val < 15 then .ok (.fpShort ⟨r.val, h⟩, rest)
    else take8 rest fun v rest => .ok (.byteImm v, rest)
  | 7 =>
    if h : r.val < 15 then .ok (.apShort ⟨r.val, h⟩, rest)
    else take32 rest fun a rest => .ok (.absolute a, rest)
  | 8 => dispReg d rest fun r => take32 rest fun v rest => .ok (.wordDisp r v, rest)
  | 9 => dispReg d rest fun r => take32 rest fun v rest => .ok (.wordDispDef r v, rest)
  | 10 => dispReg d rest fun r => take16 rest fun v rest => .ok (.halfDisp r v, rest)
  | 11 => dispReg d rest fun r => take16 rest fun v rest => .ok (.halfDispDef r v, rest)
  | 12 => dispReg d rest fun r => take8 rest fun v rest => .ok (.byteDisp r v, rest)
  | 13 => dispReg d rest fun r => take8 rest fun v rest => .ok (.byteDispDef r v, rest)
  | 14 => if r = 15 then take32 rest fun a rest => .ok (.absDef a, rest) else .error (.invalidDescriptor, rest)
  | _ => .ok (.negLit r, rest)

/-- R403, R322: an operand, an expanded type before it; two expanded types in a row are invalid. -/
def decodeOperand (bs : List Byte) : Except DecodeStop (Operand × List Byte) :=
  match bs with
  | [] => .error (.truncated, [])
  | d :: rest =>
    match etypeOf d with
    | none =>
      match decodeForm d rest with
      | .ok (f, rest) => .ok (⟨none, f⟩, rest)
      | .error e => .error e
    | some t =>
      match rest with
      | [] => .error (.truncated, [])
      | d' :: rest' =>
        match etypeOf d' with
        | some _ => .error (.invalidDescriptor, rest')
        | none =>
          match decodeForm d' rest' with
          | .ok (f, rest) => .ok (⟨some t, f⟩, rest)
          | .error e => .error e

/-- Decode an operand of class `c` and go on. R411 is checked at the operand, so an illegal one is reported before a
fault that a later byte causes (log entry 5); where every byte is there, the instruction is answered and its meaning
raises InvalidDescriptor. -/
def decodeNext {α : Type} (c : OpClass) (bs : List Byte) (k : Operand → List Byte → Except DecodeStop α) :
    Except DecodeStop α :=
  match decodeOperand bs with
  | .error e => .error e
  | .ok (o, rest) =>
    match k o rest with
    | .ok r => .ok r
    | .error e => if operandOk c o then .error e else .error (.invalidDescriptor, rest)

/-! ## The opcode tables -/

/-- The operand fields that follow an opcode (R302, R340) and the constructor they give. -/
inductive Build where
  | op0 (i : Instr)
  | g1 (c : OpClass) (f : Operand → Instr)
  | g2 (c₁ c₂ : OpClass) (f : Operand → Operand → Instr)
  | g3 (c₁ c₂ c₃ : OpClass) (f : Operand → Operand → Operand → Instr)
  | g4 (c₁ c₂ c₃ c₄ : OpClass) (f : Operand → Operand → Operand → Operand → Instr)
  | d8 (f : Byte → Instr)
  | d16 (f : Half → Instr)
  /-- MOVTRW: privileged and refused, operands not decoded when executed (R755). -/
  | movtr (f : Operand → Operand → Instr)
  /-- The SPOP* formats: refused, operands not decoded when executed (R756). -/
  | spop0 (f : Word → Instr)
  | spop1 (f : Word → Operand → Instr)
  | spop2 (f : Word → Operand → Operand → Instr)

/-- A row of an opcode map: the opcode's (last) byte, the mnemonic, and what follows. -/
structure OpRow where
  code : Byte
  mnemonic : String
  build : Build

/-- R340, row 0 of the one-byte map. -/
def opRows0 : List OpRow :=
  [⟨0x00, "HALT", .op0 .halt⟩,
   ⟨0x02, "SPOPRD", .spop1 .spoprd⟩,
   ⟨0x03, "SPOPD2", .spop2 .spopd2⟩,
   ⟨0x04, "MOVAW", .g2 .addr .write .movaw⟩,
   ⟨0x06, "SPOPRT", .spop1 .spoprt⟩,
   ⟨0x07, "SPOPT2", .spop2 .spopt2⟩,
   ⟨0x08, "RET", .op0 .ret⟩,
   ⟨0x0C, "MOVTRW", .movtr .movtrw⟩]

/-- R340, row 1 of the one-byte map. -/
def opRows1 : List OpRow :=
  [⟨0x10, "SAVE", .g1 .regName .save⟩,
   ⟨0x13, "SPOPWD", .spop1 .spopwd⟩,
   ⟨0x14, "EXTOP", .op0 .extop⟩,
   ⟨0x17, "SPOPWT", .spop1 .spopwt⟩,
   ⟨0x18, "RESTORE", .g1 .regName .restore⟩,
   ⟨0x1C, "SWAPWI", .g1 .memModify .swapwi⟩,
   ⟨0x1E, "SWAPHI", .g1 .memModify .swaphi⟩,
   ⟨0x1F, "SWAPBI", .g1 .memModify .swapbi⟩]

/-- R340, row 2 of the one-byte map. -/
def opRows2 : List OpRow :=
  [⟨0x20, "POPW", .g1 .write .popw⟩,
   ⟨0x22, "SPOPRS", .spop1 .spoprs⟩,
   ⟨0x23, "SPOPS2", .spop2 .spops2⟩,
   ⟨0x24, "JMP", .g1 .addr .jmp⟩,
   ⟨0x27, "CFLUSH", .op0 .cflush⟩,
   ⟨0x28, "TSTW", .g1 .read .tstw⟩,
   ⟨0x2A, "TSTH", .g1 .read .tsth⟩,
   ⟨0x2B, "TSTB", .g1 .read .tstb⟩,
   ⟨0x2C, "CALL", .g2 .addr .addr .call⟩,
   ⟨0x2E, "BPT", .op0 .bpt⟩,
   ⟨0x2F, "WAIT", .op0 .wait⟩]

/-- R340, row 3 of the one-byte map. -/
def opRows3 : List OpRow :=
  [⟨0x32, "SPOP", .spop0 .spop⟩,
   ⟨0x33, "SPOPWS", .spop1 .spopws⟩,
   ⟨0x34, "JSB", .g1 .addr .jsb⟩,
   ⟨0x36, "BSBH", .d16 .bsbh⟩,
   ⟨0x37, "BSBB", .d8 .bsbb⟩,
   ⟨0x38, "BITW", .g2 .read .read .bitw⟩,
   ⟨0x3A, "BITH", .g2 .read .read .bith⟩,
   ⟨0x3B, "BITB", .g2 .read .read .bitb⟩,
   ⟨0x3C, "CMPW", .g2 .read .read .cmpw⟩,
   ⟨0x3E, "CMPH", .g2 .read .read .cmph⟩,
   ⟨0x3F, "CMPB", .g2 .read .read .cmpb⟩]

/-- R340, row 4 of the one-byte map. -/
def opRows4 : List OpRow :=
  [⟨0x40, "RGEQ", .op0 .rgeq⟩,
   ⟨0x42, "BGEH", .d16 .bgeh⟩,
   ⟨0x43, "BGEB", .d8 .bgeb⟩,
   ⟨0x44, "RGTR", .op0 .rgtr⟩,
   ⟨0x46, "BGH", .d16 .bgh⟩,
   ⟨0x47, "BGB", .d8 .bgb⟩,
   ⟨0x48, "RLSS", .op0 .rlss⟩,
   ⟨0x4A, "BLH", .d16 .blh⟩,
   ⟨0x4B, "BLB", .d8 .blb⟩,
   ⟨0x4C, "RLEQ", .op0 .rleq⟩,
   ⟨0x4E, "BLEH", .d16 .bleh⟩,
   ⟨0x4F, "BLEB", .d8 .bleb⟩]

/-- R340, row 5 of the one-byte map. -/
def opRows5 : List OpRow :=
  [⟨0x50, "RGEQU", .op0 .rgequ⟩,
   ⟨0x52, "BGEUH", .d16 .bgeuh⟩,
   ⟨0x53, "BGEUB", .d8 .bgeub⟩,
   ⟨0x54, "RGTRU", .op0 .rgtru⟩,
   ⟨0x56, "BGUH", .d16 .bguh⟩,
   ⟨0x57, "BGUB", .d8 .bgub⟩,
   ⟨0x58, "RLSSU", .op0 .rlssu⟩,
   ⟨0x5A, "BLUH", .d16 .bluh⟩,
   ⟨0x5B, "BLUB", .d8 .blub⟩,
   ⟨0x5C, "RLEQU", .op0 .rlequ⟩,
   ⟨0x5E, "BLEUH", .d16 .bleuh⟩,
   ⟨0x5F, "BLEUB", .d8 .bleub⟩]

/-- R340, row 6 of the one-byte map. -/
def opRows6 : List OpRow :=
  [⟨0x60, "RVC", .op0 .rvc⟩,
   ⟨0x62, "BVCH", .d16 .bvch⟩,
   ⟨0x63, "BVCB", .d8 .bvcb⟩,
   ⟨0x64, "RNEQU", .op0 .rnequ⟩,
   ⟨0x66, "BNEUH", .d16 .bneuh⟩,
   ⟨0x67, "BNEUB", .d8 .bneub⟩,
   ⟨0x68, "RVS", .op0 .rvs⟩,
   ⟨0x6A, "BVSH", .d16 .bvsh⟩,
   ⟨0x6B, "BVSB", .d8 .bvsb⟩,
   ⟨0x6C, "REQLU", .op0 .reqlu⟩,
   ⟨0x6E, "BEUH", .d16 .beuh⟩,
   ⟨0x6F, "BEUB", .d8 .beub⟩]

/-- R340, row 7 of the one-byte map. -/
def opRows7 : List OpRow :=
  [⟨0x70, "NOP", .op0 .nop⟩,
   ⟨0x72, "NOP3", .d16 .nop3⟩,
   ⟨0x73, "NOP2", .d8 .nop2⟩,
   ⟨0x74, "RNEQ", .op0 .rneq⟩,
   ⟨0x76, "BNEH", .d16 .bneh⟩,
   ⟨0x77, "BNEB", .d8 .bneb⟩,
   ⟨0x78, "RSB", .op0 .rsb⟩,
   ⟨0x7A, "BRH", .d16 .brh⟩,
   ⟨0x7B, "BRB", .d8 .brb⟩,
   ⟨0x7C, "REQL", .op0 .reql⟩,
   ⟨0x7E, "BEH", .d16 .beh⟩,
   ⟨0x7F, "BEB", .d8 .beb⟩]

/-- R340, row 8 of the one-byte map. -/
def opRows8 : List OpRow :=
  [⟨0x80, "CLRW", .g1 .write .clrw⟩,
   ⟨0x82, "CLRH", .g1 .write .clrh⟩,
   ⟨0x83, "CLRB", .g1 .write .clrb⟩,
   ⟨0x84, "MOVW", .g2 .read .write .movw⟩,
   ⟨0x86, "MOVH", .g2 .read .write .movh⟩,
   ⟨0x87, "MOVB", .g2 .read .write .movb⟩,
   ⟨0x88, "MCOMW", .g2 .read .write .mcomw⟩,
   ⟨0x8A, "MCOMH", .g2 .read .write .mcomh⟩,
   ⟨0x8B, "MCOMB", .g2 .read .write .mcomb⟩,
   ⟨0x8C, "MNEGW", .g2 .read .write .mnegw⟩,
   ⟨0x8E, "MNEGH", .g2 .read .write .mnegh⟩,
   ⟨0x8F, "MNEGB", .g2 .read .write .mnegb⟩]

/-- R340, row 9 of the one-byte map. -/
def opRows9 : List OpRow :=
  [⟨0x90, "INCW", .g1 .modify .incw⟩,
   ⟨0x92, "INCH", .g1 .modify .inch⟩,
   ⟨0x93, "INCB", .g1 .modify .incb⟩,
   ⟨0x94, "DECW", .g1 .modify .decw⟩,
   ⟨0x96, "DECH", .g1 .modify .dech⟩,
   ⟨0x97, "DECB", .g1 .modify .decb⟩,
   ⟨0x9C, "ADDW2", .g2 .read .modify .addw2⟩,
   ⟨0x9E, "ADDH2", .g2 .read .modify .addh2⟩,
   ⟨0x9F, "ADDB2", .g2 .read .modify .addb2⟩]

/-- R340, row A of the one-byte map. -/
def opRowsA : List OpRow :=
  [⟨0xA0, "PUSHW", .g1 .read .pushw⟩,
   ⟨0xA4, "MODW2", .g2 .read .modify .modw2⟩,
   ⟨0xA6, "MODH2", .g2 .read .modify .modh2⟩,
   ⟨0xA7, "MODB2", .g2 .read .modify .modb2⟩,
   ⟨0xA8, "MULW2", .g2 .read .modify .mulw2⟩,
   ⟨0xAA, "MULH2", .g2 .read .modify .mulh2⟩,
   ⟨0xAB, "MULB2", .g2 .read .modify .mulb2⟩,
   ⟨0xAC, "DIVW2", .g2 .read .modify .divw2⟩,
   ⟨0xAE, "DIVH2", .g2 .read .modify .divh2⟩,
   ⟨0xAF, "DIVB2", .g2 .read .modify .divb2⟩]

/-- R340, row B of the one-byte map. -/
def opRowsB : List OpRow :=
  [⟨0xB0, "ORW2", .g2 .read .modify .orw2⟩,
   ⟨0xB2, "ORH2", .g2 .read .modify .orh2⟩,
   ⟨0xB3, "ORB2", .g2 .read .modify .orb2⟩,
   ⟨0xB4, "XORW2", .g2 .read .modify .xorw2⟩,
   ⟨0xB6, "XORH2", .g2 .read .modify .xorh2⟩,
   ⟨0xB7, "XORB2", .g2 .read .modify .xorb2⟩,
   ⟨0xB8, "ANDW2", .g2 .read .modify .andw2⟩,
   ⟨0xBA, "ANDH2", .g2 .read .modify .andh2⟩,
   ⟨0xBB, "ANDB2", .g2 .read .modify .andb2⟩,
   ⟨0xBC, "SUBW2", .g2 .read .modify .subw2⟩,
   ⟨0xBE, "SUBH2", .g2 .read .modify .subh2⟩,
   ⟨0xBF, "SUBB2", .g2 .read .modify .subb2⟩]

/-- R340, row C of the one-byte map. -/
def opRowsC : List OpRow :=
  [⟨0xC0, "ALSW3", .g3 .read .read .write .alsw3⟩,
   ⟨0xC4, "ARSW3", .g3 .read .read .write .arsw3⟩,
   ⟨0xC6, "ARSH3", .g3 .read .read .write .arsh3⟩,
   ⟨0xC7, "ARSB3", .g3 .read .read .write .arsb3⟩,
   ⟨0xC8, "INSFW", .g4 .read .read .read .modify .insfw⟩,
   ⟨0xCA, "INSFH", .g4 .read .read .read .modify .insfh⟩,
   ⟨0xCB, "INSFB", .g4 .read .read .read .modify .insfb⟩,
   ⟨0xCC, "EXTFW", .g4 .read .read .read .write .extfw⟩,
   ⟨0xCE, "EXTFH", .g4 .read .read .read .write .extfh⟩,
   ⟨0xCF, "EXTFB", .g4 .read .read .read .write .extfb⟩]

/-- R340, row D of the one-byte map. -/
def opRowsD : List OpRow :=
  [⟨0xD0, "LLSW3", .g3 .read .read .write .llsw3⟩,
   ⟨0xD2, "LLSH3", .g3 .read .read .write .llsh3⟩,
   ⟨0xD3, "LLSB3", .g3 .read .read .write .llsb3⟩,
   ⟨0xD4, "LRSW3", .g3 .read .read .write .lrsw3⟩,
   ⟨0xD8, "ROTW", .g3 .read .read .write .rotw⟩,
   ⟨0xDC, "ADDW3", .g3 .read .read .write .addw3⟩,
   ⟨0xDE, "ADDH3", .g3 .read .read .write .addh3⟩,
   ⟨0xDF, "ADDB3", .g3 .read .read .write .addb3⟩]

/-- R340, row E of the one-byte map. -/
def opRowsE : List OpRow :=
  [⟨0xE0, "PUSHAW", .g1 .addr .pushaw⟩,
   ⟨0xE4, "MODW3", .g3 .read .read .write .modw3⟩,
   ⟨0xE6, "MODH3", .g3 .read .read .write .modh3⟩,
   ⟨0xE7, "MODB3", .g3 .read .read .write .modb3⟩,
   ⟨0xE8, "MULW3", .g3 .read .read .write .mulw3⟩,
   ⟨0xEA, "MULH3", .g3 .read .read .write .mulh3⟩,
   ⟨0xEB, "MULB3", .g3 .read .read .write .mulb3⟩,
   ⟨0xEC, "DIVW3", .g3 .read .read .write .divw3⟩,
   ⟨0xEE, "DIVH3", .g3 .read .read .write .divh3⟩,
   ⟨0xEF, "DIVB3", .g3 .read .read .write .divb3⟩]

/-- R340, row F of the one-byte map. -/
def opRowsF : List OpRow :=
  [⟨0xF0, "ORW3", .g3 .read .read .write .orw3⟩,
   ⟨0xF2, "ORH3", .g3 .read .read .write .orh3⟩,
   ⟨0xF3, "ORB3", .g3 .read .read .write .orb3⟩,
   ⟨0xF4, "XORW3", .g3 .read .read .write .xorw3⟩,
   ⟨0xF6, "XORH3", .g3 .read .read .write .xorh3⟩,
   ⟨0xF7, "XORB3", .g3 .read .read .write .xorb3⟩,
   ⟨0xF8, "ANDW3", .g3 .read .read .write .andw3⟩,
   ⟨0xFA, "ANDH3", .g3 .read .read .write .andh3⟩,
   ⟨0xFB, "ANDB3", .g3 .read .read .write .andb3⟩,
   ⟨0xFC, "SUBW3", .g3 .read .read .write .subw3⟩,
   ⟨0xFE, "SUBH3", .g3 .read .read .write .subh3⟩,
   ⟨0xFF, "SUBB3", .g3 .read .read .write .subb3⟩]

/-- The one-byte opcode map (R340). -/
def oneByteRows : List OpRow :=
  opRows0 ++ opRows1 ++ opRows2 ++ opRows3 ++ opRows4 ++ opRows5 ++ opRows6 ++ opRows7 ++
    opRows8 ++ opRows9 ++ opRowsA ++ opRowsB ++ opRowsC ++ opRowsD ++ opRowsE ++ opRowsF

/-- The two-byte opcode map: the byte after 0x30 (R342). -/
def twoByteRows : List OpRow :=
  [⟨0x09, "MVERNO", .op0 .mverno⟩,
   ⟨0x0D, "ENBVJMP", .op0 .enbvjmp⟩,
   ⟨0x13, "DISVJMP", .op0 .disvjmp⟩,
   ⟨0x19, "MOVBLW", .op0 .movblw⟩,
   ⟨0x1F, "STREND", .op0 .strend⟩,
   ⟨0x2F, "INTACK", .op0 .intack⟩,
   ⟨0x35, "STRCPY", .op0 .strcpy⟩,
   ⟨0x45, "RETG", .op0 .retg⟩,
   ⟨0x61, "GATE", .op0 .gate⟩,
   ⟨0xAC, "CALLPS", .op0 .callps⟩,
   ⟨0xC8, "RETPS", .op0 .retps⟩]

/-- The row of a map with this opcode byte. -/
def findRow (rows : List OpRow) (b : Byte) : Option OpRow :=
  rows.find? fun r => r.code == b

/-! ## The decoder -/

/-- A refused opcode's operand bytes are never decoded when it is executed: whatever they are, the refusal is raised
(R720 item 2). -/
def orRefused {α : Type} (privileged : Bool) (bs : List Byte) (x : Except DecodeStop α) : Except DecodeStop α :=
  match x with
  | .ok r => .ok r
  | .error _ => .error (.refusedOpcode privileged, bs)

/-- Decode the operand fields that follow an opcode, in order (R345). -/
def decodeFields (b : Build) (bs : List Byte) : Except DecodeStop (Instr × List Byte) :=
  match b with
  | .op0 i => .ok (i, bs)
  | .g1 c f => decodeNext c bs fun o bs => .ok (f o, bs)
  | .g2 c₁ c₂ f =>
    decodeNext c₁ bs fun o₁ bs => decodeNext c₂ bs fun o₂ bs => .ok (f o₁ o₂, bs)
  | .g3 c₁ c₂ c₃ f =>
    decodeNext c₁ bs fun o₁ bs => decodeNext c₂ bs fun o₂ bs => decodeNext c₃ bs fun o₃ bs => .ok (f o₁ o₂ o₃, bs)
  | .g4 c₁ c₂ c₃ c₄ f =>
    decodeNext c₁ bs fun o₁ bs => decodeNext c₂ bs fun o₂ bs => decodeNext c₃ bs fun o₃ bs =>
      decodeNext c₄ bs fun o₄ bs => .ok (f o₁ o₂ o₃ o₄, bs)
  | .d8 f => take8 bs fun b bs => .ok (f b, bs)
  | .d16 f => take16 bs fun h bs => .ok (f h, bs)
  | .movtr f =>
    orRefused true bs (decodeNext .ignored bs fun o₁ bs => decodeNext .ignored bs fun o₂ bs => .ok (f o₁ o₂, bs))
  | .spop0 f => orRefused false bs (take32 bs fun w bs => .ok (f w, bs))
  | .spop1 f =>
    orRefused false bs (take32 bs fun w bs => decodeNext .ignored bs fun o₁ bs => .ok (f w o₁, bs))
  | .spop2 f =>
    orRefused false bs (take32 bs fun w bs => decodeNext .ignored bs fun o₁ bs =>
      decodeNext .ignored bs fun o₂ bs => .ok (f w o₁ o₂, bs))

/-- Decode after the opcode byte or bytes: the row, or an undefined opcode (R341). -/
def decodeRow (row : Option OpRow) (bs : List Byte) : Except DecodeError (Instr × List Byte) :=
  match row with
  | none => .error ⟨.undefinedOpcode, none, bs⟩
  | some r =>
    match decodeFields r.build bs with
    | .ok x => .ok x
    | .error (why, rest) => .error ⟨why, some r.mnemonic, rest⟩

/-- R300, R301, R345: the instruction at the head of the bytes and the bytes after it. -/
def decode (bs : List Byte) : Except DecodeError (Instr × List Byte) :=
  match bs with
  | [] => .error ⟨.truncated, none, []⟩
  | b :: rest =>
    if b = 0x30#8 then
      match rest with
      | [] => .error ⟨.truncated, none, []⟩
      | b₂ :: rest₂ => decodeRow (findRow twoByteRows b₂) rest₂
    else decodeRow (findRow oneByteRows b) rest

/-! ## The encoder -/

/-- The opcode bytes of an instruction (R340, R342). -/
def Instr.opcode : Instr → List Byte
  | .movw _ _ => [0x84]
  | .movh _ _ => [0x86]
  | .movb _ _ => [0x87]
  | .movaw _ _ => [0x04]
  | .clrw _ => [0x80]
  | .clrh _ => [0x82]
  | .clrb _ => [0x83]
  | .pushw _ => [0xA0]
  | .pushaw _ => [0xE0]
  | .popw _ => [0x20]
  | .swapwi _ => [0x1C]
  | .swaphi _ => [0x1E]
  | .swapbi _ => [0x1F]
  | .addw2 _ _ => [0x9C]
  | .addh2 _ _ => [0x9E]
  | .addb2 _ _ => [0x9F]
  | .addw3 _ _ _ => [0xDC]
  | .addh3 _ _ _ => [0xDE]
  | .addb3 _ _ _ => [0xDF]
  | .subw2 _ _ => [0xBC]
  | .subh2 _ _ => [0xBE]
  | .subb2 _ _ => [0xBF]
  | .subw3 _ _ _ => [0xFC]
  | .subh3 _ _ _ => [0xFE]
  | .subb3 _ _ _ => [0xFF]
  | .mulw2 _ _ => [0xA8]
  | .mulh2 _ _ => [0xAA]
  | .mulb2 _ _ => [0xAB]
  | .mulw3 _ _ _ => [0xE8]
  | .mulh3 _ _ _ => [0xEA]
  | .mulb3 _ _ _ => [0xEB]
  | .divw2 _ _ => [0xAC]
  | .divh2 _ _ => [0xAE]
  | .divb2 _ _ => [0xAF]
  | .divw3 _ _ _ => [0xEC]
  | .divh3 _ _ _ => [0xEE]
  | .divb3 _ _ _ => [0xEF]
  | .modw2 _ _ => [0xA4]
  | .modh2 _ _ => [0xA6]
  | .modb2 _ _ => [0xA7]
  | .modw3 _ _ _ => [0xE4]
  | .modh3 _ _ _ => [0xE6]
  | .modb3 _ _ _ => [0xE7]
  | .incw _ => [0x90]
  | .inch _ => [0x92]
  | .incb _ => [0x93]
  | .decw _ => [0x94]
  | .dech _ => [0x96]
  | .decb _ => [0x97]
  | .mnegw _ _ => [0x8C]
  | .mnegh _ _ => [0x8E]
  | .mnegb _ _ => [0x8F]
  | .andw2 _ _ => [0xB8]
  | .andh2 _ _ => [0xBA]
  | .andb2 _ _ => [0xBB]
  | .andw3 _ _ _ => [0xF8]
  | .andh3 _ _ _ => [0xFA]
  | .andb3 _ _ _ => [0xFB]
  | .orw2 _ _ => [0xB0]
  | .orh2 _ _ => [0xB2]
  | .orb2 _ _ => [0xB3]
  | .orw3 _ _ _ => [0xF0]
  | .orh3 _ _ _ => [0xF2]
  | .orb3 _ _ _ => [0xF3]
  | .xorw2 _ _ => [0xB4]
  | .xorh2 _ _ => [0xB6]
  | .xorb2 _ _ => [0xB7]
  | .xorw3 _ _ _ => [0xF4]
  | .xorh3 _ _ _ => [0xF6]
  | .xorb3 _ _ _ => [0xF7]
  | .mcomw _ _ => [0x88]
  | .mcomh _ _ => [0x8A]
  | .mcomb _ _ => [0x8B]
  | .alsw3 _ _ _ => [0xC0]
  | .arsw3 _ _ _ => [0xC4]
  | .arsh3 _ _ _ => [0xC6]
  | .arsb3 _ _ _ => [0xC7]
  | .llsw3 _ _ _ => [0xD0]
  | .llsh3 _ _ _ => [0xD2]
  | .llsb3 _ _ _ => [0xD3]
  | .lrsw3 _ _ _ => [0xD4]
  | .rotw _ _ _ => [0xD8]
  | .insfw _ _ _ _ => [0xC8]
  | .insfh _ _ _ _ => [0xCA]
  | .insfb _ _ _ _ => [0xCB]
  | .extfw _ _ _ _ => [0xCC]
  | .extfh _ _ _ _ => [0xCE]
  | .extfb _ _ _ _ => [0xCF]
  | .cmpw _ _ => [0x3C]
  | .cmph _ _ => [0x3E]
  | .cmpb _ _ => [0x3F]
  | .tstw _ => [0x28]
  | .tsth _ => [0x2A]
  | .tstb _ => [0x2B]
  | .bitw _ _ => [0x38]
  | .bith _ _ => [0x3A]
  | .bitb _ _ => [0x3B]
  | .brb _ => [0x7B]
  | .brh _ => [0x7A]
  | .bgeb _ => [0x43]
  | .bgeh _ => [0x42]
  | .bgb _ => [0x47]
  | .bgh _ => [0x46]
  | .blb _ => [0x4B]
  | .blh _ => [0x4A]
  | .bleb _ => [0x4F]
  | .bleh _ => [0x4E]
  | .bgeub _ => [0x53]
  | .bgeuh _ => [0x52]
  | .bgub _ => [0x57]
  | .bguh _ => [0x56]
  | .blub _ => [0x5B]
  | .bluh _ => [0x5A]
  | .bleub _ => [0x5F]
  | .bleuh _ => [0x5E]
  | .bvcb _ => [0x63]
  | .bvch _ => [0x62]
  | .bneub _ => [0x67]
  | .bneuh _ => [0x66]
  | .bvsb _ => [0x6B]
  | .bvsh _ => [0x6A]
  | .beub _ => [0x6F]
  | .beuh _ => [0x6E]
  | .bneb _ => [0x77]
  | .bneh _ => [0x76]
  | .beb _ => [0x7F]
  | .beh _ => [0x7E]
  | .rgeq => [0x40]
  | .rgtr => [0x44]
  | .rlss => [0x48]
  | .rleq => [0x4C]
  | .rgequ => [0x50]
  | .rgtru => [0x54]
  | .rlssu => [0x58]
  | .rlequ => [0x5C]
  | .rvc => [0x60]
  | .rnequ => [0x64]
  | .rvs => [0x68]
  | .reqlu => [0x6C]
  | .rneq => [0x74]
  | .reql => [0x7C]
  | .jmp _ => [0x24]
  | .call _ _ => [0x2C]
  | .ret => [0x08]
  | .save _ => [0x10]
  | .restore _ => [0x18]
  | .jsb _ => [0x34]
  | .rsb => [0x78]
  | .bsbb _ => [0x37]
  | .bsbh _ => [0x36]
  | .movblw => [0x30, 0x19]
  | .strcpy => [0x30, 0x35]
  | .strend => [0x30, 0x1F]
  | .halt => [0x00]
  | .nop => [0x70]
  | .nop2 _ => [0x73]
  | .nop3 _ => [0x72]
  | .bpt => [0x2E]
  | .extop => [0x14]
  | .mverno => [0x30, 0x09]
  | .gate => [0x30, 0x61]
  | .retg => [0x30, 0x45]
  | .wait => [0x2F]
  | .cflush => [0x27]
  | .intack => [0x30, 0x2F]
  | .callps => [0x30, 0xAC]
  | .retps => [0x30, 0xC8]
  | .enbvjmp => [0x30, 0x0D]
  | .disvjmp => [0x30, 0x13]
  | .movtrw _ _ => [0x0C]
  | .spop _ => [0x32]
  | .spoprs _ _ => [0x22]
  | .spoprd _ _ => [0x02]
  | .spoprt _ _ => [0x06]
  | .spops2 _ _ _ => [0x23]
  | .spopd2 _ _ _ => [0x03]
  | .spopt2 _ _ _ => [0x07]
  | .spopws _ _ => [0x33]
  | .spopwd _ _ => [0x13]
  | .spopwt _ _ => [0x17]

/-- The descriptor byte with this mode and register field (R310). -/
def descByte (mode : Nat) (r : RegNum) : Byte :=
  BitVec.ofNat 8 (mode * 16 + r.val)

/-- The expanded-type descriptor (R320). -/
def encodeEType : EType → Byte
  | .uword => 0xE0
  | .uhalf => 0xE2
  | .ubyte => 0xE3
  | .sword => 0xE4
  | .shalf => 0xE6
  | .sbyte => 0xE7

/-- The descriptor and extension bytes of a form (R320). -/
def encodeForm : Form → List Byte
  | .posLit v => [BitVec.ofNat 8 v.val]
  | .negLit k => [descByte 15 k]
  | .reg r => [descByte 4 r]
  | .wordImm v => 0x4F :: streamOfWord v
  | .halfImm v => 0x5F :: streamOfHalf v
  | .byteImm v => [0x6F, v]
  | .regDef r => [descByte 5 r]
  | .fpShort k => [descByte 6 (k.castSucc)]
  | .apShort k => [descByte 7 (k.castSucc)]
  | .absolute a => 0x7F :: streamOfWord a
  | .absDef a => 0xEF :: streamOfWord a
  | .wordDisp r d => descByte 8 r :: streamOfWord d
  | .wordDispDef r d => descByte 9 r :: streamOfWord d
  | .halfDisp r d => descByte 10 r :: streamOfHalf d
  | .halfDispDef r d => descByte 11 r :: streamOfHalf d
  | .byteDisp r d => [descByte 12 r, d]
  | .byteDispDef r d => [descByte 13 r, d]

/-- The bytes of a general operand: its expanded type, if any, before it (R322). -/
def encodeOperand (o : Operand) : List Byte :=
  match o.etype with
  | none => encodeForm o.form
  | some t => encodeEType t :: encodeForm o.form

/-- The bytes of an operand field (R302). -/
def encodeField : Field → List Byte
  | .g _ o => encodeOperand o
  | .raw8 b => [b]
  | .raw16 h => streamOfHalf h
  | .raw32 w => streamOfWord w

/-- The bytes of an instruction: opcode, then every operand field in order (R300). -/
def encode (i : Instr) : List Byte :=
  i.opcode ++ i.fields.flatMap encodeField

/-! ## Lengths and names -/

/-- Length of a form's field: the descriptor and its extension bytes (R321). -/
def Form.len : Form → Nat
  | .posLit _ | .negLit _ | .reg _ | .regDef _ | .fpShort _ | .apShort _ => 1
  | .byteImm _ | .byteDisp _ _ | .byteDispDef _ _ => 2
  | .halfImm _ | .halfDisp _ _ | .halfDispDef _ _ => 3
  | .wordImm _ | .wordDisp _ _ | .wordDispDef _ _ | .absolute _ | .absDef _ => 5

/-- Length of a general operand's field: an expanded type adds 1 byte (R321). -/
def Operand.len (o : Operand) : Nat :=
  match o.etype with
  | none => o.form.len
  | some _ => o.form.len + 1

/-- Length of an operand field (R345). -/
def Field.len : Field → Nat
  | .g _ o => o.len
  | .raw8 _ => 1
  | .raw16 _ => 2
  | .raw32 _ => 4

/-- Total encoded length of an instruction in bytes (R300, R345). -/
def Instr.length (i : Instr) : Nat :=
  i.opcode.length + (i.fields.map Field.len).sum

/-- The row of the opcode maps whose opcode bytes these are. -/
def rowOfOpcode (bs : List Byte) : Option OpRow :=
  match bs with
  | [b] => findRow oneByteRows b
  | [_, b] => findRow twoByteRows b
  | _ => none

/-- The instruction's mnemonic in the opcode table (R340, R342), for the trace record (R132). -/
def Instr.mnemonic (i : Instr) : String :=
  match rowOfOpcode i.opcode with
  | some r => r.mnemonic
  | none => ""

/-! ## Words of the opcode table -/

/-- The bytes of a table word, lowest address first. The table gives a two-byte opcode as one number whose HIGH byte is
the first byte, the prefix 0x30 (R301, R342); every other word counts its bytes from the low end (log entry 4). -/
def tableBytes (nbits w : Nat) : List Byte :=
  if nbits = 16 ∧ w / 256 % 256 = 0x30 then [0x30#8, BitVec.ofNat 8 w]
  else (List.range (nbits / 8)).map fun k => BitVec.ofNat 8 (w / 256 ^ k)

/-- A table word's bytes with zeros after them, up to the longest instruction. -/
def paddedTableBytes (nbits w : Nat) : List Byte :=
  (tableBytes nbits w ++ List.replicate Config.maxInstrBytes 0#8).take Config.maxInstrBytes

/-- The instruction the decoder reads from a word numbered as spec/opcode_table.json numbers it, zeros above it. -/
def decodeTableWord (nbits w : Nat) : Option Instr :=
  match decode (paddedTableBytes nbits w) with
  | .ok (i, _) => some i
  | .error _ => none

end Sys2Proof
end

