-- ==== Sys2Proof/Machine/State.lean ====
section
/-! DEFINITION. The state of the machine as plain data (10_state.md), the reasons a step can stop, and the state after
reset (R140, 70_reset_and_hazards.md R900). -/

namespace Sys2Proof.Machine

/-- The guest-trap kinds of 60_exceptions.md R800. PrivilegeViolation stands as two constructors, one for each of its ISC
values (10 privileged opcode, 15 privileged register; log entry 16). -/
inductive FaultKind where
  | busFault
  | misalignedAccess
  | illegalInstruction
  | reservedOpcode
  | invalidDescriptor
  | privilegedOpcode
  | privilegedRegister
  | zeroDivide
  | integerOverflow
  | trace
  | breakpoint
  | illegalLevelChange
  deriving DecidableEq, Repr

/-- ExecutionStatus (R130). `faulted` and `halted` are sticky until reset (R920). -/
inductive Status where
  | running
  | halted
  | faulted (k : FaultKind)
  deriving DecidableEq, Repr

/-- The trace record (R132): the last decoded instruction's mnemonic, raw bytes and effective addresses. -/
structure TraceRecord where
  mnemonic : String
  rawBytes : List Byte
  effectiveAddresses : List Word
  deriving DecidableEq, Repr

/-- The MR pointer of a DUART channel (R862). -/
inductive MrPointer where
  | mr1
  | mr2
  deriving DecidableEq, Repr

/-- One channel of the DUART (R135, R862 to R871). The status register SR is computed (R864). -/
structure Channel where
  mr1 : Byte
  mr2 : Byte
  mrPtr : MrPointer
  csr : Byte
  rxEnabled : Bool
  txEnabled : Bool
  /-- The FIFO that `push_rx` feeds, oldest first (R869). -/
  rxQueue : List Byte
  /-- The RX holding register, none when empty (R866). -/
  rhr : Option Byte
  /-- The last byte a read of RHR returned, 0 after reset (R866, R880). -/
  rhrLast : Byte
  /-- The RX pacing countdown, 0 when no character is arriving (R870). -/
  rxCount : Nat
  /-- The TX holding register, none when empty (R868). -/
  thr : Option Byte
  /-- The character being transmitted, none when the transmitter is not busy (R871). -/
  txShift : Option Byte
  /-- The TX pacing countdown (R871). -/
  txCount : Nat
  /-- The completed characters that `drain_tx` returns, oldest first (R871). -/
  txQueue : List Byte
  deriving DecidableEq, Repr

/-- The DUART (R135). ISR is computed (R874). -/
structure Duart where
  chA : Channel
  chB : Channel
  acr : Byte
  imr : Byte
  opcr : Byte
  opr : Byte
  /-- The preload CTUR:CTLR (R878). -/
  ctPreload : BitVec 16
  /-- The counter value; 0 while running stands for 0x10000 (R878, log entry 9). -/
  ctValue : BitVec 16
  ctRunning : Bool
  /-- Whether the counter was started since reset (R878 "never started", log entry 9). -/
  ctStarted : Bool
  /-- The counter-ready bit, ISR bit 3 (R878). -/
  ctReady : Bool
  /-- The bell flag (R137, R885). -/
  bell : Bool
  deriving DecidableEq, Repr

/-- The machine. -/
structure State where
  /-- The parameters of R8 that the machine was created with; no step changes them (log entry 2). -/
  params : Params
  /-- r0..r15; r11 is the PSW and r15 the PC (R100, R101). -/
  regs : Vector Word 16
  status : Status
  /-- Waiting (R131). -/
  waiting : Bool
  /-- The trace record, none when empty (R132). -/
  trace : Option TraceRecord
  /-- ROM and RAM bytes (R134). -/
  mem : Memory
  duart : Duart
  /-- The pending latch of each interrupt source 0..4 (R136, R840, R841). -/
  pending : Vector Bool 5
  deriving DecidableEq, Repr

/-- Why a step stops with a fault. A guest trap is no fault: it is taken, and a trap that cannot be delivered is a next
state whose status is `faulted` (R814). -/
inductive Fault where
  /-- Raised by INSF* and EXTF* when `FIELD_WRAP` = Fault and the field runs past bit 31: the spec calls that a model
  fault with no meaning (43_logical_shift_field.md R581 to R586). Safe: the machine stops where the spec gives no effect. -/
  | fieldPastBit31
  deriving DecidableEq, Repr

/-- Why a step is refused. -/
inductive Refusal where
  /-- Raised by a dispatch arm for an instruction that has no meaning yet. Safe: nothing follows from it. -/
  | notModelled (mnemonic : String)
  deriving DecidableEq, Repr

/-- A DUART channel after reset: Disabled, queues and holding registers empty (R140, R880). -/
def Channel.reset : Channel where
  mr1 := 0
  mr2 := 0
  mrPtr := .mr1
  csr := 0
  rxEnabled := false
  txEnabled := false
  rxQueue := []
  rhr := none
  rhrLast := 0
  rxCount := 0
  thr := none
  txShift := none
  txCount := 0
  txQueue := []

/-- The DUART after reset (R140, R880). -/
def Duart.reset : Duart where
  chA := Channel.reset
  chB := Channel.reset
  acr := 0
  imr := 0
  opcr := 0
  opr := 0
  ctPreload := 0
  ctValue := 0
  ctRunning := false
  ctStarted := false
  ctReady := false
  bell := false

/-- The registers after steps 3 and 5 of R900, with the PC given: PSW is `RESET_PSW` with bits 31:26, which
R110 reads as 0, clear (DEDUCED, log entry 33), every other register 0 (DESIGN CHOICE, log entry 1: the spec leaves them
unwritten, R140). -/
def resetRegs (p : Params) (pc : Word) : Vector Word 16 :=
  #v[0, 0, 0, 0, 0, 0, 0, 0, 0, 0, 0, p.resetPsw &&& Config.pswMask, 0, 0, 0, pc]

/-- A machine just created with these parameters and ROM bytes, after a Direct reset (R140, R900, R903). Before the
PcbVector reset of such a machine its PC is `ROM_BASE` (DESIGN CHOICE, log entry 32: no PC has been reached then). -/
def State.created (p : Params) (rom : Memory) : State where
  params := p
  regs := resetRegs p (BitVec.ofNat 32 Config.romBase)
  status := .running
  waiting := false
  trace := none
  mem := rom
  duart := Duart.reset
  pending := #v[false, false, false, false, false]

/-- The machine right after reset: the defaults of R8, memory with nothing listed (log entries 1, 2, 3). -/
def State.reset : State :=
  State.created Params.default []

end Sys2Proof.Machine
end

