-- ==== Sys2Proof/Machine/Duart.lean ====
section
/-! DEFINITION. The DUART (60_exceptions.md R860 to R885): register window, queues, pacing, counter/timer, and the
conditions and latches of the interrupt controller (R840 to R842). Plain functions on `Duart`. -/

namespace Sys2Proof.Machine

/-- The two channels: id 0 is A, id 1 is B (R930). -/
inductive ChannelId where
  | a
  | b
  deriving DecidableEq, Repr

/-- A channel of the DUART. -/
def Duart.channel (d : Duart) : ChannelId → Channel
  | .a => d.chA
  | .b => d.chB

/-- The DUART with one channel replaced. -/
def Duart.setChannel (d : Duart) (c : ChannelId) (x : Channel) : Duart :=
  match c with
  | .a => { d with chA := x }
  | .b => { d with chB := x }

/-- A byte from its bits, bit 7 first. -/
def byteOfBits (b7 b6 b5 b4 b3 b2 b1 b0 : Bool) : Byte :=
  BitVec.ofBool b7 ++ BitVec.ofBool b6 ++ BitVec.ofBool b5 ++ BitVec.ofBool b4 ++
    BitVec.ofBool b3 ++ BitVec.ofBool b2 ++ BitVec.ofBool b1 ++ BitVec.ofBool b0

/-! ## Status and conditions -/

/-- SR bit 0, RxRDY: the RX holding register holds a byte (R864). -/
def Channel.rxReady (x : Channel) : Bool :=
  x.rhr.isSome

/-- SR bit 1, FFULL: the holding register holds a byte and the queue `RX_CAPACITY - 1` more (R864). -/
def Channel.fifoFull (p : Params) (x : Channel) : Bool :=
  x.rhr.isSome && decide (x.rxQueue.length + 1 = p.rxCapacity)

/-- SR bit 2, TxRDY: the transmitter is enabled and its holding register empty (R864). -/
def Channel.txReady (x : Channel) : Bool :=
  x.txEnabled && x.thr.isNone

/-- SR bit 3, TxEMT: as TxRDY, and no character is being transmitted (R864). -/
def Channel.txEmpty (x : Channel) : Bool :=
  x.txReady && x.txShift.isNone

/-- The status register SR (R864); the error bits are always 0. -/
def Channel.sr (p : Params) (x : Channel) : Byte :=
  byteOfBits false false false false x.txEmpty x.txReady (x.fifoFull p) x.rxReady

/-- The interrupt status register ISR (R874). -/
def Duart.isr (d : Duart) : Byte :=
  byteOfBits false false d.chB.rxReady d.chB.txReady d.ctReady false d.chA.rxReady d.chA.txReady

/-- The ISR and IMR bit of each interrupt source (R840): A RX, A TX, B RX, B TX, counter. -/
def irqBit (s : Fin 5) : Nat :=
  match s with
  | 0 => 1
  | 1 => 0
  | 2 => 5
  | 3 => 4
  | 4 => 3

/-- `cond[s]` of R840: `ISR & IMR` at the source's bit. -/
def Duart.cond (d : Duart) (s : Fin 5) : Bool :=
  (d.isr &&& d.imr).getLsbD (irqBit s)

/-- R841: the latches after an event that took the DUART from `before` to `after`: set by a rising condition, cleared by
a condition that is 0, kept otherwise. -/
def updateLatches (before after : Duart) (pending : Vector Bool 5) : Vector Bool 5 :=
  Vector.ofFn fun s => after.cond s && (pending[s] || !before.cond s)

/-- Whether a write of v at this offset of the window resets the half channel of an interrupt source: command 2 or 3 of
CRA or CRB (R841 (c), R865). -/
def resetsSource (off : Nat) (v : Byte) (s : Fin 5) : Bool :=
  let cmd : BitVec 3 := v.extractLsb' 4 3
  match s with
  | 0 => off == 0x0B && cmd == 2
  | 1 => off == 0x0B && cmd == 3
  | 2 => off == 0x2B && cmd == 2
  | 3 => off == 0x2B && cmd == 3
  | 4 => false

/-- R841 (c): the latches of a half channel that a write resets are cleared, even where the same byte enables it again and
its condition holds before and after the write (DEDUCED, log entry 10). -/
def clearReset (off : Nat) (v : Byte) (pending : Vector Bool 5) : Vector Bool 5 :=
  Vector.ofFn fun s => pending[s] && !resetsSource off v s

/-! ## Reads (R860, R862, R866, R878) -/

/-- Read MR1 or MR2 by the MR pointer, which an access to MR1 moves to MR2 (R862). -/
def Channel.readMr (x : Channel) : Byte × Channel :=
  match x.mrPtr with
  | .mr1 => (x.mr1, { x with mrPtr := .mr2 })
  | .mr2 => (x.mr2, x)

/-- Read RHR: pop the held byte, or answer the last byte returned when it is empty (R866). -/
def Channel.readRhr (x : Channel) : Byte × Channel :=
  match x.rhr with
  | some b => (b, { x with rhr := none, rhrLast := b })
  | none => (x.rhrLast, x)

/-- The counter value that reads of registers 6 and 7 see: the preload while it is stopped and was never started (R878). -/
def Duart.counterRead (d : Duart) : BitVec 16 :=
  if !d.ctRunning && !d.ctStarted then d.ctPreload else d.ctValue

/-- Start-counter command: load the preload, set running (R878). -/
def Duart.startCounter (d : Duart) : Duart :=
  { d with ctValue := d.ctPreload, ctRunning := true, ctStarted := true }

/-- Stop-counter command: clear running and counter ready (R878). -/
def Duart.stopCounter (d : Duart) : Duart :=
  { d with ctRunning := false, ctReady := false }

/-- The read column of R860, register i. -/
def Duart.readRegister (p : Params) (d : Duart) (i : Nat) : Byte × Duart :=
  match i with
  | 0 => (d.chA.readMr.1, { d with chA := d.chA.readMr.2 })
  | 1 => (d.chA.sr p, d)
  | 3 => (d.chA.readRhr.1, { d with chA := d.chA.readRhr.2 })
  | 5 => (d.isr, d)
  | 6 => (d.counterRead.extractLsb' 8 8, d)
  | 7 => (d.counterRead.extractLsb' 0 8, d)
  | 8 => (d.chB.readMr.1, { d with chB := d.chB.readMr.2 })
  | 9 => (d.chB.sr p, d)
  | 11 => (d.chB.readRhr.1, { d with chB := d.chB.readRhr.2 })
  | 14 => (0, d.startCounter)
  | 15 => (0, d.stopCounter)
  | _ => (0, d)

/-- A byte read at an offset of the window: register i stands at 4i + 3, every other lane reads 0 (R860, R861). -/
def Duart.readByte (p : Params) (d : Duart) (off : Nat) : Byte × Duart :=
  if off % 4 = 3 then d.readRegister p (off / 4) else (0, d)

/-! ## Writes (R860, R862, R863, R865, R868, R873 to R875, R878) -/

/-- Write MR1 or MR2 by the MR pointer (R862). -/
def Channel.writeMr (x : Channel) (v : Byte) : Channel :=
  match x.mrPtr with
  | .mr1 => { x with mr1 := v, mrPtr := .mr2 }
  | .mr2 => { x with mr2 := v }

/-- Reset receiver (R865): disabled, queue and holding register emptied, countdown 0. -/
def Channel.resetRx (x : Channel) : Channel :=
  { x with rxEnabled := false, rxQueue := [], rhr := none, rxCount := 0 }

/-- Reset transmitter (R865): disabled, holding register, character in progress and queue emptied, countdown 0. -/
def Channel.resetTx (x : Channel) : Channel :=
  { x with txEnabled := false, thr := none, txShift := none, txQueue := [], txCount := 0 }

/-- The miscellaneous command field CR[6:4] (R865). -/
def Channel.miscCommand (x : Channel) (cmd : BitVec 3) : Channel :=
  match cmd.toNat with
  | 1 => { x with mrPtr := .mr1 }
  | 2 => x.resetRx
  | 3 => x.resetTx
  | _ => x

/-- An enable field of CR: 1 enable, 2 disable, 0 and 3 no change (R865). -/
def enableField (f : BitVec 2) (old : Bool) : Bool :=
  match f.toNat with
  | 1 => true
  | 2 => false
  | _ => old

/-- Write CR (R865): the miscellaneous command, then the receiver field, then the transmitter field. -/
def Channel.writeCr (x : Channel) (v : Byte) : Channel :=
  let y := x.miscCommand (v.extractLsb' 4 3)
  { y with
    rxEnabled := enableField (v.extractLsb' 0 2) y.rxEnabled
    txEnabled := enableField (v.extractLsb' 2 2) y.txEnabled }

/-- Write THR (R868): discarded while the transmitter is disabled, else the held byte is replaced. -/
def Channel.writeThr (x : Channel) (v : Byte) : Channel :=
  if x.txEnabled then { x with thr := some v } else x

/-- The write column of R860, register i. -/
def Duart.writeRegister (d : Duart) (i : Nat) (v : Byte) : Duart :=
  match i with
  | 0 => { d with chA := d.chA.writeMr v }
  | 1 => { d with chA := { d.chA with csr := v } }
  | 2 => { d with chA := d.chA.writeCr v }
  | 3 => { d with chA := d.chA.writeThr v }
  | 4 => { d with acr := v }
  | 5 => { d with imr := v }
  | 6 => { d with ctPreload := v ++ d.ctPreload.extractLsb' 0 8 }
  | 7 => { d with ctPreload := d.ctPreload.extractLsb' 8 8 ++ v }
  | 8 => { d with chB := d.chB.writeMr v }
  | 9 => { d with chB := { d.chB with csr := v } }
  | 10 => { d with chB := d.chB.writeCr v }
  | 11 => { d with chB := d.chB.writeThr v }
  | 13 => { d with opcr := v }
  | 14 => { d with opr := d.opr ||| v }
  | 15 => { d with opr := d.opr &&& ~~~v }
  | _ => d

/-- A byte write at an offset of the window: lanes other than 4i + 3 are ignored (R861). -/
def Duart.writeByte (d : Duart) (off : Nat) (v : Byte) : Duart :=
  if off % 4 = 3 then d.writeRegister (off / 4) v else d

/-! ## Channel states (R867) -/

/-- The three states of a channel (R867). -/
inductive ChannelState where
  | disabled
  | enabledIdle
  | enabledActive
  deriving DecidableEq, Repr

/-- R867: the state of a channel, a function of its enables and of the characters in progress. -/
def Channel.channelState (x : Channel) : ChannelState :=
  if x.rxEnabled || x.txEnabled then
    if x.rxCount = 0 ∧ x.txShift = none then .enabledIdle else .enabledActive
  else .disabled

/-! ## Pacing and the counter (R863, R870, R871, R872, R876, R878, R885) -/

/-- `BAUD_DELAY[ACR[7]][code]` (R863, R872). -/
def baudDelay (p : Params) (acr : Byte) (code : BitVec 4) : Nat :=
  if acr.getLsbD 7 then p.baudDelay1[code.toFin] else p.baudDelay0[code.toFin]

/-- `delay_rx`: the receiver's rate code is CSR[7:4] (R863). -/
def Channel.delayRx (p : Params) (acr : Byte) (x : Channel) : Nat :=
  baudDelay p acr (x.csr.extractLsb' 4 4)

/-- `delay_tx`: the transmitter's rate code is CSR[3:0] (R863). -/
def Channel.delayTx (p : Params) (acr : Byte) (x : Channel) : Nat :=
  baudDelay p acr (x.csr.extractLsb' 0 4)

/-- RX pacing, once per advance (R870). -/
def Channel.advanceRx (p : Params) (acr : Byte) (x : Channel) : Channel :=
  match x.rxEnabled, x.rhr, x.rxQueue with
  | true, none, b :: rest =>
    let count := (if x.rxCount = 0 then x.delayRx p acr else x.rxCount) - 1
    if count = 0 then { x with rxCount := 0, rhr := some b, rxQueue := rest }
    else { x with rxCount := count }
  | _, _, _ => x

/-- TX pacing, first half (R871): the character being transmitted counts down and, at 0 and with room in the TX queue,
completes. Answers the completed byte. -/
def Channel.finishTx (p : Params) (x : Channel) : Channel × Option Byte :=
  match x.txShift with
  | none => (x, none)
  | some b =>
    if x.txCount - 1 = 0 ∧ x.txQueue.length < p.txCapacity then
      ({ x with txCount := 0, txShift := none, txQueue := x.txQueue ++ [b] }, some b)
    else ({ x with txCount := x.txCount - 1 }, none)

/-- TX pacing, second half (R871): an idle enabled transmitter loads the holding register. -/
def Channel.loadTx (p : Params) (acr : Byte) (x : Channel) : Channel :=
  match x.txShift, x.thr, x.txEnabled with
  | none, some b, true => { x with txShift := some b, thr := none, txCount := x.delayTx p acr }
  | _, _, _ => x

/-- One channel's part of `advance(1)`: RX, then TX; a completed byte decides the bell flag (R871, R885). -/
def Duart.advanceChannel (p : Params) (d : Duart) (c : ChannelId) : Duart :=
  let x := (d.channel c).advanceRx p d.acr
  let y := x.finishTx p
  let d' := d.setChannel c (y.1.loadTx p d.acr)
  match y.2 with
  | some b => { d' with bell := b == p.bellByte }
  | none => d'

/-- The counter's part of `advance(1)` (R878): while running it decrements; at 0 it sets counter ready and reloads. The
16-bit wrap makes a preload of 0 count 0x10000 steps (log entry 9). -/
def Duart.advanceCounter (d : Duart) : Duart :=
  if d.ctRunning then
    if d.ctValue - 1 = 0 then { d with ctValue := d.ctPreload, ctReady := true }
    else { d with ctValue := d.ctValue - 1 }
  else d

/-- `advance(1)` but for the edge detection: channel A, channel B, the counter (R876). -/
def Duart.advance (p : Params) (d : Duart) : Duart :=
  ((d.advanceChannel p .a).advanceChannel p .b).advanceCounter

/-! ## Acceptance (R842) -/

/-- The request that wins of two candidates, the first of them the smaller source: a higher priority wins, a tie stays
with the smaller source (R842). -/
def betterIrq (p : Params) (x y : Option (Fin 5)) : Option (Fin 5) :=
  match x, y with
  | none, y => y
  | x, none => x
  | some i, some j => if p.irqPriority[i] < p.irqPriority[j] then some j else some i

/-- `pending(threshold)` of R842. -/
def pickIrq (p : Params) (pending : Vector Bool 5) (threshold : BitVec 4) : Option (Fin 5) :=
  let cand (s : Fin 5) : Option (Fin 5) :=
    if pending[s] && decide (threshold < p.irqPriority[s]) then some s else none
  betterIrq p (betterIrq p (betterIrq p (betterIrq p (cand 0) (cand 1)) (cand 2)) (cand 3)) (cand 4)

end Sys2Proof.Machine
end

