-- ==== Sys2Proof/Machine/Flags.lean ====
section
/-! DEFINITION. The Processor Status Word, its fields (10_state.md R110), the flag computations of R120 and the condition
table of 44_compare_branch.md R610. -/

namespace Sys2Proof.Machine

/-! ## Bit fields of a word -/

/-- A word with the field of `len` bits at `lo` replaced. -/
def setField (lo len : Nat) (v : BitVec len) (w : Word) : Word :=
  (w &&& ~~~((BitVec.allOnes len).setWidth 32 <<< lo)) ||| (v.setWidth 32 <<< lo)

/-! ## PSW fields (R110) -/

/-- ET, bits 1:0: type of the last exception. -/
def Psw.et (w : Word) : BitVec 2 := w.extractLsb' 0 2

/-- TM, bit 2: trace mask. -/
def Psw.tm (w : Word) : Bool := w.getLsbD 2

/-- ISC, bits 6:3: internal state code of the last exception. -/
def Psw.isc (w : Word) : BitVec 4 := w.extractLsb' 3 4

/-- I, bit 7: initial context (PcbVector reset only). -/
def Psw.initial (w : Word) : Bool := w.getLsbD 7

/-- PM, bits 10:9: previous execution level. -/
def Psw.pm (w : Word) : BitVec 2 := w.extractLsb' 9 2

/-- CM, bits 12:11: current execution level, 0 kernel (R113). -/
def Psw.cm (w : Word) : BitVec 2 := w.extractLsb' 11 2

/-- IPL, bits 16:13: current interrupt-priority level (R114). -/
def Psw.ipl (w : Word) : BitVec 4 := w.extractLsb' 13 4

/-- TE, bit 17: trace enable (R115). -/
def Psw.te (w : Word) : Bool := w.getLsbD 17

/-- C, bit 18: carry or borrow. -/
def Psw.c (w : Word) : Bool := w.getLsbD 18

/-- V, bit 19: overflow. -/
def Psw.v (w : Word) : Bool := w.getLsbD 19

/-- Z, bit 20: zero. -/
def Psw.z (w : Word) : Bool := w.getLsbD 20

/-- N, bit 21: negative. -/
def Psw.n (w : Word) : Bool := w.getLsbD 21

/-- OE, bit 22: integer-overflow trap enable (R116). -/
def Psw.oe (w : Word) : Bool := w.getLsbD 22

/-- ET replaced. -/
def Psw.setEt (v : BitVec 2) (w : Word) : Word := setField 0 2 v w

/-- TM replaced. -/
def Psw.setTm (v : Bool) (w : Word) : Word := setField 2 1 (BitVec.ofBool v) w

/-- ISC replaced. -/
def Psw.setIsc (v : BitVec 4) (w : Word) : Word := setField 3 4 v w

/-- I replaced. -/
def Psw.setInitial (v : Bool) (w : Word) : Word := setField 7 1 (BitVec.ofBool v) w

/-- PM replaced. -/
def Psw.setPm (v : BitVec 2) (w : Word) : Word := setField 9 2 v w

/-- IPL replaced. -/
def Psw.setIpl (v : BitVec 4) (w : Word) : Word := setField 13 4 v w

/-- The condition flags (R120). -/
structure Flags where
  n : Bool
  z : Bool
  c : Bool
  v : Bool
  deriving DecidableEq, Repr

/-- The flags in a PSW. -/
def Psw.flags (w : Word) : Flags :=
  ⟨Psw.n w, Psw.z w, Psw.c w, Psw.v w⟩

/-- A PSW with its four flags replaced (bits 18 to 21) and every other bit kept. -/
def Psw.setFlags (f : Flags) (w : Word) : Word :=
  setField 18 4 (BitVec.ofBool f.n ++ BitVec.ofBool f.z ++ BitVec.ofBool f.v ++ BitVec.ofBool f.c) w

/-! ## Operand types and patterns (40_addressing_modes.md R400, R402) -/

/-- Width of an access in bytes (20_memory.md R240). -/
def sizeBytes : Size → Nat
  | .byte => 1
  | .half => 2
  | .word => 4

/-- Width of an access in bits. -/
def sizeBits (z : Size) : Nat :=
  8 * sizeBytes z

/-- The width w of an operand type. -/
def typeBits (t : OpType) : Nat :=
  sizeBits t.size

/-- `trunc_w(r)`: the w-bit pattern of an integer (00_scope.md R10). -/
def truncBits (w : Nat) (r : Int) : BitVec w :=
  BitVec.ofInt w r

/-- `interp_T(bits)`: the integer that the low w bits of a word stand for (R402). -/
def interpType (t : OpType) (bits : Word) : Int :=
  if t.signed then (bits.setWidth (typeBits t)).toInt else (bits.setWidth (typeBits t)).toNat

/-- The whole-register value of a result of type T: `sext_32` or `zext_32` of its w-bit pattern (R407). -/
def extendType (t : OpType) (r : Int) : Word :=
  if t.signed then (truncBits (typeBits t) r).signExtend 32 else (truncBits (typeBits t) r).setWidth 32

/-- `P(v) = trunc_32(v)`: the 32-bit pattern of an operand integer (43_logical_shift_field.md R550). -/
def patternOf (v : Int) : Word :=
  truncBits 32 v

/-! ## Flag computations (R120) -/

/-- N of a stored value of width w: its most significant bit. -/
def flagN (w : Nat) (r : Int) : Bool :=
  (truncBits w r).msb

/-- Z of a stored value of width w. -/
def flagZ (w : Nat) (r : Int) : Bool :=
  truncBits w r == 0

/-- `carry(a, b)` at width w. -/
def flagCarry (w : Nat) (a b : Int) : Bool :=
  decide (2 ^ w ≤ (truncBits w a).toNat + (truncBits w b).toNat)

/-- `borrow(a, b)` for a - b at width w. -/
def flagBorrow (w : Nat) (a b : Int) : Bool :=
  decide ((truncBits w a).toNat < (truncBits w b).toNat)

/-- `ovf_add(a, b)` at width w: the two's-complement overflow of the sum of the patterns. -/
def flagOvfAdd (w : Nat) (a b : Int) : Bool :=
  let A := truncBits w a
  let B := truncBits w b
  (~~~(A ^^^ B) &&& (A ^^^ (A + B))).msb

/-- `ovf_sub(a, b)` at width w: the two's-complement overflow of the difference of the patterns. -/
def flagOvfSub (w : Nat) (a b : Int) : Bool :=
  let A := truncBits w a
  let B := truncBits w b
  ((A ^^^ B) &&& (A ^^^ (A - B))).msb

/-- `V<-trunc`: r is outside the range of T. -/
def flagTrunc (t : OpType) (r : Int) : Bool :=
  if t.signed then decide (r < -(2 ^ (typeBits t - 1) : Int) ∨ (2 ^ (typeBits t - 1) : Int) ≤ r)
  else decide (r < 0 ∨ (2 ^ typeBits t : Int) ≤ r)

/-- `NZ(r)` at the width of T, with the C and V given (R120, 00_scope.md R14). -/
def flagsOf (t : OpType) (r : Int) (c v : Bool) : Flags :=
  ⟨flagN (typeBits t) r, flagZ (typeBits t) r, c, v⟩

/-! ## The condition table (R610) -/

/-- The conditions of R610; NEQ and NEQU, EQL and EQLU are the same condition under two opcodes each. -/
inductive Cond where
  | geq
  | gtr
  | lss
  | leq
  | gequ
  | gtru
  | lssu
  | lequ
  | vc
  | vs
  | neq
  | eql
  deriving DecidableEq, Repr

/-- R610: when a condition is true of the flags. -/
def condHolds : Cond → Flags → Bool
  | .geq, f => !f.n || f.z
  | .gtr, f => !f.n && !f.z
  | .lss, f => f.n && !f.z
  | .leq, f => f.n || f.z
  | .gequ, f => !f.c || f.z
  | .gtru, f => !f.c && !f.z
  | .lssu, f => f.c && !f.z
  | .lequ, f => f.c || f.z
  | .vc, f => !f.v
  | .vs, f => f.v
  | .neq, f => !f.z
  | .eql, f => f.z

end Sys2Proof.Machine
end

