-- ==== Sys2Proof/Machine/Ops.lean ====
section
/-! DEFINITION. The named operations every meaning is written over: registers (10_state.md), the bus and memory
(20_memory.md), the stack, taking an exception and returning from one (60_exceptions.md R810 to R821), and running one
instruction to its end (R811 to R816). -/

namespace Sys2Proof.Machine

/-! ## Raising -/

/-- Kinds of bus access (R210). -/
inductive AccessKind where
  | read
  | write
  | fetch
  deriving DecidableEq, Repr

/-- What a bus fault records: the address of the access's first byte and its kind (R212). -/
structure AccessInfo where
  addr : Word
  kind : AccessKind
  deriving DecidableEq, Repr

/-- What abandons an instruction: a guest trap with the info the bus records for a data access, or a model fault (R800,
00_scope.md R13). The info of the other raises is kept nowhere (log entry 16). -/
inductive Exn where
  | trap (k : FaultKind) (info : Option AccessInfo)
  | fault (f : Fault)
  deriving DecidableEq, Repr

/-- The work of an instruction: it reads and changes the state, or raises. The state at a raise is dropped: an abandoned
instruction has no effect (R812). -/
abbrev M := StateT State (Except Exn)

/-- `raise K` (00_scope.md R13). The info of the rules that give one, such as the descriptor of InvalidDescriptor(d), is
not kept: nothing reads it (DEDUCED, log entry 16). -/
def raise {α : Type} (k : FaultKind) : M α :=
  fun _ => .error (.trap k none)

/-- Stop with a model fault. -/
def stop {α : Type} (f : Fault) : M α :=
  fun _ => .error (.fault f)

/-- The state now. -/
def getState : M State :=
  fun s => .ok (s, s)

/-- Change the state. -/
def update (f : State → State) : M Unit :=
  fun s => .ok ((), f s)

/-! ## Registers (R100 to R104) -/

/-- `x[n]`. -/
def State.reg (s : State) (n : RegNum) : Word :=
  s.regs.get n

/-- `x[n] <- v`. -/
def State.setReg (s : State) (n : RegNum) (v : Word) : State :=
  { s with regs := s.regs.set n.val v n.isLt }

/-- FP, r9. -/
def regFP : RegNum := 9
/-- AP, r10. -/
def regAP : RegNum := 10
/-- PSW, r11. -/
def regPSW : RegNum := 11
/-- SP, r12. -/
def regSP : RegNum := 12
/-- PCBP, r13. -/
def regPCBP : RegNum := 13
/-- ISP, r14. -/
def regISP : RegNum := 14
/-- PC, r15. -/
def regPC : RegNum := 15

/-- The program counter: while an instruction executes, the address of its opcode (R104). -/
def State.pc (s : State) : Word := s.reg regPC

/-- The processor status word (R110). -/
def State.psw (s : State) : Word := s.reg regPSW

/-- The stack pointer: the first free word, the stack grows up (R450 item 4). -/
def State.sp (s : State) : Word := s.reg regSP

/-- `pc <- target`. -/
def State.setPc (s : State) (v : Word) : State := s.setReg regPC v

/-- The PSW replaced. -/
def State.setPsw (s : State) (v : Word) : State := s.setReg regPSW v

/-- SP replaced. -/
def State.setSp (s : State) (v : Word) : State := s.setReg regSP v

/-- The four flags replaced. -/
def State.setFlags (s : State) (f : Flags) : State := s.setPsw (Psw.setFlags f s.psw)

/-- The DUART replaced after a register access or an advance, with the edge detection of R841 (R876, R877). -/
def State.withDuart (s : State) (d : Duart) : State :=
  { s with duart := d, pending := updateLatches s.duart d s.pending }

/-- A byte written at an offset of the DUART's window: a reset command clears its latches, then the edge detection runs
(R841, R865, R877). -/
def State.writeDuart (s : State) (off : Nat) (v : Byte) : State :=
  State.withDuart { s with pending := clearReset off v s.pending } (s.duart.writeByte off v)

/-- Kernel mode, the only privileged mode (R113, R801). -/
def State.kernel (s : State) : Bool :=
  Psw.cm s.psw == 0

/-- `x[n]` inside an instruction. -/
def getReg (n : RegNum) : M Word :=
  fun s => .ok (s.reg n, s)

/-- `x[n] <- v` inside an instruction: an implicit register write (R103, last sentence). -/
def setReg (n : RegNum) (v : Word) : M Unit :=
  update fun s => s.setReg n v

/-- PSW, PCBP and ISP: a destination operand may name them in kernel mode only (R103, R801). -/
def privilegedReg (n : RegNum) : Bool :=
  n == regPSW || n == regPCBP || n == regISP

/-- What a destination write leaves in a register: the PSW keeps bits 25:0 only (R111). -/
def destValue (n : RegNum) (v : Word) : Word :=
  if n = regPSW then v &&& Config.pswMask else v

/-- A register written as a destination operand (R103, R111). -/
def writeDestReg (n : RegNum) (v : Word) : M Unit :=
  fun s =>
    if privilegedReg n && !s.kernel then .error (.trap .privilegedRegister none)
    else .ok ((), s.setReg n (destValue n v))

/-- Raise PrivilegeViolation (privileged opcode) outside kernel mode (R720 item 1). -/
def requireKernel : M Unit :=
  fun s => if s.kernel then .ok ((), s) else .error (.trap .privilegedOpcode none)

/-! ## The bus (20_memory.md R201, R210 to R213, R220, R230, R231) -/

/-- The regions of the address map (R201). -/
inductive Region where
  | rom
  | duart
  | ram
  deriving DecidableEq, Repr

/-- The region that holds an address (R201). -/
def regionOf (p : Params) (a : Nat) : Option Region :=
  if Config.romBase ≤ a ∧ a < Config.romBase + p.romSize then some .rom
  else if Config.duartBase ≤ a ∧ a < Config.duartBase + Config.duartSize then some .duart
  else if Config.ramBase ≤ a ∧ a < Config.ramBase + p.ramSize then some .ram
  else none

/-- R210 to R212, R230: the region an access of n bytes goes to; BusFault when there is none, when the access leaves
it, on a write to ROM and on a fetch from the DUART window. -/
def busRoute (p : Params) (a : Word) (n : Nat) (k : AccessKind) : Except Exn Region :=
  match regionOf p a.toNat with
  | none => .error (.trap .busFault (some ⟨a, k⟩))
  | some g =>
    if regionOf p (a.toNat + n - 1) = some g ∧ ¬ (g = .rom ∧ k = .write) ∧ ¬ (g = .duart ∧ k = .fetch) then .ok g
    else .error (.trap .busFault (some ⟨a, k⟩))

/-- R220: under `ALIGN_POLICY` = Trap the address is a multiple of the size. -/
def aligned (p : Params) (a : Word) (z : Size) : Bool :=
  p.alignPolicy == .permit || a.toNat % sizeBytes z == 0

/-- R220, then R210: the region of a data access. -/
def dataRoute (p : Params) (a : Word) (z : Size) (k : AccessKind) : Except Exn Region :=
  if aligned p a z then busRoute p a (sizeBytes z) k
  else .error (.trap .misalignedAccess (some ⟨a, k⟩))

/-- The routing of a data access inside an instruction. -/
def route (a : Word) (z : Size) (k : AccessKind) : M Region :=
  fun s =>
    match dataRoute s.params a z k with
    | .ok g => .ok (g, s)
    | .error e => .error e

/-- Read one byte of a region: a DUART read takes effect at once (R213, R242, R877). -/
def readByteAt (g : Region) (a : Word) : M Byte :=
  fun s =>
    match g with
    | .duart =>
      let r := s.duart.readByte s.params (a.toNat - Config.duartBase)
      .ok (r.1, s.withDuart r.2)
    | _ => .ok (s.mem.read a.toNat, s)

/-- Write one byte of a region (R213, R861); ROM is never written (R211). -/
def writeByteAt (g : Region) (a : Word) (b : Byte) : M Unit :=
  fun s =>
    match g with
    | .duart => .ok ((), s.writeDuart (a.toNat - Config.duartBase) b)
    | .ram => .ok ((), { s with mem := s.mem.write a.toNat b })
    | .rom => .ok ((), s)

/-- `MemRead(a, n)`: big-endian, as an unsigned number (R231, 00_scope.md R12). -/
def memRead (a : Word) (z : Size) : M Word := do
  let g ← route a z .read
  match z with
  | .byte => do
    let b0 ← readByteAt g a
    return b0.setWidth 32
  | .half => do
    let b0 ← readByteAt g a
    let b1 ← readByteAt g (a + 1)
    return (b0 ++ b1).setWidth 32
  | .word => do
    let b0 ← readByteAt g a
    let b1 ← readByteAt g (a + 1)
    let b2 ← readByteAt g (a + 2)
    let b3 ← readByteAt g (a + 3)
    return b0 ++ b1 ++ b2 ++ b3

/-- `MemWrite(a, n, v)`: the low 8n bits of v, big-endian (R231, 00_scope.md R12). -/
def memWrite (a : Word) (z : Size) (v : Word) : M Unit := do
  let g ← route a z .write
  match z with
  | .byte => writeByteAt g a (v.extractLsb' 0 8)
  | .half => do
    writeByteAt g a (v.extractLsb' 8 8)
    writeByteAt g (a + 1) (v.extractLsb' 0 8)
  | .word => do
    writeByteAt g a (v.extractLsb' 24 8)
    writeByteAt g (a + 1) (v.extractLsb' 16 8)
    writeByteAt g (a + 2) (v.extractLsb' 8 8)
    writeByteAt g (a + 3) (v.extractLsb' 0 8)

/-- The instruction-stream bytes at `a` that can be fetched, at most n of them (R230). -/
def fetchStream (s : State) (a : Word) : Nat → List Byte
  | 0 => []
  | n + 1 =>
    match busRoute s.params a 1 .fetch with
    | .ok _ => s.mem.read a.toNat :: fetchStream s (a + 1) n
    | .error _ => []

/-! ## The stack (R450 item 4) -/

/-- Push a word: write it at SP, then add 4. -/
def push (v : Word) : M Unit := do
  let sp ← getReg regSP
  memWrite sp .word v
  setReg regSP (sp + 4)

/-- Pop a word: read it at SP - 4, modulo 2^32, then set SP to that address. SP = 0 names 0xFFFFFFFC, which faults only
where RAM does not reach there (DEDUCED, log entry 35: R641 to R654 say that SP = 0 faults). -/
def pop : M Word := do
  let sp ← getReg regSP
  let v ← memRead (sp - 4) .word
  setReg regSP (sp - 4)
  return v

/-! ## Taking an exception and returning from one (60_exceptions.md R810 to R821, R843; 47_system.md R741) -/

/-- The ISC value of a trap kind (10_state.md R112, R800). -/
def iscOf : FaultKind → BitVec 4
  | .zeroDivide => 0
  | .trace => 1
  | .illegalInstruction => 2
  | .reservedOpcode => 3
  | .invalidDescriptor => 4
  | .busFault => 5
  | .misalignedAccess => 5
  | .illegalLevelChange => 7
  | .integerOverflow => 9
  | .privilegedOpcode => 10
  | .breakpoint => 14
  | .privilegedRegister => 15

/-- The PSW a gate transfer leaves: the entry's, with PM the level being left, TM 0 and IPL kept or set (R820). -/
def gatePsw (old entry : Word) (ipl : Option (BitVec 4)) : Word :=
  Psw.setIpl (ipl.getD (Psw.ipl old)) (Psw.setTm false (Psw.setPm (Psw.cm old) (entry &&& Config.pswMask)))

/-- GateTransfer (R820): push the TrapFrame on the current stack, read the two-level gate table, replace PSW and PC. -/
def gateTransfer (savedPC savedPSW l1 off : Word) (ipl : Option (BitVec 4)) : M Unit := do
  let s ← getState
  memWrite s.sp .word savedPC
  memWrite (s.sp + 4) .word savedPSW
  let base ← memRead (s.params.gateL1Base + l1) .word
  let entry := base + off
  let npsw ← memRead entry .word
  let npc ← memRead (entry + 4) .word
  update fun t => ((t.setSp (s.sp + 8)).setPsw (gatePsw s.psw npsw ipl)).setPc npc

/-- The PSW a trap saves: ET 3 and the kind's ISC (R810). -/
def trapPsw (k : FaultKind) (psw : Word) : Word :=
  Psw.setIsc (iscOf k) (Psw.setEt 3 psw)

/-- The offset of a gate entry in the normal-exception table: 8 bytes an entry (R820). -/
def gateOffset (i : Nat) : Word :=
  BitVec.ofNat 32 (8 * i)

/-- Taking a guest trap in a state whose PC is the PC to save (R810): the gate transfer through the normal-exception
table ends the wait; if it faults, the state stays and the status becomes `faulted` (R814). -/
def takeTrap (k : FaultKind) (s : State) : State :=
  match gateTransfer s.pc (trapPsw k s.psw) 0 (gateOffset (iscOf k).toNat) none s with
  | .ok (_, t) => { t with waiting := false }
  | .error _ => { s with status := .faulted k }

/-- RETG, the return for traps, interrupts and GATE (R741, R821): the frame is read, the level checked, IPL kept outside
kernel mode. -/
def returnFromGate : M Unit := do
  let s ← getState
  let frame ← memRead (s.sp - 4) .word
  let newPC ← memRead (s.sp - 8) .word
  let newPSW := frame &&& Config.pswMask
  if Psw.cm newPSW < Psw.cm s.psw then raise .illegalLevelChange
  else
    let restored := if s.kernel then newPSW else Psw.setIpl (Psw.ipl s.psw) newPSW
    update fun t => ((t.setSp (s.sp - 8)).setPsw restored).setPc newPC

/-! ## Running one instruction -/

/-- `PC <- PC + length` (R104). -/
def advancePc (len : Nat) : M Unit :=
  update fun s => s.setPc (s.pc + BitVec.ofNat 32 len)

/-- `PC <- PC + sext(disp)` (R600). -/
def branchPc {w : Nat} (disp : BitVec w) : M Unit :=
  update fun s => s.setPc (s.pc + disp.signExtend 32)

/-- The end-of-instruction traps of a completed instruction that started in `s` and ended in `t` (R811, R815, R816):
IntegerOverflow first, for the instructions that raise it; then Trace if TM was 1 at the start. -/
def endOfInstr (overflowTraps : Bool) (s t : State) : State :=
  if overflowTraps && Psw.v t.psw && Psw.oe t.psw then takeTrap .integerOverflow t
  else if Psw.tm s.psw then takeTrap .trace t
  else t

/-- Run an instruction's work from its start state (R810 to R812): a raise abandons it and takes the trap from the start
state; a completed one takes the end-of-instruction trap that is due. -/
def runInstr (overflowTraps : Bool) (work : M Unit) (s : State) : Host.Outcome State Fault Refusal :=
  match work s with
  | .ok (_, t) => .next (endOfInstr overflowTraps s t)
  | .error (.trap k _) => .next (takeTrap k s)
  | .error (.fault f) => .fault f

end Sys2Proof.Machine
end

