-- ==== Sys2Proof/Machine/Operands.lean ====
section
/-! DEFINITION. Operand types, effective addresses, operand reads and writes, and the order in which an instruction
gathers its operands (40_addressing_modes.md R400 to R412, 30_encoding.md R322). -/

namespace Sys2Proof.Machine

/-! ## Types (R401, R322) -/

/-- The default type of the W instructions: (32, signed). -/
def wordT : OpType := ⟨.word, true⟩

/-- The default type of the H instructions: (16, signed). -/
def halfT : OpType := ⟨.half, true⟩

/-- The default type of the B instructions: (8, unsigned). -/
def byteT : OpType := ⟨.byte, false⟩

/-- The type an expanded-type descriptor names. -/
def expandedType : EType → OpType
  | .uword => ⟨.word, false⟩
  | .uhalf => ⟨.half, false⟩
  | .ubyte => ⟨.byte, false⟩
  | .sword => ⟨.word, true⟩
  | .shalf => ⟨.half, true⟩
  | .sbyte => ⟨.byte, true⟩

/-- The expanded type of the latest of some operands that has one; the list holds the latest operand first. -/
def latestEType : List Operand → Option EType
  | [] => none
  | o :: earlier =>
    match o.etype with
    | some e => some e
    | none => latestEType earlier

/-- R401, R322: the type of an operand, given the instruction's default type and the operands before it, latest first.
Under `ETYPE_PERSISTS` an expanded type also holds for the later operands. -/
def operandType (p : Params) (dflt : OpType) (earlier : List Operand) (o : Operand) : OpType :=
  match o.etype with
  | some e => expandedType e
  | none =>
    if p.etypePersists then
      match latestEType earlier with
      | some e => expandedType e
      | none => dflt
    else dflt

/-! ## Places (R404 to R409) -/

/-- Where an operand's value is: the instruction itself (a 32-bit pattern), a register, or memory at an effective
address. -/
inductive Place where
  | value (w : Word)
  | reg (r : RegNum)
  | mem (ea : Word)
  deriving DecidableEq, Repr

/-- The place a form names in a state (R404, R405, R406, R409); for a deferred form, the place of its pointer. -/
def formPlace (s : State) : Form → Place
  | .posLit v => .value (BitVec.ofNat 32 v.val)
  | .negLit k => .value (BitVec.ofInt 32 (k.val - 16))
  | .wordImm v => .value v
  | .halfImm v => .value (v.signExtend 32)
  | .byteImm v => .value (v.signExtend 32)
  | .reg r => .reg r
  | .regDef r => .mem (s.reg r)
  | .fpShort k => .mem (s.reg regFP + BitVec.ofNat 32 k.val)
  | .apShort k => .mem (s.reg regAP + BitVec.ofNat 32 k.val)
  | .absolute a => .mem a
  | .absDef a => .mem a
  | .wordDisp r d => .mem (s.reg r + d)
  | .wordDispDef r d => .mem (s.reg r + d)
  | .halfDisp r d => .mem (s.reg r + d.signExtend 32)
  | .halfDispDef r d => .mem (s.reg r + d.signExtend 32)
  | .byteDisp r d => .mem (s.reg r + d.signExtend 32)
  | .byteDispDef r d => .mem (s.reg r + d.signExtend 32)

/-- The deferred forms, whose effective address is read from memory (R409). -/
def formDeferred : Form → Bool
  | .absDef _ | .wordDispDef _ _ | .halfDispDef _ _ | .byteDispDef _ _ => true
  | _ => false

/-- R409, R410 step 3: the place of a form, with the pointer read of a deferred form. -/
def locate (f : Form) : M Place := do
  let s ← getState
  match formPlace s f with
  | .mem a =>
    if formDeferred f then do
      let p ← memRead a .word
      return .mem p
    else return .mem a
  | pl => return pl

/-- An operand ready to be read or written: its place and its type. -/
structure Opnd where
  place : Place
  type : OpType
  deriving DecidableEq, Repr

/-- The operand with its place computed. -/
def operand (dflt : OpType) (earlier : List Operand) (o : Operand) : M Opnd := do
  let s ← getState
  let pl ← locate o.form
  return ⟨pl, operandType s.params dflt earlier o⟩

/-! ## Reading and writing (R404 to R408, R412) -/

/-- `Read(o)`: the integer value of an operand. -/
def readOpnd (x : Opnd) : M Int := do
  match x.place with
  | .value w => return interpType x.type w
  | .reg r => do
    let w ← getReg r
    return interpType x.type w
  | .mem a => do
    let w ← memRead a x.type.size
    return interpType x.type w

/-- `Write(o, r)`: store an integer, truncated to the operand's width and, in a register, extended by its signedness. -/
def writeOpnd (x : Opnd) (r : Int) : M Unit :=
  match x.place with
  | .value _ => raise .invalidDescriptor
  | .reg n => writeDestReg n (extendType x.type r)
  | .mem a => memWrite a x.type.size (patternOf r)

/-- The effective address of an address operand (R412). -/
def addressOf (x : Opnd) : Word :=
  match x.place with
  | .mem a => a
  | _ => 0

/-- The destination is the PSW: the instruction's own flag update is suppressed (R111, R803). -/
def isPswDest (x : Opnd) : Bool :=
  x.place == .reg regPSW

/-- The flag update of an instruction with a destination (R120, R111). -/
def writeFlags (x : Opnd) (f : Flags) : M Unit :=
  if isPswDest x then pure () else update fun s => s.setFlags f

/-- The flag update of an instruction of 41_data_movement.md without a destination operand (R450 item 2). -/
def movFlags (f : Flags) : M Unit :=
  update fun s => if s.params.movSetsFlags then s.setFlags f else s

/-- The flag update of an instruction of 41_data_movement.md with a destination operand (R450 items 2 and 3). -/
def movDestFlags (x : Opnd) (f : Flags) : M Unit :=
  if isPswDest x then pure () else movFlags f

/-! ## Gathering operands (R410, R411) -/

/-- R411: every operand is legal in its class, checked before any of them is accessed. -/
def requireLegal (l : List (OpClass × Operand)) : M Unit :=
  if l.all fun x => operandOk x.1 x.2 then pure () else raise .invalidDescriptor

/-- One operand. -/
def gather1 (c : OpClass) (t : OpType) (o : Operand) : M Opnd := do
  requireLegal [(c, o)]
  operand t [] o

/-- Two operands, their addresses in operand order. -/
def gather2 (c₁ c₂ : OpClass) (t : OpType) (o₁ o₂ : Operand) : M (Opnd × Opnd) := do
  requireLegal [(c₁, o₁), (c₂, o₂)]
  let x₁ ← operand t [] o₁
  let x₂ ← operand t [o₁] o₂
  return (x₁, x₂)

/-- Three operands, their addresses in operand order. -/
def gather3 (c₁ c₂ c₃ : OpClass) (t : OpType) (o₁ o₂ o₃ : Operand) : M (Opnd × Opnd × Opnd) := do
  requireLegal [(c₁, o₁), (c₂, o₂), (c₃, o₃)]
  let x₁ ← operand t [] o₁
  let x₂ ← operand t [o₁] o₂
  let x₃ ← operand t [o₂, o₁] o₃
  return (x₁, x₂, x₃)

/-- Four operands, their addresses in operand order. -/
def gather4 (c₁ c₂ c₃ c₄ : OpClass) (t : OpType) (o₁ o₂ o₃ o₄ : Operand) : M (Opnd × Opnd × Opnd × Opnd) := do
  requireLegal [(c₁, o₁), (c₂, o₂), (c₃, o₃), (c₄, o₄)]
  let x₁ ← operand t [] o₁
  let x₂ ← operand t [o₁] o₂
  let x₃ ← operand t [o₂, o₁] o₃
  let x₄ ← operand t [o₃, o₂, o₁] o₄
  return (x₁, x₂, x₃, x₄)

/-- `OP src` with a value: R410 steps 3 and 4. -/
def inputR (t : OpType) (src : Operand) : M Int := do
  let x ← gather1 .read t src
  readOpnd x

/-- `OP src1, src2` with two values. -/
def inputRR (t : OpType) (src1 src2 : Operand) : M (Int × Int) := do
  let (x, y) ← gather2 .read .read t src1 src2
  let a ← readOpnd x
  let b ← readOpnd y
  return (a, b)

/-- `OP dst`, dst read and written. -/
def inputM (t : OpType) (dst : Operand) : M (Int × Opnd) := do
  let d ← gather1 .modify t dst
  let b ← readOpnd d
  return (b, d)

/-- `OP src, dst`, dst written. -/
def inputRW (t : OpType) (src dst : Operand) : M (Int × Opnd) := do
  let (x, d) ← gather2 .read .write t src dst
  let a ← readOpnd x
  return (a, d)

/-- `OP src, dst`, dst read and written. -/
def inputRM (t : OpType) (src dst : Operand) : M (Int × Int × Opnd) := do
  let (x, d) ← gather2 .read .modify t src dst
  let a ← readOpnd x
  let b ← readOpnd d
  return (a, b, d)

/-- `OP src1, src2, dst`, dst written. -/
def inputRRW (t : OpType) (src1 src2 dst : Operand) : M (Int × Int × Opnd) := do
  let (x, y, d) ← gather3 .read .read .write t src1 src2 dst
  let a ← readOpnd x
  let b ← readOpnd y
  return (a, b, d)

/-- `OP width, offset, src, dst`, dst written. -/
def inputRRRW (t : OpType) (width offset src dst : Operand) : M (Int × Int × Int × Opnd) := do
  let (w, o, x, d) ← gather4 .read .read .read .write t width offset src dst
  let n ← readOpnd w
  let k ← readOpnd o
  let a ← readOpnd x
  return (n, k, a, d)

/-- `OP width, offset, src, dst`, dst read and written. -/
def inputRRRM (t : OpType) (width offset src dst : Operand) : M (Int × Int × Int × Int × Opnd) := do
  let (w, o, x, d) ← gather4 .read .read .read .modify t width offset src dst
  let n ← readOpnd w
  let k ← readOpnd o
  let a ← readOpnd x
  let b ← readOpnd d
  return (n, k, a, b, d)

/-- `OP dst`, the address of dst (R412). -/
def inputA (dst : Operand) : M Word := do
  let x ← gather1 .addr wordT dst
  return addressOf x

/-- The writes of an instruction with a destination (R410 steps 6 and 7): the destination, the flags, the PC. -/
def finish (d : Opnd) (r : Int) (f : Flags) (len : Nat) : M Unit := do
  writeOpnd d r
  writeFlags d f
  advancePc len

end Sys2Proof.Machine
end

