-- ==== Sys2Proof/Machine/Cycle.lean ====
section
/-! DEFINITION. The step cycle (70_reset_and_hazards.md R910, R911): interrupt entry (60_exceptions.md R842, R843), fetch
and decode of one instruction, the trace record (10_state.md R132) and the DUART advance (R876). -/

namespace Sys2Proof.Machine

/-! ## Interrupt entry -/

/-- The PSW an interrupt entry saves: ET 1, ISC 0 (R843). -/
def interruptPsw (psw : Word) : Word :=
  Psw.setIsc 0 (Psw.setEt 1 psw)

/-- `IRQ_VECTOR_INDEX[s]` = 16 + s (R840, R843). -/
def irqVectorIndex (i : Fin 5) : Nat :=
  16 + i.val

/-- Interrupt entry for source i (R843); if the gate transfer faults, the state stays, the latch too, and the status
becomes Faulted(BusFault) (R814). -/
def takeInterrupt (i : Fin 5) (s : State) : State :=
  match gateTransfer s.pc (interruptPsw s.psw) 0 (gateOffset (irqVectorIndex i)) (some s.params.irqPriority[i]) s with
  | .ok (_, t) => { t with pending := t.pending.set i.val false i.isLt, waiting := false }
  | .error _ => { s with status := .faulted .busFault }

/-- The interrupt check at the start of a step (R842, R910). -/
def checkInterrupt (s : State) : State :=
  match pickIrq s.params s.pending (Psw.ipl s.psw) with
  | some i => takeInterrupt i s
  | none => s

/-! ## Fetch, decode and execute -/

/-- The bytes the fetch of the instruction at the PC can reach (R230). -/
def fetchWindow (s : State) : List Byte :=
  fetchStream s s.pc Config.maxInstrBytes

/-- The trap of an instruction that does not decode (R341, R345, R403, R720, R811). -/
def decodeTrap (s : State) : DecodeWhy → FaultKind
  | .truncated => .busFault
  | .undefinedOpcode => .illegalInstruction
  | .invalidDescriptor => .invalidDescriptor
  | .refusedOpcode privileged => if privileged && !s.kernel then .privilegedOpcode else .illegalInstruction

/-- A refused opcode with operand fields: they are not decoded when it is executed (R755, R756). -/
def operandsUndecoded (i : Instr) : Bool :=
  i.fields.any fun f =>
    match f with
    | .g .ignored _ => true
    | .raw32 _ => true
    | _ => false

/-- The fields up to and with the first one that is illegal in its class, where decoding ends (R403, R411). -/
def decodedFields : List Field → List Field
  | [] => []
  | f :: rest => if f.wellFormed then f :: decodedFields rest else [f]

/-- The general operands of some fields. -/
def generalOperands : List Field → List Operand
  | [] => []
  | .g _ o :: rest => o :: generalOperands rest
  | _ :: rest => generalOperands rest

/-- The effective addresses of memory operands, in operand order, up to the first one that faults. -/
def effectiveAddresses : List Operand → State → List Word
  | [], _ => []
  | o :: rest, s =>
    match locate o.form s with
    | .ok (.mem a, t) => a :: effectiveAddresses rest t
    | .ok (_, t) => effectiveAddresses rest t
    | .error _ => []

/-- The trace record of a decoded instruction that starts in `s` (R132; log entry 7): the bytes decoded, and the
effective addresses where the instruction came to compute them. -/
def traceOf (s : State) (i : Instr) (bytes : List Byte) : TraceRecord :=
  if operandsUndecoded i then ⟨i.mnemonic, bytes.take i.opcode.length, []⟩
  else
    { mnemonic := i.mnemonic
      rawBytes := bytes.take (i.opcode.length + ((decodedFields i.fields).map Field.len).sum)
      effectiveAddresses := if i.wellFormed then effectiveAddresses (generalOperands i.fields) s else [] }

/-- The trace record after an instruction that did not decode: the bytes fetched so far; unchanged where the opcode is not
identified (R132; log entry 7). -/
def traceOfError (s : State) (e : DecodeError) (bytes : List Byte) : Option TraceRecord :=
  match e.mnemonic with
  | some m =>
    match e.why with
    | .refusedOpcode _ => some ⟨m, bytes.take 1, []⟩
    | _ => some ⟨m, bytes.take (bytes.length - e.rest.length), []⟩
  | none => s.trace

/-- Execute one instruction at the PC (R910), given what executes a decoded one. -/
def executeAt (run : Instr → State → Host.Outcome State Fault Refusal) (s : State) :
    Host.Outcome State Fault Refusal :=
  match decode (fetchWindow s) with
  | .ok (i, _) =>
    match run i s with
    | .next t => .next { t with trace := some (traceOf s i (fetchWindow s)) }
    | .fault f => .fault f
    | .refused r => .refused r
  | .error e =>
    .next { takeTrap (decodeTrap s e.why) s with trace := traceOfError s e (fetchWindow s) }

/-! ## The step -/

/-- `DUART.advance(1)` with its edge detection (R841, R876). -/
def State.advanceDuart (s : State) : State :=
  s.withDuart (s.duart.advance s.params)

/-- `PSW.TM <- PSW.TE` (R815, R910). -/
def State.startTrace (s : State) : State :=
  s.setPsw (Psw.setTm (Psw.te s.psw) s.psw)

/-- The end of a step: the DUART advances unless a trap dispatch failed (R910). -/
def endOfStep (t : State) : State :=
  match t.status with
  | .faulted _ => t
  | _ => t.advanceDuart

/-- R910: one step, given what executes a decoded instruction. -/
def stepWith (run : Instr → State → Host.Outcome State Fault Refusal) (s : State) :
    Host.Outcome State Fault Refusal :=
  if s.status = .running then
    let s₁ := checkInterrupt s
    if s₁.status = .running then
      if s₁.waiting then .next s₁.advanceDuart
      else
        match executeAt run s₁.startTrace with
        | .next t => .next (endOfStep t)
        | .fault f => .fault f
        | .refused r => .refused r
    else .next s₁
  else .next s

/-- Store bytes at ascending addresses modulo 2^32, as a fetch reads them. -/
def storeStream : Memory → Word → List Byte → Memory
  | m, _, [] => m
  | m, a, b :: rest => storeStream (m.write a.toNat b) (a + 1) rest

end Sys2Proof.Machine
end

