-- ==== Sys2Proof/Machine/Arith.lean ====
section
/-! DEFINITION. Integer arithmetic (42_arithmetic.md R500 to R539). -/

namespace Sys2Proof.Machine

/-- The operations of 42_arithmetic.md. -/
inductive AluOp where
  | add
  | sub
  | mul
  | div
  | mod
  deriving DecidableEq, Repr

/-- The exact result of `b OP a` on integers, a the first source and b the second source or the destination; none for a
divisor of 0. Division truncates toward zero, the remainder has the sign of the dividend (00_scope.md R10). -/
def aluResult : AluOp → Int → Int → Option Int
  | .add, a, b => some (b + a)
  | .sub, a, b => some (b - a)
  | .mul, a, b => some (b * a)
  | .div, a, b => if a = 0 then none else some (b.tdiv a)
  | .mod, a, b => if a = 0 then none else some (b.tmod a)

/-- The C flag of `b OP a` at width w: carry, borrow, or 0 (R120, R501 to R530). -/
def aluCarry (op : AluOp) (w : Nat) (a b : Int) : Bool :=
  match op with
  | .add => flagCarry w a b
  | .sub => flagBorrow w b a
  | .mul | .div | .mod => false

/-- The V flag of `b OP a` with result r in a destination of type T: the overflow of the patterns, or r outside the range
of T (R120, R501 to R530). -/
def aluOverflow (op : AluOp) (t : OpType) (a b r : Int) : Bool :=
  match op with
  | .add => flagOvfAdd (typeBits t) b a
  | .sub => flagOvfSub (typeBits t) b a
  | .mul | .div | .mod => flagTrunc t r

/-- The flags of `b OP a` with result r in a destination of type T. -/
def aluFlags (op : AluOp) (t : OpType) (a b r : Int) : Flags :=
  flagsOf t r (aluCarry op (typeBits t) a b) (aluOverflow op t a b r)

/-- Compute `b OP a` and store it (R500): ZeroDivide before any write for a divisor of 0. -/
def aluStore (op : AluOp) (a b : Int) (d : Opnd) (len : Nat) : M Unit :=
  match aluResult op a b with
  | none => raise .zeroDivide
  | some r => finish d r (aluFlags op d.type a b r) len

/-- `OP src, dst` (R500 "op2"). -/
def arith2 (op : AluOp) (t : OpType) (src dst : Operand) : M Unit := do
  let (a, b, d) ← inputRM t src dst
  aluStore op a b d (1 + src.len + dst.len)

/-- `OP src1, src2, dst` (R500 "op3"). -/
def arith3 (op : AluOp) (t : OpType) (src1 src2 dst : Operand) : M Unit := do
  let (a, b, d) ← inputRRW t src1 src2 dst
  aluStore op a b d (1 + src1.len + src2.len + dst.len)

/-- INC* and DEC*: `dst OP 1` (R531 to R536). -/
def arithOne (op : AluOp) (t : OpType) (dst : Operand) : M Unit := do
  let (b, d) ← inputM t dst
  aluStore op 1 b d (1 + dst.len)

/-- MNEG*: `0 - src` (R537 to R539). -/
def arithNeg (t : OpType) (src dst : Operand) : M Unit := do
  let (a, d) ← inputRW t src dst
  aluStore .sub a 0 d (1 + src.len + dst.len)

/-- ADDW2 (R501). -/
def execAddw2 (src dst : Operand) (s : State) : Host.Outcome State Fault Refusal :=
  runInstr true (arith2 .add wordT src dst) s

/-- ADDH2 (R502). -/
def execAddh2 (src dst : Operand) (s : State) : Host.Outcome State Fault Refusal :=
  runInstr true (arith2 .add halfT src dst) s

/-- ADDB2 (R503). -/
def execAddb2 (src dst : Operand) (s : State) : Host.Outcome State Fault Refusal :=
  runInstr true (arith2 .add byteT src dst) s

/-- ADDW3 (R504). -/
def execAddw3 (src1 src2 dst : Operand) (s : State) : Host.Outcome State Fault Refusal :=
  runInstr true (arith3 .add wordT src1 src2 dst) s

/-- ADDH3 (R505). -/
def execAddh3 (src1 src2 dst : Operand) (s : State) : Host.Outcome State Fault Refusal :=
  runInstr true (arith3 .add halfT src1 src2 dst) s

/-- ADDB3 (R506). -/
def execAddb3 (src1 src2 dst : Operand) (s : State) : Host.Outcome State Fault Refusal :=
  runInstr true (arith3 .add byteT src1 src2 dst) s

/-- SUBW2 (R507). -/
def execSubw2 (src dst : Operand) (s : State) : Host.Outcome State Fault Refusal :=
  runInstr true (arith2 .sub wordT src dst) s

/-- SUBH2 (R508). -/
def execSubh2 (src dst : Operand) (s : State) : Host.Outcome State Fault Refusal :=
  runInstr true (arith2 .sub halfT src dst) s

/-- SUBB2 (R509). -/
def execSubb2 (src dst : Operand) (s : State) : Host.Outcome State Fault Refusal :=
  runInstr true (arith2 .sub byteT src dst) s

/-- SUBW3 (R510). -/
def execSubw3 (src1 src2 dst : Operand) (s : State) : Host.Outcome State Fault Refusal :=
  runInstr true (arith3 .sub wordT src1 src2 dst) s

/-- SUBH3 (R511). -/
def execSubh3 (src1 src2 dst : Operand) (s : State) : Host.Outcome State Fault Refusal :=
  runInstr true (arith3 .sub halfT src1 src2 dst) s

/-- SUBB3 (R512). -/
def execSubb3 (src1 src2 dst : Operand) (s : State) : Host.Outcome State Fault Refusal :=
  runInstr true (arith3 .sub byteT src1 src2 dst) s

/-- MULW2 (R513). -/
def execMulw2 (src dst : Operand) (s : State) : Host.Outcome State Fault Refusal :=
  runInstr true (arith2 .mul wordT src dst) s

/-- MULH2 (R514). -/
def execMulh2 (src dst : Operand) (s : State) : Host.Outcome State Fault Refusal :=
  runInstr true (arith2 .mul halfT src dst) s

/-- MULB2 (R515). -/
def execMulb2 (src dst : Operand) (s : State) : Host.Outcome State Fault Refusal :=
  runInstr true (arith2 .mul byteT src dst) s

/-- MULW3 (R516). -/
def execMulw3 (src1 src2 dst : Operand) (s : State) : Host.Outcome State Fault Refusal :=
  runInstr true (arith3 .mul wordT src1 src2 dst) s

/-- MULH3 (R517). -/
def execMulh3 (src1 src2 dst : Operand) (s : State) : Host.Outcome State Fault Refusal :=
  runInstr true (arith3 .mul halfT src1 src2 dst) s

/-- MULB3 (R518). -/
def execMulb3 (src1 src2 dst : Operand) (s : State) : Host.Outcome State Fault Refusal :=
  runInstr true (arith3 .mul byteT src1 src2 dst) s

/-- DIVW2 (R519). -/
def execDivw2 (src dst : Operand) (s : State) : Host.Outcome State Fault Refusal :=
  runInstr true (arith2 .div wordT src dst) s

/-- DIVH2 (R520). -/
def execDivh2 (src dst : Operand) (s : State) : Host.Outcome State Fault Refusal :=
  runInstr true (arith2 .div halfT src dst) s

/-- DIVB2 (R521). -/
def execDivb2 (src dst : Operand) (s : State) : Host.Outcome State Fault Refusal :=
  runInstr true (arith2 .div byteT src dst) s

/-- DIVW3 (R522). -/
def execDivw3 (src1 src2 dst : Operand) (s : State) : Host.Outcome State Fault Refusal :=
  runInstr true (arith3 .div wordT src1 src2 dst) s

/-- DIVH3 (R523). -/
def execDivh3 (src1 src2 dst : Operand) (s : State) : Host.Outcome State Fault Refusal :=
  runInstr true (arith3 .div halfT src1 src2 dst) s

/-- DIVB3 (R524). -/
def execDivb3 (src1 src2 dst : Operand) (s : State) : Host.Outcome State Fault Refusal :=
  runInstr true (arith3 .div byteT src1 src2 dst) s

/-- MODW2 (R525). -/
def execModw2 (src dst : Operand) (s : State) : Host.Outcome State Fault Refusal :=
  runInstr true (arith2 .mod wordT src dst) s

/-- MODH2 (R526). -/
def execModh2 (src dst : Operand) (s : State) : Host.Outcome State Fault Refusal :=
  runInstr true (arith2 .mod halfT src dst) s

/-- MODB2 (R527). -/
def execModb2 (src dst : Operand) (s : State) : Host.Outcome State Fault Refusal :=
  runInstr true (arith2 .mod byteT src dst) s

/-- MODW3 (R528). -/
def execModw3 (src1 src2 dst : Operand) (s : State) : Host.Outcome State Fault Refusal :=
  runInstr true (arith3 .mod wordT src1 src2 dst) s

/-- MODH3 (R529). -/
def execModh3 (src1 src2 dst : Operand) (s : State) : Host.Outcome State Fault Refusal :=
  runInstr true (arith3 .mod halfT src1 src2 dst) s

/-- MODB3 (R530). -/
def execModb3 (src1 src2 dst : Operand) (s : State) : Host.Outcome State Fault Refusal :=
  runInstr true (arith3 .mod byteT src1 src2 dst) s

/-- INCW (R531). -/
def execIncw (dst : Operand) (s : State) : Host.Outcome State Fault Refusal :=
  runInstr true (arithOne .add wordT dst) s

/-- INCH (R532). -/
def execInch (dst : Operand) (s : State) : Host.Outcome State Fault Refusal :=
  runInstr true (arithOne .add halfT dst) s

/-- INCB (R533). -/
def execIncb (dst : Operand) (s : State) : Host.Outcome State Fault Refusal :=
  runInstr true (arithOne .add byteT dst) s

/-- DECW (R534). -/
def execDecw (dst : Operand) (s : State) : Host.Outcome State Fault Refusal :=
  runInstr true (arithOne .sub wordT dst) s

/-- DECH (R535). -/
def execDech (dst : Operand) (s : State) : Host.Outcome State Fault Refusal :=
  runInstr true (arithOne .sub halfT dst) s

/-- DECB (R536). -/
def execDecb (dst : Operand) (s : State) : Host.Outcome State Fault Refusal :=
  runInstr true (arithOne .sub byteT dst) s

/-- MNEGW (R537). -/
def execMnegw (src dst : Operand) (s : State) : Host.Outcome State Fault Refusal :=
  runInstr true (arithNeg wordT src dst) s

/-- MNEGH (R538). -/
def execMnegh (src dst : Operand) (s : State) : Host.Outcome State Fault Refusal :=
  runInstr true (arithNeg halfT src dst) s

/-- MNEGB (R539). -/
def execMnegb (src dst : Operand) (s : State) : Host.Outcome State Fault Refusal :=
  runInstr true (arithNeg byteT src dst) s

end Sys2Proof.Machine
end

