-- ==== Sys2Proof/Machine/Block.lean ====
section
/-! DEFINITION. Block and string instructions (46_block_string.md R700 to R703). -/

namespace Sys2Proof.Machine

/-- Copy k words from r0 up to r1 up, one at a time, moving both pointers and the count (R701). -/
def moveWords : Nat → M Unit
  | 0 => pure ()
  | k + 1 => do
    let s ← getState
    let w ← memRead (s.reg 0) .word
    memWrite (s.reg 1) .word w
    setReg 0 (s.reg 0 + 4)
    setReg 1 (s.reg 1 + 4)
    setReg 2 (s.reg 2 - 1)
    moveWords k

/-- Copy bytes from `src + i` to `dst + i` up to and with the first 0 byte (R702). The first argument bounds the loop:
2^32 bytes reach every address, and an unmapped one ends the loop with BusFault (R700 item 5; log entry 14). -/
def copyString : Nat → Word → Word → M Unit
  | 0, _, _ => raise .busFault
  | k + 1, src, dst => do
    let b ← memRead src .byte
    memWrite dst .byte b
    if b = 0 then pure () else copyString k (src + 1) (dst + 1)

/-- The address of the first 0 byte at or above `a` (R703); the bound as in `copyString`. -/
def findNul : Nat → Word → M Word
  | 0, _ => raise .busFault
  | k + 1, a => do
    let b ← memRead a .byte
    if b = 0 then return a else findNul k (a + 1)

/-- The length of the address space (20_memory.md R200). -/
def addressCount : Nat := 4294967296

/-- MOVBLW (R701): r2 words. -/
def moveBlock : M Unit := do
  let n ← getReg 2
  moveWords n.toNat
  advancePc 2

/-- STRCPY (R702): r0 and r1 are not changed. -/
def stringCopy : M Unit := do
  let s ← getState
  copyString addressCount (s.reg 0) (s.reg 1)
  advancePc 2

/-- STREND (R703): r0 ends at the NUL. -/
def stringEnd : M Unit := do
  let s ← getState
  let a ← findNul addressCount (s.reg 0)
  setReg 0 a
  advancePc 2

/-- MOVBLW (R701). -/
def execMovblw (s : State) : Host.Outcome State Fault Refusal :=
  runInstr false moveBlock s

/-- STRCPY (R702). -/
def execStrcpy (s : State) : Host.Outcome State Fault Refusal :=
  runInstr false stringCopy s

/-- STREND (R703). -/
def execStrend (s : State) : Host.Outcome State Fault Refusal :=
  runInstr false stringEnd s

end Sys2Proof.Machine
end

