-- ==== Sys2Proof/Machine/Branch.lean ====
section
/-! DEFINITION. Branches, conditional returns and JMP (44_compare_branch.md R600, R610 to R655). -/

namespace Sys2Proof.Machine

/-- A branch always (R611, R612). -/
def branchAlways {w : Nat} (disp : BitVec w) : M Unit :=
  branchPc disp

/-- A branch on a condition; not taken, it advances the PC by the instruction's length (R600, R613 to R640). -/
def branchIf {w : Nat} (c : Cond) (disp : BitVec w) (len : Nat) : M Unit := do
  let s ← getState
  if condHolds c (Psw.flags s.psw) then branchPc disp else advancePc len

/-- A return from subroutine: pop the word at SP - 4 into the PC (R641 to R654, 45_call_stack.md R666). -/
def popPc : M Unit := do
  let target ← pop
  setReg regPC target

/-- A return on a condition (R641 to R654). -/
def returnIf (c : Cond) : M Unit := do
  let s ← getState
  if condHolds c (Psw.flags s.psw) then popPc else advancePc 1

/-- JMP (R655): the PC becomes the effective address. -/
def jump (dst : Operand) : M Unit := do
  let target ← inputA dst
  setReg regPC target

/-- BRB (R611). -/
def execBrb (disp : Byte) (s : State) : Host.Outcome State Fault Refusal :=
  runInstr false (branchAlways disp) s

/-- BRH (R612): its pseudocode and example, against the count of bytes in its corner case (DEDUCED, log entry 34). -/
def execBrh (disp : Half) (s : State) : Host.Outcome State Fault Refusal :=
  runInstr false (branchAlways disp) s

/-- BGEB (R613). -/
def execBgeb (disp : Byte) (s : State) : Host.Outcome State Fault Refusal :=
  runInstr false (branchIf .geq disp 2) s

/-- BGEH (R614). -/
def execBgeh (disp : Half) (s : State) : Host.Outcome State Fault Refusal :=
  runInstr false (branchIf .geq disp 3) s

/-- BGB (R615). -/
def execBgb (disp : Byte) (s : State) : Host.Outcome State Fault Refusal :=
  runInstr false (branchIf .gtr disp 2) s

/-- BGH (R616). -/
def execBgh (disp : Half) (s : State) : Host.Outcome State Fault Refusal :=
  runInstr false (branchIf .gtr disp 3) s

/-- BLB (R617). -/
def execBlb (disp : Byte) (s : State) : Host.Outcome State Fault Refusal :=
  runInstr false (branchIf .lss disp 2) s

/-- BLH (R618). -/
def execBlh (disp : Half) (s : State) : Host.Outcome State Fault Refusal :=
  runInstr false (branchIf .lss disp 3) s

/-- BLEB (R619). -/
def execBleb (disp : Byte) (s : State) : Host.Outcome State Fault Refusal :=
  runInstr false (branchIf .leq disp 2) s

/-- BLEH (R620). -/
def execBleh (disp : Half) (s : State) : Host.Outcome State Fault Refusal :=
  runInstr false (branchIf .leq disp 3) s

/-- BGEUB (R621). -/
def execBgeub (disp : Byte) (s : State) : Host.Outcome State Fault Refusal :=
  runInstr false (branchIf .gequ disp 2) s

/-- BGEUH (R622). -/
def execBgeuh (disp : Half) (s : State) : Host.Outcome State Fault Refusal :=
  runInstr false (branchIf .gequ disp 3) s

/-- BGUB (R623). -/
def execBgub (disp : Byte) (s : State) : Host.Outcome State Fault Refusal :=
  runInstr false (branchIf .gtru disp 2) s

/-- BGUH (R624). -/
def execBguh (disp : Half) (s : State) : Host.Outcome State Fault Refusal :=
  runInstr false (branchIf .gtru disp 3) s

/-- BLUB (R625). -/
def execBlub (disp : Byte) (s : State) : Host.Outcome State Fault Refusal :=
  runInstr false (branchIf .lssu disp 2) s

/-- BLUH (R626). -/
def execBluh (disp : Half) (s : State) : Host.Outcome State Fault Refusal :=
  runInstr false (branchIf .lssu disp 3) s

/-- BLEUB (R627). -/
def execBleub (disp : Byte) (s : State) : Host.Outcome State Fault Refusal :=
  runInstr false (branchIf .lequ disp 2) s

/-- BLEUH (R628). -/
def execBleuh (disp : Half) (s : State) : Host.Outcome State Fault Refusal :=
  runInstr false (branchIf .lequ disp 3) s

/-- BVCB (R629). -/
def execBvcb (disp : Byte) (s : State) : Host.Outcome State Fault Refusal :=
  runInstr false (branchIf .vc disp 2) s

/-- BVCH (R630). -/
def execBvch (disp : Half) (s : State) : Host.Outcome State Fault Refusal :=
  runInstr false (branchIf .vc disp 3) s

/-- BNEUB (R631). -/
def execBneub (disp : Byte) (s : State) : Host.Outcome State Fault Refusal :=
  runInstr false (branchIf .neq disp 2) s

/-- BNEUH (R632). -/
def execBneuh (disp : Half) (s : State) : Host.Outcome State Fault Refusal :=
  runInstr false (branchIf .neq disp 3) s

/-- BVSB (R633). -/
def execBvsb (disp : Byte) (s : State) : Host.Outcome State Fault Refusal :=
  runInstr false (branchIf .vs disp 2) s

/-- BVSH (R634). -/
def execBvsh (disp : Half) (s : State) : Host.Outcome State Fault Refusal :=
  runInstr false (branchIf .vs disp 3) s

/-- BEUB (R635). -/
def execBeub (disp : Byte) (s : State) : Host.Outcome State Fault Refusal :=
  runInstr false (branchIf .eql disp 2) s

/-- BEUH (R636). -/
def execBeuh (disp : Half) (s : State) : Host.Outcome State Fault Refusal :=
  runInstr false (branchIf .eql disp 3) s

/-- BNEB (R637). -/
def execBneb (disp : Byte) (s : State) : Host.Outcome State Fault Refusal :=
  runInstr false (branchIf .neq disp 2) s

/-- BNEH (R638). -/
def execBneh (disp : Half) (s : State) : Host.Outcome State Fault Refusal :=
  runInstr false (branchIf .neq disp 3) s

/-- BEB (R639). -/
def execBeb (disp : Byte) (s : State) : Host.Outcome State Fault Refusal :=
  runInstr false (branchIf .eql disp 2) s

/-- BEH (R640). -/
def execBeh (disp : Half) (s : State) : Host.Outcome State Fault Refusal :=
  runInstr false (branchIf .eql disp 3) s

/-- RGEQ (R641). -/
def execRgeq (s : State) : Host.Outcome State Fault Refusal :=
  runInstr false (returnIf .geq) s

/-- RGTR (R642). -/
def execRgtr (s : State) : Host.Outcome State Fault Refusal :=
  runInstr false (returnIf .gtr) s

/-- RLSS (R643). -/
def execRlss (s : State) : Host.Outcome State Fault Refusal :=
  runInstr false (returnIf .lss) s

/-- RLEQ (R644). -/
def execRleq (s : State) : Host.Outcome State Fault Refusal :=
  runInstr false (returnIf .leq) s

/-- RGEQU (R645). -/
def execRgequ (s : State) : Host.Outcome State Fault Refusal :=
  runInstr false (returnIf .gequ) s

/-- RGTRU (R646). -/
def execRgtru (s : State) : Host.Outcome State Fault Refusal :=
  runInstr false (returnIf .gtru) s

/-- RLSSU (R647). -/
def execRlssu (s : State) : Host.Outcome State Fault Refusal :=
  runInstr false (returnIf .lssu) s

/-- RLEQU (R648). -/
def execRlequ (s : State) : Host.Outcome State Fault Refusal :=
  runInstr false (returnIf .lequ) s

/-- RVC (R649). -/
def execRvc (s : State) : Host.Outcome State Fault Refusal :=
  runInstr false (returnIf .vc) s

/-- RNEQU (R650). -/
def execRnequ (s : State) : Host.Outcome State Fault Refusal :=
  runInstr false (returnIf .neq) s

/-- RVS (R651). -/
def execRvs (s : State) : Host.Outcome State Fault Refusal :=
  runInstr false (returnIf .vs) s

/-- REQLU (R652). -/
def execReqlu (s : State) : Host.Outcome State Fault Refusal :=
  runInstr false (returnIf .eql) s

/-- RNEQ (R653). -/
def execRneq (s : State) : Host.Outcome State Fault Refusal :=
  runInstr false (returnIf .neq) s

/-- REQL (R654). -/
def execReql (s : State) : Host.Outcome State Fault Refusal :=
  runInstr false (returnIf .eql) s

/-- JMP (R655). -/
def execJmp (dst : Operand) (s : State) : Host.Outcome State Fault Refusal :=
  runInstr false (jump dst) s

end Sys2Proof.Machine
end

