-- ==== Sys2Proof/Machine/CallStack.lean ====
section
/-! DEFINITION. Calls, returns and register save (45_call_stack.md R660 to R668). -/

namespace Sys2Proof.Machine

/-- CALL (R661): both addresses before SP changes; AP saved above the return address. -/
def call (argp dst : Operand) : M Unit := do
  let (x, y) ← gather2 .addr .addr wordT argp dst
  let s ← getState
  memWrite (s.sp + 4) .word (s.reg regAP)
  memWrite s.sp .word (s.pc + BitVec.ofNat 32 (1 + argp.len + dst.len))
  setReg regSP (s.sp + 8)
  setReg regAP (addressOf x)
  setReg regPC (addressOf y)

/-- RET (R662): SP becomes the caller's argument pointer. -/
def returnProcedure : M Unit := do
  let s ← getState
  let newAP ← memRead (s.sp - 4) .word
  let newPC ← memRead (s.sp - 8) .word
  setReg regAP newAP
  setReg regPC newPC
  setReg regSP (s.reg regAP)

/-- The registers rN .. r8, none when N > 8 (R663, R664). -/
def savedRegs (n : RegNum) : List RegNum :=
  [(0 : RegNum), 1, 2, 3, 4, 5, 6, 7, 8].drop n.val

/-- Store registers at ascending words (R663). -/
def storeRegs : Word → List RegNum → M Unit
  | _, [] => pure ()
  | a, r :: rest => do
    let v ← getReg r
    memWrite a .word v
    storeRegs (a + 4) rest

/-- Load registers from ascending words (R664). -/
def loadRegs : Word → List RegNum → M Unit
  | _, [] => pure ()
  | a, r :: rest => do
    let v ← memRead a .word
    setReg r v
    loadRegs (a + 4) rest

/-- The register an `R` operand names; InvalidDescriptor for any other descriptor and for r0 to r2 (R411, R663). -/
def namedReg (o : Operand) : M RegNum := do
  requireLegal [(.regName, o)]
  match o.form with
  | .reg r => return r
  | _ => raise .invalidDescriptor

/-- SAVE (R663): FP, then rN .. r8; SP and FP always advance by seven words. -/
def saveFrame (first : Operand) : M Unit := do
  let n ← namedReg first
  let s ← getState
  memWrite s.sp .word (s.reg regFP)
  storeRegs (s.sp + 4) (savedRegs n)
  setReg regSP (s.sp + 28)
  setReg regFP (s.sp + 28)
  advancePc 2

/-- RESTORE (R664): from the frame below FP. -/
def restoreFrame (first : Operand) : M Unit := do
  let n ← namedReg first
  let s ← getState
  let oldFP ← memRead (s.reg regFP - 28) .word
  loadRegs (s.reg regFP - 24) (savedRegs n)
  setReg regFP oldFP
  setReg regSP (s.reg regFP - 28)
  advancePc 2

/-- JSB (R665): the address is computed before SP changes. -/
def jumpSubroutine (dst : Operand) : M Unit := do
  let target ← inputA dst
  let s ← getState
  push (s.pc + BitVec.ofNat 32 (1 + dst.len))
  setReg regPC target

/-- BSB* (R667, R668): push the return address, then branch. -/
def branchSubroutine {w : Nat} (disp : BitVec w) (len : Nat) : M Unit := do
  let s ← getState
  push (s.pc + BitVec.ofNat 32 len)
  branchPc disp

/-- CALL (R661). -/
def execCall (argp dst : Operand) (s : State) : Host.Outcome State Fault Refusal :=
  runInstr false (call argp dst) s

/-- RET (R662). -/
def execRet (s : State) : Host.Outcome State Fault Refusal :=
  runInstr false returnProcedure s

/-- SAVE (R663). -/
def execSave (first : Operand) (s : State) : Host.Outcome State Fault Refusal :=
  runInstr false (saveFrame first) s

/-- RESTORE (R664). -/
def execRestore (first : Operand) (s : State) : Host.Outcome State Fault Refusal :=
  runInstr false (restoreFrame first) s

/-- JSB (R665). -/
def execJsb (dst : Operand) (s : State) : Host.Outcome State Fault Refusal :=
  runInstr false (jumpSubroutine dst) s

/-- RSB (R666): the unconditional member of the conditional returns. -/
def execRsb (s : State) : Host.Outcome State Fault Refusal :=
  runInstr false popPc s

/-- BSBB (R667). -/
def execBsbb (disp : Byte) (s : State) : Host.Outcome State Fault Refusal :=
  runInstr false (branchSubroutine disp 2) s

/-- BSBH (R668). -/
def execBsbh (disp : Half) (s : State) : Host.Outcome State Fault Refusal :=
  runInstr false (branchSubroutine disp 3) s

end Sys2Proof.Machine
end

