-- ==== Sys2Proof/Machine/Compare.lean ====
section
/-! DEFINITION. Compare, test and bit-test instructions (44_compare_branch.md R601 to R609). -/

namespace Sys2Proof.Machine

/-- The flags of a compare of b (src2) against a (src1) at width w (R601 to R603). -/
def compareFlags (w : Nat) (a b : Int) : Flags where
  n := decide ((truncBits w b).toInt < (truncBits w a).toInt)
  z := truncBits w b == truncBits w a
  c := decide ((truncBits w b).toNat < (truncBits w a).toNat)
  v := false

/-- CMP*: at the instruction's own width, whatever the operands' types. -/
def compare (t : OpType) (src1 src2 : Operand) : M Unit := do
  let (a, b) ← inputRR t src1 src2
  update fun s => s.setFlags (compareFlags (typeBits t) a b)
  advancePc (1 + src1.len + src2.len)

/-- TST*: NZ of the operand at the instruction's width. -/
def test (t : OpType) (src : Operand) : M Unit := do
  let a ← inputR t src
  update fun s => s.setFlags (flagsOf t a false false)
  advancePc (1 + src.len)

/-- BIT*: NZ of the operands' bitwise and at the instruction's width. -/
def bitTest (t : OpType) (src1 src2 : Operand) : M Unit := do
  let (a, b) ← inputRR t src1 src2
  update fun s => s.setFlags (flagsOf t (patternOf a &&& patternOf b).toInt false false)
  advancePc (1 + src1.len + src2.len)

/-- CMPW (R601). -/
def execCmpw (src1 src2 : Operand) (s : State) : Host.Outcome State Fault Refusal :=
  runInstr false (compare wordT src1 src2) s

/-- CMPH (R602). -/
def execCmph (src1 src2 : Operand) (s : State) : Host.Outcome State Fault Refusal :=
  runInstr false (compare halfT src1 src2) s

/-- CMPB (R603). -/
def execCmpb (src1 src2 : Operand) (s : State) : Host.Outcome State Fault Refusal :=
  runInstr false (compare byteT src1 src2) s

/-- TSTW (R604). -/
def execTstw (src : Operand) (s : State) : Host.Outcome State Fault Refusal :=
  runInstr false (test wordT src) s

/-- TSTH (R605). -/
def execTsth (src : Operand) (s : State) : Host.Outcome State Fault Refusal :=
  runInstr false (test halfT src) s

/-- TSTB (R606). -/
def execTstb (src : Operand) (s : State) : Host.Outcome State Fault Refusal :=
  runInstr false (test byteT src) s

/-- BITW (R607). -/
def execBitw (src1 src2 : Operand) (s : State) : Host.Outcome State Fault Refusal :=
  runInstr false (bitTest wordT src1 src2) s

/-- BITH (R608). -/
def execBith (src1 src2 : Operand) (s : State) : Host.Outcome State Fault Refusal :=
  runInstr false (bitTest halfT src1 src2) s

/-- BITB (R609). -/
def execBitb (src1 src2 : Operand) (s : State) : Host.Outcome State Fault Refusal :=
  runInstr false (bitTest byteT src1 src2) s

end Sys2Proof.Machine
end

