-- ==== Sys2Proof/Machine/DataMove.lean ====
section
/-! DEFINITION. Data movement and stack (41_data_movement.md R450 to R464). -/

namespace Sys2Proof.Machine

/-- The writes of an instruction of this file with a destination: the destination, the flags (R450 items 2 and 3), the
PC. -/
def finishMov (d : Opnd) (r : Int) (f : Flags) (len : Nat) : M Unit := do
  writeOpnd d r
  movDestFlags d f
  advancePc len

/-- The flags of a word pushed, popped or moved as an address: NZ at 32 bits, C and V 0. -/
def wordFlags (v : Word) : Flags :=
  flagsOf wordT v.toInt false false

/-- MOV*: V tells that the value does not fit the destination type (R450 item 2; log entry 29). -/
def move (t : OpType) (src dst : Operand) : M Unit := do
  let (v, d) ← inputRW t src dst
  finishMov d v (flagsOf d.type v false (flagTrunc d.type v)) (1 + src.len + dst.len)

/-- MOVAW: the address itself is not read. -/
def moveAddress (src dst : Operand) : M Unit := do
  let (x, d) ← gather2 .addr .write wordT src dst
  let v := (addressOf x).toInt
  finishMov d v (flagsOf d.type v false false) (1 + src.len + dst.len)

/-- CLR*. -/
def clear (t : OpType) (dst : Operand) : M Unit := do
  let d ← gather1 .write t dst
  finishMov d 0 (flagsOf d.type 0 false false) (1 + dst.len)

/-- Push a word and set the flags from it (R458, R459; log entry 30). -/
def pushFlags (v : Word) (len : Nat) : M Unit := do
  push v
  movFlags (wordFlags v)
  advancePc len

/-- PUSHW: the operand is read before the push. -/
def pushValue (src : Operand) : M Unit := do
  let v ← inputR wordT src
  pushFlags (patternOf v) (1 + src.len)

/-- PUSHAW: the address is computed with SP as it was at the start. -/
def pushAddress (src : Operand) : M Unit := do
  let v ← inputA src
  pushFlags v (1 + src.len)

/-- POPW: a memory destination's address is computed before SP changes; the destination is written after it. -/
def popValue (dst : Operand) : M Unit := do
  let d ← gather1 .write wordT dst
  let v ← pop
  finishMov d v.toInt (flagsOf d.type v.toInt false false) (1 + dst.len)

/-- SWAP*I: exchange r0 and a memory operand (R462 to R464). With an expanded type on the operand, r0 is stored, and the
flags and r0's extension are taken, at the operand's type (R450 item 1), not at the width of the mnemonic that `trunc_16`
of R463 and `trunc_8` of R464 name (DEDUCED, log entry 30). -/
def swapInterlocked (t : OpType) (dst : Operand) : M Unit := do
  let d ← gather1 .memModify t dst
  let old ← readOpnd d
  let r0 ← getReg 0
  writeOpnd d r0.toInt
  setReg 0 (extendType d.type old)
  movFlags (flagsOf d.type old false false)
  advancePc (1 + dst.len)

/-- MOVW (R451). -/
def execMovw (src dst : Operand) (s : State) : Host.Outcome State Fault Refusal :=
  runInstr false (move wordT src dst) s

/-- MOVH (R452). -/
def execMovh (src dst : Operand) (s : State) : Host.Outcome State Fault Refusal :=
  runInstr false (move halfT src dst) s

/-- MOVB (R453). -/
def execMovb (src dst : Operand) (s : State) : Host.Outcome State Fault Refusal :=
  runInstr false (move byteT src dst) s

/-- MOVAW (R454). -/
def execMovaw (src dst : Operand) (s : State) : Host.Outcome State Fault Refusal :=
  runInstr false (moveAddress src dst) s

/-- CLRW (R455). -/
def execClrw (dst : Operand) (s : State) : Host.Outcome State Fault Refusal :=
  runInstr false (clear wordT dst) s

/-- CLRH (R456). -/
def execClrh (dst : Operand) (s : State) : Host.Outcome State Fault Refusal :=
  runInstr false (clear halfT dst) s

/-- CLRB (R457). -/
def execClrb (dst : Operand) (s : State) : Host.Outcome State Fault Refusal :=
  runInstr false (clear byteT dst) s

/-- PUSHW (R458). -/
def execPushw (src : Operand) (s : State) : Host.Outcome State Fault Refusal :=
  runInstr false (pushValue src) s

/-- PUSHAW (R459). -/
def execPushaw (src : Operand) (s : State) : Host.Outcome State Fault Refusal :=
  runInstr false (pushAddress src) s

/-- POPW (R460). -/
def execPopw (dst : Operand) (s : State) : Host.Outcome State Fault Refusal :=
  runInstr false (popValue dst) s

/-- SWAPWI (R462). -/
def execSwapwi (dst : Operand) (s : State) : Host.Outcome State Fault Refusal :=
  runInstr false (swapInterlocked wordT dst) s

/-- SWAPHI (R463). -/
def execSwaphi (dst : Operand) (s : State) : Host.Outcome State Fault Refusal :=
  runInstr false (swapInterlocked halfT dst) s

/-- SWAPBI (R464). -/
def execSwapbi (dst : Operand) (s : State) : Host.Outcome State Fault Refusal :=
  runInstr false (swapInterlocked byteT dst) s

end Sys2Proof.Machine
end

