-- ==== Sys2Proof/Machine/Logic.lean ====
section
/-! DEFINITION. Logical, complement, shift, rotate and bit-field instructions (43_logical_shift_field.md R550 to R586). -/

namespace Sys2Proof.Machine

/-- The bitwise operations of R551 to R568. -/
inductive BitOp where
  | and
  | or
  | xor
  deriving DecidableEq, Repr

/-- A bitwise operation on 32-bit patterns. -/
def bitResult : BitOp → Word → Word → Word
  | .and, a, b => b &&& a
  | .or, a, b => b ||| a
  | .xor, a, b => b ^^^ a

/-- Store a result pattern: read as an integer of the destination type, NZ of it, C and V 0 (R550). -/
def finishPattern (d : Opnd) (p : Word) (len : Nat) : M Unit :=
  finish d (interpType d.type p) (flagsOf d.type (interpType d.type p) false false) len

/-- The low w bits of an integer as a 32-bit pattern with zeros above them: an explicit `trunc_w` of R572 to R586 (log
entry 11). -/
def narrow (t : OpType) (r : Int) : Word :=
  (truncBits (typeBits t) r).setWidth 32

/-- A shift or rotate count: the low five bits of the count operand (R550). -/
def shiftCount (n : Int) : Nat :=
  (patternOf n).toNat % 32

/-- Rotate a 32-bit value right (00_scope.md R10). -/
def rotateRight (v : Word) (k : Nat) : Word :=
  v >>> k ||| v <<< (32 - k)

/-- Rotate a 32-bit value left. -/
def rotateLeft (v : Word) (k : Nat) : Word :=
  v <<< k ||| v >>> (32 - k)

/-- `OP src, dst` (R551 to R568). -/
def logic2 (op : BitOp) (t : OpType) (src dst : Operand) : M Unit := do
  let (a, b, d) ← inputRM t src dst
  finishPattern d (bitResult op (patternOf a) (patternOf b)) (1 + src.len + dst.len)

/-- `OP src1, src2, dst` (R551 to R568). -/
def logic3 (op : BitOp) (t : OpType) (src1 src2 dst : Operand) : M Unit := do
  let (a, b, d) ← inputRRW t src1 src2 dst
  finishPattern d (bitResult op (patternOf a) (patternOf b)) (1 + src1.len + src2.len + dst.len)

/-- MCOM* (R569 to R571). -/
def complement (t : OpType) (src dst : Operand) : M Unit := do
  let (a, d) ← inputRW t src dst
  finishPattern d (~~~patternOf a) (1 + src.len + dst.len)

/-- The shifts and rotates that store a pattern (R573 to R580). -/
inductive ShiftOp where
  | ars
  | lls
  | lrs
  | rot
  deriving DecidableEq, Repr

/-- The pattern of a shift by k of an instruction whose type is t: ARS* shifts the source's low w bits as a signed
number, LLS* keeps the low w bits, LRSW3 and ROTW work on the 32-bit pattern. -/
def shiftResult (op : ShiftOp) (t : OpType) (a : Int) (k : Nat) : Word :=
  match op with
  | .ars => narrow t ((truncBits (typeBits t) a).toInt >>> k)
  | .lls => narrow t (patternOf a <<< k).toInt
  | .lrs => patternOf a >>> k
  | .rot => rotateRight (patternOf a) k

/-- `OP count, src, dst` (R573 to R580). -/
def shift3 (op : ShiftOp) (t : OpType) (count src dst : Operand) : M Unit := do
  let (n, a, d) ← inputRRW t count src dst
  finishPattern d (shiftResult op t a (shiftCount n)) (1 + count.len + src.len + dst.len)

/-- ALSW3: the exact product with a power of two, V by truncation to the destination type (R572; log entry 12). -/
def shiftLeftArith (count src dst : Operand) : M Unit := do
  let (n, a, d) ← inputRRW wordT count src dst
  let r := a * 2 ^ shiftCount n
  finish d r (flagsOf d.type r false (flagTrunc d.type r)) (1 + count.len + src.len + dst.len)

/-- Field length 1 to 32: the width operand's low five bits plus one (R581). -/
def fieldLength (n : Int) : Nat :=
  shiftCount n + 1

/-- The field's mask `2^n - 1` (R581). -/
def fieldMask (n : Nat) : Word :=
  BitVec.ofNat 32 (2 ^ n - 1)

/-- INSF*: the pattern with the field at offset o replaced by the low n bits of the source (R581 to R583). -/
def insertField (n o : Nat) (a b : Word) : Word :=
  (b &&& ~~~rotateLeft (fieldMask n) o) ||| rotateLeft (a &&& fieldMask n) o

/-- EXTF*: the field of n bits at offset o (R584 to R586). -/
def extractField (n o : Nat) (a : Word) : Word :=
  rotateRight a o &&& fieldMask n

/-- Under `FIELD_WRAP` = Fault a field that runs past bit 31 has no meaning (R581). -/
def checkField (n o : Nat) : M Unit := do
  let s ← getState
  if s.params.fieldWrap = .fault ∧ 32 < o + n then stop .fieldPastBit31 else pure ()

/-- INSF* (R581 to R583): only the low w bits of the pattern are kept. -/
def insertBits (t : OpType) (width offset src dst : Operand) : M Unit := do
  let (n, o, a, b, d) ← inputRRRM t width offset src dst
  checkField (fieldLength n) (shiftCount o)
  finishPattern d (narrow t (insertField (fieldLength n) (shiftCount o) (patternOf a) (patternOf b)).toInt)
    (1 + width.len + offset.len + src.len + dst.len)

/-- EXTF* (R584 to R586): only the low w bits of the pattern are kept. -/
def extractBits (t : OpType) (width offset src dst : Operand) : M Unit := do
  let (n, o, a, d) ← inputRRRW t width offset src dst
  checkField (fieldLength n) (shiftCount o)
  finishPattern d (narrow t (extractField (fieldLength n) (shiftCount o) (patternOf a)).toInt)
    (1 + width.len + offset.len + src.len + dst.len)

/-- ANDW2 (R551). -/
def execAndw2 (src dst : Operand) (s : State) : Host.Outcome State Fault Refusal :=
  runInstr false (logic2 .and wordT src dst) s

/-- ANDH2 (R552). -/
def execAndh2 (src dst : Operand) (s : State) : Host.Outcome State Fault Refusal :=
  runInstr false (logic2 .and halfT src dst) s

/-- ANDB2 (R553). -/
def execAndb2 (src dst : Operand) (s : State) : Host.Outcome State Fault Refusal :=
  runInstr false (logic2 .and byteT src dst) s

/-- ANDW3 (R554). -/
def execAndw3 (src1 src2 dst : Operand) (s : State) : Host.Outcome State Fault Refusal :=
  runInstr false (logic3 .and wordT src1 src2 dst) s

/-- ANDH3 (R555). -/
def execAndh3 (src1 src2 dst : Operand) (s : State) : Host.Outcome State Fault Refusal :=
  runInstr false (logic3 .and halfT src1 src2 dst) s

/-- ANDB3 (R556). -/
def execAndb3 (src1 src2 dst : Operand) (s : State) : Host.Outcome State Fault Refusal :=
  runInstr false (logic3 .and byteT src1 src2 dst) s

/-- ORW2 (R557). -/
def execOrw2 (src dst : Operand) (s : State) : Host.Outcome State Fault Refusal :=
  runInstr false (logic2 .or wordT src dst) s

/-- ORH2 (R558). -/
def execOrh2 (src dst : Operand) (s : State) : Host.Outcome State Fault Refusal :=
  runInstr false (logic2 .or halfT src dst) s

/-- ORB2 (R559). -/
def execOrb2 (src dst : Operand) (s : State) : Host.Outcome State Fault Refusal :=
  runInstr false (logic2 .or byteT src dst) s

/-- ORW3 (R560). -/
def execOrw3 (src1 src2 dst : Operand) (s : State) : Host.Outcome State Fault Refusal :=
  runInstr false (logic3 .or wordT src1 src2 dst) s

/-- ORH3 (R561). -/
def execOrh3 (src1 src2 dst : Operand) (s : State) : Host.Outcome State Fault Refusal :=
  runInstr false (logic3 .or halfT src1 src2 dst) s

/-- ORB3 (R562). -/
def execOrb3 (src1 src2 dst : Operand) (s : State) : Host.Outcome State Fault Refusal :=
  runInstr false (logic3 .or byteT src1 src2 dst) s

/-- XORW2 (R563). -/
def execXorw2 (src dst : Operand) (s : State) : Host.Outcome State Fault Refusal :=
  runInstr false (logic2 .xor wordT src dst) s

/-- XORH2 (R564). -/
def execXorh2 (src dst : Operand) (s : State) : Host.Outcome State Fault Refusal :=
  runInstr false (logic2 .xor halfT src dst) s

/-- XORB2 (R565). -/
def execXorb2 (src dst : Operand) (s : State) : Host.Outcome State Fault Refusal :=
  runInstr false (logic2 .xor byteT src dst) s

/-- XORW3 (R566). -/
def execXorw3 (src1 src2 dst : Operand) (s : State) : Host.Outcome State Fault Refusal :=
  runInstr false (logic3 .xor wordT src1 src2 dst) s

/-- XORH3 (R567). -/
def execXorh3 (src1 src2 dst : Operand) (s : State) : Host.Outcome State Fault Refusal :=
  runInstr false (logic3 .xor halfT src1 src2 dst) s

/-- XORB3 (R568). -/
def execXorb3 (src1 src2 dst : Operand) (s : State) : Host.Outcome State Fault Refusal :=
  runInstr false (logic3 .xor byteT src1 src2 dst) s

/-- MCOMW (R569). -/
def execMcomw (src dst : Operand) (s : State) : Host.Outcome State Fault Refusal :=
  runInstr false (complement wordT src dst) s

/-- MCOMH (R570). -/
def execMcomh (src dst : Operand) (s : State) : Host.Outcome State Fault Refusal :=
  runInstr false (complement halfT src dst) s

/-- MCOMB (R571). -/
def execMcomb (src dst : Operand) (s : State) : Host.Outcome State Fault Refusal :=
  runInstr false (complement byteT src dst) s

/-- ALSW3 (R572). -/
def execAlsw3 (count src dst : Operand) (s : State) : Host.Outcome State Fault Refusal :=
  runInstr true (shiftLeftArith count src dst) s

/-- ARSW3 (R573). -/
def execArsw3 (count src dst : Operand) (s : State) : Host.Outcome State Fault Refusal :=
  runInstr false (shift3 .ars wordT count src dst) s

/-- ARSH3 (R574). -/
def execArsh3 (count src dst : Operand) (s : State) : Host.Outcome State Fault Refusal :=
  runInstr false (shift3 .ars halfT count src dst) s

/-- ARSB3 (R575). -/
def execArsb3 (count src dst : Operand) (s : State) : Host.Outcome State Fault Refusal :=
  runInstr false (shift3 .ars byteT count src dst) s

/-- LLSW3 (R576). -/
def execLlsw3 (count src dst : Operand) (s : State) : Host.Outcome State Fault Refusal :=
  runInstr false (shift3 .lls wordT count src dst) s

/-- LLSH3 (R577). -/
def execLlsh3 (count src dst : Operand) (s : State) : Host.Outcome State Fault Refusal :=
  runInstr false (shift3 .lls halfT count src dst) s

/-- LLSB3 (R578). -/
def execLlsb3 (count src dst : Operand) (s : State) : Host.Outcome State Fault Refusal :=
  runInstr false (shift3 .lls byteT count src dst) s

/-- LRSW3 (R579). -/
def execLrsw3 (count src dst : Operand) (s : State) : Host.Outcome State Fault Refusal :=
  runInstr false (shift3 .lrs wordT count src dst) s

/-- ROTW (R580). -/
def execRotw (count src dst : Operand) (s : State) : Host.Outcome State Fault Refusal :=
  runInstr false (shift3 .rot wordT count src dst) s

/-- INSFW (R581). -/
def execInsfw (width offset src dst : Operand) (s : State) : Host.Outcome State Fault Refusal :=
  runInstr false (insertBits wordT width offset src dst) s

/-- INSFH (R582). -/
def execInsfh (width offset src dst : Operand) (s : State) : Host.Outcome State Fault Refusal :=
  runInstr false (insertBits halfT width offset src dst) s

/-- INSFB (R583). -/
def execInsfb (width offset src dst : Operand) (s : State) : Host.Outcome State Fault Refusal :=
  runInstr false (insertBits byteT width offset src dst) s

/-- EXTFW (R584). -/
def execExtfw (width offset src dst : Operand) (s : State) : Host.Outcome State Fault Refusal :=
  runInstr false (extractBits wordT width offset src dst) s

/-- EXTFH (R585). -/
def execExtfh (width offset src dst : Operand) (s : State) : Host.Outcome State Fault Refusal :=
  runInstr false (extractBits halfT width offset src dst) s

/-- EXTFB (R586). -/
def execExtfb (width offset src dst : Operand) (s : State) : Host.Outcome State Fault Refusal :=
  runInstr false (extractBits byteT width offset src dst) s

end Sys2Proof.Machine
end

