-- ==== Sys2Proof/Machine/System.lean ====
section
/-! DEFINITION. System, trap-generating and refused instructions (47_system.md R720 to R766). -/

namespace Sys2Proof.Machine

/-- GATE (R728): the gate transfer with the masked indexes of r1 and r0; the saved PSW is the PSW as it was. -/
def gate : M Unit := do
  let s ← getState
  gateTransfer (s.pc + 2) s.psw (s.reg 1 &&& 0x7C) (s.reg 0 &&& 0x7FF8) none

/-- WAIT (R745): privileged. -/
def waitForInterrupt : M Unit := do
  requireKernel
  advancePc 1
  update fun s => { s with waiting := true }

/-- MVERNO (R727). -/
def moveVersion : M Unit := do
  let s ← getState
  setReg 0 s.params.mvernoValue
  advancePc 2

/-- A privileged refused opcode (R720 items 1 and 2, `ADMIT_*` = false; log entry 15): PrivilegeViolation outside kernel
mode, else IllegalInstruction. -/
def refusePrivileged : M Unit := do
  requireKernel
  raise .illegalInstruction

/-- HALT (R721): the PC advances and the status becomes Halted; no trace or overflow trap follows. -/
def execHalt (s : State) : Host.Outcome State Fault Refusal :=
  .next { s.setPc (s.pc + 1) with status := .halted }

/-- NOP (R722). -/
def execNop (s : State) : Host.Outcome State Fault Refusal :=
  runInstr false (advancePc 1) s

/-- NOP2 (R723). -/
def execNop2 (_ignored : Byte) (s : State) : Host.Outcome State Fault Refusal :=
  runInstr false (advancePc 2) s

/-- NOP3 (R724). -/
def execNop3 (_ignored : Half) (s : State) : Host.Outcome State Fault Refusal :=
  runInstr false (advancePc 3) s

/-- BPT (R725). -/
def execBpt (s : State) : Host.Outcome State Fault Refusal :=
  runInstr false (raise .breakpoint) s

/-- EXTOP (R726). -/
def execExtop (s : State) : Host.Outcome State Fault Refusal :=
  runInstr false (raise .reservedOpcode) s

/-- MVERNO (R727). -/
def execMverno (s : State) : Host.Outcome State Fault Refusal :=
  runInstr false moveVersion s

/-- GATE (R728). -/
def execGate (s : State) : Host.Outcome State Fault Refusal :=
  runInstr false gate s

/-- RETG (R741). -/
def execRetg (s : State) : Host.Outcome State Fault Refusal :=
  runInstr false returnFromGate s

/-- WAIT (R745). -/
def execWait (s : State) : Host.Outcome State Fault Refusal :=
  runInstr false waitForInterrupt s

/-- CFLUSH (R748). -/
def execCflush (s : State) : Host.Outcome State Fault Refusal :=
  runInstr false (advancePc 1) s

/-- INTACK (R750). -/
def execIntack (s : State) : Host.Outcome State Fault Refusal :=
  runInstr false refusePrivileged s

/-- CALLPS (R751). -/
def execCallps (s : State) : Host.Outcome State Fault Refusal :=
  runInstr false refusePrivileged s

/-- RETPS (R752). -/
def execRetps (s : State) : Host.Outcome State Fault Refusal :=
  runInstr false refusePrivileged s

/-- ENBVJMP (R753). -/
def execEnbvjmp (s : State) : Host.Outcome State Fault Refusal :=
  runInstr false refusePrivileged s

/-- DISVJMP (R754). -/
def execDisvjmp (s : State) : Host.Outcome State Fault Refusal :=
  runInstr false refusePrivileged s

/-- MOVTRW (R755). -/
def execMovtrw (_src _dst : Operand) (s : State) : Host.Outcome State Fault Refusal :=
  runInstr false refusePrivileged s

/-- SPOP (R757). -/
def execSpop (_cmd : Word) (s : State) : Host.Outcome State Fault Refusal :=
  runInstr false (raise .illegalInstruction) s

/-- SPOPRS (R758). -/
def execSpoprs (_cmd : Word) (_src : Operand) (s : State) : Host.Outcome State Fault Refusal :=
  runInstr false (raise .illegalInstruction) s

/-- SPOPRD (R759). -/
def execSpoprd (_cmd : Word) (_src : Operand) (s : State) : Host.Outcome State Fault Refusal :=
  runInstr false (raise .illegalInstruction) s

/-- SPOPRT (R760). -/
def execSpoprt (_cmd : Word) (_src : Operand) (s : State) : Host.Outcome State Fault Refusal :=
  runInstr false (raise .illegalInstruction) s

/-- SPOPS2 (R761). -/
def execSpops2 (_cmd : Word) (_src _dst : Operand) (s : State) : Host.Outcome State Fault Refusal :=
  runInstr false (raise .illegalInstruction) s

/-- SPOPD2 (R762). -/
def execSpopd2 (_cmd : Word) (_src _dst : Operand) (s : State) : Host.Outcome State Fault Refusal :=
  runInstr false (raise .illegalInstruction) s

/-- SPOPT2 (R763). -/
def execSpopt2 (_cmd : Word) (_src _dst : Operand) (s : State) : Host.Outcome State Fault Refusal :=
  runInstr false (raise .illegalInstruction) s

/-- SPOPWS (R764). -/
def execSpopws (_cmd : Word) (_dst : Operand) (s : State) : Host.Outcome State Fault Refusal :=
  runInstr false (raise .illegalInstruction) s

/-- SPOPWD (R765). -/
def execSpopwd (_cmd : Word) (_dst : Operand) (s : State) : Host.Outcome State Fault Refusal :=
  runInstr false (raise .illegalInstruction) s

/-- SPOPWT (R766). -/
def execSpopwt (_cmd : Word) (_dst : Operand) (s : State) : Host.Outcome State Fault Refusal :=
  runInstr false (raise .illegalInstruction) s

end Sys2Proof.Machine
end

