-- ==== Sys2Proof/Machine/Dispatch.lean ====
section
/-! DEFINITION. The dispatch: one arm per constructor of `Instr`, each one call of that instruction's meaning. -/

namespace Sys2Proof.Machine

def exec (i : Instr) (s : State) : Host.Outcome State Fault Refusal :=
  match i with
  | .movw src dst => Sys2Proof.Machine.execMovw src dst s
  | .movh src dst => Sys2Proof.Machine.execMovh src dst s
  | .movb src dst => Sys2Proof.Machine.execMovb src dst s
  | .movaw src dst => Sys2Proof.Machine.execMovaw src dst s
  | .clrw dst => Sys2Proof.Machine.execClrw dst s
  | .clrh dst => Sys2Proof.Machine.execClrh dst s
  | .clrb dst => Sys2Proof.Machine.execClrb dst s
  | .pushw src => Sys2Proof.Machine.execPushw src s
  | .pushaw src => Sys2Proof.Machine.execPushaw src s
  | .popw dst => Sys2Proof.Machine.execPopw dst s
  | .swapwi dst => Sys2Proof.Machine.execSwapwi dst s
  | .swaphi dst => Sys2Proof.Machine.execSwaphi dst s
  | .swapbi dst => Sys2Proof.Machine.execSwapbi dst s
  | .addw2 src dst => Sys2Proof.Machine.execAddw2 src dst s
  | .addh2 src dst => Sys2Proof.Machine.execAddh2 src dst s
  | .addb2 src dst => Sys2Proof.Machine.execAddb2 src dst s
  | .addw3 src1 src2 dst => Sys2Proof.Machine.execAddw3 src1 src2 dst s
  | .addh3 src1 src2 dst => Sys2Proof.Machine.execAddh3 src1 src2 dst s
  | .addb3 src1 src2 dst => Sys2Proof.Machine.execAddb3 src1 src2 dst s
  | .subw2 src dst => Sys2Proof.Machine.execSubw2 src dst s
  | .subh2 src dst => Sys2Proof.Machine.execSubh2 src dst s
  | .subb2 src dst => Sys2Proof.Machine.execSubb2 src dst s
  | .subw3 src1 src2 dst => Sys2Proof.Machine.execSubw3 src1 src2 dst s
  | .subh3 src1 src2 dst => Sys2Proof.Machine.execSubh3 src1 src2 dst s
  | .subb3 src1 src2 dst => Sys2Proof.Machine.execSubb3 src1 src2 dst s
  | .mulw2 src dst => Sys2Proof.Machine.execMulw2 src dst s
  | .mulh2 src dst => Sys2Proof.Machine.execMulh2 src dst s
  | .mulb2 src dst => Sys2Proof.Machine.execMulb2 src dst s
  | .mulw3 src1 src2 dst => Sys2Proof.Machine.execMulw3 src1 src2 dst s
  | .mulh3 src1 src2 dst => Sys2Proof.Machine.execMulh3 src1 src2 dst s
  | .mulb3 src1 src2 dst => Sys2Proof.Machine.execMulb3 src1 src2 dst s
  | .divw2 src dst => Sys2Proof.Machine.execDivw2 src dst s
  | .divh2 src dst => Sys2Proof.Machine.execDivh2 src dst s
  | .divb2 src dst => Sys2Proof.Machine.execDivb2 src dst s
  | .divw3 src1 src2 dst => Sys2Proof.Machine.execDivw3 src1 src2 dst s
  | .divh3 src1 src2 dst => Sys2Proof.Machine.execDivh3 src1 src2 dst s
  | .divb3 src1 src2 dst => Sys2Proof.Machine.execDivb3 src1 src2 dst s
  | .modw2 src dst => Sys2Proof.Machine.execModw2 src dst s
  | .modh2 src dst => Sys2Proof.Machine.execModh2 src dst s
  | .modb2 src dst => Sys2Proof.Machine.execModb2 src dst s
  | .modw3 src1 src2 dst => Sys2Proof.Machine.execModw3 src1 src2 dst s
  | .modh3 src1 src2 dst => Sys2Proof.Machine.execModh3 src1 src2 dst s
  | .modb3 src1 src2 dst => Sys2Proof.Machine.execModb3 src1 src2 dst s
  | .incw dst => Sys2Proof.Machine.execIncw dst s
  | .inch dst => Sys2Proof.Machine.execInch dst s
  | .incb dst => Sys2Proof.Machine.execIncb dst s
  | .decw dst => Sys2Proof.Machine.execDecw dst s
  | .dech dst => Sys2Proof.Machine.execDech dst s
  | .decb dst => Sys2Proof.Machine.execDecb dst s
  | .mnegw src dst => Sys2Proof.Machine.execMnegw src dst s
  | .mnegh src dst => Sys2Proof.Machine.execMnegh src dst s
  | .mnegb src dst => Sys2Proof.Machine.execMnegb src dst s
  | .andw2 src dst => Sys2Proof.Machine.execAndw2 src dst s
  | .andh2 src dst => Sys2Proof.Machine.execAndh2 src dst s
  | .andb2 src dst => Sys2Proof.Machine.execAndb2 src dst s
  | .andw3 src1 src2 dst => Sys2Proof.Machine.execAndw3 src1 src2 dst s
  | .andh3 src1 src2 dst => Sys2Proof.Machine.execAndh3 src1 src2 dst s
  | .andb3 src1 src2 dst => Sys2Proof.Machine.execAndb3 src1 src2 dst s
  | .orw2 src dst => Sys2Proof.Machine.execOrw2 src dst s
  | .orh2 src dst => Sys2Proof.Machine.execOrh2 src dst s
  | .orb2 src dst => Sys2Proof.Machine.execOrb2 src dst s
  | .orw3 src1 src2 dst => Sys2Proof.Machine.execOrw3 src1 src2 dst s
  | .orh3 src1 src2 dst => Sys2Proof.Machine.execOrh3 src1 src2 dst s
  | .orb3 src1 src2 dst => Sys2Proof.Machine.execOrb3 src1 src2 dst s
  | .xorw2 src dst => Sys2Proof.Machine.execXorw2 src dst s
  | .xorh2 src dst => Sys2Proof.Machine.execXorh2 src dst s
  | .xorb2 src dst => Sys2Proof.Machine.execXorb2 src dst s
  | .xorw3 src1 src2 dst => Sys2Proof.Machine.execXorw3 src1 src2 dst s
  | .xorh3 src1 src2 dst => Sys2Proof.Machine.execXorh3 src1 src2 dst s
  | .xorb3 src1 src2 dst => Sys2Proof.Machine.execXorb3 src1 src2 dst s
  | .mcomw src dst => Sys2Proof.Machine.execMcomw src dst s
  | .mcomh src dst => Sys2Proof.Machine.execMcomh src dst s
  | .mcomb src dst => Sys2Proof.Machine.execMcomb src dst s
  | .alsw3 count src dst => Sys2Proof.Machine.execAlsw3 count src dst s
  | .arsw3 count src dst => Sys2Proof.Machine.execArsw3 count src dst s
  | .arsh3 count src dst => Sys2Proof.Machine.execArsh3 count src dst s
  | .arsb3 count src dst => Sys2Proof.Machine.execArsb3 count src dst s
  | .llsw3 count src dst => Sys2Proof.Machine.execLlsw3 count src dst s
  | .llsh3 count src dst => Sys2Proof.Machine.execLlsh3 count src dst s
  | .llsb3 count src dst => Sys2Proof.Machine.execLlsb3 count src dst s
  | .lrsw3 count src dst => Sys2Proof.Machine.execLrsw3 count src dst s
  | .rotw count src dst => Sys2Proof.Machine.execRotw count src dst s
  | .insfw width offset src dst => Sys2Proof.Machine.execInsfw width offset src dst s
  | .insfh width offset src dst => Sys2Proof.Machine.execInsfh width offset src dst s
  | .insfb width offset src dst => Sys2Proof.Machine.execInsfb width offset src dst s
  | .extfw width offset src dst => Sys2Proof.Machine.execExtfw width offset src dst s
  | .extfh width offset src dst => Sys2Proof.Machine.execExtfh width offset src dst s
  | .extfb width offset src dst => Sys2Proof.Machine.execExtfb width offset src dst s
  | .cmpw src1 src2 => Sys2Proof.Machine.execCmpw src1 src2 s
  | .cmph src1 src2 => Sys2Proof.Machine.execCmph src1 src2 s
  | .cmpb src1 src2 => Sys2Proof.Machine.execCmpb src1 src2 s
  | .tstw src => Sys2Proof.Machine.execTstw src s
  | .tsth src => Sys2Proof.Machine.execTsth src s
  | .tstb src => Sys2Proof.Machine.execTstb src s
  | .bitw src1 src2 => Sys2Proof.Machine.execBitw src1 src2 s
  | .bith src1 src2 => Sys2Proof.Machine.execBith src1 src2 s
  | .bitb src1 src2 => Sys2Proof.Machine.execBitb src1 src2 s
  | .brb disp => Sys2Proof.Machine.execBrb disp s
  | .brh disp => Sys2Proof.Machine.execBrh disp s
  | .bgeb disp => Sys2Proof.Machine.execBgeb disp s
  | .bgeh disp => Sys2Proof.Machine.execBgeh disp s
  | .bgb disp => Sys2Proof.Machine.execBgb disp s
  | .bgh disp => Sys2Proof.Machine.execBgh disp s
  | .blb disp => Sys2Proof.Machine.execBlb disp s
  | .blh disp => Sys2Proof.Machine.execBlh disp s
  | .bleb disp => Sys2Proof.Machine.execBleb disp s
  | .bleh disp => Sys2Proof.Machine.execBleh disp s
  | .bgeub disp => Sys2Proof.Machine.execBgeub disp s
  | .bgeuh disp => Sys2Proof.Machine.execBgeuh disp s
  | .bgub disp => Sys2Proof.Machine.execBgub disp s
  | .bguh disp => Sys2Proof.Machine.execBguh disp s
  | .blub disp => Sys2Proof.Machine.execBlub disp s
  | .bluh disp => Sys2Proof.Machine.execBluh disp s
  | .bleub disp => Sys2Proof.Machine.execBleub disp s
  | .bleuh disp => Sys2Proof.Machine.execBleuh disp s
  | .bvcb disp => Sys2Proof.Machine.execBvcb disp s
  | .bvch disp => Sys2Proof.Machine.execBvch disp s
  | .bneub disp => Sys2Proof.Machine.execBneub disp s
  | .bneuh disp => Sys2Proof.Machine.execBneuh disp s
  | .bvsb disp => Sys2Proof.Machine.execBvsb disp s
  | .bvsh disp => Sys2Proof.Machine.execBvsh disp s
  | .beub disp => Sys2Proof.Machine.execBeub disp s
  | .beuh disp => Sys2Proof.Machine.execBeuh disp s
  | .bneb disp => Sys2Proof.Machine.execBneb disp s
  | .bneh disp => Sys2Proof.Machine.execBneh disp s
  | .beb disp => Sys2Proof.Machine.execBeb disp s
  | .beh disp => Sys2Proof.Machine.execBeh disp s
  | .rgeq => Sys2Proof.Machine.execRgeq s
  | .rgtr => Sys2Proof.Machine.execRgtr s
  | .rlss => Sys2Proof.Machine.execRlss s
  | .rleq => Sys2Proof.Machine.execRleq s
  | .rgequ => Sys2Proof.Machine.execRgequ s
  | .rgtru => Sys2Proof.Machine.execRgtru s
  | .rlssu => Sys2Proof.Machine.execRlssu s
  | .rlequ => Sys2Proof.Machine.execRlequ s
  | .rvc => Sys2Proof.Machine.execRvc s
  | .rnequ => Sys2Proof.Machine.execRnequ s
  | .rvs => Sys2Proof.Machine.execRvs s
  | .reqlu => Sys2Proof.Machine.execReqlu s
  | .rneq => Sys2Proof.Machine.execRneq s
  | .reql => Sys2Proof.Machine.execReql s
  | .jmp dst => Sys2Proof.Machine.execJmp dst s
  | .call argp dst => Sys2Proof.Machine.execCall argp dst s
  | .ret => Sys2Proof.Machine.execRet s
  | .save first => Sys2Proof.Machine.execSave first s
  | .restore first => Sys2Proof.Machine.execRestore first s
  | .jsb dst => Sys2Proof.Machine.execJsb dst s
  | .rsb => Sys2Proof.Machine.execRsb s
  | .bsbb disp => Sys2Proof.Machine.execBsbb disp s
  | .bsbh disp => Sys2Proof.Machine.execBsbh disp s
  | .movblw => Sys2Proof.Machine.execMovblw s
  | .strcpy => Sys2Proof.Machine.execStrcpy s
  | .strend => Sys2Proof.Machine.execStrend s
  | .halt => Sys2Proof.Machine.execHalt s
  | .nop => Sys2Proof.Machine.execNop s
  | .nop2 ignored => Sys2Proof.Machine.execNop2 ignored s
  | .nop3 ignored => Sys2Proof.Machine.execNop3 ignored s
  | .bpt => Sys2Proof.Machine.execBpt s
  | .extop => Sys2Proof.Machine.execExtop s
  | .mverno => Sys2Proof.Machine.execMverno s
  | .gate => Sys2Proof.Machine.execGate s
  | .retg => Sys2Proof.Machine.execRetg s
  | .wait => Sys2Proof.Machine.execWait s
  | .cflush => Sys2Proof.Machine.execCflush s
  | .intack => Sys2Proof.Machine.execIntack s
  | .callps => Sys2Proof.Machine.execCallps s
  | .retps => Sys2Proof.Machine.execRetps s
  | .enbvjmp => Sys2Proof.Machine.execEnbvjmp s
  | .disvjmp => Sys2Proof.Machine.execDisvjmp s
  | .movtrw src dst => Sys2Proof.Machine.execMovtrw src dst s
  | .spop cmd => Sys2Proof.Machine.execSpop cmd s
  | .spoprs cmd src => Sys2Proof.Machine.execSpoprs cmd src s
  | .spoprd cmd src => Sys2Proof.Machine.execSpoprd cmd src s
  | .spoprt cmd src => Sys2Proof.Machine.execSpoprt cmd src s
  | .spops2 cmd src dst => Sys2Proof.Machine.execSpops2 cmd src dst s
  | .spopd2 cmd src dst => Sys2Proof.Machine.execSpopd2 cmd src dst s
  | .spopt2 cmd src dst => Sys2Proof.Machine.execSpopt2 cmd src dst s
  | .spopws cmd dst => Sys2Proof.Machine.execSpopws cmd dst s
  | .spopwd cmd dst => Sys2Proof.Machine.execSpopwd cmd dst s
  | .spopwt cmd dst => Sys2Proof.Machine.execSpopwt cmd dst s

end Sys2Proof.Machine
end

