-- ==== Sys2Proof/Machine/Step.lean ====
section
/-! DEFINITION. The step function, and the placing of a table word where the next step fetches it. -/

namespace Sys2Proof.Machine

/-- One step (70_reset_and_hazards.md R910). -/
def step (s : State) : Host.Outcome State Fault Refusal :=
  stepWith exec s

/-- The state with the instruction of an opcode-table word at the program counter, zeros above it up to the longest
instruction: this stands for a ROM image loaded by `create` (log entry 3). -/
def State.withFetchWord (s : State) (nbits w : Nat) : State :=
  { s with mem := storeStream s.mem s.pc (paddedTableBytes nbits w) }

end Sys2Proof.Machine
end

