-- ==== Sys2Proof/Machine/HostOps.lean ====
section
/-! DEFINITION. The host interface (70_reset_and_hazards.md R900 to R935, 60_exceptions.md R869, R871, R885): functions
on a state, called between steps. -/

namespace Sys2Proof.Machine

/-- The host-visible errors (60_exceptions.md R800). None of them changes the machine (R935). -/
inductive HostError where
  | invalidSetup
  | memoryBoundsError
  | duartOverrun
  | invalidChannel
  deriving DecidableEq, Repr

/-! ## Reset and create -/

/-- Steps 1, 2, 3, 5 and 6 of R900, which both forms of reset share, with the PC given: memory is not changed. -/
def resetAt (pc : Word) (s : State) : State :=
  { s with
    regs := resetRegs s.params pc
    status := .running
    waiting := false
    trace := none
    duart := Duart.reset
    pending := #v[false, false, false, false, false] }

/-- The Direct reset (R900): step 4 sets the PC to `ROM_BASE`. -/
def resetDirect (s : State) : State :=
  resetAt (BitVec.ofNat 32 Config.romBase) s

/-- A failed reset read: the status becomes Faulted, the registers keep the values reached so far (R902). -/
def resetFault (e : Exn) (s : State) : State :=
  match e with
  | .trap k _ => { s with status := .faulted k }
  | .fault _ => s

/-- The last two reads of the PcbVector reset: PC, then SP (R902). -/
def resetEntryPoint (pcbp : Word) (s : State) : State :=
  match memRead (pcbp + 4) .word s with
  | .error e => resetFault e s
  | .ok (pc, s₁) =>
    match memRead (pcbp + 8) .word (s₁.setPc pc) with
    | .error e => resetFault e (s₁.setPc pc)
    | .ok (sp, s₂) => s₂.setSp sp

/-- The PSW of the PcbVector reset: I advances PCBP by 12 and is then cleared (R902). -/
def resetContext (w : Word) (s : State) : State :=
  let psw := w &&& Config.pswMask
  let pcbp := if Psw.initial psw then s.reg regPCBP + 12 else s.reg regPCBP
  resetEntryPoint pcbp ((s.setReg regPCBP pcbp).setPsw (Psw.setInitial false psw))

/-- The PcbVector reset (R902): it replaces step 4 of R900, so a read that faults before the PC is read leaves the PC the
value it had before the reset (DEDUCED, log entry 32: R140 gives none; after `create` that value is `ROM_BASE`, DESIGN
CHOICE). -/
def resetPcbVector (s : State) : State :=
  match memRead 0x80 .word (resetAt s.pc s) with
  | .error e => resetFault e (resetAt s.pc s)
  | .ok (pcbp, s₁) =>
    match memRead pcbp .word (s₁.setReg regPCBP pcbp) with
    | .error e => resetFault e (s₁.setReg regPCBP pcbp)
    | .ok (w, s₂) => resetContext w s₂

/-- `reset()` (R900, R902): memory is not changed. -/
def resetMachine (s : State) : State :=
  match s.params.resetEntry with
  | .direct => resetDirect s
  | .pcbVector => resetPcbVector s

/-- `create(rom_image, ram_size)` (20_memory.md R202, R903), the other parameters as given. The PC that a PcbVector reset
finds here is `ROM_BASE` (DESIGN CHOICE, log entry 32). -/
def create (p : Params) (image : List Byte) (ramSize : Nat) : Except HostError State :=
  if 1 ≤ image.length ∧ image.length ≤ Config.romMax ∧ ramSize ≤ Config.ramMax then
    .ok (resetMachine (State.created { p with romSize := image.length, ramSize := ramSize }
      (Memory.load [] Config.romBase image)))
  else .error .invalidSetup

/-! ## run -/

/-- `run(n)` (R915): the number of counted steps and the state whose status it returns. -/
def runSteps : Nat → State → Host.Outcome (Nat × State) Fault Refusal
  | 0, s => .next (0, s)
  | n + 1, s =>
    if s.status = .running then
      match step s with
      | .next t =>
        match t.status with
        | .faulted _ => .next (0, t)
        | .halted => .next (1, t)
        | .running =>
          match runSteps n t with
          | .next (k, u) => .next (k + 1, u)
          | .fault f => .fault f
          | .refused r => .refused r
      | .fault f => .fault f
      | .refused r => .refused r
    else .next (0, s)

/-- `advance(n)` is n calls of `advance(1)` (60_exceptions.md R876). -/
def advanceSteps : Nat → State → State
  | 0, s => s
  | n + 1, s => advanceSteps n s.advanceDuart

/-! ## Memory (R934) -/

/-- The byte's region, for a host access: ROM or RAM (R934). -/
def hostReadable (p : Params) (a : Nat) : Bool :=
  regionOf p a == some .rom || regionOf p a == some .ram

/-- A host write reaches RAM only (R934). -/
def hostWritable (p : Params) (a : Nat) : Bool :=
  regionOf p a == some .ram

/-- Bytes as a big-endian number (20_memory.md R231). -/
def bigEndian : Nat → List Byte → Nat
  | acc, [] => acc
  | acc, b :: rest => bigEndian (acc * 256 + b.toNat) rest

/-- `read_byte`, `read_halfword`, `read_word` (R934): big-endian, no alignment check. -/
def hostRead (s : State) (a : Word) (z : Size) : Except HostError Word :=
  let addrs := (List.range (sizeBytes z)).map (a.toNat + ·)
  if addrs.all (hostReadable s.params) then
    .ok (BitVec.ofNat 32 (bigEndian 0 (addrs.map s.mem.read)))
  else .error .memoryBoundsError

/-- The low 8n bits of a value as n big-endian bytes (20_memory.md R231). -/
def bigEndianBytes (n : Nat) (v : Word) : List Byte :=
  (List.range n).map fun k => v.extractLsb' (8 * (n - 1 - k)) 8

/-- `write_byte`, `write_halfword`, `write_word` (R934). -/
def hostWrite (s : State) (a : Word) (z : Size) (v : Word) : Except HostError State :=
  let addrs := (List.range (sizeBytes z)).map (a.toNat + ·)
  if addrs.all (hostWritable s.params) then
    .ok { s with mem := s.mem.load a.toNat (bigEndianBytes (sizeBytes z) v) }
  else .error .memoryBoundsError

/-! ## The DUART's host side -/

/-- Channel ids: 0 is A, 1 is B (R930). -/
def channelOfId : Nat → Option ChannelId
  | 0 => some .a
  | 1 => some .b
  | _ => none

/-- The bytes that count toward `RX_CAPACITY`: the queue and the holding register (60_exceptions.md R869). -/
def Channel.rxHeld (x : Channel) : Nat :=
  x.rxQueue.length + (if x.rhr.isSome then 1 else 0)

/-- `push_rx(channel, byte)` (60_exceptions.md R869): no latch changes until an advance moves the byte (R912). -/
def pushRx (s : State) (id : Nat) (b : Byte) : Except HostError State :=
  match channelOfId id with
  | none => .error .invalidChannel
  | some c =>
    let x := s.duart.channel c
    if x.rxHeld < s.params.rxCapacity then
      .ok { s with duart := s.duart.setChannel c { x with rxQueue := x.rxQueue ++ [b] } }
    else .error .duartOverrun

/-- `drain_tx(channel)` (60_exceptions.md R871): the head of the TX queue, removed. -/
def drainTx (s : State) (id : Nat) : Except HostError (Option Byte × State) :=
  match channelOfId id with
  | none => .error .invalidChannel
  | some c =>
    let x := s.duart.channel c
    match x.txQueue with
    | [] => .ok (none, s)
    | b :: rest => .ok (some b, { s with duart := s.duart.setChannel c { x with txQueue := rest } })

/-- `bell_signal()` (60_exceptions.md R885). -/
def bellSignal (s : State) : Bool :=
  s.duart.bell

/-- `trace_last()` (10_state.md R132). -/
def traceLast (s : State) : Option TraceRecord :=
  s.trace

end Sys2Proof.Machine
end

