-- ==== Sys2Proof/Safety.lean ====
section
/-! DEFINITION. The terms claims use: the states a run can be in (`Safe`), what reading operands can change, and what a
completed instruction with a destination operand leaves. -/

namespace Sys2Proof.Machine

/-! ## Safe states -/

/-- The invariant of the machine: memory in canonical form with bytes in ROM and RAM only (20_memory.md R201), the PSW's
reserved bits 0 (10_state.md R110), the DUART's queues within their capacities (60_exceptions.md R869, R871), an idle
transmitter with no countdown, a latch set only while its condition holds (R841), parameters R8 allows. -/
structure Safe (s : State) : Prop where
  memCanonical : Memory.wf s.mem
  memMapped : ∀ c ∈ s.mem, regionOf s.params c.1 = some .rom ∨ regionOf s.params c.1 = some .ram
  pswReserved : s.psw &&& ~~~Config.pswMask = 0
  rxBounded : ∀ c, (s.duart.channel c).rxHeld ≤ s.params.rxCapacity
  txBounded : ∀ c, (s.duart.channel c).txQueue.length ≤ s.params.txCapacity
  txIdle : ∀ c, (s.duart.channel c).txShift = none → (s.duart.channel c).txCount = 0
  latched : ∀ i : Fin 5, s.pending[i] = true → s.duart.cond i = true
  paramsValid : s.params.valid = true

/-! ## What an access can change -/

/-- Nothing outside the DUART and the latches differs: all that reading operands can do (20_memory.md R242). -/
structure SameCore (s t : State) : Prop where
  params : t.params = s.params
  regs : t.regs = s.regs
  status : t.status = s.status
  waiting : t.waiting = s.waiting
  trace : t.trace = s.trace
  mem : t.mem = s.mem

/-- Address b is one of the n byte addresses from a up, modulo 2^32. -/
def covers (a : Word) (n : Nat) (b : Nat) : Prop :=
  ∃ k, k < n ∧ b = (a + BitVec.ofNat 32 k).toNat

/-- Byte k of the n bytes of a value in memory: byte 0 is the most significant (20_memory.md R231). -/
def valueByte (n : Nat) (v : Word) (k : Nat) : Byte :=
  v.extractLsb' (8 * (n - 1 - k)) 8

/-- The n bytes at a are those of v. -/
def HoldsBytes (t : State) (a : Word) (n : Nat) (v : Word) : Prop :=
  ∀ k, k < n → t.mem.read (a + BitVec.ofNat 32 k).toNat = valueByte n v k

/-- The big-endian word in ROM or RAM at an address. -/
def wordAt (s : State) (a : Word) : Word :=
  s.mem.read a.toNat ++ s.mem.read (a + 1).toNat ++ s.mem.read (a + 2).toNat ++ s.mem.read (a + 3).toNat

/-- The machine after some bytes written at ascending offsets of the DUART's window, each with its edge detection
(60_exceptions.md R861, R877). -/
def duartStore (s : State) (off : Nat) : List Byte → State
  | [] => s
  | b :: rest => duartStore (s.writeDuart off b) (off + 1) rest

/-! ## Reset -/

/-- What both forms of reset leave of everything but the registers and the status, having started in s (steps 1, 2 and 6
of 70_reset_and_hazards.md R900, 60_exceptions.md R880). -/
structure ResetDevices (s t : State) : Prop where
  duart : t.duart = Duart.reset
  latches : ∀ i : Fin 5, t.pending[i] = false
  waiting : t.waiting = false
  trace : t.trace = none
  mem : t.mem = s.mem
  params : t.params = s.params

/-! ## Completed instructions -/

/-- The destination can be written: a register that the mode allows (10_state.md R103), or an aligned address whose region
takes a write (20_memory.md R210, R220). -/
def Opnd.Writable (d : Opnd) (s : State) : Prop :=
  match d.place with
  | .value _ => False
  | .reg n => n ≠ regPC ∧ (privilegedReg n = true → s.kernel = true)
  | .mem a => ∃ g, dataRoute s.params a d.type.size .write = .ok g

/-- Writing the destination raises this trap: a privileged register outside kernel mode (10_state.md R103, R801), or an
address that the bus refuses (20_memory.md R212, R220). -/
def Opnd.Refused (d : Opnd) (s : State) (k : FaultKind) : Prop :=
  match d.place with
  | .value _ => False
  | .reg n => privilegedReg n = true ∧ s.kernel = false ∧ k = .privilegedRegister
  | .mem a => ∃ i, dataRoute s.params a d.type.size .write = .error (.trap k (some i))

/-- The byte addresses of a destination in memory. -/
def Opnd.Covers (d : Opnd) (b : Nat) : Prop :=
  match d.place with
  | .mem a => covers a (sizeBytes d.type.size) b
  | _ => False

/-- The PSW after an instruction with destination d, result r and flags f: a PSW destination holds exactly the masked
value, any other leaves every bit but the flags (10_state.md R111, R120). -/
def pswAfter (d : Opnd) (r : Int) (f : Flags) (psw : Word) : Word :=
  if d.place = .reg regPSW then extendType d.type r &&& Config.pswMask else Psw.setFlags f psw

/-- What an instruction with destination d and result r leaves in t, having started in s and read its operands up to s₁:
the destination holds r, and nothing else changes but the PSW, the PC and the DUART where d is in its window. -/
structure Completed (d : Opnd) (r : Int) (psw pc : Word) (s s₁ t : State) : Prop where
  psw : t.psw = psw
  pc : t.pc = pc
  register : ∀ n, d.place = .reg n → n ≠ regPSW → t.reg n = extendType d.type r
  otherRegisters : ∀ n, d.place ≠ .reg n → n ≠ regPSW → n ≠ regPC → t.reg n = s.reg n
  stored : ∀ a, d.place = .mem a → regionOf s.params a.toNat = some .ram →
    HoldsBytes t a (sizeBytes d.type.size) (patternOf r)
  otherBytes : ∀ b, ¬ d.Covers b → t.mem.read b = s.mem.read b
  device : (∀ a, d.place = .mem a → regionOf s.params a.toNat ≠ some .duart) →
    t.duart = s₁.duart ∧ t.pending = s₁.pending
  deviceStore : ∀ a, d.place = .mem a → regionOf s.params a.toNat = some .duart →
    t.duart = (duartStore s₁ (a.toNat - Config.duartBase)
      (bigEndianBytes (sizeBytes d.type.size) (patternOf r))).duart ∧
    t.pending = (duartStore s₁ (a.toNat - Config.duartBase)
      (bigEndianBytes (sizeBytes d.type.size) (patternOf r))).pending
  params : t.params = s.params
  status : t.status = s.status
  waiting : t.waiting = s.waiting
  trace : t.trace = s.trace

/-- The PSW after an instruction of 41_data_movement.md: without `MOV_SETS_FLAGS` only a PSW destination changes it (R450
items 2 and 3). -/
def movPswAfter (d : Opnd) (r : Int) (f : Flags) (s : State) : Word :=
  if s.params.movSetsFlags = true ∨ d.place = .reg regPSW then pswAfter d r f s.psw else s.psw

/-- The PSW after an instruction of 41_data_movement.md without a destination operand (R450 item 2). -/
def movFlagsAfter (f : Flags) (s : State) : Word :=
  if s.params.movSetsFlags then Psw.setFlags f s.psw else s.psw

/-- No IntegerOverflow trap follows an instruction that ends with this PSW (60_exceptions.md R816). -/
def NoOverflow (psw : Word) : Prop :=
  ¬ (Psw.v psw = true ∧ Psw.oe psw = true)

/-! ## The stack and the gate table -/

/-- The word k words above a. -/
def wordUp (a : Word) (k : Nat) : Word :=
  a + BitVec.ofNat 32 (4 * k)

/-- The n words from a up are RAM that a word store reaches. -/
def Room (s : State) (a : Word) (n : Nat) : Prop :=
  ∀ k, k < n → dataRoute s.params (wordUp a k) .word .write = .ok .ram

/-- The word at a is in ROM or RAM and a word read reaches it. -/
def Readable (s : State) (a : Word) : Prop :=
  ∃ g, dataRoute s.params a .word .read = .ok g ∧ g ≠ .duart

/-- The byte at a is in ROM or RAM. -/
def ReadableByte (s : State) (a : Word) : Prop :=
  ∃ g, dataRoute s.params a .byte .read = .ok g ∧ g ≠ .duart

/-- The bus takes a data access to some region. -/
def Reached (s : State) (a : Word) (z : Size) (w : AccessKind) : Prop :=
  ∃ g, dataRoute s.params a z w = .ok g

/-- The bus refuses a data access with this trap (20_memory.md R212, R220). -/
def AccessTraps (s : State) (a : Word) (z : Size) (w : AccessKind) (k : FaultKind) : Prop :=
  ∃ i, dataRoute s.params a z w = .error (.trap k i)

/-- The byte at address b after n words were copied from a up to c up, one word at a time, each read whole before it is
stored (46_block_string.md R701): the last word that was stored over b gives it. -/
def copiedByte (m : Memory) (a c : Word) : Nat → Word → Byte
  | 0, b => m.read b.toNat
  | n + 1, b =>
    if (b - wordUp c n).toNat < 4 then copiedByte m a c n (wordUp a n + (b - wordUp c n)) else copiedByte m a c n b

/-- What storing these words at a, and changing these registers, leaves in t, having started in s and read the operands
up to s₁. -/
structure StoredWords (changed : List RegNum) (a : Word) (ws : List Word) (s s₁ t : State) : Prop where
  registers : ∀ n, n ∉ changed → t.reg n = s.reg n
  words : ∀ k (h : k < ws.length), HoldsBytes t (wordUp a k) 4 ws[k]
  otherBytes : ∀ b, ¬ covers a (4 * ws.length) b → t.mem.read b = s.mem.read b
  device : t.duart = s₁.duart ∧ t.pending = s₁.pending
  params : t.params = s.params
  status : t.status = s.status
  waiting : t.waiting = s.waiting
  trace : t.trace = s.trace

/-- The address of the gate entry for an index pair (60_exceptions.md R820). -/
def gateEntry (s : State) (l1 off : Word) : Word :=
  wordAt s (s.params.gateL1Base + l1) + off

/-- A gate transfer can be made: room for the TrapFrame, and the three table words readable and apart from it. -/
structure GateReady (s : State) (l1 off : Word) : Prop where
  room : Room s s.sp 2
  base : Readable s (s.params.gateL1Base + l1)
  psw : Readable s (gateEntry s l1 off)
  pc : Readable s (gateEntry s l1 off + 4)
  apart : ∀ b, covers s.sp 8 b → ¬ covers (s.params.gateL1Base + l1) 4 b ∧ ¬ covers (gateEntry s l1 off) 8 b

/-- What a gate transfer that saves these two words leaves in t (60_exceptions.md R820). -/
structure GateTaken (savedPC savedPSW l1 off : Word) (ipl : BitVec 4) (s t : State) : Prop where
  frame : StoredWords [regPC, regSP, regPSW] s.sp [savedPC, savedPSW] s s t
  sp : t.sp = s.sp + 8
  pc : t.pc = wordAt s (gateEntry s l1 off + 4)
  previous : Psw.pm t.psw = Psw.cm s.psw
  untraced : Psw.tm t.psw = false
  level : Psw.ipl t.psw = ipl
  fields : ∀ k, k ∉ [2, 9, 10, 13, 14, 15, 16] →
    t.psw.getLsbD k = (decide (k < 26) && (wordAt s (gateEntry s l1 off)).getLsbD k)

/-- The PSW a trap or an interrupt saves: ET and ISC replaced, every other bit as it was (R810, R843). -/
structure SavedPsw (et : BitVec 2) (isc : BitVec 4) (psw saved : Word) : Prop where
  et : Psw.et saved = et
  isc : Psw.isc saved = isc
  others : ∀ k, 7 ≤ k ∨ k = 2 → saved.getLsbD k = psw.getLsbD k

/-- The instruction that starts here is not followed by a Trace trap (60_exceptions.md R815). -/
def NotTraced (s : State) : Prop :=
  Psw.tm s.psw = false

end Sys2Proof.Machine
end

