-- ==== Sys2Proof/Certificates/Slice0/Obligations.lean ====
section
/-! DEFINITION. The statements about the model. A statement about an instruction's result says what `exec` answers for
every state and operands whose gathering succeeds (`inputRM ...` and its like answer the operand values, the destination
and the state after the reads, which differs from the start in the DUART at most: `OperandsOnlyRead`). Destinations in
memory are computed by that gathering; `Completed` says what the instruction leaves, with its frame. -/

section

open Sys2Proof Sys2Proof.Machine

/-! ## Encoding -/

/-- Decoding an encoded instruction gives it back, whatever follows it, with every operand form and value (R300, R301,
R320, R340, R342, R343). -/
def Obligations.DecodeEncode : Prop :=
  ∀ (i : Instr) (rest : List Byte), i.encodable = true → decode (encode i ++ rest) = .ok (i, rest)

/-- R343: re-encoding what was decoded gives back the bytes read, and there are 169 one-byte and 11 two-byte opcodes. -/
def Obligations.EncodeDecode : Prop :=
  (∀ (bs rest : List Byte) (i : Instr), decode bs = .ok (i, rest) → bs = encode i ++ rest ∧ i.encodable = true) ∧
  oneByteRows.length = 169 ∧ twoByteRows.length = 11

/-- The encoding is as long as R321 and R345 count it, 1 to 25 bytes (R300). -/
def Obligations.EncodedLength : Prop :=
  ∀ i : Instr, (encode i).length = i.length ∧ 1 ≤ i.length ∧ i.length ≤ 25

/-- Words written out from the encoding rules decode to the instructions they stand for (R343, R414 and the Encoding
lines of R451, R501, R572, R601, R611, R641, R661, R702, R728, R741). -/
def Obligations.DecodeSanity : Prop :=
  decode [0x84, 0xC9, 0x08, 0x40] =
    .ok (.movw ⟨none, .byteDisp 9 8⟩ ⟨none, .reg 0⟩, []) ∧
  decode [0x87, 0xE7, 0x40, 0xE4, 0x41] =
    .ok (.movb ⟨some .sbyte, .reg 0⟩ ⟨some .sword, .reg 1⟩, []) ∧
  decode [0x9C, 0x40, 0x41] = .ok (.addw2 ⟨none, .reg 0⟩ ⟨none, .reg 1⟩, []) ∧
  decode [0xC0, 0x04, 0x5F, 0x34, 0x12, 0x52] =
    .ok (.alsw3 ⟨none, .posLit 4⟩ ⟨none, .halfImm 0x1234⟩ ⟨none, .regDef 2⟩, []) ∧
  decode [0x3C, 0xFF, 0x7F, 0x00, 0x00, 0x70, 0x00] =
    .ok (.cmpw ⟨none, .negLit 15⟩ ⟨none, .absolute 0x00700000⟩, []) ∧
  decode [0x7B, 0xFE] = .ok (.brb 0xFE, []) ∧
  decode [0x7A, 0x34, 0x12] = .ok (.brh 0x1234, []) ∧
  decode [0x40] = .ok (.rgeq, []) ∧
  decode [0x2C, 0xAC, 0xF0, 0xFF, 0xEF, 0x78, 0x56, 0x34, 0x12] =
    .ok (.call ⟨none, .halfDisp 12 0xFFF0⟩ ⟨none, .absDef 0x12345678⟩, []) ∧
  decode [0x30, 0x35] = .ok (.strcpy, []) ∧
  decode [0x30, 0x61] = .ok (.gate, []) ∧
  decode [0x30, 0x45, 0x00] = .ok (.retg, [0x00])

/-- R341: the undefined opcodes, one byte or two, are found after the opcode, and a step that fetches one takes an
IllegalInstruction trap with the PC at the opcode; EXTOP takes ReservedOpcode. That the step keeps the old trace record
and that the trap starts from the state whose TM is its TE are the model's readings (log entries 7 and 17). -/
def Obligations.UndefinedOpcodes : Prop :=
  (∀ (b : Byte) (rest : List Byte),
    b ∈ ([0x01, 0x05, 0x09, 0x0A, 0x0B, 0x0D, 0x0E, 0x0F, 0x11, 0x12, 0x15, 0x16, 0x19, 0x1A, 0x1B, 0x1D, 0x21, 0x25,
      0x26, 0x29, 0x2D, 0x31, 0x35, 0x39, 0x3D, 0x41, 0x45, 0x49, 0x4D, 0x51, 0x55, 0x59, 0x5D, 0x61, 0x65, 0x69,
      0x6D, 0x71, 0x75, 0x79, 0x7D, 0x81, 0x85, 0x89, 0x8D, 0x91, 0x95, 0x98, 0x99, 0x9A, 0x9B, 0x9D, 0xA1, 0xA2,
      0xA3, 0xA5, 0xA9, 0xAD, 0xB1, 0xB5, 0xB9, 0xBD, 0xC1, 0xC2, 0xC3, 0xC5, 0xC9, 0xCD, 0xD1, 0xD5, 0xD6, 0xD7,
      0xD9, 0xDA, 0xDB, 0xDD, 0xE1, 0xE2, 0xE3, 0xE5, 0xE9, 0xED, 0xF1, 0xF5, 0xF9, 0xFD] : List Byte) →
    decode (b :: rest) = .error ⟨.undefinedOpcode, none, rest⟩) ∧
  (∀ (b : Byte) (rest : List Byte),
    b ∉ ([0x09, 0x0D, 0x13, 0x19, 0x1F, 0x2F, 0x35, 0x45, 0x61, 0xAC, 0xC8] : List Byte) →
    decode (0x30 :: b :: rest) = .error ⟨.undefinedOpcode, none, rest⟩) ∧
  (∀ (s : State) (rest : List Byte), s.status = .running → s.waiting = false →
    pickIrq s.params s.pending (Psw.ipl s.psw) = none →
    decode (fetchWindow s) = .error ⟨.undefinedOpcode, none, rest⟩ →
    step s = .next (endOfStep { takeTrap .illegalInstruction s.startTrace with trace := s.trace })) ∧
  (∀ s : State, exec .extop s = .next (takeTrap .reservedOpcode s)) ∧
  iscOf .illegalInstruction = 2 ∧ iscOf .reservedOpcode = 3

/-! ## The step -/

/-- When the bytes at the PC decode to i, the step is `exec` of i at the state whose TM is its TE; around it the step
records the trace and advances the DUART (R345, R815, R910). When the TM update stands before the abandoned state,
and what the trace record holds, are the model's readings (log entries 7 and 17). -/
def Obligations.StepRunsDecoded : Prop :=
  ∀ (s : State) (i : Instr) (rest : List Byte), s.status = .running → s.waiting = false →
    pickIrq s.params s.pending (Psw.ipl s.psw) = none → decode (fetchWindow s) = .ok (i, rest) →
    step s = match exec i s.startTrace with
      | .next t => .next (endOfStep { t with trace := some (traceOf s.startTrace i (fetchWindow s)) })
      | .fault f => .fault f
      | .refused r => .refused r

/-- An instruction that cannot be fetched or decoded takes BusFault or InvalidDescriptor, a refused one is refused
before its operands are looked at (R230, R345, R403, R720, R811). That a refused opcode is refused with any operand
bytes, and the trace record, are the model's readings (log entries 6, 7, 17). -/
def Obligations.UndecodedTraps : Prop :=
  ∀ (s : State) (e : DecodeError), s.status = .running → s.waiting = false →
    pickIrq s.params s.pending (Psw.ipl s.psw) = none → decode (fetchWindow s) = .error e →
    ∃ k, step s = .next (endOfStep { takeTrap k s.startTrace with trace := traceOfError s e (fetchWindow s) }) ∧
      (e.why = .truncated → k = .busFault) ∧
      (e.why = .invalidDescriptor → k = .invalidDescriptor) ∧
      (e.why = .undefinedOpcode → k = .illegalInstruction) ∧
      (e.why = .refusedOpcode false → k = .illegalInstruction) ∧
      (e.why = .refusedOpcode true → Psw.cm s.psw = 0 → k = .illegalInstruction) ∧
      (e.why = .refusedOpcode true → Psw.cm s.psw ≠ 0 → k = .privilegedOpcode)

/-- A machine that is not Running stays as it is; a waiting one whose latches give no interrupt only advances the DUART
(R910, R911, R920). -/
def Obligations.StepsWithoutInstruction : Prop :=
  (∀ s : State, s.status ≠ .running → step s = .next s) ∧
  (∀ s : State, s.status = .running → s.waiting = true → pickIrq s.params s.pending (Psw.ipl s.psw) = none →
    ∃ t, step s = .next t ∧ t.duart = s.duart.advance s.params ∧
      t.pending = updateLatches s.duart (s.duart.advance s.params) s.pending ∧
      t.regs = s.regs ∧ t.mem = s.mem ∧ t.status = .running ∧ t.waiting = true ∧ t.trace = s.trace ∧
      t.params = s.params)

/-- Interrupt entry (R843): the frame with ET 1 and ISC 0, the vector 16 + s, the IPL of the request, the latch
cleared, the wait ended; the first instruction of the handler executes in the same step (R844, R911). The start of
the handler's first instruction is the model's reading (log entry 17). -/
def Obligations.InterruptTaken : Prop :=
  ∀ (s : State) (i : Fin 5), s.status = .running → s.mem.wf →
    pickIrq s.params s.pending (Psw.ipl s.psw) = some i →
    GateReady s 0 (BitVec.ofNat 32 (8 * (16 + i.val))) →
    ∃ t saved, SavedPsw 1 0 s.psw saved ∧
      GateTaken s.pc saved 0 (BitVec.ofNat 32 (8 * (16 + i.val))) s.params.irqPriority[i]
        { s with waiting := false, pending := s.pending.set i.val false i.isLt } t ∧
      step s = match executeAt exec t.startTrace with
        | .next u => .next (endOfStep u)
        | .fault f => .fault f
        | .refused r => .refused r

/-- The interrupt chosen is pending with a priority above the threshold, no other such request has a higher one, and a
smaller source wins a tie; none is chosen when there is none (R842). -/
def Obligations.HighestPriority : Prop :=
  ∀ (p : Params) (pending : Vector Bool 5) (threshold : BitVec 4),
    (∀ i, pickIrq p pending threshold = some i →
      pending[i] = true ∧ threshold < p.irqPriority[i] ∧
      ∀ j : Fin 5, pending[j] = true → threshold < p.irqPriority[j] →
        p.irqPriority[j] < p.irqPriority[i] ∨ (p.irqPriority[j] = p.irqPriority[i] ∧ i ≤ j)) ∧
    (pickIrq p pending threshold = none →
      ∀ j : Fin 5, pending[j] = true → ¬ threshold < p.irqPriority[j])

/-- A latch is set when its condition rises, cleared when its condition is 0, and else kept, over a DUART advance and over
every byte the CPU reads or writes in the DUART's window; a reset command clears the latch of its half channel too (R841,
R865, R876, R877). Comparing the condition before and after each event, and that a reset with an enable in the same byte
leaves the latch clear, are the model's readings (log entry 10). -/
def Obligations.LatchRule : Prop :=
  (∀ (s : State) (d : Duart) (i : Fin 5),
    (s.duart.cond i = false → d.cond i = true → (s.withDuart d).pending[i] = true) ∧
    (d.cond i = false → (s.withDuart d).pending[i] = false) ∧
    (s.duart.cond i = true → d.cond i = true → (s.withDuart d).pending[i] = s.pending[i])) ∧
  (∀ s : State, s.advanceDuart = s.withDuart (s.duart.advance s.params)) ∧
  (∀ (s : State) (a : Word) (off : Nat), regionOf s.params a.toNat = some .duart → off = a.toNat - 0x00200000 →
    memRead a .byte s = .ok ((s.duart.readByte s.params off).1.setWidth 32,
      s.withDuart (s.duart.readByte s.params off).2) ∧
    ∀ v : Word, ∃ t, memWrite a .byte v s = .ok ((), t) ∧ SameCore s t ∧
      t.duart = s.duart.writeByte off (v.extractLsb' 0 8) ∧
      ∀ i : Fin 5,
        (s.duart.cond i = false → t.duart.cond i = true → t.pending[i] = true) ∧
        (t.duart.cond i = false → t.pending[i] = false) ∧
        (s.duart.cond i = true → t.duart.cond i = true → t.pending[i] = (s.pending[i] && !decide
          (i.val < 4 ∧ off = 0x0B + 0x20 * (i.val / 2) ∧ v.extractLsb' 4 3 = BitVec.ofNat 3 (2 + i.val % 2)))))

/-! ## Invariants -/

/-- The invariant `Safe` holds after reset. -/
def Obligations.SafeReset : Prop :=
  Safe State.reset

/-- Every step keeps `Safe`: canonical memory in ROM and RAM only (R201), the PSW's reserved bits 0 (R110, R111), DUART
queues within their capacities (R869, R871), a latch only while its condition holds (R841). -/
def Obligations.SafeStep : Prop :=
  ∀ s t : State, Safe s → step s = .next t → Safe t

/-- No step changes a ROM byte (R201, R211) or a parameter (R8: a parameter has one value for the whole run, which the
model keeps in a field of State, log entry 2). -/
def Obligations.RomUnchanged : Prop :=
  ∀ s t : State, s.params.valid = true → step s = .next t →
    t.params = s.params ∧ ∀ a, regionOf s.params a = some .rom → t.mem.read a = s.mem.read a

/-- Outside kernel mode no instruction, and no trap it takes, changes PCBP, ISP or IPL (R103, R801, R820, and RETG's IPL
rule R741). -/
def Obligations.UserModeKeepsPrivileged : Prop :=
  ∀ (i : Instr) (s t : State), s.kernel = false → exec i s = .next t →
    t.reg regPCBP = s.reg regPCBP ∧ t.reg regISP = s.reg regISP ∧ Psw.ipl t.psw = Psw.ipl s.psw

/-- The host operations keep `Safe` (R869, R871, R900, R902, R934). Host operations as functions beside the step are
the model's choice (log entry 19). -/
def Obligations.HostKeepsSafe : Prop :=
  ∀ s : State, Safe s →
    Safe (resetMachine s) ∧
    (∀ a z v t, hostWrite s a z v = .ok t → Safe t) ∧
    (∀ id b t, pushRx s id b = .ok t → Safe t) ∧
    (∀ id r t, drainTx s id = .ok (r, t) → Safe t)

/-! ## Reset -/

/-- What a Direct reset leaves, whatever the machine was in (R140, R880, R900). That `State.reset` lists no byte is
the model's choice (log entries 2 and 3). That bits 31:26 of `RESET_PSW` read as 0 is the model's reading (log entry
33). -/
def Obligations.DirectReset : Prop :=
  ∀ s : State, s.params.resetEntry = .direct →
    (resetMachine s).psw = s.params.resetPsw &&& 0x03FFFFFF ∧ (resetMachine s).pc = 0 ∧
    (resetMachine s).duart = Duart.reset ∧ (∀ i : Fin 5, (resetMachine s).pending[i] = false) ∧
    (resetMachine s).status = .running ∧ (resetMachine s).waiting = false ∧ (resetMachine s).trace = none ∧
    (resetMachine s).mem = s.mem ∧ (resetMachine s).params = s.params ∧
    State.reset.psw = 0x0001E000 ∧ State.reset.pc = 0 ∧ State.reset.status = .running ∧ State.reset.mem = []

/-- The PcbVector reset (R902, with steps 1, 2, 5 and 6 of R900): each of its four reads where it can be made, and
the status and the registers reached where one faults. That the PC then keeps the value it had before the reset is
the model's reading (log entry 32). That bits 31:26 of `RESET_PSW` read as 0 is the model's reading too (log entry
33). -/
def Obligations.VectorReset : Prop :=
  ∀ (s t : State) (pcbp : Word), s.params.resetEntry = .pcbVector → t = resetMachine s →
    pcbp = wordAt s 0x80 + (if (wordAt s (wordAt s 0x80)).getLsbD 7 then 12 else 0) →
    (∀ k i, dataRoute s.params 0x80 .word .read = .error (.trap k i) →
      ResetDevices s t ∧ t.status = .faulted k ∧ t.psw = s.params.resetPsw &&& 0x03FFFFFF ∧ t.pc = s.pc) ∧
    (∀ k i, Readable s 0x80 → dataRoute s.params (wordAt s 0x80) .word .read = .error (.trap k i) →
      ResetDevices s t ∧ t.status = .faulted k ∧ t.reg regPCBP = wordAt s 0x80 ∧
      t.psw = s.params.resetPsw &&& 0x03FFFFFF ∧ t.pc = s.pc) ∧
    (Readable s 0x80 → Readable s (wordAt s 0x80) →
      t.reg regPCBP = pcbp ∧
      (∀ k, t.psw.getLsbD k = (decide (k < 26 ∧ k ≠ 7) && (wordAt s (wordAt s 0x80)).getLsbD k)) ∧
      (∀ k i, dataRoute s.params (pcbp + 4) .word .read = .error (.trap k i) →
        ResetDevices s t ∧ t.status = .faulted k ∧ t.pc = s.pc) ∧
      (Readable s (pcbp + 4) →
        t.pc = wordAt s (pcbp + 4) ∧
        (∀ k i, dataRoute s.params (pcbp + 8) .word .read = .error (.trap k i) →
          ResetDevices s t ∧ t.status = .faulted k) ∧
        (Readable s (pcbp + 8) →
          ResetDevices s t ∧ t.status = .running ∧ t.sp = wordAt s (pcbp + 8))))

/-! ## Memory -/

/-- R231, in every region: a halfword or word read is its byte reads from the most significant on, a write its byte writes;
so a mixed-width access to RAM sees the bytes that were stored. -/
def Obligations.BigEndian : Prop :=
  (∀ (s : State) (a : Word) (g : Region), s.params.valid = true → dataRoute s.params a .half .read = .ok g →
    memRead a .half s = (do
      let b0 ← memRead a .byte
      let b1 ← memRead (a + 1) .byte
      return b0 <<< 8 ||| b1) s) ∧
  (∀ (s : State) (a : Word) (g : Region), s.params.valid = true → dataRoute s.params a .word .read = .ok g →
    memRead a .word s = (do
      let b0 ← memRead a .byte
      let b1 ← memRead (a + 1) .byte
      let b2 ← memRead (a + 2) .byte
      let b3 ← memRead (a + 3) .byte
      return b0 <<< 24 ||| b1 <<< 16 ||| b2 <<< 8 ||| b3) s) ∧
  (∀ (s : State) (a v : Word) (g : Region), s.params.valid = true → dataRoute s.params a .half .write = .ok g →
    memWrite a .half v s = (do
      memWrite a .byte (v >>> 8)
      memWrite (a + 1) .byte v) s) ∧
  (∀ (s : State) (a v : Word) (g : Region), s.params.valid = true → dataRoute s.params a .word .write = .ok g →
    memWrite a .word v s = (do
      memWrite a .byte (v >>> 24)
      memWrite (a + 1) .byte (v >>> 16)
      memWrite (a + 2) .byte (v >>> 8)
      memWrite (a + 3) .byte v) s) ∧
  (∀ (s : State) (a v : Word), s.params.valid = true → dataRoute s.params a .word .write = .ok .ram → s.mem.wf →
    ∃ t, memWrite a .word v s = .ok ((), t) ∧
      memRead a .byte t = .ok ((v.extractLsb' 24 8).setWidth 32, t) ∧
      memRead (a + 3) .byte t = .ok ((v.extractLsb' 0 8).setWidth 32, t) ∧
      (a.toNat % 2 = 0 → memRead (a + 2) .half t = .ok ((v.extractLsb' 0 16).setWidth 32, t)))

/-- A store to RAM that is routed happens: reading it back gives the low bits stored, and every byte outside it reads as
before (R213, R231). -/
def Obligations.ReadAfterWrite : Prop :=
  ∀ (s : State) (a v : Word) (z : Size), dataRoute s.params a z .write = .ok .ram → s.mem.wf →
    ∃ t, memWrite a z v s = .ok ((), t) ∧
      memRead a z t = .ok ((v.setWidth (sizeBits z)).setWidth 32, t) ∧
      (∀ b, ¬ covers a (sizeBytes z) b → t.mem.read b = s.mem.read b) ∧
      t.regs = s.regs ∧ t.duart = s.duart

/-- A data access that no region holds whole is a BusFault, every other goes to its region alone (R210); before it the
alignment check of `ALIGN_POLICY` = Trap is made (R220), and a write to ROM is a BusFault too (R211). A fetch goes byte by
byte, is never misaligned, and ends at a byte outside ROM and RAM (R230). -/
def Obligations.AccessFaults : Prop :=
  (∀ (p : Params) (a : Word) (z : Size) (k : AccessKind), p.valid = true → k ≠ .fetch →
    (p.alignPolicy = .trap → a.toNat % sizeBytes z ≠ 0 →
      dataRoute p a z k = .error (.trap .misalignedAccess (some ⟨a, k⟩))) ∧
    (p.alignPolicy = .permit ∨ a.toNat % sizeBytes z = 0 →
      (regionOf p a.toNat = none → dataRoute p a z k = .error (.trap .busFault (some ⟨a, k⟩))) ∧
      (regionOf p (a.toNat + sizeBytes z - 1) ≠ regionOf p a.toNat →
        dataRoute p a z k = .error (.trap .busFault (some ⟨a, k⟩))) ∧
      (2 ^ 32 < a.toNat + sizeBytes z → dataRoute p a z k = .error (.trap .busFault (some ⟨a, k⟩))) ∧
      (regionOf p a.toNat = some .rom → k = .write → dataRoute p a z k = .error (.trap .busFault (some ⟨a, k⟩))) ∧
      (∀ g, regionOf p a.toNat = some g → regionOf p (a.toNat + sizeBytes z - 1) = some g →
        (g = .rom → k ≠ .write) → dataRoute p a z k = .ok g))) ∧
  (∀ (p : Params) (a : Word), busRoute p a 1 .fetch =
    match regionOf p a.toNat with
    | some .rom => .ok .rom
    | some .ram => .ok .ram
    | _ => .error (.trap .busFault (some ⟨a, .fetch⟩))) ∧
  (∀ (s : State) (a : Word) (n : Nat), fetchStream s a (n + 1) =
    match regionOf s.params a.toNat with
    | some .rom | some .ram => s.mem.read a.toNat :: fetchStream s (a + 1) n
    | _ => [])

/-- The overflow and carry formulas of R120 are what they are called: the exact signed sum or difference is out of range,
the unsigned one carries or borrows. Writing the flags changes bits 18 to 21 of the PSW and no other (R110). -/
def Obligations.FlagFormulas : Prop :=
  (∀ (w : Nat) (a b : Int), 0 < w →
    (flagOvfAdd w a b = true ↔ (truncBits w a).toInt + (truncBits w b).toInt < -2 ^ (w - 1) ∨
      2 ^ (w - 1) ≤ (truncBits w a).toInt + (truncBits w b).toInt) ∧
    (flagOvfSub w a b = true ↔ (truncBits w a).toInt - (truncBits w b).toInt < -2 ^ (w - 1) ∨
      2 ^ (w - 1) ≤ (truncBits w a).toInt - (truncBits w b).toInt) ∧
    (flagCarry w a b = true ↔ (2 : Int) ^ w ≤ a % 2 ^ w + b % 2 ^ w) ∧
    (flagBorrow w a b = true ↔ a % 2 ^ w < b % 2 ^ w) ∧
    (flagZ w a = true ↔ (2 : Int) ^ w ∣ a) ∧
    (flagN w a = true ↔ (2 : Int) ^ (w - 1) ≤ a % 2 ^ w)) ∧
  (∀ (w : Word) (f : Flags), Psw.flags (Psw.setFlags f w) = f ∧
    ∀ k, k < 18 ∨ 22 ≤ k → (Psw.setFlags f w).getLsbD k = w.getLsbD k)

/-! ## Operands -/

/-- The place of every memory form (R409): the sums modulo 2^32, and the pointer read of a deferred form. -/
def Obligations.EffectiveAddresses : Prop :=
  ∀ (s : State) (r : RegNum),
    locate (.regDef r) s = .ok (.mem (s.reg r), s) ∧
    (∀ k : Fin 15, locate (.fpShort k) s = .ok (.mem (s.reg regFP + BitVec.ofNat 32 k.val), s)) ∧
    (∀ k : Fin 15, locate (.apShort k) s = .ok (.mem (s.reg regAP + BitVec.ofNat 32 k.val), s)) ∧
    (∀ a : Word, locate (.absolute a) s = .ok (.mem a, s)) ∧
    (∀ a : Word, Readable s a → locate (.absDef a) s = .ok (.mem (wordAt s a), s)) ∧
    (∀ d : Word, locate (.wordDisp r d) s = .ok (.mem (s.reg r + d), s)) ∧
    (∀ d : Half, locate (.halfDisp r d) s = .ok (.mem (s.reg r + d.signExtend 32), s)) ∧
    (∀ d : Byte, locate (.byteDisp r d) s = .ok (.mem (s.reg r + d.signExtend 32), s)) ∧
    (∀ d : Word, Readable s (s.reg r + d) → locate (.wordDispDef r d) s = .ok (.mem (wordAt s (s.reg r + d)), s)) ∧
    (∀ d : Half, Readable s (s.reg r + d.signExtend 32) →
      locate (.halfDispDef r d) s = .ok (.mem (wordAt s (s.reg r + d.signExtend 32)), s)) ∧
    (∀ d : Byte, Readable s (s.reg r + d.signExtend 32) →
      locate (.byteDispDef r d) s = .ok (.mem (wordAt s (s.reg r + d.signExtend 32)), s))

/-- The value of an operand read as T (R404, R405, R406, R408): the low bits of its pattern, signed or not as T is; and the
type T of each operand of one, two, three or four, its expanded type, else the one that persists, else the instruction's
(R322, R401). -/
def Obligations.OperandValues : Prop :=
  ∀ (s : State) (ty : OpType),
    (∀ v : Fin 64, inputR ty ⟨none, .posLit v⟩ s = .ok (interpType ty (BitVec.ofNat 32 v.val), s)) ∧
    (∀ k : Fin 16, inputR ty ⟨none, .negLit k⟩ s = .ok (interpType ty (BitVec.ofInt 32 (k.val - 16)), s)) ∧
    (∀ b : Byte, inputR ty ⟨none, .byteImm b⟩ s = .ok (interpType ty (b.signExtend 32), s)) ∧
    (∀ h : Half, inputR ty ⟨none, .halfImm h⟩ s = .ok (interpType ty (h.signExtend 32), s)) ∧
    (∀ w : Word, inputR ty ⟨none, .wordImm w⟩ s = .ok (interpType ty w, s)) ∧
    (∀ r : RegNum, r ≠ 15 → inputR ty ⟨none, .reg r⟩ s = .ok (interpType ty (s.reg r), s)) ∧
    (∀ (a v : Word) (t : State), memRead a ty.size s = .ok (v, t) →
      inputR ty ⟨none, .absolute a⟩ s = .ok (interpType ty v, t)) ∧
    (∀ w : Word, interpType ty w =
      if ty.signed then (w.setWidth (sizeBits ty.size)).toInt else (w.setWidth (sizeBits ty.size)).toNat) ∧
    (∀ (c₁ : OpClass) (a : Operand) (x : Opnd) (t : State),
      gather1 c₁ ty a s = .ok (x, t) → x.type = (a.etype.map expandedType).getD ty) ∧
    (∀ (c₁ c₂ : OpClass) (a b : Operand) (x y : Opnd) (t : State),
      gather2 c₁ c₂ ty a b s = .ok ((x, y), t) →
      x.type = (a.etype.map expandedType).getD ty ∧
      y.type = (b.etype.map expandedType).getD (if s.params.etypePersists then x.type else ty)) ∧
    (∀ (c₁ c₂ c₃ : OpClass) (a b c : Operand) (x y z : Opnd) (t : State),
      gather3 c₁ c₂ c₃ ty a b c s = .ok ((x, y, z), t) →
      x.type = (a.etype.map expandedType).getD ty ∧
      y.type = (b.etype.map expandedType).getD (if s.params.etypePersists then x.type else ty) ∧
      z.type = (c.etype.map expandedType).getD (if s.params.etypePersists then y.type else ty)) ∧
    (∀ (c₁ c₂ c₃ c₄ : OpClass) (a b c d : Operand) (x y z w : Opnd) (t : State),
      gather4 c₁ c₂ c₃ c₄ ty a b c d s = .ok ((x, y, z, w), t) →
      x.type = (a.etype.map expandedType).getD ty ∧
      y.type = (b.etype.map expandedType).getD (if s.params.etypePersists then x.type else ty) ∧
      z.type = (c.etype.map expandedType).getD (if s.params.etypePersists then y.type else ty) ∧
      w.type = (d.etype.map expandedType).getD (if s.params.etypePersists then z.type else ty))

/-- Gathering and reading operands changes nothing but the DUART and its latches (R242, R410, R412). -/
def Obligations.OperandsOnlyRead : Prop :=
  ∀ (s t : State) (ty : OpType) (a b c d : Operand),
    (∀ v, inputR ty a s = .ok (v, t) → SameCore s t) ∧
    (∀ v, inputRR ty a b s = .ok (v, t) → SameCore s t) ∧
    (∀ v, inputM ty a s = .ok (v, t) → SameCore s t) ∧
    (∀ v, inputRW ty a b s = .ok (v, t) → SameCore s t) ∧
    (∀ v, inputRM ty a b s = .ok (v, t) → SameCore s t) ∧
    (∀ v, inputRRW ty a b c s = .ok (v, t) → SameCore s t) ∧
    (∀ v, inputRRRW ty a b c d s = .ok (v, t) → SameCore s t) ∧
    (∀ v, inputRRRM ty a b c d s = .ok (v, t) → SameCore s t) ∧
    (∀ v, inputA a s = .ok (v, t) → SameCore s t)

/-- An instruction abandoned before its results takes the trap from its start state, so that registers, memory and
the DUART are as they were (R700, R810, R812): one with an operand illegal in its class, which is found before
anything is read (InvalidDescriptor: R411, R462, R663; not a refused opcode, R720), and one of whose operand, stack,
gate table or block accesses the bus refuses (BusFault or MisalignedAccess: R212, R220), the accesses before it made
in the instruction's order. The order of the checks is the model's reading (log entry 5). -/
def Obligations.AbandonedInstructions : Prop :=
  (∀ (i : Instr) (s : State), operandsUndecoded i = false → i.wellFormed = false →
    exec i s = .next (takeTrap .invalidDescriptor s)) ∧
  (∀ (s : State) (k : FaultKind) (info : Option AccessInfo),
    (∀ x ∈ ([(.addw2, wordT), (.addh2, halfT), (.addb2, byteT), (.subw2, wordT), (.subh2, halfT), (.subb2, byteT),
        (.mulw2, wordT), (.mulh2, halfT), (.mulb2, byteT), (.divw2, wordT), (.divh2, halfT), (.divb2, byteT),
        (.modw2, wordT), (.modh2, halfT), (.modb2, byteT), (.andw2, wordT), (.andh2, halfT), (.andb2, byteT),
        (.orw2, wordT), (.orh2, halfT), (.orb2, byteT), (.xorw2, wordT), (.xorh2, halfT), (.xorb2, byteT)] :
        List ((Operand → Operand → Instr) × OpType)),
      ∀ src dst : Operand, inputRM x.2 src dst s = .error (.trap k info) →
        exec (x.1 src dst) s = .next (takeTrap k s)) ∧
    (∀ x ∈ ([(.addw3, wordT), (.addh3, halfT), (.addb3, byteT), (.subw3, wordT), (.subh3, halfT), (.subb3, byteT),
        (.mulw3, wordT), (.mulh3, halfT), (.mulb3, byteT), (.divw3, wordT), (.divh3, halfT), (.divb3, byteT),
        (.modw3, wordT), (.modh3, halfT), (.modb3, byteT), (.andw3, wordT), (.andh3, halfT), (.andb3, byteT),
        (.orw3, wordT), (.orh3, halfT), (.orb3, byteT), (.xorw3, wordT), (.xorh3, halfT), (.xorb3, byteT),
        (.alsw3, wordT), (.arsw3, wordT), (.arsh3, halfT), (.arsb3, byteT), (.llsw3, wordT), (.llsh3, halfT),
        (.llsb3, byteT), (.lrsw3, wordT), (.rotw, wordT)] : List ((Operand → Operand → Operand → Instr) × OpType)),
      ∀ src1 src2 dst : Operand, inputRRW x.2 src1 src2 dst s = .error (.trap k info) →
        exec (x.1 src1 src2 dst) s = .next (takeTrap k s)) ∧
    (∀ x ∈ ([(.movw, wordT), (.movh, halfT), (.movb, byteT), (.mnegw, wordT), (.mnegh, halfT), (.mnegb, byteT),
        (.mcomw, wordT), (.mcomh, halfT), (.mcomb, byteT)] : List ((Operand → Operand → Instr) × OpType)),
      ∀ src dst : Operand, inputRW x.2 src dst s = .error (.trap k info) →
        exec (x.1 src dst) s = .next (takeTrap k s)) ∧
    (∀ x ∈ ([(.incw, wordT), (.inch, halfT), (.incb, byteT), (.decw, wordT), (.dech, halfT), (.decb, byteT)] :
        List ((Operand → Instr) × OpType)),
      ∀ dst : Operand, inputM x.2 dst s = .error (.trap k info) → exec (x.1 dst) s = .next (takeTrap k s)) ∧
    (∀ x ∈ ([(.insfw, wordT), (.insfh, halfT), (.insfb, byteT)] :
        List ((Operand → Operand → Operand → Operand → Instr) × OpType)),
      ∀ width offset src dst : Operand, inputRRRM x.2 width offset src dst s = .error (.trap k info) →
        exec (x.1 width offset src dst) s = .next (takeTrap k s)) ∧
    (∀ x ∈ ([(.extfw, wordT), (.extfh, halfT), (.extfb, byteT)] :
        List ((Operand → Operand → Operand → Operand → Instr) × OpType)),
      ∀ width offset src dst : Operand, inputRRRW x.2 width offset src dst s = .error (.trap k info) →
        exec (x.1 width offset src dst) s = .next (takeTrap k s)) ∧
    (∀ x ∈ ([(.cmpw, wordT), (.cmph, halfT), (.cmpb, byteT), (.bitw, wordT), (.bith, halfT), (.bitb, byteT)] :
        List ((Operand → Operand → Instr) × OpType)),
      ∀ src1 src2 : Operand, inputRR x.2 src1 src2 s = .error (.trap k info) →
        exec (x.1 src1 src2) s = .next (takeTrap k s)) ∧
    (∀ x ∈ ([(.tstw, wordT), (.tsth, halfT), (.tstb, byteT), (.pushw, wordT)] : List ((Operand → Instr) × OpType)),
      ∀ src : Operand, inputR x.2 src s = .error (.trap k info) → exec (x.1 src) s = .next (takeTrap k s)) ∧
    (∀ f ∈ ([.pushaw, .jmp, .jsb] : List (Operand → Instr)),
      ∀ dst : Operand, inputA dst s = .error (.trap k info) → exec (f dst) s = .next (takeTrap k s)) ∧
    (∀ src dst : Operand, gather2 .addr .write wordT src dst s = .error (.trap k info) →
      exec (.movaw src dst) s = .next (takeTrap k s)) ∧
    (∀ src dst : Operand, gather2 .addr .addr wordT src dst s = .error (.trap k info) →
      exec (.call src dst) s = .next (takeTrap k s)) ∧
    (∀ x ∈ ([(.clrw, wordT), (.clrh, halfT), (.clrb, byteT), (.popw, wordT)] : List ((Operand → Instr) × OpType)),
      ∀ dst : Operand, gather1 .write x.2 dst s = .error (.trap k info) → exec (x.1 dst) s = .next (takeTrap k s)) ∧
    (∀ x ∈ ([(.swapwi, wordT), (.swaphi, halfT), (.swapbi, byteT)] : List ((Operand → Instr) × OpType)),
      ∀ (dst : Operand) (d : Opnd) (s₁ : State),
        (gather1 .memModify x.2 dst s = .error (.trap k info) → exec (x.1 dst) s = .next (takeTrap k s)) ∧
        (gather1 .memModify x.2 dst s = .ok (d, s₁) → readOpnd d s₁ = .error (.trap k info) →
          exec (x.1 dst) s = .next (takeTrap k s)))) ∧
  (∀ (s : State) (k : FaultKind),
    (AccessTraps s s.sp .word .write k →
      (∀ (src : Operand) (v : Int) (s₁ : State), inputR wordT src s = .ok (v, s₁) →
        exec (.pushw src) s = .next (takeTrap k s)) ∧
      (∀ f ∈ ([.pushaw, .jsb] : List (Operand → Instr)), ∀ (dst : Operand) (a : Word) (s₁ : State),
        inputA dst s = .ok (a, s₁) → exec (f dst) s = .next (takeTrap k s)) ∧
      (∀ disp : Byte, exec (.bsbb disp) s = .next (takeTrap k s)) ∧
      (∀ disp : Half, exec (.bsbh disp) s = .next (takeTrap k s))) ∧
    (AccessTraps s (s.sp - 4) .word .read k →
      (∀ (dst : Operand) (d : Opnd) (s₁ : State), gather1 .write wordT dst s = .ok (d, s₁) →
        exec (.popw dst) s = .next (takeTrap k s)) ∧
      (∀ x ∈ ([(.rsb, fun _ => true), (.rgeq, fun f => !f.n || f.z), (.rgtr, fun f => !f.n && !f.z),
          (.rlss, fun f => f.n && !f.z), (.rleq, fun f => f.n || f.z), (.rgequ, fun f => !f.c || f.z),
          (.rgtru, fun f => !f.c && !f.z), (.rlssu, fun f => f.c && !f.z), (.rlequ, fun f => f.c || f.z),
          (.rvc, fun f => !f.v), (.rvs, fun f => f.v), (.rnequ, fun f => !f.z), (.rneq, fun f => !f.z),
          (.reqlu, fun f => f.z), (.reql, fun f => f.z)] : List (Instr × (Flags → Bool))),
        x.2 (Psw.flags s.psw) = true → exec x.1 s = .next (takeTrap k s))) ∧
    (AccessTraps s (s.sp - 4) .word .read k ∨
        (Reached s (s.sp - 4) .word .read ∧ AccessTraps s (s.sp - 8) .word .read k) →
      exec .ret s = .next (takeTrap k s) ∧ exec .retg s = .next (takeTrap k s)) ∧
    (∀ (argp dst : Operand) (x y : Opnd) (s₁ : State), gather2 .addr .addr wordT argp dst s = .ok ((x, y), s₁) →
      AccessTraps s (s.sp + 4) .word .write k ∨
        (Reached s (s.sp + 4) .word .write ∧ AccessTraps s s.sp .word .write k) →
      exec (.call argp dst) s = .next (takeTrap k s)) ∧
    (∀ (n : RegNum) (m : Nat), 3 ≤ n → n ≠ 15 → m < 1 + (9 - n.val) →
      ((∀ j, j < m → Reached s (wordUp s.sp j) .word .write) → AccessTraps s (wordUp s.sp m) .word .write k →
        exec (.save ⟨none, .reg n⟩) s = .next (takeTrap k s)) ∧
      ((∀ j, j < m → Reached s (wordUp (s.reg regFP - 28) j) .word .read) →
        AccessTraps s (wordUp (s.reg regFP - 28) m) .word .read k →
        exec (.restore ⟨none, .reg n⟩) s = .next (takeTrap k s))) ∧
    (∀ l1 off : Word, l1 = s.reg 1 &&& 0x7C → off = s.reg 0 &&& 0x7FF8 →
      AccessTraps s s.sp .word .write k ∨
        (Reached s s.sp .word .write ∧ AccessTraps s (s.sp + 4) .word .write k) ∨
        (Reached s s.sp .word .write ∧ Reached s (s.sp + 4) .word .write ∧
          AccessTraps s (s.params.gateL1Base + l1) .word .read k) ∨
        (Room s s.sp 2 ∧ Readable s (s.params.gateL1Base + l1) ∧
          (∀ b, covers s.sp 8 b → ¬ covers (s.params.gateL1Base + l1) 4 b) ∧
          (AccessTraps s (gateEntry s l1 off) .word .read k ∨
            (Reached s (gateEntry s l1 off) .word .read ∧ AccessTraps s (gateEntry s l1 off + 4) .word .read k))) →
      exec .gate s = .next (takeTrap k s)) ∧
    (∀ m : Nat, m < (s.reg 2).toNat →
      (∀ j, j < m → Reached s (wordUp (s.reg 0) j) .word .read ∧ Reached s (wordUp (s.reg 1) j) .word .write) →
      AccessTraps s (wordUp (s.reg 0) m) .word .read k ∨
        (Reached s (wordUp (s.reg 0) m) .word .read ∧ AccessTraps s (wordUp (s.reg 1) m) .word .write k) →
      exec .movblw s = .next (takeTrap k s)) ∧
    (∀ m : Nat, m < 2 ^ 32 →
      (∀ j, j < m → ReadableByte s (s.reg 0 + BitVec.ofNat 32 j) ∧
        s.mem.read (s.reg 0 + BitVec.ofNat 32 j).toNat ≠ 0) →
      (AccessTraps s (s.reg 0 + BitVec.ofNat 32 m) .byte .read k → exec .strend s = .next (takeTrap k s)) ∧
      ((∀ j, j < m → dataRoute s.params (s.reg 1 + BitVec.ofNat 32 j) .byte .write = .ok .ram) →
        (∀ i j, i < j → j < m → s.reg 0 + BitVec.ofNat 32 j ≠ s.reg 1 + BitVec.ofNat 32 i) →
        AccessTraps s (s.reg 0 + BitVec.ofNat 32 m) .byte .read k ∨
          (ReadableByte s (s.reg 0 + BitVec.ofNat 32 m) ∧
            AccessTraps s (s.reg 1 + BitVec.ofNat 32 m) .byte .write k) →
        exec .strcpy s = .next (takeTrap k s))))

/-! ## Exceptions -/

/-- Taking each guest trap, where the frame and the table can be reached (R112, R810, R820, R821): ET 3 and the
kind's ISC in the saved PSW, the PC of the state, the new PSW and PC from entry ISC, IPL kept, the wait ended. The
two kinds of PrivilegeViolation are the model's (log entry 16). -/
def Obligations.TrapEntry : Prop :=
  ∀ x ∈ ([(.zeroDivide, 0), (.trace, 1), (.illegalInstruction, 2), (.reservedOpcode, 3), (.invalidDescriptor, 4),
      (.busFault, 5), (.misalignedAccess, 5), (.illegalLevelChange, 7), (.integerOverflow, 9), (.privilegedOpcode, 10),
      (.breakpoint, 14), (.privilegedRegister, 15)] : List (FaultKind × Nat)),
    ∀ s : State, GateReady s 0 (BitVec.ofNat 32 (8 * x.2)) → s.mem.wf →
      ∃ saved, SavedPsw 3 (BitVec.ofNat 4 x.2) s.psw saved ∧
        GateTaken s.pc saved 0 (BitVec.ofNat 32 (8 * x.2)) (Psw.ipl s.psw) { s with waiting := false }
          (takeTrap x.1 s)

/-- A trap or an interrupt whose frame or table cannot be reached is not delivered, be it the frame's words, the first-level
word or the PSW or PC word of the gate entry: nothing changes but the status (R814, R843). -/
def Obligations.DeliveryFails : Prop :=
  ∀ s : State,
    ((∃ k e, k < 2 ∧ dataRoute s.params (wordUp s.sp k) .word .write = .error e) ∨
      (∃ e, dataRoute s.params s.params.gateL1Base .word .read = .error e) →
      (∀ k, takeTrap k s = { s with status := .faulted k }) ∧
      (∀ i, takeInterrupt i s = { s with status := .faulted .busFault })) ∧
    (∀ off : Word, Room s s.sp 2 → Readable s s.params.gateL1Base →
      (∀ b, covers s.sp 8 b → ¬ covers s.params.gateL1Base 4 b) →
      (∃ e, dataRoute s.params (gateEntry s 0 off) .word .read = .error e ∨
        dataRoute s.params (gateEntry s 0 off + 4) .word .read = .error e) →
      (∀ k, off = BitVec.ofNat 32 (8 * (iscOf k).toNat) → takeTrap k s = { s with status := .faulted k }) ∧
      (∀ i : Fin 5, off = BitVec.ofNat 32 (8 * (16 + i.val)) →
        takeInterrupt i s = { s with status := .faulted .busFault }))

/-- RETG in kernel mode undoes a trap entry: whatever the handler did to the other registers, PC, SP and PSW are those of
the trap's state, but for the recorded ET and ISC (R741, R810, R820, R821). -/
def Obligations.TrapReturn : Prop :=
  ∀ (k : FaultKind) (s u : State), GateReady s 0 (gateOffset (iscOf k).toNat) → s.mem.wf →
    s.psw &&& ~~~Config.pswMask = 0 →
    u.mem = (takeTrap k s).mem → u.params = s.params → u.sp = (takeTrap k s).sp → u.kernel = true → NotTraced u →
    ∃ v, exec .retg u = .next v ∧ v.pc = s.pc ∧ v.sp = s.sp ∧ SavedPsw 3 (iscOf k) s.psw v.psw ∧
      (∀ n, n ∉ [regPC, regSP, regPSW] → v.reg n = u.reg n) ∧ v.mem = u.mem ∧ v.duart = u.duart

/-- An instruction of 42_arithmetic.md, or ALSW3, that ends with V = 1 while OE = 1 keeps its results and takes the
IntegerOverflow trap from the state after them; a Trace trap follows an instruction that began with TM = 1 and raised
no other trap, but never HALT (R811, R813, R815, R816). The model's readings: which V and OE count after a PSW
destination (log entry 13), and under expanded types the widths of ALSW3 (log entries 11 and 12), of AND, OR and XOR
(log entry 11) and of MOV's flags (log entry 29), and what RSB reads with SP = 0 (log entry 35). -/
def Obligations.EndOfInstructionTraps : Prop :=
  (∀ x ∈ ([(.addw2, .add, wordT), (.addh2, .add, halfT), (.addb2, .add, byteT), (.subw2, .sub, wordT),
      (.subh2, .sub, halfT), (.subb2, .sub, byteT), (.mulw2, .mul, wordT), (.mulh2, .mul, halfT), (.mulb2, .mul, byteT),
      (.divw2, .div, wordT), (.divh2, .div, halfT), (.divb2, .div, byteT), (.modw2, .mod, wordT), (.modh2, .mod, halfT),
      (.modb2, .mod, byteT)] :
      List ((Operand → Operand → Instr) × AluOp × OpType)),
    ∀ (s s₁ : State) (src dst : Operand) (a b r : Int) (d : Opnd) (psw : Word),
      inputRM x.2.2 src dst s = .ok ((a, b, d), s₁) → aluResult x.2.1 a b = some r → d.Writable s₁ → s.mem.wf →
      psw = pswAfter d r (aluFlags x.2.1 d.type a b r) s.psw →
      (Psw.v psw = true → Psw.oe psw = true →
        ∃ t, exec (x.1 src dst) s = .next (takeTrap .integerOverflow t) ∧
          Completed d r psw (s.pc + BitVec.ofNat 32 (x.1 src dst).length) s s₁ t) ∧
      (NoOverflow psw → Psw.tm s.psw = true →
        ∃ t, exec (x.1 src dst) s = .next (takeTrap .trace t) ∧
          Completed d r psw (s.pc + BitVec.ofNat 32 (x.1 src dst).length) s s₁ t)) ∧
  (∀ x ∈ ([(.addw3, .add, wordT), (.addh3, .add, halfT), (.addb3, .add, byteT), (.subw3, .sub, wordT),
      (.subh3, .sub, halfT), (.subb3, .sub, byteT), (.mulw3, .mul, wordT), (.mulh3, .mul, halfT), (.mulb3, .mul, byteT),
      (.divw3, .div, wordT), (.divh3, .div, halfT), (.divb3, .div, byteT), (.modw3, .mod, wordT), (.modh3, .mod, halfT),
      (.modb3, .mod, byteT)] :
      List ((Operand → Operand → Operand → Instr) × AluOp × OpType)),
    ∀ (s s₁ : State) (src1 src2 dst : Operand) (a b r : Int) (d : Opnd) (psw : Word),
      inputRRW x.2.2 src1 src2 dst s = .ok ((a, b, d), s₁) → aluResult x.2.1 a b = some r → d.Writable s₁ → s.mem.wf →
      psw = pswAfter d r (aluFlags x.2.1 d.type a b r) s.psw → Psw.v psw = true → Psw.oe psw = true →
      ∃ t, exec (x.1 src1 src2 dst) s = .next (takeTrap .integerOverflow t) ∧
        Completed d r psw (s.pc + BitVec.ofNat 32 (x.1 src1 src2 dst).length) s s₁ t) ∧
  (∀ x ∈ ([(.incw, .add, wordT), (.inch, .add, halfT), (.incb, .add, byteT), (.decw, .sub, wordT), (.dech, .sub, halfT),
      (.decb, .sub, byteT)] : List ((Operand → Instr) × AluOp × OpType)),
    ∀ (s s₁ : State) (dst : Operand) (b r : Int) (d : Opnd) (psw : Word),
      inputM x.2.2 dst s = .ok ((b, d), s₁) → aluResult x.2.1 1 b = some r → d.Writable s₁ → s.mem.wf →
      psw = pswAfter d r (aluFlags x.2.1 d.type 1 b r) s.psw → Psw.v psw = true → Psw.oe psw = true →
      ∃ t, exec (x.1 dst) s = .next (takeTrap .integerOverflow t) ∧
        Completed d r psw (s.pc + BitVec.ofNat 32 (x.1 dst).length) s s₁ t) ∧
  (∀ x ∈ ([(.mnegw, wordT), (.mnegh, halfT), (.mnegb, byteT)] : List ((Operand → Operand → Instr) × OpType)),
    ∀ (s s₁ : State) (src dst : Operand) (a : Int) (d : Opnd) (psw : Word),
      inputRW x.2 src dst s = .ok ((a, d), s₁) → d.Writable s₁ → s.mem.wf →
      psw = pswAfter d (-a) (aluFlags .sub d.type a 0 (-a)) s.psw → Psw.v psw = true → Psw.oe psw = true →
      ∃ t, exec (x.1 src dst) s = .next (takeTrap .integerOverflow t) ∧
        Completed d (-a) psw (s.pc + BitVec.ofNat 32 (x.1 src dst).length) s s₁ t) ∧
  (∀ (s s₁ : State) (count src dst : Operand) (n a r : Int) (d : Opnd) (psw : Word),
    inputRRW wordT count src dst s = .ok ((n, a, d), s₁) → r = a * 2 ^ ((patternOf n).toNat % 32) →
    d.Writable s₁ → s.mem.wf → psw = pswAfter d r (flagsOf d.type r false (flagTrunc d.type r)) s.psw →
    Psw.v psw = true → Psw.oe psw = true →
    ∃ t, exec (.alsw3 count src dst) s = .next (takeTrap .integerOverflow t) ∧
      Completed d r psw (s.pc + BitVec.ofNat 32 (Instr.alsw3 count src dst).length) s s₁ t) ∧
  (∀ x ∈ ([(.movw, wordT), (.movh, halfT), (.movb, byteT)] : List ((Operand → Operand → Instr) × OpType)),
    ∀ (s s₁ : State) (src dst : Operand) (v : Int) (d : Opnd),
      inputRW x.2 src dst s = .ok ((v, d), s₁) → d.Writable s₁ → s.mem.wf → Psw.tm s.psw = true →
      ∃ t, exec (x.1 src dst) s = .next (takeTrap .trace t) ∧
        Completed d v (movPswAfter d v (flagsOf d.type v false (flagTrunc d.type v)) s)
          (s.pc + BitVec.ofNat 32 (x.1 src dst).length) s s₁ t) ∧
  (∀ x ∈ ([(.andw2, wordT, BitVec.and), (.andh2, halfT, BitVec.and), (.andb2, byteT, BitVec.and),
      (.orw2, wordT, BitVec.or), (.orh2, halfT, BitVec.or), (.orb2, byteT, BitVec.or),
      (.xorw2, wordT, BitVec.xor), (.xorh2, halfT, BitVec.xor), (.xorb2, byteT, BitVec.xor)] :
      List ((Operand → Operand → Instr) × OpType × (Word → Word → Word))),
    ∀ (s s₁ : State) (src dst : Operand) (a b r : Int) (d : Opnd),
      inputRM x.2.1 src dst s = .ok ((a, b, d), s₁) → r = interpType d.type (x.2.2 (patternOf b) (patternOf a)) →
      d.Writable s₁ → s.mem.wf → Psw.tm s.psw = true →
      ∃ t, exec (x.1 src dst) s = .next (takeTrap .trace t) ∧
        Completed d r (pswAfter d r (flagsOf d.type r false false) s.psw)
          (s.pc + BitVec.ofNat 32 (x.1 src dst).length) s s₁ t) ∧
  (∀ x ∈ ([(.bgeb, .bgeh, fun f => !f.n || f.z), (.bgb, .bgh, fun f => !f.n && !f.z),
      (.blb, .blh, fun f => f.n && !f.z), (.bleb, .bleh, fun f => f.n || f.z),
      (.bgeub, .bgeuh, fun f => !f.c || f.z), (.bgub, .bguh, fun f => !f.c && !f.z),
      (.blub, .bluh, fun f => f.c && !f.z), (.bleub, .bleuh, fun f => f.c || f.z),
      (.bvcb, .bvch, fun f => !f.v), (.bvsb, .bvsh, fun f => f.v), (.bneb, .bneh, fun f => !f.z),
      (.beb, .beh, fun f => f.z)] : List ((Byte → Instr) × (Half → Instr) × (Flags → Bool))),
    ∀ s : State, Psw.tm s.psw = true →
      (∀ disp : Byte, exec (x.1 disp) s = .next (takeTrap .trace
        (s.setPc (s.pc + if x.2.2 (Psw.flags s.psw) then disp.signExtend 32 else 2)))) ∧
      (∀ disp : Half, exec (x.2.1 disp) s = .next (takeTrap .trace
        (s.setPc (s.pc + if x.2.2 (Psw.flags s.psw) then disp.signExtend 32 else 3))))) ∧
  (∀ s : State, Psw.tm s.psw = true →
    exec .nop s = .next (takeTrap .trace (s.setPc (s.pc + 1))) ∧
    (∀ (dst : Operand) (a : Word) (s₁ : State), inputA dst s = .ok (a, s₁) →
      exec (.jmp dst) s = .next (takeTrap .trace (s₁.setPc a))) ∧
    (Readable s (s.sp - 4) →
      exec .rsb s = .next (takeTrap .trace ((s.setSp (s.sp - 4)).setPc (wordAt s (s.sp - 4))))) ∧
    exec .halt s = .next { s.setPc (s.pc + 1) with status := .halted }) ∧
  (∀ (i : Instr) (s t : State), i ≠ .halt → Psw.tm s.psw = true → exec i s = .next t →
    (∃ k, t = takeTrap k s) ∨ (∃ u, t = takeTrap .trace u) ∨
      (∃ u, t = takeTrap .integerOverflow u ∧ Psw.v u.psw = true ∧ Psw.oe u.psw = true))

/-- An instruction whose destination operand cannot be written is abandoned when it comes to its write and takes the
trap from its start state: PSW, PCBP or ISP outside kernel mode (PrivilegeViolation 15), or memory that the bus
refuses (BusFault or MisalignedAccess); whatever the instruction that can name such a destination (R103, R211, R212,
R220, R801, R810, R812). -/
def Obligations.DestinationTraps : Prop :=
  ∀ (s s₁ : State) (d : Opnd) (k : FaultKind), d.Refused s k →
    (∀ x ∈ ([(.movw, wordT), (.movh, halfT), (.movb, byteT), (.mnegw, wordT), (.mnegh, halfT), (.mnegb, byteT),
        (.mcomw, wordT), (.mcomh, halfT), (.mcomb, byteT)] : List ((Operand → Operand → Instr) × OpType)),
      ∀ (src dst : Operand) (v : Int), inputRW x.2 src dst s = .ok ((v, d), s₁) →
        exec (x.1 src dst) s = .next (takeTrap k s)) ∧
    (∀ x ∈ ([(.addw2, wordT), (.addh2, halfT), (.addb2, byteT), (.subw2, wordT), (.subh2, halfT), (.subb2, byteT),
        (.mulw2, wordT), (.mulh2, halfT), (.mulb2, byteT), (.andw2, wordT), (.andh2, halfT), (.andb2, byteT),
        (.orw2, wordT), (.orh2, halfT), (.orb2, byteT), (.xorw2, wordT), (.xorh2, halfT), (.xorb2, byteT)] :
        List ((Operand → Operand → Instr) × OpType)),
      ∀ (src dst : Operand) (a b : Int), inputRM x.2 src dst s = .ok ((a, b, d), s₁) →
        exec (x.1 src dst) s = .next (takeTrap k s)) ∧
    (∀ x ∈ ([(.divw2, wordT), (.divh2, halfT), (.divb2, byteT), (.modw2, wordT), (.modh2, halfT), (.modb2, byteT)] :
        List ((Operand → Operand → Instr) × OpType)),
      ∀ (src dst : Operand) (a b : Int), inputRM x.2 src dst s = .ok ((a, b, d), s₁) → a ≠ 0 →
        exec (x.1 src dst) s = .next (takeTrap k s)) ∧
    (∀ x ∈ ([(.addw3, wordT), (.addh3, halfT), (.addb3, byteT), (.subw3, wordT), (.subh3, halfT), (.subb3, byteT),
        (.mulw3, wordT), (.mulh3, halfT), (.mulb3, byteT), (.andw3, wordT), (.andh3, halfT), (.andb3, byteT),
        (.orw3, wordT), (.orh3, halfT), (.orb3, byteT), (.xorw3, wordT), (.xorh3, halfT), (.xorb3, byteT),
        (.alsw3, wordT), (.arsw3, wordT), (.arsh3, halfT), (.arsb3, byteT), (.llsw3, wordT), (.llsh3, halfT),
        (.llsb3, byteT), (.lrsw3, wordT), (.rotw, wordT)] :
        List ((Operand → Operand → Operand → Instr) × OpType)),
      ∀ (src1 src2 dst : Operand) (a b : Int), inputRRW x.2 src1 src2 dst s = .ok ((a, b, d), s₁) →
        exec (x.1 src1 src2 dst) s = .next (takeTrap k s)) ∧
    (∀ x ∈ ([(.divw3, wordT), (.divh3, halfT), (.divb3, byteT), (.modw3, wordT), (.modh3, halfT), (.modb3, byteT)] :
        List ((Operand → Operand → Operand → Instr) × OpType)),
      ∀ (src1 src2 dst : Operand) (a b : Int), inputRRW x.2 src1 src2 dst s = .ok ((a, b, d), s₁) → a ≠ 0 →
        exec (x.1 src1 src2 dst) s = .next (takeTrap k s)) ∧
    (∀ x ∈ ([(.incw, wordT), (.inch, halfT), (.incb, byteT), (.decw, wordT), (.dech, halfT), (.decb, byteT)] :
        List ((Operand → Instr) × OpType)),
      ∀ (dst : Operand) (b : Int), inputM x.2 dst s = .ok ((b, d), s₁) →
        exec (x.1 dst) s = .next (takeTrap k s)) ∧
    (∀ x ∈ ([(.insfw, wordT), (.insfh, halfT), (.insfb, byteT)] :
        List ((Operand → Operand → Operand → Operand → Instr) × OpType)),
      ∀ (width offset src dst : Operand) (m n' a b : Int),
        inputRRRM x.2 width offset src dst s = .ok ((m, n', a, b, d), s₁) →
        (s.params.fieldWrap = .fault → (patternOf n').toNat % 32 + ((patternOf m).toNat % 32 + 1) ≤ 32) →
        exec (x.1 width offset src dst) s = .next (takeTrap k s)) ∧
    (∀ x ∈ ([(.extfw, wordT), (.extfh, halfT), (.extfb, byteT)] :
        List ((Operand → Operand → Operand → Operand → Instr) × OpType)),
      ∀ (width offset src dst : Operand) (m n' a : Int),
        inputRRRW x.2 width offset src dst s = .ok ((m, n', a, d), s₁) →
        (s.params.fieldWrap = .fault → (patternOf n').toNat % 32 + ((patternOf m).toNat % 32 + 1) ≤ 32) →
        exec (x.1 width offset src dst) s = .next (takeTrap k s)) ∧
    (∀ (src dst : Operand) (x : Opnd), gather2 .addr .write wordT src dst s = .ok ((x, d), s₁) →
      exec (.movaw src dst) s = .next (takeTrap k s)) ∧
    (∀ dst : Operand, gather1 .write wordT dst s = .ok (d, s₁) → Reached s (s.sp - 4) .word .read →
      exec (.popw dst) s = .next (takeTrap k s)) ∧
    (∀ x ∈ ([(.clrw, wordT), (.clrh, halfT), (.clrb, byteT)] : List ((Operand → Instr) × OpType)),
      ∀ dst : Operand, gather1 .write x.2 dst s = .ok (d, s₁) →
        exec (x.1 dst) s = .next (takeTrap k s)) ∧
    (∀ x ∈ ([(.swapwi, wordT), (.swaphi, halfT), (.swapbi, byteT)] : List ((Operand → Instr) × OpType)),
      ∀ (dst : Operand) (old : Int) (s₂ : State), gather1 .memModify x.2 dst s = .ok (d, s₂) →
        readOpnd d s₂ = .ok (old, s₁) → exec (x.1 dst) s = .next (takeTrap k s))

/-! ## Arithmetic -/

/-- ADD* and INC*: the exact sum stored at the destination's width, the flags of R120, the frame (R500 to R506, R531
to R533). For a PSW destination, that no IntegerOverflow trap follows is judged on the V and OE of the value written,
the model's reading (log entry 13). -/
def Obligations.AddResults : Prop :=
  (∀ x ∈ ([(.addw2, wordT), (.addh2, halfT), (.addb2, byteT)] : List ((Operand → Operand → Instr) × OpType)),
    ∀ (s s₁ : State) (src dst : Operand) (a b : Int) (d : Opnd) (psw : Word),
      inputRM x.2 src dst s = .ok ((a, b, d), s₁) → d.Writable s₁ → s.mem.wf → NotTraced s →
      psw = pswAfter d (b + a) (flagsOf d.type (b + a) (flagCarry (typeBits d.type) a b)
        (flagOvfAdd (typeBits d.type) b a)) s.psw → NoOverflow psw →
      ∃ t, exec (x.1 src dst) s = .next t ∧
        Completed d (b + a) psw (s.pc + BitVec.ofNat 32 (x.1 src dst).length) s s₁ t) ∧
  (∀ x ∈ ([(.addw3, wordT), (.addh3, halfT), (.addb3, byteT)] : List ((Operand → Operand → Operand → Instr) × OpType)),
    ∀ (s s₁ : State) (src1 src2 dst : Operand) (a b : Int) (d : Opnd) (psw : Word),
      inputRRW x.2 src1 src2 dst s = .ok ((a, b, d), s₁) → d.Writable s₁ → s.mem.wf → NotTraced s →
      psw = pswAfter d (b + a) (flagsOf d.type (b + a) (flagCarry (typeBits d.type) a b)
        (flagOvfAdd (typeBits d.type) b a)) s.psw → NoOverflow psw →
      ∃ t, exec (x.1 src1 src2 dst) s = .next t ∧
        Completed d (b + a) psw (s.pc + BitVec.ofNat 32 (x.1 src1 src2 dst).length) s s₁ t) ∧
  (∀ x ∈ ([(.incw, wordT), (.inch, halfT), (.incb, byteT)] : List ((Operand → Instr) × OpType)),
    ∀ (s s₁ : State) (dst : Operand) (b : Int) (d : Opnd) (psw : Word),
      inputM x.2 dst s = .ok ((b, d), s₁) → d.Writable s₁ → s.mem.wf → NotTraced s →
      psw = pswAfter d (b + 1) (flagsOf d.type (b + 1) (flagCarry (typeBits d.type) b 1)
        (flagOvfAdd (typeBits d.type) b 1)) s.psw → NoOverflow psw →
      ∃ t, exec (x.1 dst) s = .next t ∧
        Completed d (b + 1) psw (s.pc + BitVec.ofNat 32 (x.1 dst).length) s s₁ t)

/-- SUB*, DEC* and MNEG*: the exact difference, its borrow and overflow, the frame (R507 to R512, R534 to R539). For
a PSW destination, that no IntegerOverflow trap follows is judged on the V and OE of the value written, the model's
reading (log entry 13). -/
def Obligations.SubResults : Prop :=
  (∀ x ∈ ([(.subw2, wordT), (.subh2, halfT), (.subb2, byteT)] : List ((Operand → Operand → Instr) × OpType)),
    ∀ (s s₁ : State) (src dst : Operand) (a b : Int) (d : Opnd) (psw : Word),
      inputRM x.2 src dst s = .ok ((a, b, d), s₁) → d.Writable s₁ → s.mem.wf → NotTraced s →
      psw = pswAfter d (b - a) (flagsOf d.type (b - a) (flagBorrow (typeBits d.type) b a)
        (flagOvfSub (typeBits d.type) b a)) s.psw → NoOverflow psw →
      ∃ t, exec (x.1 src dst) s = .next t ∧
        Completed d (b - a) psw (s.pc + BitVec.ofNat 32 (x.1 src dst).length) s s₁ t) ∧
  (∀ x ∈ ([(.subw3, wordT), (.subh3, halfT), (.subb3, byteT)] : List ((Operand → Operand → Operand → Instr) × OpType)),
    ∀ (s s₁ : State) (src1 src2 dst : Operand) (a b : Int) (d : Opnd) (psw : Word),
      inputRRW x.2 src1 src2 dst s = .ok ((a, b, d), s₁) → d.Writable s₁ → s.mem.wf → NotTraced s →
      psw = pswAfter d (b - a) (flagsOf d.type (b - a) (flagBorrow (typeBits d.type) b a)
        (flagOvfSub (typeBits d.type) b a)) s.psw → NoOverflow psw →
      ∃ t, exec (x.1 src1 src2 dst) s = .next t ∧
        Completed d (b - a) psw (s.pc + BitVec.ofNat 32 (x.1 src1 src2 dst).length) s s₁ t) ∧
  (∀ x ∈ ([(.decw, wordT), (.dech, halfT), (.decb, byteT)] : List ((Operand → Instr) × OpType)),
    ∀ (s s₁ : State) (dst : Operand) (b : Int) (d : Opnd) (psw : Word),
      inputM x.2 dst s = .ok ((b, d), s₁) → d.Writable s₁ → s.mem.wf → NotTraced s →
      psw = pswAfter d (b - 1) (flagsOf d.type (b - 1) (flagBorrow (typeBits d.type) b 1)
        (flagOvfSub (typeBits d.type) b 1)) s.psw → NoOverflow psw →
      ∃ t, exec (x.1 dst) s = .next t ∧
        Completed d (b - 1) psw (s.pc + BitVec.ofNat 32 (x.1 dst).length) s s₁ t) ∧
  (∀ x ∈ ([(.mnegw, wordT), (.mnegh, halfT), (.mnegb, byteT)] : List ((Operand → Operand → Instr) × OpType)),
    ∀ (s s₁ : State) (src dst : Operand) (a : Int) (d : Opnd) (psw : Word),
      inputRW x.2 src dst s = .ok ((a, d), s₁) → d.Writable s₁ → s.mem.wf → NotTraced s →
      psw = pswAfter d (-a) (flagsOf d.type (-a) (flagBorrow (typeBits d.type) 0 a)
        (flagOvfSub (typeBits d.type) 0 a)) s.psw → NoOverflow psw →
      ∃ t, exec (x.1 src dst) s = .next t ∧
        Completed d (-a) psw (s.pc + BitVec.ofNat 32 (x.1 src dst).length) s s₁ t)

/-- MUL*: the exact product stored at the destination's width, C 0, V by truncation, the frame (R513 to R518). For a
PSW destination, that no IntegerOverflow trap follows is judged on the V and OE of the value written, the model's
reading (log entry 13). -/
def Obligations.MulResults : Prop :=
  (∀ x ∈ ([(.mulw2, wordT), (.mulh2, halfT), (.mulb2, byteT)] : List ((Operand → Operand → Instr) × OpType)),
    ∀ (s s₁ : State) (src dst : Operand) (a b : Int) (d : Opnd) (psw : Word),
      inputRM x.2 src dst s = .ok ((a, b, d), s₁) → d.Writable s₁ → s.mem.wf → NotTraced s →
      psw = pswAfter d (b * a) (flagsOf d.type (b * a) false (flagTrunc d.type (b * a))) s.psw → NoOverflow psw →
      ∃ t, exec (x.1 src dst) s = .next t ∧
        Completed d (b * a) psw (s.pc + BitVec.ofNat 32 (x.1 src dst).length) s s₁ t) ∧
  (∀ x ∈ ([(.mulw3, wordT), (.mulh3, halfT), (.mulb3, byteT)] : List ((Operand → Operand → Operand → Instr) × OpType)),
    ∀ (s s₁ : State) (src1 src2 dst : Operand) (a b : Int) (d : Opnd) (psw : Word),
      inputRRW x.2 src1 src2 dst s = .ok ((a, b, d), s₁) → d.Writable s₁ → s.mem.wf → NotTraced s →
      psw = pswAfter d (b * a) (flagsOf d.type (b * a) false (flagTrunc d.type (b * a))) s.psw → NoOverflow psw →
      ∃ t, exec (x.1 src1 src2 dst) s = .next t ∧
        Completed d (b * a) psw (s.pc + BitVec.ofNat 32 (x.1 src1 src2 dst).length) s s₁ t)

/-- DIV* and MOD* by a divisor that is not 0: the quotient truncated toward zero, the remainder with the dividend's
sign, C 0, V by truncation, the frame; a divisor of 0 abandons them with ZeroDivide (R519 to R530, R812). For a PSW
destination, that no IntegerOverflow trap follows is judged on the V and OE of the value written, the model's reading
(log entry 13). -/
def Obligations.DivResults : Prop :=
  (∀ x ∈ ([(.divw2, wordT, Int.tdiv), (.divh2, halfT, Int.tdiv), (.divb2, byteT, Int.tdiv), (.modw2, wordT, Int.tmod),
      (.modh2, halfT, Int.tmod), (.modb2, byteT, Int.tmod)] :
      List ((Operand → Operand → Instr) × OpType × (Int → Int → Int))),
    ∀ (s s₁ : State) (src dst : Operand) (a b r : Int) (d : Opnd) (psw : Word),
      inputRM x.2.1 src dst s = .ok ((a, b, d), s₁) → a ≠ 0 → r = x.2.2 b a → d.Writable s₁ → s.mem.wf → NotTraced s →
      psw = pswAfter d r (flagsOf d.type r false (flagTrunc d.type r)) s.psw → NoOverflow psw →
      ∃ t, exec (x.1 src dst) s = .next t ∧
        Completed d r psw (s.pc + BitVec.ofNat 32 (x.1 src dst).length) s s₁ t) ∧
  (∀ x ∈ ([(.divw3, wordT, Int.tdiv), (.divh3, halfT, Int.tdiv), (.divb3, byteT, Int.tdiv), (.modw3, wordT, Int.tmod),
      (.modh3, halfT, Int.tmod), (.modb3, byteT, Int.tmod)] :
      List ((Operand → Operand → Operand → Instr) × OpType × (Int → Int → Int))),
    ∀ (s s₁ : State) (src1 src2 dst : Operand) (a b r : Int) (d : Opnd) (psw : Word),
      inputRRW x.2.1 src1 src2 dst s = .ok ((a, b, d), s₁) → a ≠ 0 → r = x.2.2 b a → d.Writable s₁ → s.mem.wf →
      NotTraced s → psw = pswAfter d r (flagsOf d.type r false (flagTrunc d.type r)) s.psw → NoOverflow psw →
      ∃ t, exec (x.1 src1 src2 dst) s = .next t ∧
        Completed d r psw (s.pc + BitVec.ofNat 32 (x.1 src1 src2 dst).length) s s₁ t) ∧
  (∀ x ∈ ([(.divw2, wordT), (.divh2, halfT), (.divb2, byteT), (.modw2, wordT), (.modh2, halfT), (.modb2, byteT)] :
      List ((Operand → Operand → Instr) × OpType)),
    ∀ (s s₁ : State) (src dst : Operand) (b : Int) (d : Opnd),
      inputRM x.2 src dst s = .ok ((0, b, d), s₁) → exec (x.1 src dst) s = .next (takeTrap .zeroDivide s)) ∧
  (∀ x ∈ ([(.divw3, wordT), (.divh3, halfT), (.divb3, byteT), (.modw3, wordT), (.modh3, halfT), (.modb3, byteT)] :
      List ((Operand → Operand → Operand → Instr) × OpType)),
    ∀ (s s₁ : State) (src1 src2 dst : Operand) (b : Int) (d : Opnd),
      inputRRW x.2 src1 src2 dst s = .ok ((0, b, d), s₁) →
      exec (x.1 src1 src2 dst) s = .next (takeTrap .zeroDivide s))

/-! ## Logical, shift and field -/

/-- AND*, OR*, XOR* and MCOM*: the pattern stored, NZ of it, C and V 0, the frame (R550 to R571). Widths under
expanded types are the model's reading (log entry 11). -/
def Obligations.BitwiseResults : Prop :=
  (∀ x ∈ ([(.andw2, wordT, BitVec.and), (.andh2, halfT, BitVec.and), (.andb2, byteT, BitVec.and),
      (.orw2, wordT, BitVec.or), (.orh2, halfT, BitVec.or), (.orb2, byteT, BitVec.or),
      (.xorw2, wordT, BitVec.xor), (.xorh2, halfT, BitVec.xor), (.xorb2, byteT, BitVec.xor)] :
      List ((Operand → Operand → Instr) × OpType × (Word → Word → Word))),
    ∀ (s s₁ : State) (src dst : Operand) (a b r : Int) (d : Opnd),
      inputRM x.2.1 src dst s = .ok ((a, b, d), s₁) → r = interpType d.type (x.2.2 (patternOf b) (patternOf a)) →
      d.Writable s₁ → s.mem.wf → NotTraced s →
      ∃ t, exec (x.1 src dst) s = .next t ∧
        Completed d r (pswAfter d r (flagsOf d.type r false false) s.psw)
          (s.pc + BitVec.ofNat 32 (x.1 src dst).length) s s₁ t) ∧
  (∀ x ∈ ([(.andw3, wordT, BitVec.and), (.andh3, halfT, BitVec.and), (.andb3, byteT, BitVec.and),
      (.orw3, wordT, BitVec.or), (.orh3, halfT, BitVec.or), (.orb3, byteT, BitVec.or),
      (.xorw3, wordT, BitVec.xor), (.xorh3, halfT, BitVec.xor), (.xorb3, byteT, BitVec.xor)] :
      List ((Operand → Operand → Operand → Instr) × OpType × (Word → Word → Word))),
    ∀ (s s₁ : State) (src1 src2 dst : Operand) (a b r : Int) (d : Opnd),
      inputRRW x.2.1 src1 src2 dst s = .ok ((a, b, d), s₁) →
      r = interpType d.type (x.2.2 (patternOf b) (patternOf a)) → d.Writable s₁ → s.mem.wf → NotTraced s →
      ∃ t, exec (x.1 src1 src2 dst) s = .next t ∧
        Completed d r (pswAfter d r (flagsOf d.type r false false) s.psw)
          (s.pc + BitVec.ofNat 32 (x.1 src1 src2 dst).length) s s₁ t) ∧
  (∀ x ∈ ([(.mcomw, wordT), (.mcomh, halfT), (.mcomb, byteT)] : List ((Operand → Operand → Instr) × OpType)),
    ∀ (s s₁ : State) (src dst : Operand) (a r : Int) (d : Opnd),
      inputRW x.2 src dst s = .ok ((a, d), s₁) → r = interpType d.type (~~~patternOf a) →
      d.Writable s₁ → s.mem.wf → NotTraced s →
      ∃ t, exec (x.1 src dst) s = .next t ∧
        Completed d r (pswAfter d r (flagsOf d.type r false false) s.psw)
          (s.pc + BitVec.ofNat 32 (x.1 src dst).length) s s₁ t)

/-- ALSW3, ARS*, LLS*, LRSW3 and ROTW: the shifted pattern for a count of 0 to 31, the low five bits of the count
operand; ALSW3's V tells that the exact product does not fit (R550, R572 to R580). Widths under expanded types are
the model's reading (log entries 11 and 12); that no IntegerOverflow trap follows an ALSW3 with a PSW destination is
judged on the V and OE of the value written (log entry 13). -/
def Obligations.ShiftResults : Prop :=
  (∀ (s s₁ : State) (count src dst : Operand) (n a r : Int) (d : Opnd) (psw : Word),
    inputRRW wordT count src dst s = .ok ((n, a, d), s₁) → r = a * 2 ^ ((patternOf n).toNat % 32) →
    d.Writable s₁ → s.mem.wf → NotTraced s →
    psw = pswAfter d r (flagsOf d.type r false (flagTrunc d.type r)) s.psw → NoOverflow psw →
    ∃ t, exec (.alsw3 count src dst) s = .next t ∧
      Completed d r psw (s.pc + BitVec.ofNat 32 (Instr.alsw3 count src dst).length) s s₁ t) ∧
  (∀ x ∈ ([(.arsw3, wordT, fun a k => (patternOf a).sshiftRight k),
      (.arsh3, halfT, fun a k => ((truncBits 16 a).sshiftRight k).setWidth 32),
      (.arsb3, byteT, fun a k => ((truncBits 8 a).sshiftRight k).setWidth 32),
      (.llsw3, wordT, fun a k => patternOf a <<< k),
      (.llsh3, halfT, fun a k => ((patternOf a <<< k).setWidth 16).setWidth 32),
      (.llsb3, byteT, fun a k => ((patternOf a <<< k).setWidth 8).setWidth 32),
      (.lrsw3, wordT, fun a k => patternOf a >>> k),
      (.rotw, wordT, fun a k => (patternOf a).rotateRight k)] :
      List ((Operand → Operand → Operand → Instr) × OpType × (Int → Nat → Word))),
    ∀ (s s₁ : State) (count src dst : Operand) (n a r : Int) (d : Opnd),
      inputRRW x.2.1 count src dst s = .ok ((n, a, d), s₁) →
      r = interpType d.type (x.2.2 a ((patternOf n).toNat % 32)) → d.Writable s₁ → s.mem.wf → NotTraced s →
      ∃ t, exec (x.1 count src dst) s = .next t ∧
        Completed d r (pswAfter d r (flagsOf d.type r false false) s.psw)
          (s.pc + BitVec.ofNat 32 (x.1 count src dst).length) s s₁ t)

/-- INSF* and EXTF*, bit by bit: a field of 1 to 32 bits at an offset, rotated past bit 31, of which the low bits of
the instruction's width are kept; under `FIELD_WRAP` = Fault a field past bit 31 stops the machine (R581 to R586).
Widths under expanded types are the model's reading (log entry 11). -/
def Obligations.FieldResults : Prop :=
  (∀ x ∈ ([(.insfw, wordT), (.insfh, halfT), (.insfb, byteT)] :
      List ((Operand → Operand → Operand → Operand → Instr) × OpType)),
    ∀ (s s₁ : State) (width offset src dst : Operand) (m n a b : Int) (o : Nat) (p : Word) (r : Int) (d : Opnd),
      inputRRRM x.2 width offset src dst s = .ok ((m, n, a, b, d), s₁) → o = (patternOf n).toNat % 32 →
      (∀ j, p.getLsbD j = (decide (j < typeBits x.2) &&
        if (j + 32 - o) % 32 ≤ (patternOf m).toNat % 32 then (patternOf a).getLsbD ((j + 32 - o) % 32)
        else (patternOf b).getLsbD j)) → r = interpType d.type p →
      (s.params.fieldWrap = .fault ∧ 32 < o + ((patternOf m).toNat % 32 + 1) →
        exec (x.1 width offset src dst) s = .fault .fieldPastBit31) ∧
      ((s.params.fieldWrap = .fault → o + ((patternOf m).toNat % 32 + 1) ≤ 32) →
        d.Writable s₁ → s.mem.wf → NotTraced s →
        ∃ t, exec (x.1 width offset src dst) s = .next t ∧
          Completed d r (pswAfter d r (flagsOf d.type r false false) s.psw)
            (s.pc + BitVec.ofNat 32 (x.1 width offset src dst).length) s s₁ t)) ∧
  (∀ x ∈ ([(.extfw, wordT), (.extfh, halfT), (.extfb, byteT)] :
      List ((Operand → Operand → Operand → Operand → Instr) × OpType)),
    ∀ (s s₁ : State) (width offset src dst : Operand) (m n a : Int) (o : Nat) (p : Word) (r : Int) (d : Opnd),
      inputRRRW x.2 width offset src dst s = .ok ((m, n, a, d), s₁) → o = (patternOf n).toNat % 32 →
      (∀ j, p.getLsbD j = (decide (j < typeBits x.2 ∧ j ≤ (patternOf m).toNat % 32) &&
        (patternOf a).getLsbD ((j + o) % 32))) → r = interpType d.type p →
      (s.params.fieldWrap = .fault ∧ 32 < o + ((patternOf m).toNat % 32 + 1) →
        exec (x.1 width offset src dst) s = .fault .fieldPastBit31) ∧
      ((s.params.fieldWrap = .fault → o + ((patternOf m).toNat % 32 + 1) ≤ 32) →
        d.Writable s₁ → s.mem.wf → NotTraced s →
        ∃ t, exec (x.1 width offset src dst) s = .next t ∧
          Completed d r (pswAfter d r (flagsOf d.type r false false) s.psw)
            (s.pc + BitVec.ofNat 32 (x.1 width offset src dst).length) s s₁ t))

/-! ## Data movement -/

/-- MOV*: the value read stored at the destination's width, V where it does not fit, the frame (R450 to R453). The
flags' width under expanded types is the model's reading (log entry 29). -/
def Obligations.MoveResults : Prop :=
  ∀ x ∈ ([(.movw, wordT), (.movh, halfT), (.movb, byteT)] : List ((Operand → Operand → Instr) × OpType)),
    ∀ (s s₁ : State) (src dst : Operand) (v : Int) (d : Opnd),
      inputRW x.2 src dst s = .ok ((v, d), s₁) → d.Writable s₁ → s.mem.wf → NotTraced s →
      ∃ t, exec (x.1 src dst) s = .next t ∧
        Completed d v (movPswAfter d v (flagsOf d.type v false (flagTrunc d.type v)) s)
          (s.pc + BitVec.ofNat 32 (x.1 src dst).length) s s₁ t

/-- MOVAW stores the address, which is not read; CLR* stores 0 (R454 to R457). The flags' width under expanded types
is the model's reading (log entry 30). -/
def Obligations.AddressAndClearResults : Prop :=
  (∀ (s s₁ : State) (src dst : Operand) (x d : Opnd) (v : Int),
    gather2 .addr .write wordT src dst s = .ok ((x, d), s₁) → v = (addressOf x).toInt →
    d.Writable s₁ → s.mem.wf → NotTraced s →
    ∃ t, exec (.movaw src dst) s = .next t ∧
      Completed d v (movPswAfter d v (flagsOf d.type v false false) s)
        (s.pc + BitVec.ofNat 32 (Instr.movaw src dst).length) s s₁ t) ∧
  (∀ x ∈ ([(.clrw, wordT), (.clrh, halfT), (.clrb, byteT)] : List ((Operand → Instr) × OpType)),
    ∀ (s s₁ : State) (dst : Operand) (d : Opnd),
      gather1 .write x.2 dst s = .ok (d, s₁) → d.Writable s₁ → s.mem.wf → NotTraced s →
      ∃ t, exec (x.1 dst) s = .next t ∧
        Completed d 0 (movPswAfter d 0 ⟨false, true, false, false⟩ s)
          (s.pc + BitVec.ofNat 32 (x.1 dst).length) s s₁ t)

/-- PUSHW and PUSHAW: the word at the old SP, SP up by 4, NZ of the word, nothing else (R450, R458, R459). The flags'
width under expanded types is the model's reading (log entry 30). -/
def Obligations.PushResults : Prop :=
  (∀ (s s₁ : State) (src : Operand) (v : Int), inputR wordT src s = .ok (v, s₁) → Room s s.sp 1 → s.mem.wf →
    NotTraced s →
    ∃ t, exec (.pushw src) s = .next t ∧ StoredWords [regPC, regSP, regPSW] s.sp [patternOf v] s s₁ t ∧
      t.sp = s.sp + 4 ∧ t.pc = s.pc + BitVec.ofNat 32 (Instr.pushw src).length ∧
      t.psw = movFlagsAfter ⟨(patternOf v).msb, patternOf v == 0, false, false⟩ s) ∧
  (∀ (s s₁ : State) (src : Operand) (v : Word), inputA src s = .ok (v, s₁) → Room s s.sp 1 → s.mem.wf →
    NotTraced s →
    ∃ t, exec (.pushaw src) s = .next t ∧ StoredWords [regPC, regSP, regPSW] s.sp [v] s s₁ t ∧
      t.sp = s.sp + 4 ∧ t.pc = s.pc + BitVec.ofNat 32 (Instr.pushaw src).length ∧
      t.psw = movFlagsAfter ⟨v.msb, v == 0, false, false⟩ s)

/-- POPW: SP down by 4, the word there stored in the destination, which wins where it is SP itself; SWAP*I: r0 and
the memory operand exchanged (R450, R460, R462 to R464). Under expanded types the flags' width, and the width at
which the swaps store r0, are the model's reading (log entry 30). -/
def Obligations.PopAndSwapResults : Prop :=
  (∀ (s s₁ : State) (dst : Operand) (d : Opnd) (v : Int),
    gather1 .write wordT dst s = .ok (d, s₁) → Readable s (s.sp - 4) → v = (wordAt s (s.sp - 4)).toInt →
    d.Writable s₁ → s.mem.wf → NotTraced s →
    ∃ t, exec (.popw dst) s = .next t ∧
      Completed d v (movPswAfter d v (flagsOf d.type v false false) s)
        (s.pc + BitVec.ofNat 32 (Instr.popw dst).length) (s.setSp (s.sp - 4)) s₁ t) ∧
  (∀ x ∈ ([(.swapwi, wordT), (.swaphi, halfT), (.swapbi, byteT)] : List ((Operand → Instr) × OpType)),
    ∀ (s s₁ s₂ : State) (dst : Operand) (d : Opnd) (old : Int),
      gather1 .memModify x.2 dst s = .ok (d, s₁) → readOpnd d s₁ = .ok (old, s₂) → d.Writable s₂ →
      s.mem.wf → NotTraced s →
      ∃ t, exec (x.1 dst) s = .next t ∧
        Completed d (s.reg 0).toInt (movFlagsAfter (flagsOf d.type old false false) s)
          (s.pc + BitVec.ofNat 32 (x.1 dst).length) (s.setReg 0 (extendType d.type old)) s₂ t)

/-! ## Compare, branch, return, jump -/

/-- CMP*, TST* and BIT*: the flags at the instruction's own width, the PC, and nothing else (R601 to R609). CMPB
follows R603 against vector V76 (log entry 31). -/
def Obligations.CompareResults : Prop :=
  (∀ x ∈ ([(.cmpw, wordT), (.cmph, halfT), (.cmpb, byteT)] : List ((Operand → Operand → Instr) × OpType)),
    ∀ (s s₁ : State) (src1 src2 : Operand) (a b : Int), inputRR x.2 src1 src2 s = .ok ((a, b), s₁) → NotTraced s →
      SameCore s s₁ ∧
      exec (x.1 src1 src2) s = .next ((s₁.setFlags
        { n := decide ((truncBits (typeBits x.2) b).toInt < (truncBits (typeBits x.2) a).toInt)
          z := decide (truncBits (typeBits x.2) b = truncBits (typeBits x.2) a)
          c := decide ((truncBits (typeBits x.2) b).toNat < (truncBits (typeBits x.2) a).toNat)
          v := false }).setPc (s.pc + BitVec.ofNat 32 (x.1 src1 src2).length))) ∧
  (∀ x ∈ ([(.tstw, wordT), (.tsth, halfT), (.tstb, byteT)] : List ((Operand → Instr) × OpType)),
    ∀ (s s₁ : State) (src : Operand) (a : Int), inputR x.2 src s = .ok (a, s₁) → NotTraced s →
      SameCore s s₁ ∧
      exec (x.1 src) s = .next ((s₁.setFlags
        { n := (truncBits (typeBits x.2) a).msb
          z := decide (truncBits (typeBits x.2) a = 0)
          c := false
          v := false }).setPc (s.pc + BitVec.ofNat 32 (x.1 src).length))) ∧
  (∀ x ∈ ([(.bitw, wordT), (.bith, halfT), (.bitb, byteT)] : List ((Operand → Operand → Instr) × OpType)),
    ∀ (s s₁ : State) (src1 src2 : Operand) (a b : Int), inputRR x.2 src1 src2 s = .ok ((a, b), s₁) → NotTraced s →
      SameCore s s₁ ∧
      exec (x.1 src1 src2) s = .next ((s₁.setFlags
        { n := (truncBits (typeBits x.2) a &&& truncBits (typeBits x.2) b).msb
          z := decide (truncBits (typeBits x.2) a &&& truncBits (typeBits x.2) b = 0)
          c := false
          v := false }).setPc (s.pc + BitVec.ofNat 32 (x.1 src1 src2).length)))

/-- R610 and the branches R611 to R640: the target is the branch's own address plus the displacement; a branch that
is not taken goes on after it; nothing else changes. BRH follows R612's pseudocode and example, not its corner case's
count of bytes (log entry 34). -/
def Obligations.BranchResults : Prop :=
  ∀ x ∈ ([(.brb, .brh, fun _ => true),
      (.bgeb, .bgeh, fun f => !f.n || f.z), (.bgb, .bgh, fun f => !f.n && !f.z),
      (.blb, .blh, fun f => f.n && !f.z), (.bleb, .bleh, fun f => f.n || f.z),
      (.bgeub, .bgeuh, fun f => !f.c || f.z), (.bgub, .bguh, fun f => !f.c && !f.z),
      (.blub, .bluh, fun f => f.c && !f.z), (.bleub, .bleuh, fun f => f.c || f.z),
      (.bvcb, .bvch, fun f => !f.v), (.bvsb, .bvsh, fun f => f.v),
      (.bneub, .bneuh, fun f => !f.z), (.bneb, .bneh, fun f => !f.z),
      (.beub, .beuh, fun f => f.z), (.beb, .beh, fun f => f.z)] :
      List ((Byte → Instr) × (Half → Instr) × (Flags → Bool))),
    ∀ s : State, NotTraced s →
      (∀ disp : Byte, exec (x.1 disp) s =
        .next (s.setPc (s.pc + if x.2.2 (Psw.flags s.psw) then disp.signExtend 32 else 2))) ∧
      (∀ disp : Half, exec (x.2.1 disp) s =
        .next (s.setPc (s.pc + if x.2.2 (Psw.flags s.psw) then disp.signExtend 32 else 3)))

/-- The conditional returns and RSB: taken, the word below SP becomes the PC and SP goes down by 4; not taken, the PC
goes on by 1 (R610, R641 to R654, R666). With SP = 0 the word below SP is the one at 0xFFFFFFFC, readable where RAM
reaches there: the model's reading (log entry 35). -/
def Obligations.ReturnResults : Prop :=
  ∀ x ∈ ([(.rsb, fun _ => true), (.rgeq, fun f => !f.n || f.z), (.rgtr, fun f => !f.n && !f.z),
      (.rlss, fun f => f.n && !f.z), (.rleq, fun f => f.n || f.z), (.rgequ, fun f => !f.c || f.z),
      (.rgtru, fun f => !f.c && !f.z), (.rlssu, fun f => f.c && !f.z), (.rlequ, fun f => f.c || f.z),
      (.rvc, fun f => !f.v), (.rvs, fun f => f.v), (.rnequ, fun f => !f.z), (.rneq, fun f => !f.z),
      (.reqlu, fun f => f.z), (.reql, fun f => f.z)] : List (Instr × (Flags → Bool))),
    ∀ s : State, NotTraced s →
      (x.2 (Psw.flags s.psw) = true → Readable s (s.sp - 4) →
        exec x.1 s = .next ((s.setSp (s.sp - 4)).setPc (wordAt s (s.sp - 4)))) ∧
      (x.2 (Psw.flags s.psw) = false → exec x.1 s = .next (s.setPc (s.pc + 1)))

/-- JMP, JSB and BSB*: the target, and for the subroutine calls the return address at the old SP (R655, R665, R667,
R668). -/
def Obligations.JumpResults : Prop :=
  (∀ (s s₁ : State) (dst : Operand) (a : Word), inputA dst s = .ok (a, s₁) → NotTraced s →
    SameCore s s₁ ∧ exec (.jmp dst) s = .next (s₁.setPc a)) ∧
  (∀ (s s₁ : State) (dst : Operand) (a : Word), inputA dst s = .ok (a, s₁) → Room s s.sp 1 → s.mem.wf → NotTraced s →
    ∃ t, exec (.jsb dst) s = .next t ∧
      StoredWords [regPC, regSP] s.sp [s.pc + BitVec.ofNat 32 (Instr.jsb dst).length] s s₁ t ∧
      t.sp = s.sp + 4 ∧ t.pc = a) ∧
  (∀ (s : State) (disp : Byte), Room s s.sp 1 → s.mem.wf → NotTraced s →
    ∃ t, exec (.bsbb disp) s = .next t ∧ StoredWords [regPC, regSP] s.sp [s.pc + 2] s s t ∧
      t.sp = s.sp + 4 ∧ t.pc = s.pc + disp.signExtend 32) ∧
  (∀ (s : State) (disp : Half), Room s s.sp 1 → s.mem.wf → NotTraced s →
    ∃ t, exec (.bsbh disp) s = .next t ∧ StoredWords [regPC, regSP] s.sp [s.pc + 3] s s t ∧
      t.sp = s.sp + 4 ∧ t.pc = s.pc + disp.signExtend 32)

/-! ## Calls and register save -/

/-- CALL: return address and AP at the old SP, SP up by 8, AP and PC the two addresses; RET: AP and PC from below SP, SP
the old AP (R661, R662). -/
def Obligations.CallResults : Prop :=
  (∀ (s s₁ : State) (argp dst : Operand) (x y : Opnd),
    gather2 .addr .addr wordT argp dst s = .ok ((x, y), s₁) → Room s s.sp 2 → s.mem.wf → NotTraced s →
    ∃ t, exec (.call argp dst) s = .next t ∧
      StoredWords [regPC, regSP, regAP] s.sp
        [s.pc + BitVec.ofNat 32 (Instr.call argp dst).length, s.reg regAP] s s₁ t ∧
      t.sp = s.sp + 8 ∧ t.reg regAP = addressOf x ∧ t.pc = addressOf y) ∧
  (∀ s : State, Readable s (s.sp - 4) → Readable s (s.sp - 8) → NotTraced s →
    exec .ret s = .next (((s.setReg regAP (wordAt s (s.sp - 4))).setPc (wordAt s (s.sp - 8))).setSp (s.reg regAP)))

/-- A procedure that returns with SP, AP and its frame as CALL left them goes back to the instruction after the call, with
the caller's AP, and SP at the first argument (R661, R662). -/
def Obligations.CallReturn : Prop :=
  ∀ (s s₁ t u : State) (argp dst : Operand) (x y : Opnd),
    gather2 .addr .addr wordT argp dst s = .ok ((x, y), s₁) → Room s s.sp 2 → s.mem.wf →
    NotTraced s → exec (.call argp dst) s = .next t →
    u.sp = t.sp → u.reg regAP = t.reg regAP → u.params = t.params → NotTraced u →
    (∀ b, covers s.sp 8 b → u.mem.read b = t.mem.read b) →
    ∃ v, exec .ret u = .next v ∧ v.pc = s.pc + BitVec.ofNat 32 (Instr.call argp dst).length ∧
      v.reg regAP = s.reg regAP ∧ v.sp = addressOf x ∧
      (∀ n, n ∉ [regPC, regSP, regAP] → v.reg n = u.reg n) ∧ v.mem = u.mem ∧ v.duart = u.duart

/-- SAVE rN stores FP and rN to r8 from SP up and moves SP and FP up by 28; RESTORE rN loads them from below FP (R663,
R664). -/
def Obligations.SaveRestoreResults : Prop :=
  (∀ (s : State) (n : RegNum), 3 ≤ n → n ≠ 15 → Room s s.sp (1 + (9 - n.val)) → s.mem.wf → NotTraced s →
    ∃ t, exec (.save ⟨none, .reg n⟩) s = .next t ∧
      StoredWords [regPC, regSP, regFP] s.sp (s.reg regFP :: (savedRegs n).map s.reg) s s t ∧
      t.sp = s.sp + 28 ∧ t.reg regFP = s.sp + 28 ∧ t.pc = s.pc + 2) ∧
  (∀ (s : State) (n : RegNum), 3 ≤ n → n ≠ 15 → Readable s (s.reg regFP - 28) →
    (∀ k, k < 9 - n.val → Readable s (wordUp (s.reg regFP - 24) k)) → NotTraced s →
    ∃ t, exec (.restore ⟨none, .reg n⟩) s = .next t ∧
      (∀ r : RegNum, n ≤ r → r ≤ 8 → t.reg r = wordAt s (wordUp (s.reg regFP - 24) (r.val - n.val))) ∧
      (∀ r : RegNum, (r < n ∨ 8 < r) → r ∉ [regFP, regSP, regPC] → t.reg r = s.reg r) ∧
      t.reg regFP = wordAt s (s.reg regFP - 28) ∧ t.sp = s.reg regFP - 28 ∧ t.pc = s.pc + 2 ∧
      t = { s with regs := t.regs })

/-- RESTORE undoes SAVE: whatever was done to the registers in between, FP, SP and the saved registers are those before
SAVE, if FP and the frame are as SAVE left them (R663, R664). -/
def Obligations.SaveRestoreReturn : Prop :=
  ∀ (s t u : State) (n : RegNum), 3 ≤ n → n ≠ 15 → Room s s.sp (1 + (9 - n.val)) → s.mem.wf → NotTraced s →
    exec (.save ⟨none, .reg n⟩) s = .next t →
    u.reg regFP = t.reg regFP → u.params = t.params → NotTraced u →
    (∀ b, covers s.sp 28 b → u.mem.read b = t.mem.read b) →
    ∃ v, exec (.restore ⟨none, .reg n⟩) u = .next v ∧ v.reg regFP = s.reg regFP ∧ v.sp = s.sp ∧
      (∀ r : RegNum, n ≤ r → r ≤ 8 → v.reg r = s.reg r) ∧ v.mem = u.mem

/-! ## Block and string -/

/-- MOVBLW: r2 words copied upward one at a time, whether the regions overlap or not (`copiedByte`); r0 and r1 end
past them, r2 at 0 (R700, R701). Where no word is stored over a later source word (regions apart, the destination
below the source or equal to it) the words are those of the source; with the destination d words above the source the
first d words are replicated; with r0 = r1 memory is unchanged. -/
def Obligations.BlockMoveResults : Prop :=
  ∀ (s : State) (n : Nat), (s.reg 2).toNat = n → 4 * n ≤ 2 ^ 32 → s.mem.wf → NotTraced s →
    (∀ k, k < n → Readable s (wordUp (s.reg 0) k)) → Room s (s.reg 1) n →
    ∃ t, exec .movblw s = .next t ∧
      (∀ b : Word, t.mem.read b.toNat = copiedByte s.mem (s.reg 0) (s.reg 1) n b) ∧
      ((∀ j k, j < k → k < n → ∀ b, covers (wordUp (s.reg 0) k) 4 b → ¬ covers (wordUp (s.reg 1) j) 4 b) →
        ∀ k, k < n → wordAt t (wordUp (s.reg 1) k) = wordAt s (wordUp (s.reg 0) k)) ∧
      (∀ d, 0 < d → d < n → s.reg 1 = wordUp (s.reg 0) d →
        ∀ k, k < n → wordAt t (wordUp (s.reg 1) k) = wordAt s (wordUp (s.reg 0) (k % d))) ∧
      (s.reg 1 = s.reg 0 → ∀ b : Word, t.mem.read b.toNat = s.mem.read b.toNat) ∧
      (∀ b, ¬ covers (s.reg 1) (4 * n) b → t.mem.read b = s.mem.read b) ∧
      t.reg 0 = wordUp (s.reg 0) n ∧ t.reg 1 = wordUp (s.reg 1) n ∧ t.reg 2 = 0 ∧ t.pc = s.pc + 2 ∧
      (∀ r, r ∉ [0, 1, 2, regPC] → t.reg r = s.reg r) ∧ t = { s with regs := t.regs, mem := t.mem }

/-- STRCPY copies the bytes up to and with the first 0 byte, where no byte is stored over a later source byte, and
changes no register but the PC; STREND leaves the address of the 0 byte in r0 (R700, R702, R703). The loop bound 2^32
is the model's (log entry 14) and never reached. -/
def Obligations.StringResults : Prop :=
  (∀ (s : State) (n : Nat), s.mem.wf → NotTraced s →
    (∀ k, k ≤ n → ReadableByte s (s.reg 0 + BitVec.ofNat 32 k)) →
    (∀ k, k ≤ n → dataRoute s.params (s.reg 1 + BitVec.ofNat 32 k) .byte .write = .ok .ram) →
    (∀ k, k < n → s.mem.read (s.reg 0 + BitVec.ofNat 32 k).toNat ≠ 0) →
    s.mem.read (s.reg 0 + BitVec.ofNat 32 n).toNat = 0 →
    (∀ i j, i < j → j ≤ n → s.reg 0 + BitVec.ofNat 32 j ≠ s.reg 1 + BitVec.ofNat 32 i) →
    ∃ t, exec .strcpy s = .next t ∧
      (∀ k, k ≤ n → t.mem.read (s.reg 1 + BitVec.ofNat 32 k).toNat = s.mem.read (s.reg 0 + BitVec.ofNat 32 k).toNat) ∧
      (∀ b, ¬ covers (s.reg 1) (n + 1) b → t.mem.read b = s.mem.read b) ∧
      t = { s.setPc (s.pc + 2) with mem := t.mem }) ∧
  (∀ (s : State) (n : Nat), NotTraced s →
    (∀ k, k ≤ n → ReadableByte s (s.reg 0 + BitVec.ofNat 32 k)) →
    (∀ k, k < n → s.mem.read (s.reg 0 + BitVec.ofNat 32 k).toNat ≠ 0) →
    s.mem.read (s.reg 0 + BitVec.ofNat 32 n).toNat = 0 →
    exec .strend s = .next ((s.setReg 0 (s.reg 0 + BitVec.ofNat 32 n)).setPc (s.pc + 2)))

/-! ## System -/

/-- HALT, NOP*, CFLUSH, MVERNO and, in kernel mode, WAIT (R721 to R724, R727, R745, R748). -/
def Obligations.SystemResults : Prop :=
  (∀ s : State, exec .halt s = .next { s.setPc (s.pc + 1) with status := .halted }) ∧
  (∀ s : State, NotTraced s →
    exec .nop s = .next (s.setPc (s.pc + 1)) ∧
    (∀ b, exec (.nop2 b) s = .next (s.setPc (s.pc + 2))) ∧
    (∀ h, exec (.nop3 h) s = .next (s.setPc (s.pc + 3))) ∧
    exec .cflush s = .next (s.setPc (s.pc + 1)) ∧
    exec .mverno s = .next ((s.setReg 0 s.params.mvernoValue).setPc (s.pc + 2)) ∧
    (s.kernel = true → exec .wait s = .next { s.setPc (s.pc + 1) with waiting := true }))

/-- The instructions whose effect is a trap: BPT, EXTOP and the refused opcodes; the privileged ones, WAIT among
them, raise PrivilegeViolation 10 outside kernel mode (R720, R725, R726, R745, R750 to R766). The `ADMIT_*`
parameters stand at false (log entry 15). -/
def Obligations.TrappingInstructions : Prop :=
  ∀ s : State,
    exec .bpt s = .next (takeTrap .breakpoint s) ∧ exec .extop s = .next (takeTrap .reservedOpcode s) ∧
    (∀ i, (∃ w a b, i ∈ ([.spop w, .spoprs w a, .spoprd w a, .spoprt w a, .spops2 w a b, .spopd2 w a b, .spopt2 w a b,
      .spopws w a, .spopwd w a, .spopwt w a] : List Instr)) → exec i s = .next (takeTrap .illegalInstruction s)) ∧
    (∀ i, (∃ a b, i ∈ ([.intack, .callps, .retps, .enbvjmp, .disvjmp, .movtrw a b] : List Instr)) →
      exec i s = .next (takeTrap (if s.kernel then .illegalInstruction else .privilegedOpcode) s)) ∧
    (s.kernel = false → exec .wait s = .next (takeTrap .privilegedOpcode s))

/-- GATE is a gate transfer by the masked indexes of r1 and r0 that saves the PSW as it was; RETG restores PSW and PC from
the frame, IPL only in kernel mode, and refuses a more privileged level (R728, R741). -/
def Obligations.GateResults : Prop :=
  (∀ s : State, GateReady s (s.reg 1 &&& 0x7C) (s.reg 0 &&& 0x7FF8) → s.mem.wf → NotTraced s →
    ∃ t, exec .gate s = .next t ∧
      GateTaken (s.pc + 2) s.psw (s.reg 1 &&& 0x7C) (s.reg 0 &&& 0x7FF8) (Psw.ipl s.psw) s t) ∧
  (∀ (s : State) (new : Word), Readable s (s.sp - 4) → Readable s (s.sp - 8) → NotTraced s →
    new = wordAt s (s.sp - 4) &&& 0x03FFFFFF →
    (Psw.cm s.psw ≤ Psw.cm new →
      ∃ psw, exec .retg s = .next (((s.setSp (s.sp - 8)).setPsw psw).setPc (wordAt s (s.sp - 8))) ∧
        Psw.ipl psw = (if s.kernel then Psw.ipl new else Psw.ipl s.psw) ∧
        ∀ k, k < 13 ∨ 17 ≤ k → psw.getLsbD k = new.getLsbD k) ∧
    (Psw.cm new < Psw.cm s.psw → exec .retg s = .next (takeTrap .illegalLevelChange s)))

/-! ## The DUART -/

/-- The registers of the DUART's window, byte by byte, for channel A from offset 0 and channel B from 0x20: what a
read answers and leaves, and what a write leaves (R860 to R865, R868, R873 to R875, R878); every other byte reads 0
and ignores writes (R861). The model's readings: reset receiver keeps the byte that an empty RHR reads as (log entry
18), the counter is 16 bits whose 0 stands for 0x10000, with a bit that says it was ever started (log entry 9), and a
read of ISR has no effect (log entry 26). -/
def Obligations.DuartRegisters : Prop :=
  (∀ (p : Params) (d : Duart) (c : ChannelId) (x : Channel) (o : Nat), x = d.channel c →
    o = (match c with | .a => 0 | .b => 0x20) →
    (x.mrPtr = .mr1 → d.readByte p (o + 0x03) = (x.mr1, d.setChannel c { x with mrPtr := .mr2 })) ∧
    (x.mrPtr = .mr2 → d.readByte p (o + 0x03) = (x.mr2, d)) ∧
    (d.readByte p (o + 0x07)).2 = d ∧
    (∀ k, (d.readByte p (o + 0x07)).1.getLsbD k = match k with
      | 0 => x.rhr.isSome
      | 1 => x.rhr.isSome && decide (x.rxQueue.length + 1 = p.rxCapacity)
      | 2 => x.txEnabled && x.thr.isNone
      | 3 => x.txEnabled && x.thr.isNone && x.txShift.isNone
      | _ => false) ∧
    ∀ v : Byte,
      (x.mrPtr = .mr1 → d.writeByte (o + 0x03) v = d.setChannel c { x with mr1 := v, mrPtr := .mr2 }) ∧
      (x.mrPtr = .mr2 → d.writeByte (o + 0x03) v = d.setChannel c { x with mr2 := v }) ∧
      d.writeByte (o + 0x07) v = d.setChannel c { x with csr := v } ∧
      (∀ (cmd : BitVec 3) (rx tx : BitVec 2), cmd = v.extractLsb' 4 3 → rx = v.extractLsb' 0 2 →
        tx = v.extractLsb' 2 2 →
        d.writeByte (o + 0x0B) v = d.setChannel c { x with
          mrPtr := if cmd = 1 then .mr1 else x.mrPtr
          rxEnabled := rx == 1 || (rx != 2 && cmd != 2 && x.rxEnabled)
          rxQueue := if cmd = 2 then [] else x.rxQueue
          rhr := if cmd = 2 then none else x.rhr
          rxCount := if cmd = 2 then 0 else x.rxCount
          txEnabled := tx == 1 || (tx != 2 && cmd != 3 && x.txEnabled)
          thr := if cmd = 3 then none else x.thr
          txShift := if cmd = 3 then none else x.txShift
          txQueue := if cmd = 3 then [] else x.txQueue
          txCount := if cmd = 3 then 0 else x.txCount }) ∧
      (x.txEnabled = true → d.writeByte (o + 0x0F) v = d.setChannel c { x with thr := some v }) ∧
      (x.txEnabled = false → d.writeByte (o + 0x0F) v = d)) ∧
  (∀ (p : Params) (d : Duart),
    (d.readByte p 0x17).2 = d ∧
    (∀ k, (d.readByte p 0x17).1.getLsbD k = match k with
      | 0 => d.chA.txEnabled && d.chA.thr.isNone
      | 1 => d.chA.rhr.isSome
      | 3 => d.ctReady
      | 4 => d.chB.txEnabled && d.chB.thr.isNone
      | 5 => d.chB.rhr.isSome
      | _ => false) ∧
    (∀ n : BitVec 16, n = (if d.ctRunning = false ∧ d.ctStarted = false then d.ctPreload else d.ctValue) →
      d.readByte p 0x1B = (n.extractLsb' 8 8, d) ∧ d.readByte p 0x1F = (n.extractLsb' 0 8, d)) ∧
    d.readByte p 0x3B = (0, { d with ctValue := d.ctPreload, ctRunning := true, ctStarted := true }) ∧
    d.readByte p 0x3F = (0, { d with ctRunning := false, ctReady := false }) ∧
    (∀ off, off ∉ [0x03, 0x07, 0x0F, 0x17, 0x1B, 0x1F, 0x23, 0x27, 0x2F, 0x3B, 0x3F] → d.readByte p off = (0, d)) ∧
    ∀ v : Byte,
      d.writeByte 0x13 v = { d with acr := v } ∧ d.writeByte 0x17 v = { d with imr := v } ∧
      d.writeByte 0x1B v = { d with ctPreload := v ++ d.ctPreload.extractLsb' 0 8 } ∧
      d.writeByte 0x1F v = { d with ctPreload := d.ctPreload.extractLsb' 8 8 ++ v } ∧
      d.writeByte 0x37 v = { d with opcr := v } ∧ d.writeByte 0x3B v = { d with opr := d.opr ||| v } ∧
      d.writeByte 0x3F v = { d with opr := d.opr &&& ~~~v } ∧
      (∀ off, off ∉ [0x03, 0x07, 0x0B, 0x0F, 0x13, 0x17, 0x1B, 0x1F, 0x23, 0x27, 0x2B, 0x2F, 0x37, 0x3B, 0x3F] →
        d.writeByte off v = d))

/-- `advance(1)` is channel A RX, channel A TX, channel B RX, channel B TX and the counter, and the last byte whose
transmission completes in it decides the bell (R876, R885); `advance(n)` is n of them. Pacing over advances, on either
channel (R870, R871): the head of the RX queue is in the holding register after exactly `delay_rx` advances of an enabled
receiver; a held TX byte is loaded at the next advance and is in the TX queue `delay_tx` advances later. -/
def Obligations.CharacterPacing : Prop :=
  (∀ (p : Params) (d : Duart) (tick : Channel → Channel) (done : Channel → Byte → Prop),
    tick = (fun x => ((x.advanceRx p d.acr).finishTx p).1.loadTx p d.acr) →
    done = (fun x b => x.txShift = some b ∧ x.txCount ≤ 1 ∧ x.txQueue.length < p.txCapacity) →
    d.advance p = { d.advanceCounter with
      chA := tick d.chA, chB := tick d.chB, bell := (d.advance p).bell } ∧
    (∀ b, done d.chB b → (d.advance p).bell = (b == p.bellByte)) ∧
    (∀ b, done d.chA b → (∀ b', ¬ done d.chB b') → (d.advance p).bell = (b == p.bellByte)) ∧
    ((∀ b, ¬ done d.chA b) → (∀ b, ¬ done d.chB b) → (d.advance p).bell = d.bell)) ∧
  (∀ (n : Nat) (s : State), advanceSteps n s = Nat.iterate State.advanceDuart n s) ∧
  (∀ (p : Params) (d : Duart) (c : ChannelId) (b : Byte) (rest : List Byte) (x : Channel), x = d.channel c →
    x.rxEnabled = true → x.rhr = none → x.rxQueue = b :: rest → x.rxCount = 0 → 1 ≤ x.delayRx p d.acr →
    (∀ n, n < x.delayRx p d.acr → ((Nat.iterate (Duart.advance p) n d).channel c).rhr = none) ∧
    ((Nat.iterate (Duart.advance p) (x.delayRx p d.acr) d).channel c).rhr = some b ∧
    ((Nat.iterate (Duart.advance p) (x.delayRx p d.acr) d).channel c).rxQueue = rest) ∧
  (∀ (p : Params) (d : Duart) (c : ChannelId) (b : Byte) (x : Channel), x = d.channel c →
    x.txEnabled = true → x.txShift = none → x.thr = some b → x.txQueue.length < p.txCapacity →
    1 ≤ x.delayTx p d.acr →
    (∀ n, 1 ≤ n → n ≤ x.delayTx p d.acr →
      ((Nat.iterate (Duart.advance p) n d).channel c).txShift = some b ∧
      ((Nat.iterate (Duart.advance p) n d).channel c).thr = none ∧
      ((Nat.iterate (Duart.advance p) n d).channel c).txQueue = x.txQueue) ∧
    ((Nat.iterate (Duart.advance p) (1 + x.delayTx p d.acr) d).channel c).txQueue = x.txQueue ++ [b] ∧
    ((Nat.iterate (Duart.advance p) (1 + x.delayTx p d.acr) d).channel c).txShift = none)

/-- The counter (R876, R878): started, it counts down over the DUART's advances from its preload, a preload of 0 as 65536,
and is ready and reloaded after exactly that many, not before; one that does not run keeps its value. A stored 0 that
stands for 65536 is the model's reading (log entry 9). -/
def Obligations.CounterPeriod : Prop :=
  (∀ (p : Params) (d : Duart) (n : Nat), n = (if d.ctPreload = 0 then 65536 else d.ctPreload.toNat) →
    (∀ k, k < n → (Nat.iterate (Duart.advance p) k d.startCounter).ctReady = d.ctReady ∧
      (Nat.iterate (Duart.advance p) k d.startCounter).ctValue = BitVec.ofNat 16 (n - k)) ∧
    (Nat.iterate (Duart.advance p) n d.startCounter).ctReady = true ∧
    (Nat.iterate (Duart.advance p) n d.startCounter).ctValue = d.ctPreload) ∧
  (∀ (p : Params) (d : Duart), d.ctRunning = false →
    (d.advance p).ctValue = d.ctValue ∧ (d.advance p).ctReady = d.ctReady)

/-- A CPU read of a channel's RX holding register answers the held byte, empties the register and clears the channel's
RX latch; an empty one answers the last byte (R860, R866). `push_rx` appends to the queue, or refuses one that is full or
an id that is no channel (R869). -/
def Obligations.ReceiveSide : Prop :=
  (∀ s : State, s.params.valid = true →
    (∀ b, s.duart.chA.rhr = some b → ∃ t, memRead 0x0020000F .byte s = .ok (b.setWidth 32, t) ∧
      t.duart.chA = { s.duart.chA with rhr := none, rhrLast := b } ∧ t.duart.chB = s.duart.chB ∧
      t.pending[0] = false ∧ SameCore s t) ∧
    (∀ b, s.duart.chB.rhr = some b → ∃ t, memRead 0x0020002F .byte s = .ok (b.setWidth 32, t) ∧
      t.duart.chB = { s.duart.chB with rhr := none, rhrLast := b } ∧ t.duart.chA = s.duart.chA ∧
      t.pending[2] = false ∧ SameCore s t) ∧
    (s.duart.chA.rhr = none → ∃ t, memRead 0x0020000F .byte s = .ok (s.duart.chA.rhrLast.setWidth 32, t) ∧
      t.duart = s.duart) ∧
    (s.duart.chB.rhr = none → ∃ t, memRead 0x0020002F .byte s = .ok (s.duart.chB.rhrLast.setWidth 32, t) ∧
      t.duart = s.duart)) ∧
  (∀ (s : State) (b : Byte),
    (∀ id, 2 ≤ id → pushRx s id b = .error .invalidChannel) ∧
    (s.params.rxCapacity ≤ s.duart.chA.rxHeld → pushRx s 0 b = .error .duartOverrun) ∧
    (s.params.rxCapacity ≤ s.duart.chB.rxHeld → pushRx s 1 b = .error .duartOverrun) ∧
    (s.duart.chA.rxHeld < s.params.rxCapacity → ∃ t, pushRx s 0 b = .ok t ∧
      t.duart.chA.rxQueue = s.duart.chA.rxQueue ++ [b] ∧ t.duart.chB = s.duart.chB ∧ t.pending = s.pending) ∧
    (s.duart.chB.rxHeld < s.params.rxCapacity → ∃ t, pushRx s 1 b = .ok t ∧
      t.duart.chB.rxQueue = s.duart.chB.rxQueue ++ [b] ∧ t.duart.chA = s.duart.chA ∧ t.pending = s.pending))

/-- The host's other operations (R871, R885, R915, R934, R935): `drain_tx` takes the head of a channel's TX queue,
`bell_signal` is the bell flag, `run` counts its steps, a debug read or write reaches ROM and RAM alone and is big-endian.
Host operations as functions beside the step are the model's choice (log entry 19). -/
def Obligations.HostOperations : Prop :=
  (∀ (s : State) (c : ChannelId) (id : Nat), id = (match c with | .a => 0 | .b => 1) →
    ((s.duart.channel c).txQueue = [] → drainTx s id = .ok (none, s)) ∧
    (∀ b rest, (s.duart.channel c).txQueue = b :: rest →
      drainTx s id = .ok (some b,
        { s with duart := s.duart.setChannel c { s.duart.channel c with txQueue := rest } }))) ∧
  (∀ (s : State) (id : Nat), 2 ≤ id → drainTx s id = .error .invalidChannel) ∧
  (∀ s : State, bellSignal s = s.duart.bell ∧ traceLast s = s.trace) ∧
  (∀ (n : Nat) (s : State), n = 0 ∨ s.status ≠ .running → runSteps n s = .next (0, s)) ∧
  (∀ (n m : Nat) (f : Nat → State), n ≤ m →
    (∀ k, k < n → (f k).status = .running ∧ step (f k) = .next (f (k + 1))) →
    (n = m → (f n).status = .running → runSteps m (f 0) = .next (n, f n)) ∧
    (1 ≤ n → (f n).status = .halted → runSteps m (f 0) = .next (n, f n)) ∧
    (∀ k, 1 ≤ n → (f n).status = .faulted k → runSteps m (f 0) = .next (n - 1, f n))) ∧
  (∀ (s : State) (a : Word) (z : Size),
    ((∀ k, k < sizeBytes z → regionOf s.params (a.toNat + k) = some .rom ∨ regionOf s.params (a.toNat + k) = some .ram) →
      ∃ v : Word, hostRead s a z = .ok v ∧ v.toNat < 2 ^ sizeBits z ∧
        ∀ k, k < sizeBytes z → valueByte (sizeBytes z) v k = s.mem.read (a.toNat + k)) ∧
    (∀ k, k < sizeBytes z → regionOf s.params (a.toNat + k) ≠ some .rom → regionOf s.params (a.toNat + k) ≠ some .ram →
      hostRead s a z = .error .memoryBoundsError)) ∧
  (∀ (s : State) (a v : Word) (z : Size), s.mem.wf →
    ((∀ k, k < sizeBytes z → regionOf s.params (a.toNat + k) = some .ram) →
      ∃ m, hostWrite s a z v = .ok { s with mem := m } ∧
        (∀ k, k < sizeBytes z → Memory.read m (a.toNat + k) = valueByte (sizeBytes z) v k) ∧
        ∀ b, b < a.toNat ∨ a.toNat + sizeBytes z ≤ b → Memory.read m b = s.mem.read b) ∧
    (∀ k, k < sizeBytes z → regionOf s.params (a.toNat + k) ≠ some .ram →
      hostWrite s a z v = .error .memoryBoundsError))

end
end

