-- ==== Sys2Proof/Laws/State.lean ====
section
/-! SUPPORT. One lemma a field for each update of the state, and how the register accessors see them. -/

namespace Sys2Proof.Machine

/-! ## Registers -/

@[simp] theorem reg_setReg_self (s : State) (n : RegNum) (v : Word) : (s.setReg n v).reg n = v := by
  simp only [State.reg, State.setReg, Vector.get, Vector.toArray_set]
  exact Array.getElem_set_self ..

theorem reg_setReg_ne (s : State) {n m : RegNum} (v : Word) (h : m ≠ n) : (s.setReg n v).reg m = s.reg m := by
  have h' : n.val ≠ m.val := fun e => h (Fin.ext e.symm)
  simp only [State.reg, State.setReg, Vector.get, Vector.toArray_set]
  exact Array.getElem_set_ne (h := h') ..

theorem reg_setReg (s : State) (n m : RegNum) (v : Word) :
    (s.setReg n v).reg m = if m = n then v else s.reg m := by
  by_cases h : m = n
  · subst h; simp
  · simp [h, reg_setReg_ne s v h]

@[simp] theorem setReg_params (s : State) (n : RegNum) (v : Word) : (s.setReg n v).params = s.params := rfl
@[simp] theorem setReg_status (s : State) (n : RegNum) (v : Word) : (s.setReg n v).status = s.status := rfl
@[simp] theorem setReg_waiting (s : State) (n : RegNum) (v : Word) : (s.setReg n v).waiting = s.waiting := rfl
@[simp] theorem setReg_trace (s : State) (n : RegNum) (v : Word) : (s.setReg n v).trace = s.trace := rfl
@[simp] theorem setReg_mem (s : State) (n : RegNum) (v : Word) : (s.setReg n v).mem = s.mem := rfl
@[simp] theorem setReg_duart (s : State) (n : RegNum) (v : Word) : (s.setReg n v).duart = s.duart := rfl
@[simp] theorem setReg_pending (s : State) (n : RegNum) (v : Word) : (s.setReg n v).pending = s.pending := rfl

/-! ## Named register updates -/

theorem setPc_eq (s : State) (v : Word) : s.setPc v = s.setReg regPC v := rfl
theorem setPsw_eq (s : State) (v : Word) : s.setPsw v = s.setReg regPSW v := rfl
theorem setSp_eq (s : State) (v : Word) : s.setSp v = s.setReg regSP v := rfl
theorem setFlags_eq (s : State) (f : Flags) : s.setFlags f = s.setPsw (Psw.setFlags f s.psw) := rfl

@[simp] theorem setPc_params (s : State) (v : Word) : (s.setPc v).params = s.params := rfl
@[simp] theorem setPc_status (s : State) (v : Word) : (s.setPc v).status = s.status := rfl
@[simp] theorem setPc_waiting (s : State) (v : Word) : (s.setPc v).waiting = s.waiting := rfl
@[simp] theorem setPc_trace (s : State) (v : Word) : (s.setPc v).trace = s.trace := rfl
@[simp] theorem setPc_mem (s : State) (v : Word) : (s.setPc v).mem = s.mem := rfl
@[simp] theorem setPc_duart (s : State) (v : Word) : (s.setPc v).duart = s.duart := rfl
@[simp] theorem setPc_pending (s : State) (v : Word) : (s.setPc v).pending = s.pending := rfl
@[simp] theorem setPc_pc (s : State) (v : Word) : (s.setPc v).pc = v := reg_setReg_self ..
@[simp] theorem setPc_psw (s : State) (v : Word) : (s.setPc v).psw = s.psw := reg_setReg_ne _ _ (by decide)
@[simp] theorem setPc_sp (s : State) (v : Word) : (s.setPc v).sp = s.sp := reg_setReg_ne _ _ (by decide)
@[simp] theorem setPc_kernel (s : State) (v : Word) : (s.setPc v).kernel = s.kernel := by simp [State.kernel]
theorem setPc_reg (s : State) (v : Word) (n : RegNum) : (s.setPc v).reg n = if n = regPC then v else s.reg n :=
  reg_setReg ..

@[simp] theorem setPsw_params (s : State) (v : Word) : (s.setPsw v).params = s.params := rfl
@[simp] theorem setPsw_status (s : State) (v : Word) : (s.setPsw v).status = s.status := rfl
@[simp] theorem setPsw_waiting (s : State) (v : Word) : (s.setPsw v).waiting = s.waiting := rfl
@[simp] theorem setPsw_trace (s : State) (v : Word) : (s.setPsw v).trace = s.trace := rfl
@[simp] theorem setPsw_mem (s : State) (v : Word) : (s.setPsw v).mem = s.mem := rfl
@[simp] theorem setPsw_duart (s : State) (v : Word) : (s.setPsw v).duart = s.duart := rfl
@[simp] theorem setPsw_pending (s : State) (v : Word) : (s.setPsw v).pending = s.pending := rfl
@[simp] theorem setPsw_psw (s : State) (v : Word) : (s.setPsw v).psw = v := reg_setReg_self ..
@[simp] theorem setPsw_pc (s : State) (v : Word) : (s.setPsw v).pc = s.pc := reg_setReg_ne _ _ (by decide)
@[simp] theorem setPsw_sp (s : State) (v : Word) : (s.setPsw v).sp = s.sp := reg_setReg_ne _ _ (by decide)
theorem setPsw_reg (s : State) (v : Word) (n : RegNum) : (s.setPsw v).reg n = if n = regPSW then v else s.reg n :=
  reg_setReg ..

@[simp] theorem setSp_params (s : State) (v : Word) : (s.setSp v).params = s.params := rfl
@[simp] theorem setSp_status (s : State) (v : Word) : (s.setSp v).status = s.status := rfl
@[simp] theorem setSp_waiting (s : State) (v : Word) : (s.setSp v).waiting = s.waiting := rfl
@[simp] theorem setSp_trace (s : State) (v : Word) : (s.setSp v).trace = s.trace := rfl
@[simp] theorem setSp_mem (s : State) (v : Word) : (s.setSp v).mem = s.mem := rfl
@[simp] theorem setSp_duart (s : State) (v : Word) : (s.setSp v).duart = s.duart := rfl
@[simp] theorem setSp_pending (s : State) (v : Word) : (s.setSp v).pending = s.pending := rfl
@[simp] theorem setSp_sp (s : State) (v : Word) : (s.setSp v).sp = v := reg_setReg_self ..
@[simp] theorem setSp_pc (s : State) (v : Word) : (s.setSp v).pc = s.pc := reg_setReg_ne _ _ (by decide)
@[simp] theorem setSp_psw (s : State) (v : Word) : (s.setSp v).psw = s.psw := reg_setReg_ne _ _ (by decide)
theorem setSp_reg (s : State) (v : Word) (n : RegNum) : (s.setSp v).reg n = if n = regSP then v else s.reg n :=
  reg_setReg ..

@[simp] theorem setFlags_params (s : State) (f : Flags) : (s.setFlags f).params = s.params := rfl
@[simp] theorem setFlags_status (s : State) (f : Flags) : (s.setFlags f).status = s.status := rfl
@[simp] theorem setFlags_waiting (s : State) (f : Flags) : (s.setFlags f).waiting = s.waiting := rfl
@[simp] theorem setFlags_trace (s : State) (f : Flags) : (s.setFlags f).trace = s.trace := rfl
@[simp] theorem setFlags_mem (s : State) (f : Flags) : (s.setFlags f).mem = s.mem := rfl
@[simp] theorem setFlags_duart (s : State) (f : Flags) : (s.setFlags f).duart = s.duart := rfl
@[simp] theorem setFlags_pending (s : State) (f : Flags) : (s.setFlags f).pending = s.pending := rfl
@[simp] theorem setFlags_psw (s : State) (f : Flags) : (s.setFlags f).psw = Psw.setFlags f s.psw := setPsw_psw ..
@[simp] theorem setFlags_pc (s : State) (f : Flags) : (s.setFlags f).pc = s.pc := setPsw_pc ..
@[simp] theorem setFlags_sp (s : State) (f : Flags) : (s.setFlags f).sp = s.sp := setPsw_sp ..
theorem setFlags_reg (s : State) (f : Flags) (n : RegNum) :
    (s.setFlags f).reg n = if n = regPSW then Psw.setFlags f s.psw else s.reg n := setPsw_reg ..

@[simp] theorem setReg_pc_ne (s : State) {n : RegNum} (v : Word) (h : n ≠ regPC) : (s.setReg n v).pc = s.pc :=
  reg_setReg_ne _ _ (Ne.symm h)
@[simp] theorem setReg_psw_ne (s : State) {n : RegNum} (v : Word) (h : n ≠ regPSW) : (s.setReg n v).psw = s.psw :=
  reg_setReg_ne _ _ (Ne.symm h)
@[simp] theorem setReg_sp_ne (s : State) {n : RegNum} (v : Word) (h : n ≠ regSP) : (s.setReg n v).sp = s.sp :=
  reg_setReg_ne _ _ (Ne.symm h)

/-! ## The DUART -/

@[simp] theorem withDuart_params (s : State) (d : Duart) : (s.withDuart d).params = s.params := rfl
@[simp] theorem withDuart_regs (s : State) (d : Duart) : (s.withDuart d).regs = s.regs := rfl
@[simp] theorem withDuart_reg (s : State) (d : Duart) (n : RegNum) : (s.withDuart d).reg n = s.reg n := rfl
@[simp] theorem withDuart_status (s : State) (d : Duart) : (s.withDuart d).status = s.status := rfl
@[simp] theorem withDuart_waiting (s : State) (d : Duart) : (s.withDuart d).waiting = s.waiting := rfl
@[simp] theorem withDuart_trace (s : State) (d : Duart) : (s.withDuart d).trace = s.trace := rfl
@[simp] theorem withDuart_mem (s : State) (d : Duart) : (s.withDuart d).mem = s.mem := rfl
@[simp] theorem withDuart_duart (s : State) (d : Duart) : (s.withDuart d).duart = d := rfl
@[simp] theorem withDuart_pending (s : State) (d : Duart) :
    (s.withDuart d).pending = updateLatches s.duart d s.pending := rfl

@[simp] theorem writeDuart_params (s : State) (off : Nat) (b : Byte) : (s.writeDuart off b).params = s.params := rfl
@[simp] theorem writeDuart_regs (s : State) (off : Nat) (b : Byte) : (s.writeDuart off b).regs = s.regs := rfl
@[simp] theorem writeDuart_reg (s : State) (off : Nat) (b : Byte) (n : RegNum) : (s.writeDuart off b).reg n = s.reg n := rfl
@[simp] theorem writeDuart_status (s : State) (off : Nat) (b : Byte) : (s.writeDuart off b).status = s.status := rfl
@[simp] theorem writeDuart_waiting (s : State) (off : Nat) (b : Byte) : (s.writeDuart off b).waiting = s.waiting := rfl
@[simp] theorem writeDuart_trace (s : State) (off : Nat) (b : Byte) : (s.writeDuart off b).trace = s.trace := rfl
@[simp] theorem writeDuart_mem (s : State) (off : Nat) (b : Byte) : (s.writeDuart off b).mem = s.mem := rfl
@[simp] theorem writeDuart_duart (s : State) (off : Nat) (b : Byte) :
    (s.writeDuart off b).duart = s.duart.writeByte off b := rfl
@[simp] theorem writeDuart_pending (s : State) (off : Nat) (b : Byte) :
    (s.writeDuart off b).pending =
      updateLatches s.duart (s.duart.writeByte off b) (clearReset off b s.pending) := rfl

/-! ## Record updates of one field -/

@[simp] theorem setMem_reg (s : State) (m : Memory) (n : RegNum) : State.reg { s with mem := m } n = s.reg n := rfl
@[simp] theorem setMem_psw (s : State) (m : Memory) : State.psw { s with mem := m } = s.psw := rfl
@[simp] theorem setMem_pc (s : State) (m : Memory) : State.pc { s with mem := m } = s.pc := rfl
@[simp] theorem setMem_sp (s : State) (m : Memory) : State.sp { s with mem := m } = s.sp := rfl
@[simp] theorem setStatus_reg (s : State) (x : Status) (n : RegNum) : State.reg { s with status := x } n = s.reg n := rfl
@[simp] theorem setStatus_psw (s : State) (x : Status) : State.psw { s with status := x } = s.psw := rfl
@[simp] theorem setStatus_pc (s : State) (x : Status) : State.pc { s with status := x } = s.pc := rfl
@[simp] theorem setStatus_sp (s : State) (x : Status) : State.sp { s with status := x } = s.sp := rfl
@[simp] theorem setWaiting_reg (s : State) (x : Bool) (n : RegNum) : State.reg { s with waiting := x } n = s.reg n := rfl
@[simp] theorem setWaiting_psw (s : State) (x : Bool) : State.psw { s with waiting := x } = s.psw := rfl
@[simp] theorem setWaiting_pc (s : State) (x : Bool) : State.pc { s with waiting := x } = s.pc := rfl
@[simp] theorem setWaiting_sp (s : State) (x : Bool) : State.sp { s with waiting := x } = s.sp := rfl
@[simp] theorem setTrace_reg (s : State) (x : Option TraceRecord) (n : RegNum) :
    State.reg { s with trace := x } n = s.reg n := rfl
@[simp] theorem setTrace_psw (s : State) (x : Option TraceRecord) : State.psw { s with trace := x } = s.psw := rfl
@[simp] theorem setTrace_pc (s : State) (x : Option TraceRecord) : State.pc { s with trace := x } = s.pc := rfl

/-! ## SameCore -/

theorem SameCore.refl (s : State) : SameCore s s := ⟨rfl, rfl, rfl, rfl, rfl, rfl⟩

theorem SameCore.trans {s t u : State} (h : SameCore s t) (k : SameCore t u) : SameCore s u :=
  ⟨k.params.trans h.params, k.regs.trans h.regs, k.status.trans h.status, k.waiting.trans h.waiting,
    k.trace.trans h.trace, k.mem.trans h.mem⟩

theorem SameCore.reg {s t : State} (h : SameCore s t) (n : RegNum) : t.reg n = s.reg n := by
  simp [State.reg, h.regs]

theorem SameCore.psw {s t : State} (h : SameCore s t) : t.psw = s.psw := h.reg regPSW
theorem SameCore.pc {s t : State} (h : SameCore s t) : t.pc = s.pc := h.reg regPC
theorem SameCore.sp {s t : State} (h : SameCore s t) : t.sp = s.sp := h.reg regSP

theorem SameCore.kernel {s t : State} (h : SameCore s t) : t.kernel = s.kernel := by
  simp [State.kernel, h.psw]

theorem withDuart_sameCore (s : State) (d : Duart) : SameCore s (s.withDuart d) :=
  ⟨rfl, rfl, rfl, rfl, rfl, rfl⟩

theorem writeDuart_sameCore (s : State) (off : Nat) (b : Byte) : SameCore s (s.writeDuart off b) :=
  ⟨rfl, rfl, rfl, rfl, rfl, rfl⟩

end Sys2Proof.Machine
end

