-- ==== Sys2Proof/Laws/Memory.lean ====
section
/-! SUPPORT. The laws of memory: read after write, and that every operation keeps the canonical form. -/

namespace Sys2Proof.Machine

theorem Memory.read_unlisted {m : Memory} {a : Nat} (h : ∀ c ∈ m, c.1 ≠ a) : m.read a = Memory.unlisted := by
  induction m with
  | nil => rfl
  | cons c m ih =>
    obtain ⟨k, v⟩ := c
    simp only [Memory.read]
    rw [if_neg (h (k, v) (by simp)), ih fun c hc => h c (by simp [hc])]

theorem Memory.mem_write {m : Memory} {a : Nat} {b : Byte} {c : Host.Cell} (h : c ∈ m.write a b) :
    c ∈ m ∨ (c = (a, b) ∧ b ≠ Memory.unlisted) := by
  induction m with
  | nil =>
    simp only [Memory.write] at h
    split at h
    · simp at h
    · next hb => exact .inr ⟨by simpa using h, hb⟩
  | cons x m ih =>
    obtain ⟨k, v⟩ := x
    simp only [Memory.write] at h
    repeat' split at h
    all_goals simp only [List.mem_cons] at h ⊢
    all_goals grind

theorem Memory.wf_write {m : Memory} (h : m.wf) (a : Nat) (b : Byte) : (m.write a b).wf := by
  induction m with
  | nil =>
    simp only [Memory.write]
    split
    · exact h
    · next hb => simpa [Memory.wf] using hb
  | cons x m ih =>
    obtain ⟨k, v⟩ := x
    have hm : Memory.wf m := ⟨(List.pairwise_cons.1 h.1).2, fun c hc => h.2 c (by simp [hc])⟩
    have hk : ∀ c ∈ m, k < c.1 := (List.pairwise_cons.1 h.1).1
    have hv : v ≠ Memory.unlisted := h.2 (k, v) (by simp)
    simp only [Memory.write]
    split
    · next hlt =>
      split
      · exact h
      · next hb =>
        refine ⟨List.pairwise_cons.2 ⟨fun c hc => ?_, h.1⟩, fun c hc => ?_⟩
        · rcases List.mem_cons.1 hc with rfl | hc
          · exact hlt
          · exact Nat.lt_trans hlt (hk c hc)
        · rcases List.mem_cons.1 hc with rfl | hc
          · exact hb
          · exact h.2 c hc
    · split
      · next he =>
        subst he
        split
        · exact hm
        · next hb =>
          refine ⟨List.pairwise_cons.2 ⟨hk, hm.1⟩, fun c hc => ?_⟩
          rcases List.mem_cons.1 hc with rfl | hc
          · exact hb
          · exact hm.2 c hc
      · have ih := ih hm
        refine ⟨List.pairwise_cons.2 ⟨fun c hc => ?_, ih.1⟩, fun c hc => ?_⟩
        · rcases Memory.mem_write hc with hc | ⟨rfl, -⟩
          · exact hk c hc
          · show k < a; omega
        · rcases List.mem_cons.1 hc with rfl | hc
          · exact hv
          · exact ih.2 c hc

theorem Memory.read_write_self {m : Memory} (h : m.wf) (a : Nat) (b : Byte) : (m.write a b).read a = b := by
  induction m with
  | nil =>
    simp only [Memory.write]
    split
    · next hb => simp [Memory.read, hb]
    · simp [Memory.read]
  | cons x m ih =>
    obtain ⟨k, v⟩ := x
    have hm : Memory.wf m := ⟨(List.pairwise_cons.1 h.1).2, fun c hc => h.2 c (by simp [hc])⟩
    have hk : ∀ c ∈ m, k < c.1 := (List.pairwise_cons.1 h.1).1
    simp only [Memory.write]
    split
    · next hlt =>
      split
      · next hb =>
        rw [hb]
        refine Memory.read_unlisted fun c hc => ?_
        rcases List.mem_cons.1 hc with rfl | hc
        · show k ≠ a; omega
        · have := hk c hc; omega
      · simp [Memory.read]
    · split
      · next he =>
        subst he
        split
        · next hb =>
          rw [hb]
          exact Memory.read_unlisted fun c hc => by have := hk c hc; omega
        · simp [Memory.read]
      · next hne =>
        simp only [Memory.read]
        rw [if_neg (by omega)]
        exact ih hm

theorem Memory.read_write_ne (m : Memory) {a c : Nat} (b : Byte) (h : c ≠ a) : (m.write a b).read c = m.read c := by
  induction m with
  | nil =>
    simp only [Memory.write]
    split
    · rfl
    · simp [Memory.read, Ne.symm h]
  | cons x m ih =>
    obtain ⟨k, v⟩ := x
    simp only [Memory.write]
    repeat' split
    all_goals simp only [Memory.read]
    · rw [if_neg (Ne.symm h)]
    · next he _ => subst he; rw [if_neg (Ne.symm h)]
    · next he _ => subst he; rw [if_neg (Ne.symm h), if_neg (Ne.symm h)]
    · rw [ih]

theorem Memory.read_write {m : Memory} (h : m.wf) (a c : Nat) (b : Byte) :
    (m.write a b).read c = if c = a then b else m.read c := by
  split
  · next e => subst e; exact Memory.read_write_self h ..
  · next e => exact Memory.read_write_ne m b e

theorem Memory.wf_load {m : Memory} (h : m.wf) (a : Nat) (bs : List Byte) : (m.load a bs).wf := by
  induction bs generalizing m a with
  | nil => exact h
  | cons b bs ih => exact ih (Memory.wf_write h a b) (a + 1)

theorem Memory.wf_storeStream {m : Memory} (h : m.wf) (a : Word) (bs : List Byte) : (storeStream m a bs).wf := by
  induction bs generalizing m a with
  | nil => exact h
  | cons b bs ih => exact ih (Memory.wf_write h a.toNat b) (a + 1)

theorem Memory.wf_nil : Memory.wf [] := by simp [Memory.wf]

theorem State.reset_mem_wf : State.reset.mem.wf := Memory.wf_nil

end Sys2Proof.Machine
end

