-- ==== Sys2Proof/Laws/Ops.lean ====
section
/-! SUPPORT. What each shared operation can do: the monad's equations, routing, memory reads and writes, push and pop. -/

namespace Sys2Proof.Machine

/-! ## The monad -/

theorem bind_apply {α β : Type} (x : M α) (f : α → M β) (s : State) :
    (x >>= f) s = match x s with
      | .ok (a, t) => f a t
      | .error e => .error e := by
  show (StateT.bind x f) s = _
  unfold StateT.bind
  cases x s with
  | error e => rfl
  | ok r => rfl

theorem bind_ok {α β : Type} {x : M α} {f : α → M β} {s t : State} {a : α} (h : x s = .ok (a, t)) :
    (x >>= f) s = f a t := by rw [bind_apply, h]

theorem bind_error {α β : Type} {x : M α} {f : α → M β} {s : State} {e : Exn} (h : x s = .error e) :
    (x >>= f) s = .error e := by rw [bind_apply, h]

theorem of_bind_ok {α β : Type} {x : M α} {f : α → M β} {s : State} {r : β × State} (h : (x >>= f) s = .ok r) :
    ∃ a t, x s = .ok (a, t) ∧ f a t = .ok r := by
  rw [bind_apply] at h
  cases hx : x s with
  | error e => rw [hx] at h; cases h
  | ok p => rw [hx] at h; exact ⟨p.1, p.2, rfl, h⟩

@[simp] theorem pure_apply {α : Type} (a : α) (s : State) : (pure a : M α) s = .ok (a, s) := rfl
@[simp] theorem getState_apply (s : State) : getState s = .ok (s, s) := rfl
@[simp] theorem update_apply (f : State → State) (s : State) : update f s = .ok ((), f s) := rfl
@[simp] theorem getReg_apply (n : RegNum) (s : State) : getReg n s = .ok (s.reg n, s) := rfl
@[simp] theorem setReg_apply (n : RegNum) (v : Word) (s : State) : setReg n v s = .ok ((), s.setReg n v) := rfl
@[simp] theorem raise_apply {α : Type} (k : FaultKind) (s : State) :
    (raise k : M α) s = .error (.trap k none) := rfl
@[simp] theorem stop_apply {α : Type} (f : Fault) (s : State) : (stop f : M α) s = .error (.fault f) := rfl
@[simp] theorem advancePc_apply (len : Nat) (s : State) :
    advancePc len s = .ok ((), s.setPc (s.pc + BitVec.ofNat 32 len)) := rfl
@[simp] theorem branchPc_apply {w : Nat} (disp : BitVec w) (s : State) :
    branchPc disp s = .ok ((), s.setPc (s.pc + disp.signExtend 32)) := rfl

/-! ## Routing -/

theorem route_ok {a : Word} {z : Size} {k : AccessKind} {s : State} {g : Region}
    (h : dataRoute s.params a z k = .ok g) : route a z k s = .ok (g, s) := by simp [route, h]

theorem route_error {a : Word} {z : Size} {k : AccessKind} {s : State} {e : Exn}
    (h : dataRoute s.params a z k = .error e) : route a z k s = .error e := by simp [route, h]

/-- A data access is routed only to the region that holds its first and its last byte; a write not to ROM. -/
theorem dataRoute_region {p : Params} {a : Word} {z : Size} {k : AccessKind} {g : Region}
    (h : dataRoute p a z k = .ok g) :
    regionOf p a.toNat = some g ∧ regionOf p (a.toNat + sizeBytes z - 1) = some g ∧ ¬ (g = .rom ∧ k = .write) := by
  unfold dataRoute at h
  split at h
  · unfold busRoute at h
    split at h
    · cases h
    · next g' hg =>
      split at h
      · next hc => cases h; exact ⟨hg, hc.1, hc.2.1⟩
      · cases h
  · cases h

/-- What routing raises is a bus fault or a misaligned access. -/
theorem dataRoute_error {p : Params} {a : Word} {z : Size} {k : AccessKind} {e : Exn}
    (h : dataRoute p a z k = .error e) :
    e = .trap .busFault (some ⟨a, k⟩) ∨ e = .trap .misalignedAccess (some ⟨a, k⟩) := by
  unfold dataRoute at h
  split at h
  · unfold busRoute at h
    split at h
    · cases h; exact .inl rfl
    · split at h
      · cases h
      · cases h; exact .inl rfl
  · cases h; exact .inr rfl

/-! ## Reads -/

/-- A byte read answers always and changes the DUART at most. -/
theorem readByteAt_spec (g : Region) (a : Word) (s : State) :
    ∃ b t, readByteAt g a s = .ok (b, t) ∧ SameCore s t := by
  cases g
  · exact ⟨_, _, rfl, .refl s⟩
  · exact ⟨_, _, rfl, withDuart_sameCore ..⟩
  · exact ⟨_, _, rfl, .refl s⟩

theorem readByteAt_plain {g : Region} (hg : g ≠ .duart) (a : Word) (s : State) :
    readByteAt g a s = .ok (s.mem.read a.toNat, s) := by
  cases g
  · rfl
  · exact absurd rfl hg
  · rfl

/-- A read that is routed answers, and changes the DUART at most. -/
theorem memRead_spec {a : Word} {z : Size} {s : State} {g : Region} (h : dataRoute s.params a z .read = .ok g) :
    ∃ v t, memRead a z s = .ok (v, t) ∧ SameCore s t := by
  unfold memRead
  rw [bind_ok (route_ok h)]
  cases z
  · obtain ⟨b0, t0, e0, c0⟩ := readByteAt_spec g a s
    refine ⟨b0.setWidth 32, t0, ?_, c0⟩
    dsimp only
    rw [bind_ok e0]; rfl
  · obtain ⟨b0, t0, e0, c0⟩ := readByteAt_spec g a s
    obtain ⟨b1, t1, e1, c1⟩ := readByteAt_spec g (a + 1) t0
    refine ⟨(b0 ++ b1).setWidth 32, t1, ?_, c0.trans c1⟩
    dsimp only
    rw [bind_ok e0, bind_ok e1]; rfl
  · obtain ⟨b0, t0, e0, c0⟩ := readByteAt_spec g a s
    obtain ⟨b1, t1, e1, c1⟩ := readByteAt_spec g (a + 1) t0
    obtain ⟨b2, t2, e2, c2⟩ := readByteAt_spec g (a + 2) t1
    obtain ⟨b3, t3, e3, c3⟩ := readByteAt_spec g (a + 3) t2
    refine ⟨b0 ++ b1 ++ b2 ++ b3, t3, ?_, ((c0.trans c1).trans c2).trans c3⟩
    dsimp only
    rw [bind_ok e0, bind_ok e1, bind_ok e2, bind_ok e3]; rfl

theorem memRead_error {a : Word} {z : Size} {s : State} {e : Exn} (h : dataRoute s.params a z .read = .error e) :
    memRead a z s = .error e := by
  unfold memRead
  rw [bind_error (route_error h)]

theorem memRead_route {a : Word} {z : Size} {s : State} {r : Word × State} (h : memRead a z s = .ok r) :
    ∃ g, dataRoute s.params a z .read = .ok g := by
  cases hr : dataRoute s.params a z .read with
  | ok g => exact ⟨g, rfl⟩
  | error e => rw [memRead_error hr] at h; cases h

theorem memRead_sameCore {a : Word} {z : Size} {s t : State} {v : Word} (h : memRead a z s = .ok (v, t)) :
    SameCore s t := by
  obtain ⟨g, hg⟩ := memRead_route h
  obtain ⟨v', t', h', c⟩ := memRead_spec hg
  rw [h] at h'
  cases h'
  exact c

/-- A word read from ROM or RAM answers the word there and changes nothing. -/
theorem memRead_word {a : Word} {s : State} {g : Region} (h : dataRoute s.params a .word .read = .ok g)
    (hg : g ≠ .duart) : memRead a .word s = .ok (wordAt s a, s) := by
  unfold memRead
  rw [bind_ok (route_ok h)]
  dsimp only
  rw [bind_ok (readByteAt_plain hg ..), bind_ok (readByteAt_plain hg ..), bind_ok (readByteAt_plain hg ..),
    bind_ok (readByteAt_plain hg ..)]
  rfl

/-- A byte read from ROM or RAM answers the byte there and changes nothing. -/
theorem memRead_byte {a : Word} {s : State} {g : Region} (h : dataRoute s.params a .byte .read = .ok g)
    (hg : g ≠ .duart) : memRead a .byte s = .ok ((s.mem.read a.toNat).setWidth 32, s) := by
  unfold memRead
  rw [bind_ok (route_ok h)]
  dsimp only
  rw [bind_ok (readByteAt_plain hg ..)]
  rfl

/-! ## Writes -/

/-- Outside memory, the DUART and the latches nothing differs: all that a store can do. -/
structure SameCpu (s t : State) : Prop where
  params : t.params = s.params
  regs : t.regs = s.regs
  status : t.status = s.status
  waiting : t.waiting = s.waiting
  trace : t.trace = s.trace

theorem SameCpu.refl (s : State) : SameCpu s s := ⟨rfl, rfl, rfl, rfl, rfl⟩

theorem SameCpu.trans {s t u : State} (h : SameCpu s t) (k : SameCpu t u) : SameCpu s u :=
  ⟨k.params.trans h.params, k.regs.trans h.regs, k.status.trans h.status, k.waiting.trans h.waiting,
    k.trace.trans h.trace⟩

theorem SameCore.cpu {s t : State} (h : SameCore s t) : SameCpu s t :=
  ⟨h.params, h.regs, h.status, h.waiting, h.trace⟩

theorem SameCpu.reg {s t : State} (h : SameCpu s t) (n : RegNum) : t.reg n = s.reg n := by
  simp [State.reg, h.regs]

theorem SameCpu.psw {s t : State} (h : SameCpu s t) : t.psw = s.psw := h.reg regPSW
theorem SameCpu.pc {s t : State} (h : SameCpu s t) : t.pc = s.pc := h.reg regPC
theorem SameCpu.sp {s t : State} (h : SameCpu s t) : t.sp = s.sp := h.reg regSP

theorem SameCpu.kernel {s t : State} (h : SameCpu s t) : t.kernel = s.kernel := by
  simp [State.kernel, h.psw]

/-- Everything a store of n bytes at a in region g can do. -/
structure StoreEffect (g : Region) (a : Word) (n : Nat) (v : Word) (s t : State) : Prop where
  cpu : SameCpu s t
  bytes : g = .ram → s.mem.wf → HoldsBytes t a n v
  others : ∀ b, ¬ covers a n b → t.mem.read b = s.mem.read b
  wf : s.mem.wf → t.mem.wf
  cells : ∀ c ∈ t.mem, c ∈ s.mem ∨ (g = .ram ∧ covers a n c.1)
  plain : g ≠ .duart → t.duart = s.duart ∧ t.pending = s.pending
  device : g = .duart →
    t.mem = s.mem ∧ t.duart = (duartStore s (a.toNat - Config.duartBase) (bigEndianBytes n v)).duart ∧
      t.pending = (duartStore s (a.toNat - Config.duartBase) (bigEndianBytes n v)).pending

/-- Writing one byte of a region. -/
theorem writeByteAt_ram (a : Word) (b : Byte) (s : State) :
    writeByteAt .ram a b s = .ok ((), { s with mem := s.mem.write a.toNat b }) := rfl

theorem writeByteAt_duart (a : Word) (b : Byte) (s : State) :
    writeByteAt .duart a b s = .ok ((), s.writeDuart (a.toNat - Config.duartBase) b) := rfl

/-- The bytes of a store, in ascending order. -/
def storeBytes (g : Region) : Word → List Byte → M Unit
  | _, [] => pure ()
  | a, b :: rest => do
    writeByteAt g a b
    storeBytes g (a + 1) rest

theorem bigEndianBytes_byte (v : Word) : bigEndianBytes 1 v = [v.extractLsb' 0 8] := rfl
theorem bigEndianBytes_half (v : Word) : bigEndianBytes 2 v = [v.extractLsb' 8 8, v.extractLsb' 0 8] := rfl
theorem bigEndianBytes_word (v : Word) :
    bigEndianBytes 4 v = [v.extractLsb' 24 8, v.extractLsb' 16 8, v.extractLsb' 8 8, v.extractLsb' 0 8] := rfl

theorem bind_pure_unit (x : M Unit) : (do x; pure ()) = x := by
  funext s
  rw [bind_apply]
  cases x s with
  | error e => rfl
  | ok p => rfl

/-- A store is its bytes written in ascending order (20_memory.md R231, 60_exceptions.md R861). -/
theorem memWrite_eq {a : Word} {z : Size} {v : Word} {s : State} {g : Region}
    (h : dataRoute s.params a z .write = .ok g) :
    memWrite a z v s = storeBytes g a (bigEndianBytes (sizeBytes z) v) s := by
  unfold memWrite
  rw [bind_ok (route_ok h)]
  have e2 : a + 2 = a + 1 + 1 := by rw [BitVec.add_assoc]; rfl
  have e3 : a + 3 = a + 2 + 1 := by rw [BitVec.add_assoc]; rfl
  cases z
  · show _ = storeBytes g a (bigEndianBytes 1 v) s
    rw [bigEndianBytes_byte]
    simp only [storeBytes, bind_pure_unit]
  · show _ = storeBytes g a (bigEndianBytes 2 v) s
    rw [bigEndianBytes_half]
    simp only [storeBytes, bind_pure_unit]
  · show _ = storeBytes g a (bigEndianBytes 4 v) s
    rw [bigEndianBytes_word]
    simp only [storeBytes, bind_pure_unit, ← e2]
    rw [← e3]

theorem covers_succ {a : Word} {n b : Nat} : covers a (n + 1) b ↔ b = a.toNat ∨ covers (a + 1) n b := by
  constructor
  · rintro ⟨k, hk, rfl⟩
    cases k with
    | zero => left; simp
    | succ k =>
      right
      refine ⟨k, by omega, ?_⟩
      rw [BitVec.add_assoc]
      congr 2
      rw [Nat.add_comm, BitVec.ofNat_add]
      rfl
  · rintro (rfl | ⟨k, hk, rfl⟩)
    · exact ⟨0, by omega, by simp⟩
    · refine ⟨k + 1, by omega, ?_⟩
      rw [BitVec.add_assoc]
      congr 2
      rw [Nat.add_comm k 1, BitVec.ofNat_add]
      rfl

theorem not_covers_self {a : Word} {n : Nat} (h : n < 2 ^ 32) : ¬ covers (a + 1) n a.toNat := by
  rintro ⟨k, hk, e⟩
  have e := BitVec.eq_of_toNat_eq e
  have : (BitVec.ofNat 32 (k + 1)) = 0#32 := by
    rw [BitVec.add_assoc] at e
    have e' : a + (1 + BitVec.ofNat 32 k) = a + 0#32 := by rw [← e]; simp
    have := (BitVec.add_right_inj a).1 e'
    rw [Nat.add_comm k 1, BitVec.ofNat_add]; exact this
  have := congrArg BitVec.toNat this
  simp at this
  omega

theorem storeBytes_ram (bs : List Byte) (a : Word) (s : State) (hn : bs.length < 2 ^ 32) :
    ∃ m, storeBytes .ram a bs s = .ok ((), { s with mem := m }) ∧
      (s.mem.wf → m.wf ∧ ∀ k, (h : k < bs.length) → m.read (a + BitVec.ofNat 32 k).toNat = bs[k]) ∧
      (∀ b, ¬ covers a bs.length b → m.read b = s.mem.read b) ∧
      (∀ c ∈ m, c ∈ s.mem ∨ covers a bs.length c.1) := by
  induction bs generalizing a s with
  | nil => exact ⟨s.mem, rfl, fun h => ⟨h, fun k hk => by simp at hk⟩, fun _ _ => rfl, fun _ h => .inl h⟩
  | cons b rest ih =>
    simp only [List.length_cons] at hn
    obtain ⟨m, e, hw, ho, hc⟩ := ih (a + 1) { s with mem := s.mem.write a.toNat b } (by omega)
    refine ⟨m, ?_, fun wf => ⟨(hw (Memory.wf_write wf ..)).1, fun k hk => ?_⟩, fun c hcov => ?_, fun c hmem => ?_⟩
    · simp only [storeBytes]
      rw [bind_ok (writeByteAt_ram ..), e]
    · cases k with
      | zero =>
        have h0 := ho a.toNat (not_covers_self (by omega))
        simp only [BitVec.add_zero, List.getElem_cons_zero]
        rw [h0]
        exact Memory.read_write_self wf ..
      | succ k =>
        have := (hw (Memory.wf_write wf ..)).2 k (by simpa using hk)
        rw [List.getElem_cons_succ, ← this, BitVec.add_assoc, Nat.add_comm k 1, BitVec.ofNat_add]
        rfl
    · simp only [List.length_cons, covers_succ, not_or] at hcov
      rw [ho c hcov.2]
      exact Memory.read_write_ne _ _ hcov.1
    · simp only [List.length_cons, covers_succ]
      rcases hc c hmem with h | h
      · rcases Memory.mem_write h with h | ⟨rfl, -⟩
        · exact .inl h
        · exact .inr (.inl rfl)
      · exact .inr (.inr h)

/-- A store to the DUART's window changes the DUART and its latches alone. -/
theorem duartStore_sameCore (bs : List Byte) (off : Nat) (s : State) : SameCore s (duartStore s off bs) := by
  induction bs generalizing off s with
  | nil => exact .refl s
  | cons b rest ih => exact (writeDuart_sameCore s off b).trans (ih ..)

/-- What a store to the DUART's window leaves there depends on the DUART and the latches alone. -/
theorem duartStore_congr (bs : List Byte) (off : Nat) {s t : State} (hd : t.duart = s.duart)
    (hp : t.pending = s.pending) : (duartStore t off bs).duart = (duartStore s off bs).duart ∧
      (duartStore t off bs).pending = (duartStore s off bs).pending := by
  induction bs generalizing off s t with
  | nil => exact ⟨hd, hp⟩
  | cons b rest ih => exact ih (off + 1) (by simp only [writeDuart_duart, hd]) (by simp only [writeDuart_pending, hd, hp])

theorem storeBytes_duart (bs : List Byte) (a : Word) (s : State)
    (ha : Config.duartBase ≤ a.toNat) (hn : a.toNat + bs.length ≤ 2 ^ 32) :
    storeBytes .duart a bs s = .ok ((), duartStore s (a.toNat - Config.duartBase) bs) := by
  induction bs generalizing a s with
  | nil => rfl
  | cons b rest ih =>
    rw [storeBytes, bind_ok (writeByteAt_duart ..)]
    cases rest with
    | nil => rfl
    | cons b' rest' =>
      simp only [List.length_cons] at hn ih
      have e1 : (a + 1).toNat = a.toNat + 1 := by
        have h1 : (1 : Word).toNat = 1 := by decide
        rw [BitVec.toNat_add, h1]
        omega
      have e2 : (a + 1).toNat - Config.duartBase = a.toNat - Config.duartBase + 1 := by omega
      have h := ih (a + 1) (s.writeDuart (a.toNat - Config.duartBase) b) (by omega) (by omega)
      rw [e2] at h
      simp only [h, duartStore]

theorem bigEndianBytes_length (n : Nat) (v : Word) : (bigEndianBytes n v).length = n := by
  simp [bigEndianBytes]

theorem bigEndianBytes_get {n k : Nat} (v : Word) (h : k < (bigEndianBytes n v).length) :
    (bigEndianBytes n v)[k] = valueByte n v k := by
  simp [bigEndianBytes, valueByte]

/-- Where regionOf answers the DUART, the address is in its window. -/
theorem regionOf_duart {p : Params} {a : Nat} (h : regionOf p a = some .duart) :
    Config.duartBase ≤ a ∧ a < Config.duartBase + Config.duartSize := by
  unfold regionOf at h
  repeat' split at h
  all_goals first | assumption | cases h

theorem sizeBytes_pos (z : Size) : 1 ≤ sizeBytes z := by cases z <;> decide
theorem sizeBytes_le (z : Size) : sizeBytes z ≤ 4 := by cases z <;> decide

/-- A store that is routed happens, and does exactly this. -/
theorem memWrite_spec {a : Word} {z : Size} (v : Word) {s : State} {g : Region}
    (h : dataRoute s.params a z .write = .ok g) :
    ∃ t, memWrite a z v s = .ok ((), t) ∧ StoreEffect g a (sizeBytes z) v s t := by
  rw [memWrite_eq h]
  have hz := sizeBytes_le z
  obtain ⟨h1, h2, h3⟩ := dataRoute_region h
  cases g with
  | rom => exact absurd ⟨rfl, rfl⟩ h3
  | ram =>
    obtain ⟨m, e, hw, ho, hc⟩ := storeBytes_ram (bigEndianBytes (sizeBytes z) v) a s
      (by rw [bigEndianBytes_length]; omega)
    rw [bigEndianBytes_length] at ho hc
    refine ⟨_, e, ⟨rfl, rfl, rfl, rfl, rfl⟩, fun _ wf k hk => ?_, ho, fun wf => (hw wf).1,
      fun c hm => (hc c hm).imp id fun h => ⟨rfl, h⟩, fun _ => ⟨rfl, rfl⟩, fun h => by cases h⟩
    have := (hw wf).2 k (by rw [bigEndianBytes_length]; exact hk)
    rw [bigEndianBytes_get] at this
    exact this
  | duart =>
    have r1 := regionOf_duart h1
    have r2 := regionOf_duart h2
    simp only [Config.duartBase, Config.duartSize] at r1 r2
    have e := storeBytes_duart (bigEndianBytes (sizeBytes z) v) a s
      (by simp only [Config.duartBase]; omega) (by rw [bigEndianBytes_length]; omega)
    have c := duartStore_sameCore (bigEndianBytes (sizeBytes z) v) (a.toNat - Config.duartBase) s
    exact ⟨_, e, {
      cpu := c.cpu
      bytes := fun h => by cases h
      others := fun b _ => by rw [c.mem]
      wf := fun wf => by rw [c.mem]; exact wf
      cells := fun x hx => .inl (by rw [c.mem] at hx; exact hx)
      plain := fun h => absurd rfl h
      device := fun _ => ⟨c.mem, rfl, rfl⟩ }⟩

theorem memWrite_error {a : Word} {z : Size} {v : Word} {s : State} {e : Exn}
    (h : dataRoute s.params a z .write = .error e) : memWrite a z v s = .error e := by
  unfold memWrite
  rw [bind_error (route_error h)]

theorem memWrite_route {a : Word} {z : Size} {v : Word} {s : State} {r : Unit × State}
    (h : memWrite a z v s = .ok r) : ∃ g, dataRoute s.params a z .write = .ok g := by
  cases hr : dataRoute s.params a z .write with
  | ok g => exact ⟨g, rfl⟩
  | error e => rw [memWrite_error hr] at h; cases h

theorem memWrite_effect {a : Word} {z : Size} {v : Word} {s t : State} {u : Unit}
    (h : memWrite a z v s = .ok (u, t)) :
    ∃ g, dataRoute s.params a z .write = .ok g ∧ StoreEffect g a (sizeBytes z) v s t := by
  obtain ⟨g, hg⟩ := memWrite_route h
  obtain ⟨t', h', e⟩ := memWrite_spec v hg
  rw [h] at h'
  cases h'
  exact ⟨g, hg, e⟩

/-! ## Running -/

/-! ## Accesses that the bus refuses -/

theorem AccessTraps.of_params {s t : State} {a : Word} {z : Size} {w : AccessKind} {k : FaultKind}
    (h : AccessTraps s a z w k) (hp : t.params = s.params) : AccessTraps t a z w k := by
  unfold AccessTraps; rw [hp]; exact h

theorem Reached.of_params {s t : State} {a : Word} {z : Size} {w : AccessKind} (h : Reached s a z w)
    (hp : t.params = s.params) : Reached t a z w := by
  unfold Reached; rw [hp]; exact h

theorem AccessTraps.read {s : State} {a : Word} {z : Size} {k : FaultKind} (h : AccessTraps s a z .read k) :
    ∃ i, memRead a z s = .error (.trap k i) := by
  obtain ⟨i, h⟩ := h
  exact ⟨i, memRead_error h⟩

theorem AccessTraps.write {s : State} {a : Word} {z : Size} {k : FaultKind} (h : AccessTraps s a z .write k) (v : Word) :
    ∃ i, memWrite a z v s = .error (.trap k i) := by
  obtain ⟨i, h⟩ := h
  exact ⟨i, memWrite_error h⟩

theorem Reached.read {s : State} {a : Word} {z : Size} (h : Reached s a z .read) :
    ∃ v t, memRead a z s = .ok (v, t) ∧ SameCpu s t := by
  obtain ⟨g, h⟩ := h
  obtain ⟨v, t, e, c⟩ := memRead_spec h
  exact ⟨v, t, e, c.cpu⟩

theorem Reached.write {s : State} {a : Word} {z : Size} (h : Reached s a z .write) (v : Word) :
    ∃ t, memWrite a z v s = .ok ((), t) ∧ SameCpu s t := by
  obtain ⟨g, h⟩ := h
  obtain ⟨t, e, c⟩ := memWrite_spec v h
  exact ⟨t, e, c.cpu⟩

theorem runInstr_ok {b : Bool} {work : M Unit} {s t : State} {u : Unit} (h : work s = .ok (u, t)) :
    runInstr b work s = .next (endOfInstr b s t) := by
  simp [runInstr, h]

theorem runInstr_trap {b : Bool} {work : M Unit} {s : State} {k : FaultKind} {i : Option AccessInfo}
    (h : work s = .error (.trap k i)) : runInstr b work s = .next (takeTrap k s) := by
  simp [runInstr, h]

/-- A completed instruction with no end-of-instruction trap due. -/
theorem runInstr_plain {b : Bool} {work : M Unit} {s t : State} {u : Unit} (h : work s = .ok (u, t))
    (hm : NotTraced s) (ho : b = false ∨ (Psw.v t.psw && Psw.oe t.psw) = false) : runInstr b work s = .next t := by
  rw [runInstr_ok h]
  unfold endOfInstr
  have hm' : Psw.tm s.psw = false := hm
  rcases ho with rfl | ho
  · simp [hm']
  · rw [Bool.and_assoc, ho]; simp [hm']

/-- A completed instruction that began with TM = 1 and raises no IntegerOverflow. -/
theorem runInstr_traced {b : Bool} {work : M Unit} {s t : State} {u : Unit} (h : work s = .ok (u, t))
    (hm : Psw.tm s.psw = true) (ho : b = false ∨ (Psw.v t.psw && Psw.oe t.psw) = false) :
    runInstr b work s = .next (takeTrap .trace t) := by
  rw [runInstr_ok h]
  unfold endOfInstr
  rcases ho with rfl | ho
  · simp [hm]
  · rw [Bool.and_assoc, ho]; simp [hm]

end Sys2Proof.Machine
end

