-- ==== Sys2Proof/Laws/Operands.lean ====
section
/-! SUPPORT. Operand reads change the DUART at most; what an operand write and the end of an instruction with a
destination leave. -/

namespace Sys2Proof.Machine

/-! ## Reading -/

/-- A computation that changes the DUART and its latches at most. -/
structure Reads {α : Type} (x : M α) : Prop where
  sameCore : ∀ s a t, x s = .ok (a, t) → SameCore s t

theorem Reads.pure {α : Type} (a : α) : Reads (Pure.pure a : M α) := by
  refine ⟨fun s b t h => ?_⟩
  cases h
  exact .refl s

theorem Reads.bind {α β : Type} {x : M α} {f : α → M β} (hx : Reads x) (hf : ∀ a, Reads (f a)) :
    Reads (x >>= f) := by
  refine ⟨fun s b t h => ?_⟩
  obtain ⟨a, u, h1, h2⟩ := of_bind_ok h
  exact (hx.sameCore s a u h1).trans ((hf a).sameCore u b t h2)

theorem Reads.getState : Reads Machine.getState := by
  refine ⟨fun s a t h => ?_⟩
  cases h
  exact .refl s

theorem Reads.getReg (n : RegNum) : Reads (Machine.getReg n) := by
  refine ⟨fun s a t h => ?_⟩
  cases h
  exact .refl s

theorem Reads.raise {α : Type} (k : FaultKind) : Reads (Machine.raise k : M α) := by
  refine ⟨fun s a t h => ?_⟩
  cases h

theorem Reads.memRead (a : Word) (z : Size) : Reads (Machine.memRead a z) :=
  ⟨fun _ _ _ h => memRead_sameCore h⟩

theorem Reads.ite {α : Type} {c : Prop} [Decidable c] {x y : M α} (hx : Reads x) (hy : Reads y) :
    Reads (if c then x else y) := by
  split
  · exact hx
  · exact hy

theorem Reads.requireLegal (l : List (OpClass × Operand)) : Reads (Machine.requireLegal l) :=
  .ite (.pure _) (.raise _)

theorem Reads.locate (f : Form) : Reads (Machine.locate f) := by
  refine .bind .getState fun s => ?_
  cases formPlace s f with
  | value w => exact .pure _
  | reg r => exact .pure _
  | mem a => exact .ite (.bind (.memRead ..) fun p => .pure _) (.pure _)

theorem Reads.operand (t : OpType) (earlier : List Operand) (o : Operand) : Reads (Machine.operand t earlier o) :=
  .bind .getState fun _ => .bind (.locate _) fun _ => .pure _

theorem Reads.readOpnd (x : Opnd) : Reads (Machine.readOpnd x) := by
  unfold Machine.readOpnd
  cases x.place with
  | value w => exact .pure _
  | reg r => exact .bind (.getReg r) fun _ => .pure _
  | mem a => exact .bind (.memRead ..) fun _ => .pure _

theorem Reads.gather1 (c : OpClass) (t : OpType) (o : Operand) : Reads (Machine.gather1 c t o) :=
  .bind (.requireLegal _) fun _ => .operand ..

theorem Reads.gather2 (c₁ c₂ : OpClass) (t : OpType) (o₁ o₂ : Operand) : Reads (Machine.gather2 c₁ c₂ t o₁ o₂) :=
  .bind (.requireLegal _) fun _ => .bind (.operand ..) fun _ => .bind (.operand ..) fun _ => .pure _

theorem Reads.gather3 (c₁ c₂ c₃ : OpClass) (t : OpType) (o₁ o₂ o₃ : Operand) :
    Reads (Machine.gather3 c₁ c₂ c₃ t o₁ o₂ o₃) :=
  .bind (.requireLegal _) fun _ => .bind (.operand ..) fun _ => .bind (.operand ..) fun _ => .bind (.operand ..)
    fun _ => .pure _

theorem Reads.gather4 (c₁ c₂ c₃ c₄ : OpClass) (t : OpType) (o₁ o₂ o₃ o₄ : Operand) :
    Reads (Machine.gather4 c₁ c₂ c₃ c₄ t o₁ o₂ o₃ o₄) :=
  .bind (.requireLegal _) fun _ => .bind (.operand ..) fun _ => .bind (.operand ..) fun _ => .bind (.operand ..)
    fun _ => .bind (.operand ..) fun _ => .pure _

theorem Reads.inputR (t : OpType) (src : Operand) : Reads (Machine.inputR t src) :=
  .bind (.gather1 ..) fun _ => .readOpnd _

theorem Reads.inputRR (t : OpType) (a b : Operand) : Reads (Machine.inputRR t a b) :=
  .bind (.gather2 ..) fun _ => .bind (.readOpnd _) fun _ => .bind (.readOpnd _) fun _ => .pure _

theorem Reads.inputM (t : OpType) (d : Operand) : Reads (Machine.inputM t d) :=
  .bind (.gather1 ..) fun _ => .bind (.readOpnd _) fun _ => .pure _

theorem Reads.inputRW (t : OpType) (a d : Operand) : Reads (Machine.inputRW t a d) :=
  .bind (.gather2 ..) fun _ => .bind (.readOpnd _) fun _ => .pure _

theorem Reads.inputRM (t : OpType) (a d : Operand) : Reads (Machine.inputRM t a d) :=
  .bind (.gather2 ..) fun _ => .bind (.readOpnd _) fun _ => .bind (.readOpnd _) fun _ => .pure _

theorem Reads.inputRRW (t : OpType) (a b d : Operand) : Reads (Machine.inputRRW t a b d) :=
  .bind (.gather3 ..) fun _ => .bind (.readOpnd _) fun _ => .bind (.readOpnd _) fun _ => .pure _

theorem Reads.inputRRRW (t : OpType) (w o a d : Operand) : Reads (Machine.inputRRRW t w o a d) :=
  .bind (.gather4 ..) fun _ => .bind (.readOpnd _) fun _ => .bind (.readOpnd _) fun _ => .bind (.readOpnd _)
    fun _ => .pure _

theorem Reads.inputRRRM (t : OpType) (w o a d : Operand) : Reads (Machine.inputRRRM t w o a d) :=
  .bind (.gather4 ..) fun _ => .bind (.readOpnd _) fun _ => .bind (.readOpnd _) fun _ => .bind (.readOpnd _)
    fun _ => .bind (.readOpnd _) fun _ => .pure _

theorem Reads.inputA (d : Operand) : Reads (Machine.inputA d) :=
  .bind (.gather1 ..) fun _ => .pure _

/-! ## Places -/

/-- A memory form is located in memory. -/
theorem locate_memory {f : Form} {s t : State} {pl : Place} (hf : f.isMemory = true) (h : locate f s = .ok (pl, t)) :
    ∃ a, pl = .mem a := by
  have hp : ∃ a, formPlace s f = .mem a := by
    cases f <;> first
      | exact ⟨_, rfl⟩
      | cases hf
  obtain ⟨a, ha⟩ := hp
  unfold locate at h
  rw [bind_ok (getState_apply s), ha] at h
  dsimp only at h
  split at h
  · obtain ⟨p, u, -, h⟩ := of_bind_ok h
    cases h
    exact ⟨p, rfl⟩
  · cases h
    exact ⟨a, rfl⟩

/-- The operand of an interlocked swap is in memory. -/
theorem gather1_memory {ty : OpType} {o : Operand} {s t : State} {d : Opnd}
    (h : gather1 .memModify ty o s = .ok (d, t)) : ∃ a, d.place = .mem a := by
  unfold gather1 at h
  obtain ⟨u, s', hl, h⟩ := of_bind_ok h
  unfold requireLegal at hl
  split at hl
  · next hok =>
    simp only [List.all_cons, List.all_nil, Bool.and_true, operandOk, Operand.legalFor, Bool.and_eq_true] at hok
    unfold operand at h
    obtain ⟨_, _, _, h⟩ := of_bind_ok h
    obtain ⟨pl, _, hloc, h⟩ := of_bind_ok h
    cases h
    exact locate_memory hok.2 hloc
  · cases hl

/-! ## Writing -/

theorem writeDestReg_ok {n : RegNum} {v : Word} {s : State} (h : privilegedReg n = true → s.kernel = true) :
    writeDestReg n v s = .ok ((), s.setReg n (destValue n v)) := by
  unfold writeDestReg
  cases hp : privilegedReg n
  · simp
  · simp [h hp]

theorem destValue_ne {n : RegNum} (v : Word) (h : n ≠ regPSW) : destValue n v = v := by
  simp [destValue, h]

theorem destValue_psw (v : Word) : destValue regPSW v = v &&& Config.pswMask := by
  simp [destValue]

/-- The store of a completed instruction, before flags and PC. -/
structure OperandStored (d : Opnd) (r : Int) (s t : State) : Prop where
  register : ∀ n, d.place = .reg n → t = s.setReg n (destValue n (extendType d.type r))
  memory : ∀ a, d.place = .mem a → ∃ g, regionOf s.params a.toNat = some g ∧
    StoreEffect g a (sizeBytes d.type.size) (patternOf r) s t

/-- A writable destination is written. -/
theorem writeOpnd_spec {d : Opnd} {s : State} (r : Int) (h : d.Writable s) :
    ∃ t, writeOpnd d r s = .ok ((), t) ∧ OperandStored d r s t := by
  obtain ⟨pl, ty⟩ := d
  cases pl with
  | value w => exact h.elim
  | reg n =>
    refine ⟨_, writeDestReg_ok h.2, { register := fun m e => ?_, memory := fun a e => by cases e }⟩
    cases e
    rfl
  | mem a =>
    obtain ⟨g, hg⟩ := h
    obtain ⟨t, e, eff⟩ := memWrite_spec (patternOf r) hg
    refine ⟨t, e, { register := fun m h => (by cases h), memory := fun b h => ?_ }⟩
    cases h
    exact ⟨g, (dataRoute_region hg).1, eff⟩

/-- The end of an instruction whose flag update is `flags`, made unless the destination is the PSW. -/
theorem completed_of_stored {d : Opnd} {r : Int} {f : Flags} {len : Nat} {s s₁ s₂ : State}
    (hs : SameCore s s₁) (hw : d.Writable s₁) (wf : s.mem.wf) (h : OperandStored d r s₁ s₂) :
    Completed d r (pswAfter d r f s.psw) (s.pc + BitVec.ofNat 32 len) s s₁
      ((if isPswDest d then s₂ else s₂.setFlags f).setPc (s₂.pc + BitVec.ofNat 32 len)) := by
  obtain ⟨pl, ty⟩ := d
  cases pl with
  | value w => exact hw.elim
  | reg n =>
    have e := h.register n rfl
    have hn : n ≠ regPC := hw.1
    by_cases hp : n = regPSW
    · subst hp
      have e' : s₂ = s₁.setPsw (extendType ty r &&& Config.pswMask) := by rw [e, destValue_psw]; rfl
      subst e'
      simp only [isPswDest, BEq.rfl, if_true, pswAfter]
      exact {
        psw := by simp
        pc := by simp [hs.pc]
        register := fun m hm hne => by cases hm; exact absurd rfl hne
        otherRegisters := fun m hm hp hc => by
          rw [setPc_reg, if_neg hc, setPsw_reg, if_neg hp, hs.reg]
        stored := fun a h => by cases h
        otherBytes := fun b _ => by simp [hs.mem]
        device := fun _ => by simp
        deviceStore := fun a h => by cases h
        params := by simp [hs.params]
        status := by simp [hs.status]
        waiting := by simp [hs.waiting]
        trace := by simp [hs.trace] }
    · rw [destValue_ne _ hp] at e
      subst e
      have hb : isPswDest ⟨.reg n, ty⟩ = false := by simp [isPswDest, hp]
      have hp' : Place.reg n ≠ .reg regPSW := fun h => hp (by injection h)
      simp only [hb, pswAfter, hp', if_false, Bool.false_eq_true]
      exact {
        psw := by simp [hp, hs.psw]
        pc := by simp [hs.pc, hn]
        register := fun m hm hne => by
          cases hm
          rw [setPc_reg, if_neg hn, setFlags_reg, if_neg hp, reg_setReg_self]
        otherRegisters := fun m hm hp hc => by
          rw [setPc_reg, if_neg hc, setFlags_reg, if_neg hp, reg_setReg_ne _ _ fun h => hm (by rw [h]), hs.reg]
        stored := fun a h => by cases h
        otherBytes := fun b _ => by simp [hs.mem]
        device := fun _ => by simp
        deviceStore := fun a h => by cases h
        params := by simp [hs.params]
        status := by simp [hs.status]
        waiting := by simp [hs.waiting]
        trace := by simp [hs.trace] }
  | mem a =>
    obtain ⟨g, hg, eff⟩ := h.memory a rfl
    rw [hs.params] at hg
    have hb : isPswDest ⟨.mem a, ty⟩ = false := by simp [isPswDest]
    have hp' : Place.mem a ≠ .reg regPSW := fun h => by cases h
    simp only [hb, pswAfter, hp', if_false, Bool.false_eq_true]
    exact {
      psw := by simp [eff.cpu.psw, hs.psw]
      pc := by simp [eff.cpu.pc, hs.pc]
      register := fun m hm => by cases hm
      otherRegisters := fun m hm hp hc => by
        rw [setPc_reg, if_neg hc, setFlags_reg, if_neg hp, eff.cpu.reg, hs.reg]
      stored := fun b hb hr => by
        cases hb
        rw [hg] at hr
        cases hr
        exact eff.bytes rfl (by rw [hs.mem]; exact wf)
      otherBytes := fun b hc => by
        have := eff.others b hc
        simp [this, hs.mem]
      device := fun hr => by
        have := eff.plain fun e => hr a rfl (by rw [hg, e])
        simp [this]
      deviceStore := fun b hb hr => by
        cases hb
        rw [hg] at hr
        cases hr
        have := (eff.device rfl).2
        simp [this]
      params := by simp [eff.cpu.params, hs.params]
      status := by simp [eff.cpu.status, hs.status]
      waiting := by simp [eff.cpu.waiting, hs.waiting]
      trace := by simp [eff.cpu.trace, hs.trace] }

/-- The end of an instruction with a destination. -/
theorem finish_spec {d : Opnd} {s s₁ : State} (r : Int) (f : Flags) (len : Nat) (hs : SameCore s s₁)
    (hw : d.Writable s₁) (wf : s.mem.wf) :
    ∃ t, finish d r f len s₁ = .ok ((), t) ∧
      Completed d r (pswAfter d r f s.psw) (s.pc + BitVec.ofNat 32 len) s s₁ t := by
  obtain ⟨s₂, e, h⟩ := writeOpnd_spec r hw
  refine ⟨_, ?_, completed_of_stored (f := f) (len := len) hs hw wf h⟩
  unfold finish
  rw [bind_ok e]
  unfold writeFlags
  split
  · next hb => rw [bind_ok (pure_apply ..), advancePc_apply]
  · next hb => rw [bind_ok (update_apply ..), advancePc_apply, setFlags_pc]

end Sys2Proof.Machine
end

