-- ==== Sys2Proof/Laws/Frame.lean ====
section
/-! SUPPORT. Relations between the start and the end of an instruction that every elementary effect keeps are kept by
every instruction: what a proof about all instructions needs is stated once a shared operation. -/

namespace Sys2Proof.Machine

/-- A relation that the elementary effects of instructions keep. GATE, RETG, WAIT and HALT have effects of their own. -/
structure Frame (R : State → State → Prop) : Prop where
  refl : ∀ s, R s s
  trans : ∀ {s t u}, R s t → R t u → R s u
  read : ∀ {s t a z v}, memRead a z s = .ok (v, t) → R s t
  write : ∀ {s t a z v}, memWrite a z v s = .ok ((), t) → R s t
  reg : ∀ {s n v}, privilegedReg n = false → R s (s.setReg n v)
  dest : ∀ {s t n v}, writeDestReg n v s = .ok ((), t) → R s t
  flags : ∀ {s f}, R s (s.setFlags f)

/-- A computation keeps a relation where it answers. -/
structure Keeps (R : State → State → Prop) {α : Type} (x : M α) : Prop where
  holds : ∀ s a t, x s = .ok (a, t) → R s t

namespace Frame

variable {R : State → State → Prop} (hR : Frame R)
include hR

theorem pure {α : Type} (a : α) : Keeps R (Pure.pure a : M α) :=
  ⟨fun s b t h => by cases h; exact hR.refl s⟩

theorem bind {α β : Type} {x : M α} {f : α → M β} (hx : Keeps R x) (hf : ∀ a, Keeps R (f a)) : Keeps R (x >>= f) :=
  ⟨fun s b t h => by
    obtain ⟨a, u, h1, h2⟩ := of_bind_ok h
    exact hR.trans (hx.holds s a u h1) ((hf a).holds u b t h2)⟩

theorem getState : Keeps R Machine.getState :=
  ⟨fun s a t h => by cases h; exact hR.refl s⟩

theorem getReg (n : RegNum) : Keeps R (Machine.getReg n) :=
  ⟨fun s a t h => by cases h; exact hR.refl s⟩

omit hR in
theorem raise {α : Type} (k : FaultKind) : Keeps R (Machine.raise k : M α) :=
  ⟨fun s a t h => by cases h⟩

omit hR in
theorem stop {α : Type} (f : Fault) : Keeps R (Machine.stop f : M α) :=
  ⟨fun s a t h => by cases h⟩

theorem memRead (a : Word) (z : Size) : Keeps R (Machine.memRead a z) :=
  ⟨fun _ _ _ h => hR.read h⟩

theorem memWrite (a : Word) (z : Size) (v : Word) : Keeps R (Machine.memWrite a z v) :=
  ⟨fun _ _ _ h => hR.write h⟩

theorem setReg {n : RegNum} (h : privilegedReg n = false) (v : Word) : Keeps R (Machine.setReg n v) :=
  ⟨fun s a t e => by cases e; exact hR.reg h⟩

theorem writeDestReg (n : RegNum) (v : Word) : Keeps R (Machine.writeDestReg n v) :=
  ⟨fun _ _ _ h => hR.dest h⟩

theorem setFlags (f : Flags) : Keeps R (update fun s => s.setFlags f) :=
  ⟨fun s a t e => by cases e; exact hR.flags⟩

theorem advancePc (len : Nat) : Keeps R (Machine.advancePc len) :=
  ⟨fun s a t e => by cases e; exact hR.reg (n := regPC) rfl⟩

theorem branchPc {w : Nat} (disp : BitVec w) : Keeps R (Machine.branchPc disp) :=
  ⟨fun s a t e => by cases e; exact hR.reg (n := regPC) rfl⟩

omit hR in
theorem ite {α : Type} {c : Prop} [Decidable c] {x y : M α} (hx : Keeps R x) (hy : Keeps R y) :
    Keeps R (if c then x else y) := by
  split
  · exact hx
  · exact hy

theorem push (v : Word) : Keeps R (Machine.push v) :=
  hR.bind (hR.getReg _) fun _ => hR.bind (hR.memWrite ..) fun _ => hR.setReg rfl _

theorem pop : Keeps R Machine.pop :=
  hR.bind (hR.getReg _) fun _ => hR.bind (hR.memRead ..) fun _ => hR.bind (hR.setReg rfl _) fun _ => hR.pure _

/-! ## Operands -/

theorem requireLegal (l : List (OpClass × Operand)) : Keeps R (Machine.requireLegal l) :=
  ite (hR.pure _) (raise _)

theorem locate (f : Form) : Keeps R (Machine.locate f) := by
  refine hR.bind hR.getState fun s => ?_
  cases formPlace s f with
  | value w => exact hR.pure _
  | reg r => exact hR.pure _
  | mem a => exact ite (hR.bind (hR.memRead ..) fun p => hR.pure _) (hR.pure _)

theorem operand (t : OpType) (earlier : List Operand) (o : Operand) : Keeps R (Machine.operand t earlier o) :=
  hR.bind hR.getState fun _ => hR.bind (hR.locate _) fun _ => hR.pure _

theorem readOpnd (x : Opnd) : Keeps R (Machine.readOpnd x) := by
  unfold Machine.readOpnd
  cases x.place with
  | value w => exact hR.pure _
  | reg r => exact hR.bind (hR.getReg r) fun _ => hR.pure _
  | mem a => exact hR.bind (hR.memRead ..) fun _ => hR.pure _

theorem writeOpnd (x : Opnd) (r : Int) : Keeps R (Machine.writeOpnd x r) := by
  unfold Machine.writeOpnd
  cases x.place with
  | value w => exact raise _
  | reg n => exact hR.writeDestReg ..
  | mem a => exact hR.memWrite ..

theorem writeFlags (x : Opnd) (f : Flags) : Keeps R (Machine.writeFlags x f) :=
  ite (hR.pure _) (hR.setFlags f)

theorem movFlags (f : Flags) : Keeps R (Machine.movFlags f) := by
  refine ⟨fun s a t e => ?_⟩
  cases e
  dsimp only
  split
  · exact hR.flags
  · exact hR.refl s

theorem movDestFlags (x : Opnd) (f : Flags) : Keeps R (Machine.movDestFlags x f) :=
  ite (hR.pure _) (hR.movFlags f)

theorem gather1 (c : OpClass) (t : OpType) (o : Operand) : Keeps R (Machine.gather1 c t o) :=
  hR.bind (hR.requireLegal _) fun _ => hR.operand ..

theorem gather2 (c₁ c₂ : OpClass) (t : OpType) (o₁ o₂ : Operand) : Keeps R (Machine.gather2 c₁ c₂ t o₁ o₂) :=
  hR.bind (hR.requireLegal _) fun _ => hR.bind (hR.operand ..) fun _ => hR.bind (hR.operand ..) fun _ => hR.pure _

theorem gather3 (c₁ c₂ c₃ : OpClass) (t : OpType) (o₁ o₂ o₃ : Operand) :
    Keeps R (Machine.gather3 c₁ c₂ c₃ t o₁ o₂ o₃) :=
  hR.bind (hR.requireLegal _) fun _ => hR.bind (hR.operand ..) fun _ => hR.bind (hR.operand ..) fun _ =>
    hR.bind (hR.operand ..) fun _ => hR.pure _

theorem gather4 (c₁ c₂ c₃ c₄ : OpClass) (t : OpType) (o₁ o₂ o₃ o₄ : Operand) :
    Keeps R (Machine.gather4 c₁ c₂ c₃ c₄ t o₁ o₂ o₃ o₄) :=
  hR.bind (hR.requireLegal _) fun _ => hR.bind (hR.operand ..) fun _ => hR.bind (hR.operand ..) fun _ =>
    hR.bind (hR.operand ..) fun _ => hR.bind (hR.operand ..) fun _ => hR.pure _

theorem inputR (t : OpType) (src : Operand) : Keeps R (Machine.inputR t src) :=
  hR.bind (hR.gather1 ..) fun _ => hR.readOpnd _

theorem inputRR (t : OpType) (a b : Operand) : Keeps R (Machine.inputRR t a b) :=
  hR.bind (hR.gather2 ..) fun _ => hR.bind (hR.readOpnd _) fun _ => hR.bind (hR.readOpnd _) fun _ => hR.pure _

theorem inputM (t : OpType) (d : Operand) : Keeps R (Machine.inputM t d) :=
  hR.bind (hR.gather1 ..) fun _ => hR.bind (hR.readOpnd _) fun _ => hR.pure _

theorem inputRW (t : OpType) (a d : Operand) : Keeps R (Machine.inputRW t a d) :=
  hR.bind (hR.gather2 ..) fun _ => hR.bind (hR.readOpnd _) fun _ => hR.pure _

theorem inputRM (t : OpType) (a d : Operand) : Keeps R (Machine.inputRM t a d) :=
  hR.bind (hR.gather2 ..) fun _ => hR.bind (hR.readOpnd _) fun _ => hR.bind (hR.readOpnd _) fun _ => hR.pure _

theorem inputRRW (t : OpType) (a b d : Operand) : Keeps R (Machine.inputRRW t a b d) :=
  hR.bind (hR.gather3 ..) fun _ => hR.bind (hR.readOpnd _) fun _ => hR.bind (hR.readOpnd _) fun _ => hR.pure _

theorem inputRRRW (t : OpType) (w o a d : Operand) : Keeps R (Machine.inputRRRW t w o a d) :=
  hR.bind (hR.gather4 ..) fun _ => hR.bind (hR.readOpnd _) fun _ => hR.bind (hR.readOpnd _) fun _ =>
    hR.bind (hR.readOpnd _) fun _ => hR.pure _

theorem inputRRRM (t : OpType) (w o a d : Operand) : Keeps R (Machine.inputRRRM t w o a d) :=
  hR.bind (hR.gather4 ..) fun _ => hR.bind (hR.readOpnd _) fun _ => hR.bind (hR.readOpnd _) fun _ =>
    hR.bind (hR.readOpnd _) fun _ => hR.bind (hR.readOpnd _) fun _ => hR.pure _

theorem inputA (d : Operand) : Keeps R (Machine.inputA d) :=
  hR.bind (hR.gather1 ..) fun _ => hR.pure _

theorem finish (d : Opnd) (r : Int) (f : Flags) (len : Nat) : Keeps R (Machine.finish d r f len) :=
  hR.bind (hR.writeOpnd ..) fun _ => hR.bind (hR.writeFlags ..) fun _ => hR.advancePc _

/-! ## Families -/

theorem finishMov (d : Opnd) (r : Int) (f : Flags) (len : Nat) : Keeps R (Machine.finishMov d r f len) :=
  hR.bind (hR.writeOpnd ..) fun _ => hR.bind (hR.movDestFlags ..) fun _ => hR.advancePc _

theorem move (t : OpType) (src dst : Operand) : Keeps R (Machine.move t src dst) :=
  hR.bind (hR.inputRW ..) fun _ => hR.finishMov ..

theorem moveAddress (src dst : Operand) : Keeps R (Machine.moveAddress src dst) :=
  hR.bind (hR.gather2 ..) fun _ => hR.finishMov ..

theorem clear (t : OpType) (dst : Operand) : Keeps R (Machine.clear t dst) :=
  hR.bind (hR.gather1 ..) fun _ => hR.finishMov ..

theorem pushFlags (v : Word) (len : Nat) : Keeps R (Machine.pushFlags v len) :=
  hR.bind (hR.push _) fun _ => hR.bind (hR.movFlags _) fun _ => hR.advancePc _

theorem pushValue (src : Operand) : Keeps R (Machine.pushValue src) :=
  hR.bind (hR.inputR ..) fun _ => hR.pushFlags ..

theorem pushAddress (src : Operand) : Keeps R (Machine.pushAddress src) :=
  hR.bind (hR.inputA ..) fun _ => hR.pushFlags ..

theorem popValue (dst : Operand) : Keeps R (Machine.popValue dst) :=
  hR.bind (hR.gather1 ..) fun _ => hR.bind hR.pop fun _ => hR.finishMov ..

theorem swapInterlocked (t : OpType) (dst : Operand) : Keeps R (Machine.swapInterlocked t dst) :=
  hR.bind (hR.gather1 ..) fun _ => hR.bind (hR.readOpnd _) fun _ => hR.bind (hR.getReg _) fun _ =>
    hR.bind (hR.writeOpnd ..) fun _ => hR.bind (hR.setReg rfl _) fun _ => hR.bind (hR.movFlags _) fun _ =>
      hR.advancePc _

theorem aluStore (op : AluOp) (a b : Int) (d : Opnd) (len : Nat) : Keeps R (Machine.aluStore op a b d len) := by
  unfold Machine.aluStore
  split
  · exact raise _
  · exact hR.finish ..

theorem arith2 (op : AluOp) (t : OpType) (src dst : Operand) : Keeps R (Machine.arith2 op t src dst) :=
  hR.bind (hR.inputRM ..) fun _ => hR.aluStore ..

theorem arith3 (op : AluOp) (t : OpType) (a b d : Operand) : Keeps R (Machine.arith3 op t a b d) :=
  hR.bind (hR.inputRRW ..) fun _ => hR.aluStore ..

theorem arithOne (op : AluOp) (t : OpType) (dst : Operand) : Keeps R (Machine.arithOne op t dst) :=
  hR.bind (hR.inputM ..) fun _ => hR.aluStore ..

theorem arithNeg (t : OpType) (src dst : Operand) : Keeps R (Machine.arithNeg t src dst) :=
  hR.bind (hR.inputRW ..) fun _ => hR.aluStore ..

theorem logic2 (op : BitOp) (t : OpType) (src dst : Operand) : Keeps R (Machine.logic2 op t src dst) :=
  hR.bind (hR.inputRM ..) fun _ => hR.finish ..

theorem logic3 (op : BitOp) (t : OpType) (a b d : Operand) : Keeps R (Machine.logic3 op t a b d) :=
  hR.bind (hR.inputRRW ..) fun _ => hR.finish ..

theorem complement (t : OpType) (src dst : Operand) : Keeps R (Machine.complement t src dst) :=
  hR.bind (hR.inputRW ..) fun _ => hR.finish ..

theorem shift3 (op : ShiftOp) (t : OpType) (c a d : Operand) : Keeps R (Machine.shift3 op t c a d) :=
  hR.bind (hR.inputRRW ..) fun _ => hR.finish ..

theorem shiftLeftArith (c a d : Operand) : Keeps R (Machine.shiftLeftArith c a d) :=
  hR.bind (hR.inputRRW ..) fun _ => hR.finish ..

theorem checkField (n o : Nat) : Keeps R (Machine.checkField n o) :=
  hR.bind hR.getState fun _ => ite (stop _) (hR.pure _)

theorem insertBits (t : OpType) (w o a d : Operand) : Keeps R (Machine.insertBits t w o a d) :=
  hR.bind (hR.inputRRRM ..) fun _ => hR.bind (hR.checkField ..) fun _ => hR.finish ..

theorem extractBits (t : OpType) (w o a d : Operand) : Keeps R (Machine.extractBits t w o a d) :=
  hR.bind (hR.inputRRRW ..) fun _ => hR.bind (hR.checkField ..) fun _ => hR.finish ..

theorem compare (t : OpType) (a b : Operand) : Keeps R (Machine.compare t a b) :=
  hR.bind (hR.inputRR ..) fun _ => hR.bind (hR.setFlags _) fun _ => hR.advancePc _

theorem test (t : OpType) (a : Operand) : Keeps R (Machine.test t a) :=
  hR.bind (hR.inputR ..) fun _ => hR.bind (hR.setFlags _) fun _ => hR.advancePc _

theorem bitTest (t : OpType) (a b : Operand) : Keeps R (Machine.bitTest t a b) :=
  hR.bind (hR.inputRR ..) fun _ => hR.bind (hR.setFlags _) fun _ => hR.advancePc _

theorem branchAlways {w : Nat} (disp : BitVec w) : Keeps R (Machine.branchAlways disp) := hR.branchPc _

theorem branchIf {w : Nat} (c : Cond) (disp : BitVec w) (len : Nat) : Keeps R (Machine.branchIf c disp len) :=
  hR.bind hR.getState fun _ => ite (hR.branchPc _) (hR.advancePc _)

theorem popPc : Keeps R Machine.popPc :=
  hR.bind hR.pop fun _ => hR.setReg rfl _

theorem returnIf (c : Cond) : Keeps R (Machine.returnIf c) :=
  hR.bind hR.getState fun _ => ite hR.popPc (hR.advancePc _)

theorem jump (dst : Operand) : Keeps R (Machine.jump dst) :=
  hR.bind (hR.inputA _) fun _ => hR.setReg rfl _

theorem call (argp dst : Operand) : Keeps R (Machine.call argp dst) :=
  hR.bind (hR.gather2 ..) fun _ => hR.bind hR.getState fun _ => hR.bind (hR.memWrite ..) fun _ =>
    hR.bind (hR.memWrite ..) fun _ => hR.bind (hR.setReg rfl _) fun _ => hR.bind (hR.setReg rfl _) fun _ =>
      hR.setReg rfl _

theorem returnProcedure : Keeps R Machine.returnProcedure :=
  hR.bind hR.getState fun _ => hR.bind (hR.memRead ..) fun _ => hR.bind (hR.memRead ..) fun _ =>
    hR.bind (hR.setReg rfl _) fun _ => hR.bind (hR.setReg rfl _) fun _ => hR.setReg rfl _

omit hR in
theorem savedRegs_plain {n r : RegNum} (h : r ∈ savedRegs n) : privilegedReg r = false := by
  revert n r; decide

theorem storeRegs (a : Word) (l : List RegNum) : Keeps R (Machine.storeRegs a l) := by
  induction l generalizing a with
  | nil => exact hR.pure _
  | cons r rest ih => exact hR.bind (hR.getReg r) fun _ => hR.bind (hR.memWrite ..) fun _ => ih _

theorem loadRegs (a : Word) (l : List RegNum) (hl : ∀ r ∈ l, privilegedReg r = false) :
    Keeps R (Machine.loadRegs a l) := by
  induction l generalizing a with
  | nil => exact hR.pure _
  | cons r rest ih =>
    exact hR.bind (hR.memRead ..) fun _ => hR.bind (hR.setReg (hl r (by simp)) _) fun _ =>
      ih _ fun x hx => hl x (by simp [hx])

theorem namedReg (o : Operand) : Keeps R (Machine.namedReg o) := by
  refine hR.bind (hR.requireLegal _) fun _ => ?_
  split
  · exact hR.pure _
  · exact raise _

theorem saveFrame (first : Operand) : Keeps R (Machine.saveFrame first) :=
  hR.bind (hR.namedReg _) fun _ => hR.bind hR.getState fun _ => hR.bind (hR.memWrite ..) fun _ =>
    hR.bind (hR.storeRegs ..) fun _ => hR.bind (hR.setReg rfl _) fun _ => hR.bind (hR.setReg rfl _) fun _ =>
      hR.advancePc _

theorem restoreFrame (first : Operand) : Keeps R (Machine.restoreFrame first) :=
  hR.bind (hR.namedReg _) fun _ => hR.bind hR.getState fun _ => hR.bind (hR.memRead ..) fun _ =>
    hR.bind (hR.loadRegs _ _ fun _ => savedRegs_plain) fun _ => hR.bind (hR.setReg rfl _) fun _ =>
      hR.bind (hR.setReg rfl _) fun _ => hR.advancePc _

theorem jumpSubroutine (dst : Operand) : Keeps R (Machine.jumpSubroutine dst) :=
  hR.bind (hR.inputA _) fun _ => hR.bind hR.getState fun _ => hR.bind (hR.push _) fun _ => hR.setReg rfl _

theorem branchSubroutine {w : Nat} (disp : BitVec w) (len : Nat) : Keeps R (Machine.branchSubroutine disp len) :=
  hR.bind hR.getState fun _ => hR.bind (hR.push _) fun _ => hR.branchPc _

theorem moveWords (k : Nat) : Keeps R (Machine.moveWords k) := by
  induction k with
  | zero => exact hR.pure _
  | succ k ih =>
    exact hR.bind hR.getState fun _ => hR.bind (hR.memRead ..) fun _ => hR.bind (hR.memWrite ..) fun _ =>
      hR.bind (hR.setReg rfl _) fun _ => hR.bind (hR.setReg rfl _) fun _ => hR.bind (hR.setReg rfl _) fun _ => ih

theorem copyString (k : Nat) (a b : Word) : Keeps R (Machine.copyString k a b) := by
  induction k generalizing a b with
  | zero => exact raise _
  | succ k ih =>
    exact hR.bind (hR.memRead ..) fun _ => hR.bind (hR.memWrite ..) fun _ => ite (hR.pure _) (ih _ _)

theorem findNul (k : Nat) (a : Word) : Keeps R (Machine.findNul k a) := by
  induction k generalizing a with
  | zero => exact raise _
  | succ k ih => exact hR.bind (hR.memRead ..) fun _ => ite (hR.pure _) (ih _)

theorem moveBlock : Keeps R Machine.moveBlock :=
  hR.bind (hR.getReg _) fun _ => hR.bind (hR.moveWords _) fun _ => hR.advancePc _

theorem stringCopy : Keeps R Machine.stringCopy :=
  hR.bind hR.getState fun _ => hR.bind (hR.copyString ..) fun _ => hR.advancePc _

theorem stringEnd : Keeps R Machine.stringEnd :=
  hR.bind hR.getState fun _ => hR.bind (hR.findNul ..) fun _ => hR.bind (hR.setReg rfl _) fun _ => hR.advancePc _

theorem moveVersion : Keeps R Machine.moveVersion :=
  hR.bind hR.getState fun _ => hR.bind (hR.setReg rfl _) fun _ => hR.advancePc _

theorem requireKernel : Keeps R Machine.requireKernel := by
  refine ⟨fun s a t h => ?_⟩
  unfold Machine.requireKernel at h
  split at h
  · cases h; exact hR.refl s
  · cases h

theorem refusePrivileged : Keeps R Machine.refusePrivileged :=
  hR.bind hR.requireKernel fun _ => raise _

end Frame

/-! ## Whole instructions -/

/-- What running an instruction's work answers. -/
theorem runInstr_cases {b : Bool} {work : M Unit} {s t : State} (h : runInstr b work s = .next t) :
    (∃ k, t = takeTrap k s) ∨ ∃ u, work s = .ok ((), u) ∧ t = endOfInstr b s u := by
  unfold runInstr at h
  split at h
  · next u hu => cases h; exact .inr ⟨_, hu, rfl⟩
  · next k _ _ => cases h; exact .inl ⟨k, rfl⟩
  · cases h

/-- A framed work, run to its end. -/
theorem Keeps.runInstr {R : State → State → Prop} {b : Bool} {work : M Unit} {s t : State} (hw : Keeps R work)
    (h : runInstr b work s = .next t) :
    (∃ k, t = takeTrap k s) ∨ ∃ b u, R s u ∧ t = endOfInstr b s u := by
  rcases runInstr_cases h with h | ⟨u, hu, rfl⟩
  · exact .inl h
  · exact .inr ⟨b, u, hw.holds _ _ _ hu, rfl⟩

/-- The instructions whose effects are not elementary ones. -/
def ownEffect : Instr → Bool
  | .gate | .retg | .wait | .halt => true
  | _ => false

/-- Every other instruction takes a trap from its start state, or ends in a state its start is related to, perhaps with a
trap at its end. -/
theorem Frame.exec {R : State → State → Prop} (hR : Frame R) {i : Instr} {s t : State} (hi : ownEffect i = false)
    (h : exec i s = .next t) :
    (∃ k, t = takeTrap k s) ∨ ∃ b u, R s u ∧ t = endOfInstr b s u := by
  cases i
  case gate | retg | wait | halt => exact absurd hi (by decide)
  case cmpw | cmph | cmpb =>
    exact (hR.compare ..).runInstr h
  case tstw | tsth | tstb =>
    exact (hR.test ..).runInstr h
  case bitw | bith | bitb =>
    exact (hR.bitTest ..).runInstr h
  case nop | nop2 | nop3 | cflush =>
    exact (hR.advancePc _).runInstr h
  case bpt | extop | spop | spoprs | spoprd | spoprt | spops2 | spopd2 | spopt2 | spopws | spopwd | spopwt =>
    exact (Frame.raise (R := R) _).runInstr (b := false) h
  case mverno =>
    exact hR.moveVersion.runInstr h
  case intack | callps | retps | enbvjmp | disvjmp | movtrw =>
    exact hR.refusePrivileged.runInstr h
  case addw2 | addh2 | addb2 | subw2 | subh2 | subb2 | mulw2 | mulh2 | mulb2 | divw2 | divh2 | divb2 | modw2
      | modh2 | modb2 =>
    exact (hR.arith2 ..).runInstr h
  case addw3 | addh3 | addb3 | subw3 | subh3 | subb3 | mulw3 | mulh3 | mulb3 | divw3 | divh3 | divb3 | modw3
      | modh3 | modb3 =>
    exact (hR.arith3 ..).runInstr h
  case incw | inch | incb | decw | dech | decb =>
    exact (hR.arithOne ..).runInstr h
  case mnegw | mnegh | mnegb =>
    exact (hR.arithNeg ..).runInstr h
  case andw2 | andh2 | andb2 | orw2 | orh2 | orb2 | xorw2 | xorh2 | xorb2 =>
    exact (hR.logic2 ..).runInstr h
  case andw3 | andh3 | andb3 | orw3 | orh3 | orb3 | xorw3 | xorh3 | xorb3 =>
    exact (hR.logic3 ..).runInstr h
  case mcomw | mcomh | mcomb =>
    exact (hR.complement ..).runInstr h
  case alsw3 =>
    exact (hR.shiftLeftArith ..).runInstr h
  case arsw3 | arsh3 | arsb3 | llsw3 | llsh3 | llsb3 | lrsw3 | rotw =>
    exact (hR.shift3 ..).runInstr h
  case insfw | insfh | insfb =>
    exact (hR.insertBits ..).runInstr h
  case extfw | extfh | extfb =>
    exact (hR.extractBits ..).runInstr h
  case movw | movh | movb =>
    exact (hR.move ..).runInstr h
  case movaw =>
    exact (hR.moveAddress ..).runInstr h
  case clrw | clrh | clrb =>
    exact (hR.clear ..).runInstr h
  case pushw =>
    exact (hR.pushValue _).runInstr h
  case pushaw =>
    exact (hR.pushAddress _).runInstr h
  case popw =>
    exact (hR.popValue _).runInstr h
  case swapwi | swaphi | swapbi =>
    exact (hR.swapInterlocked ..).runInstr h
  case brb | brh =>
    exact (hR.branchAlways _).runInstr h
  case bgeb | bgeh | bgb | bgh | blb | blh | bleb | bleh | bgeub | bgeuh | bgub | bguh | blub | bluh | bleub
      | bleuh | bvcb | bvch | bneub | bneuh | bvsb | bvsh | beub | beuh | bneb | bneh | beb | beh =>
    exact (hR.branchIf ..).runInstr h
  case rgeq | rgtr | rlss | rleq | rgequ | rgtru | rlssu | rlequ | rvc | rnequ | rvs | reqlu | rneq | reql =>
    exact (hR.returnIf _).runInstr h
  case jmp =>
    exact (hR.jump _).runInstr h
  case movblw =>
    exact hR.moveBlock.runInstr h
  case strcpy =>
    exact hR.stringCopy.runInstr h
  case strend =>
    exact hR.stringEnd.runInstr h
  case call =>
    exact (hR.call ..).runInstr h
  case ret =>
    exact hR.returnProcedure.runInstr h
  case save =>
    exact (hR.saveFrame _).runInstr h
  case restore =>
    exact (hR.restoreFrame _).runInstr h
  case jsb =>
    exact (hR.jumpSubroutine _).runInstr h
  case rsb =>
    exact hR.popPc.runInstr h
  case bsbb | bsbh =>
    exact (hR.branchSubroutine ..).runInstr h

end Sys2Proof.Machine
end

