-- ==== Sys2Proof/Laws/Results.lean ====
section
/-! SUPPORT. What each family's shared work does once its operands are gathered, and how an instruction with a destination
operand ends. -/

namespace Sys2Proof.Machine

/-! ## Ends -/

theorem noOverflow_and {p : Word} (h : NoOverflow p) : (Psw.v p && Psw.oe p) = false := by
  unfold NoOverflow at h
  cases hv : Psw.v p <;> cases ho : Psw.oe p <;> simp_all

/-- An instruction whose work comes to `finish`, with no trap due at its end. -/
theorem run_finish {b : Bool} {work : M Unit} {s s₁ : State} {d : Opnd} {r : Int} {f : Flags} {len : Nat} {psw : Word}
    (hw : work s = finish d r f len s₁) (hs : SameCore s s₁) (h1 : d.Writable s₁) (wf : s.mem.wf) (ht : NotTraced s)
    (hp : psw = pswAfter d r f s.psw) (ho : b = false ∨ NoOverflow psw) :
    ∃ t, runInstr b work s = .next t ∧ Completed d r psw (s.pc + BitVec.ofNat 32 len) s s₁ t := by
  obtain ⟨t, e, c⟩ := finish_spec r f len hs h1 wf
  subst hp
  refine ⟨t, runInstr_plain (hw.trans e) ht (ho.imp id fun h => ?_), c⟩
  rw [c.psw]; exact noOverflow_and h

/-- An instruction whose work comes to `finish`, that began with TM = 1 and raises no IntegerOverflow. -/
theorem run_finish_traced {b : Bool} {work : M Unit} {s s₁ : State} {d : Opnd} {r : Int} {f : Flags} {len : Nat}
    {psw : Word} (hw : work s = finish d r f len s₁) (hs : SameCore s s₁) (h1 : d.Writable s₁) (wf : s.mem.wf)
    (ht : Psw.tm s.psw = true) (hp : psw = pswAfter d r f s.psw) (ho : b = false ∨ NoOverflow psw) :
    ∃ t, runInstr b work s = .next (takeTrap .trace t) ∧ Completed d r psw (s.pc + BitVec.ofNat 32 len) s s₁ t := by
  obtain ⟨t, e, c⟩ := finish_spec r f len hs h1 wf
  subst hp
  refine ⟨t, runInstr_traced (hw.trans e) ht (ho.imp id fun h => ?_), c⟩
  rw [c.psw]; exact noOverflow_and h

/-- An arithmetic instruction that ends with V and OE set. -/
theorem run_finish_overflow {work : M Unit} {s s₁ : State} {d : Opnd} {r : Int} {f : Flags} {len : Nat} {psw : Word}
    (hw : work s = finish d r f len s₁) (hs : SameCore s s₁) (h1 : d.Writable s₁) (wf : s.mem.wf)
    (hp : psw = pswAfter d r f s.psw) (hv : Psw.v psw = true) (ho : Psw.oe psw = true) :
    ∃ t, runInstr true work s = .next (takeTrap .integerOverflow t) ∧
      Completed d r psw (s.pc + BitVec.ofNat 32 len) s s₁ t := by
  obtain ⟨t, e, c⟩ := finish_spec r f len hs h1 wf
  subst hp
  refine ⟨t, ?_, c⟩
  rw [runInstr_ok (hw.trans e), endOfInstr, c.psw, hv, ho]
  rfl

theorem setFlags_off (d : Opnd) (r : Int) (s : State) (h : d.place ≠ .reg regPSW) (f : Flags)
    (hf : s.params.movSetsFlags ≠ true) : movPswAfter d r f s = s.psw := by
  simp [movPswAfter, h, hf]

/-- A completed operand store of an instruction of 41_data_movement.md, where the flags may be off. -/
theorem finishMov_spec {d : Opnd} {s s₁ : State} (r : Int) (f : Flags) (len : Nat) (hs : SameCore s s₁)
    (hw : d.Writable s₁) (wf : s.mem.wf) :
    ∃ t, finishMov d r f len s₁ = .ok ((), t) ∧
      Completed d r (movPswAfter d r f s) (s.pc + BitVec.ofNat 32 len) s s₁ t := by
  obtain ⟨s₂, e, h⟩ := writeOpnd_spec r hw
  have c := completed_of_stored (f := f) (len := len) hs hw wf h
  have hpar : s₂.params = s.params := by have := c.params; split at this <;> simpa using this
  unfold finishMov
  rw [bind_ok e]
  unfold movDestFlags
  by_cases hb : isPswDest d = true
  · have hp : d.place = .reg regPSW := by simpa [isPswDest] using hb
    rw [if_pos hb, bind_ok (pure_apply ..), advancePc_apply]
    rw [if_pos hb] at c
    exact ⟨_, rfl, by simpa [movPswAfter, hp] using c⟩
  · have hp : d.place ≠ .reg regPSW := by simpa [isPswDest] using hb
    rw [if_neg hb]
    rw [if_neg hb] at c
    unfold movFlags
    rw [bind_ok (update_apply ..), advancePc_apply, hpar]
    by_cases hm : s.params.movSetsFlags = true
    · refine ⟨_, rfl, ?_⟩
      simpa [movPswAfter, hm] using c
    · refine ⟨_, rfl, ?_⟩
      rw [if_neg hm, setFlags_off d r s hp f hm]
      exact {
        psw := by
          have h2 : s₂.psw = s.psw := by
            obtain ⟨pl, ty⟩ := d
            cases pl with
            | value w => exact hw.elim
            | reg n =>
              rw [h.register n rfl, setReg_psw_ne, hs.psw]
              exact fun e => hp (by rw [e])
            | mem a =>
              obtain ⟨g, -, eff⟩ := h.memory a rfl
              rw [eff.cpu.psw, hs.psw]
          simpa using h2
        pc := by simpa using c.pc
        register := fun n hn hne => by
          have := c.register n hn hne
          simpa [setPc_reg, setFlags_reg, hne] using this
        otherRegisters := fun n h1 h2 h3 => by
          have := c.otherRegisters n h1 h2 h3
          simpa [setPc_reg, setFlags_reg, h2] using this
        stored := fun a ha hr => c.stored a ha hr
        otherBytes := fun b hb => c.otherBytes b hb
        device := fun hr => c.device hr
        deviceStore := fun a ha hr => c.deviceStore a ha hr
        params := by simpa using c.params
        status := by simpa using c.status
        waiting := by simpa using c.waiting
        trace := by simpa using c.trace }

/-- An instruction of 41_data_movement.md whose work comes to `finishMov`. -/
theorem run_finishMov {work : M Unit} {s s₁ : State} {d : Opnd} {r : Int} {f : Flags} {len : Nat}
    (hw : work s = finishMov d r f len s₁) (hs : SameCore s s₁) (h1 : d.Writable s₁) (wf : s.mem.wf)
    (ht : NotTraced s) :
    ∃ t, runInstr false work s = .next t ∧
      Completed d r (movPswAfter d r f s) (s.pc + BitVec.ofNat 32 len) s s₁ t := by
  obtain ⟨t, e, c⟩ := finishMov_spec r f len hs h1 wf
  exact ⟨t, runInstr_plain (hw.trans e) ht (.inl rfl), c⟩

/-! ## Destinations that cannot be written (10_state.md R103, 20_memory.md R212) -/

/-- Whether a destination can be written depends on the mode and the parameters only. -/
theorem Opnd.Refused.of_mode {d : Opnd} {s t : State} {k : FaultKind} (h : d.Refused s k) (hp : t.params = s.params)
    (hk : t.kernel = s.kernel) : d.Refused t k := by
  obtain ⟨pl, ty⟩ := d
  cases pl with
  | value w => exact h
  | reg n => exact ⟨h.1, hk.trans h.2.1, h.2.2⟩
  | mem a =>
    obtain ⟨i, hi⟩ := h
    exact ⟨i, by rw [hp]; exact hi⟩

theorem writeOpnd_refused {d : Opnd} {s : State} {k : FaultKind} (h : d.Refused s k) (r : Int) :
    ∃ i, writeOpnd d r s = .error (.trap k i) := by
  obtain ⟨pl, ty⟩ := d
  cases pl with
  | value w => exact h.elim
  | reg n =>
    obtain ⟨hn, hk, rfl⟩ := h
    exact ⟨none, by simp [writeOpnd, writeDestReg, hn, hk]⟩
  | mem a =>
    obtain ⟨i, hi⟩ := h
    exact ⟨some i, memWrite_error hi⟩

/-- An instruction whose work comes to `finish` at a destination that cannot be written. -/
theorem run_finish_refused {b : Bool} {work : M Unit} {s s₁ : State} {d : Opnd} {k : FaultKind} {r : Int} {f : Flags}
    {len : Nat} (hd : d.Refused s₁ k) (hw : work s = finish d r f len s₁) :
    runInstr b work s = .next (takeTrap k s) := by
  obtain ⟨i, e⟩ := writeOpnd_refused hd r
  exact runInstr_trap (hw.trans (by unfold finish; exact bind_error e))

/-- An instruction whose work comes to `finishMov` at a destination that cannot be written. -/
theorem run_finishMov_refused {b : Bool} {work : M Unit} {s s₁ : State} {d : Opnd} {k : FaultKind} {r : Int} {f : Flags}
    {len : Nat} (hd : d.Refused s₁ k) (hw : work s = finishMov d r f len s₁) :
    runInstr b work s = .next (takeTrap k s) := by
  obtain ⟨i, e⟩ := writeOpnd_refused hd r
  exact runInstr_trap (hw.trans (by unfold finishMov; exact bind_error e))

/-! ## Works after gathering -/

theorem arith2_eq {op : AluOp} {ty : OpType} {src dst : Operand} {s s₁ : State} {a b r : Int} {d : Opnd}
    (h : inputRM ty src dst s = .ok ((a, b, d), s₁)) (hr : aluResult op a b = some r) :
    arith2 op ty src dst s = finish d r (aluFlags op d.type a b r) (1 + src.len + dst.len) s₁ := by
  unfold arith2; rw [bind_ok h]; simp only [aluStore, hr]

theorem arith3_eq {op : AluOp} {ty : OpType} {src1 src2 dst : Operand} {s s₁ : State} {a b r : Int} {d : Opnd}
    (h : inputRRW ty src1 src2 dst s = .ok ((a, b, d), s₁)) (hr : aluResult op a b = some r) :
    arith3 op ty src1 src2 dst s = finish d r (aluFlags op d.type a b r) (1 + src1.len + src2.len + dst.len) s₁ := by
  unfold arith3; rw [bind_ok h]; simp only [aluStore, hr]

theorem arithOne_eq {op : AluOp} {ty : OpType} {dst : Operand} {s s₁ : State} {b r : Int} {d : Opnd}
    (h : inputM ty dst s = .ok ((b, d), s₁)) (hr : aluResult op 1 b = some r) :
    arithOne op ty dst s = finish d r (aluFlags op d.type 1 b r) (1 + dst.len) s₁ := by
  unfold arithOne; rw [bind_ok h]; simp only [aluStore, hr]

theorem arithNeg_eq {ty : OpType} {src dst : Operand} {s s₁ : State} {a : Int} {d : Opnd}
    (h : inputRW ty src dst s = .ok ((a, d), s₁)) :
    arithNeg ty src dst s = finish d (0 - a) (aluFlags .sub d.type a 0 (0 - a)) (1 + src.len + dst.len) s₁ := by
  unfold arithNeg; rw [bind_ok h]; simp only [aluStore, aluResult]

theorem logic2_eq {op : BitOp} {ty : OpType} {src dst : Operand} {s s₁ : State} {a b : Int} {d : Opnd}
    (h : inputRM ty src dst s = .ok ((a, b, d), s₁)) :
    logic2 op ty src dst s =
      finishPattern d (bitResult op (patternOf a) (patternOf b)) (1 + src.len + dst.len) s₁ := by
  unfold logic2; rw [bind_ok h]

theorem logic3_eq {op : BitOp} {ty : OpType} {src1 src2 dst : Operand} {s s₁ : State} {a b : Int} {d : Opnd}
    (h : inputRRW ty src1 src2 dst s = .ok ((a, b, d), s₁)) :
    logic3 op ty src1 src2 dst s =
      finishPattern d (bitResult op (patternOf a) (patternOf b)) (1 + src1.len + src2.len + dst.len) s₁ := by
  unfold logic3; rw [bind_ok h]

theorem complement_eq {ty : OpType} {src dst : Operand} {s s₁ : State} {a : Int} {d : Opnd}
    (h : inputRW ty src dst s = .ok ((a, d), s₁)) :
    complement ty src dst s = finishPattern d (~~~patternOf a) (1 + src.len + dst.len) s₁ := by
  unfold complement; rw [bind_ok h]

theorem shift3_eq {op : ShiftOp} {ty : OpType} {count src dst : Operand} {s s₁ : State} {n a : Int} {d : Opnd}
    (h : inputRRW ty count src dst s = .ok ((n, a, d), s₁)) :
    shift3 op ty count src dst s =
      finishPattern d (shiftResult op ty a (shiftCount n)) (1 + count.len + src.len + dst.len) s₁ := by
  unfold shift3; rw [bind_ok h]

theorem shiftLeftArith_eq {count src dst : Operand} {s s₁ : State} {n a : Int} {d : Opnd}
    (h : inputRRW wordT count src dst s = .ok ((n, a, d), s₁)) :
    shiftLeftArith count src dst s =
      finish d (a * 2 ^ shiftCount n) (flagsOf d.type (a * 2 ^ shiftCount n) false
        (flagTrunc d.type (a * 2 ^ shiftCount n))) (1 + count.len + src.len + dst.len) s₁ := by
  unfold shiftLeftArith; rw [bind_ok h]

theorem checkField_ok {n o : Nat} {s : State} (h : s.params.fieldWrap = .fault → o + n ≤ 32) :
    checkField n o s = .ok ((), s) := by
  unfold checkField
  rw [bind_ok (getState_apply s)]
  by_cases hf : s.params.fieldWrap = .fault
  · rw [if_neg (by have := h hf; omega)]; rfl
  · rw [if_neg (by simp [hf])]; rfl

theorem checkField_stop {n o : Nat} {s : State} (h : s.params.fieldWrap = .fault ∧ 32 < o + n) :
    checkField n o s = .error (.fault .fieldPastBit31) := by
  unfold checkField
  rw [bind_ok (getState_apply s), if_pos h]; rfl

theorem insertBits_eq {ty : OpType} {width offset src dst : Operand} {s s₁ : State} {m n a b : Int} {d : Opnd}
    (h : inputRRRM ty width offset src dst s = .ok ((m, n, a, b, d), s₁))
    (hf : s₁.params.fieldWrap = .fault → shiftCount n + fieldLength m ≤ 32) :
    insertBits ty width offset src dst s =
      finishPattern d (narrow ty (insertField (fieldLength m) (shiftCount n) (patternOf a) (patternOf b)).toInt)
        (1 + width.len + offset.len + src.len + dst.len) s₁ := by
  unfold insertBits; rw [bind_ok h]; dsimp only; rw [bind_ok (checkField_ok hf)]

theorem extractBits_eq {ty : OpType} {width offset src dst : Operand} {s s₁ : State} {m n a : Int} {d : Opnd}
    (h : inputRRRW ty width offset src dst s = .ok ((m, n, a, d), s₁))
    (hf : s₁.params.fieldWrap = .fault → shiftCount n + fieldLength m ≤ 32) :
    extractBits ty width offset src dst s =
      finishPattern d (narrow ty (extractField (fieldLength m) (shiftCount n) (patternOf a)).toInt)
        (1 + width.len + offset.len + src.len + dst.len) s₁ := by
  unfold extractBits; rw [bind_ok h]; dsimp only; rw [bind_ok (checkField_ok hf)]

/-! ## The stack -/

theorem wordUp_zero (a : Word) : wordUp a 0 = a := by simp [wordUp]

theorem wordUp_one (a : Word) : wordUp a 1 = a + 4 := rfl

theorem wordUp_succ (a : Word) (k : Nat) : wordUp a (k + 1) = wordUp (a + 4) k := by
  simp only [wordUp, BitVec.add_assoc, Nat.mul_add, Nat.mul_one, BitVec.ofNat_add]
  rw [BitVec.add_comm (BitVec.ofNat 32 (4 * k))]
  rfl

theorem wordUp_add (a : Word) (j k : Nat) : wordUp (wordUp a j) k = wordUp a (j + k) := by
  simp only [wordUp, BitVec.add_assoc, Nat.mul_add, BitVec.ofNat_add]

theorem Room.head {s : State} {a : Word} {n : Nat} (h : Room s a (n + 1)) :
    dataRoute s.params a .word .write = .ok .ram := by
  have := h 0 (by omega)
  rwa [wordUp_zero] at this

theorem Room.tail {s : State} {a : Word} {n : Nat} (h : Room s a (n + 1)) : Room s (a + 4) n := fun k hk => by
  rw [← wordUp_succ]; exact h (k + 1) (by omega)

theorem Room.of_params {s t : State} {a : Word} {n : Nat} (h : Room s a n) (hp : t.params = s.params) : Room t a n :=
  fun k hk => by rw [hp]; exact h k hk

theorem Readable.of_params {s t : State} {a : Word} (h : Readable s a) (hp : t.params = s.params) : Readable t a := by
  unfold Readable; rw [hp]; exact h

/-- A readable word is read. -/
theorem Readable.read {s : State} {a : Word} (h : Readable s a) : memRead a .word s = .ok (wordAt s a, s) := by
  obtain ⟨g, h1, h2⟩ := h
  exact memRead_word h1 h2

theorem dataRoute_read_of_write {p : Params} {a : Word} {z : Size} (h : dataRoute p a z .write = .ok .ram) :
    dataRoute p a z .read = .ok .ram := by
  obtain ⟨h1, h2, -⟩ := dataRoute_region h
  unfold dataRoute at h ⊢
  split at h
  · next ha =>
    rw [if_pos ha]
    unfold busRoute
    rw [h1]
    simp [h2]
  · cases h

theorem readable_of_write {s : State} {a : Word} (h : dataRoute s.params a .word .write = .ok .ram) : Readable s a :=
  ⟨.ram, dataRoute_read_of_write h, by simp⟩

theorem Room.readable {s : State} {a : Word} {n k : Nat} (h : Room s a n) (hk : k < n) : Readable s (wordUp a k) :=
  readable_of_write (h k hk)

/-! ## Bytes and words -/

theorem word_of_bytes (v : Word) :
    valueByte 4 v 0 ++ valueByte 4 v 1 ++ valueByte 4 v 2 ++ valueByte 4 v 3 = v := by
  simp only [valueByte]
  ext i hi
  simp only [BitVec.getElem_append, BitVec.getElem_extractLsb']
  repeat' split
  all_goals simp only [← BitVec.getLsbD_eq_getElem]; congr 1; omega

/-- Four bytes that hold a word read as it. -/
theorem HoldsBytes.word {s : State} {a v : Word} (h : HoldsBytes s a 4 v) : wordAt s a = v := by
  rw [← word_of_bytes v]
  have h0 := h 0 (by omega)
  simp only [BitVec.add_zero] at h0
  exact congrArg₂ (· ++ ·) (congrArg₂ (· ++ ·) (congrArg₂ (· ++ ·) h0 (h 1 (by omega))) (h 2 (by omega)))
    (h 3 (by omega))

/-- A word read depends on its four bytes only. -/
theorem wordAt_congr {s t : State} {a : Word} (h : ∀ b, covers a 4 b → t.mem.read b = s.mem.read b) :
    wordAt t a = wordAt s a := by
  have h0 := h a.toNat ⟨0, by omega, by simp⟩
  exact congrArg₂ (· ++ ·) (congrArg₂ (· ++ ·) (congrArg₂ (· ++ ·) h0 (h _ ⟨1, by omega, rfl⟩))
    (h _ ⟨2, by omega, rfl⟩)) (h _ ⟨3, by omega, rfl⟩)

theorem covers_word {a : Word} {k n b : Nat} (hk : k < n) (h : covers (wordUp a k) 4 b) : covers a (4 * n) b := by
  obtain ⟨j, hj, rfl⟩ := h
  refine ⟨4 * k + j, by omega, ?_⟩
  simp only [wordUp, BitVec.add_assoc, BitVec.ofNat_add]

/-- Two words of a region of at most 2^32 bytes do not overlap. -/
theorem words_apart {a : Word} {j k b : Nat} (hj : 4 * j + 4 ≤ 2 ^ 32) (hk : 4 * k + 4 ≤ 2 ^ 32) (h : j ≠ k)
    (h1 : covers (wordUp a j) 4 b) : ¬ covers (wordUp a k) 4 b := by
  rintro ⟨y, hy, e⟩
  obtain ⟨x, hx, e'⟩ := h1
  have e := BitVec.eq_of_toNat_eq (e'.symm.trans e)
  simp only [wordUp, BitVec.add_assoc] at e
  have e := (BitVec.add_right_inj a).1 e
  have := congrArg BitVec.toNat e
  simp only [← BitVec.ofNat_add, BitVec.toNat_ofNat] at this
  omega

/-- A word stored in RAM. -/
theorem memWrite_ram {s : State} {a : Word} (v : Word) (h : dataRoute s.params a .word .write = .ok .ram)
    (wf : s.mem.wf) :
    ∃ m, memWrite a .word v s = .ok ((), { s with mem := m }) ∧ Memory.wf m ∧ HoldsBytes { s with mem := m } a 4 v ∧
      ∀ b, ¬ covers a 4 b → Memory.read m b = s.mem.read b := by
  obtain ⟨t, e, eff⟩ := memWrite_spec v h
  have hp := eff.plain (by simp)
  have ht : t = { s with mem := t.mem } := by
    obtain ⟨c1, c2, c3, c4, c5⟩ := eff.cpu
    obtain ⟨d1, d2⟩ := hp
    cases t; cases s
    simp_all
  exact ⟨t.mem, by rw [e, ← ht], eff.wf wf, by rw [← ht]; exact eff.bytes rfl wf, eff.others⟩

end Sys2Proof.Machine
end

