-- ==== Sys2Proof/Laws/Flags.lean ====
section
/-! SUPPORT. The bits of PSW fields, of rotations and of the field instructions' masks. -/

namespace Sys2Proof.Machine

/-- The low bits of a word read as a signed number. -/
theorem trunc_toInt {w : Nat} (x : Word) (h : w ≤ 32) : BitVec.ofInt w x.toInt = x.setWidth w :=
  BitVec.signExtend_eq_setWidth_of_le x h

/-- No type is wider than a word. -/
theorem typeBits_le (t : OpType) : typeBits t ≤ 32 := by
  obtain ⟨z, g⟩ := t; cases z <;> simp [typeBits, sizeBits, sizeBytes]

/-- The low bits of a pattern, zeros above them. -/
theorem narrow_toInt (t : OpType) (x : Word) : narrow t x.toInt = (x.setWidth (typeBits t)).setWidth 32 := by
  show (BitVec.ofInt (typeBits t) x.toInt).setWidth 32 = _
  rw [trunc_toInt x (typeBits_le t)]

/-- Nothing is dropped at word width. -/
theorem narrow_wordT (r : Int) : narrow wordT r = patternOf r := by
  show (BitVec.ofInt 32 r).setWidth 32 = BitVec.ofInt 32 r
  simp

/-- The rotation of 00_scope.md R10 is the library's. -/
theorem rot_eq (x : Word) (k : Nat) (h : k < 32) : rotateRight x k = x.rotateRight k := by
  rw [BitVec.rotateRight_def, Nat.mod_eq_of_lt h]; rfl

/-- Bit j of a left rotation. -/
theorem rotl_bit (x : Word) (k j : Nat) (hk : k < 32) :
    (rotateLeft x k).getLsbD j = (decide (j < 32) && x.getLsbD ((j + 32 - k) % 32)) := by
  simp only [rotateLeft, BitVec.getLsbD_or, BitVec.getLsbD_shiftLeft, BitVec.getLsbD_ushiftRight]
  by_cases hj : j < 32
  · by_cases hjk : j < k
    · have : (j + 32 - k) % 32 = 32 - k + j := by omega
      simp [hj, hjk, this]
    · have : (j + 32 - k) % 32 = j - k := by omega
      have h2 : x.getLsbD (32 - k + j) = false := BitVec.getLsbD_of_ge _ _ (by omega)
      simp [hj, hjk, this, h2]
  · have h2 : x.getLsbD (32 - k + j) = false := BitVec.getLsbD_of_ge _ _ (by omega)
    simp [hj, h2]

/-- Bit j of a right rotation. -/
theorem rotr_bit (x : Word) (k j : Nat) (hk : k < 32) :
    (rotateRight x k).getLsbD j = (decide (j < 32) && x.getLsbD ((j + k) % 32)) := by
  simp only [rotateRight, BitVec.getLsbD_or, BitVec.getLsbD_shiftLeft, BitVec.getLsbD_ushiftRight]
  by_cases hj : j < 32
  · by_cases hjk : j + k < 32
    · have : (j + k) % 32 = k + j := by omega
      have h3 : (j < 32 - k) := by omega
      simp [hj, this, h3]
    · have : (j + k) % 32 = j - (32 - k) := by omega
      have h2 : x.getLsbD (k + j) = false := BitVec.getLsbD_of_ge _ _ (by omega)
      have h3 : ¬ (j < 32 - k) := by omega
      simp [hj, this, h2, h3]
  · have h2 : x.getLsbD (k + j) = false := BitVec.getLsbD_of_ge _ _ (by omega)
    simp [hj, h2]

/-- Bit j of a field mask. -/
theorem mask_bit (n j : Nat) : (fieldMask n).getLsbD j = (decide (j < 32 ∧ j < n)) := by
  simp [fieldMask, BitVec.getLsbD_ofNat, Nat.testBit_two_pow_sub_one]

/-- A count is at most 31. -/
theorem count_lt (n : Int) : shiftCount n < 32 := Nat.mod_lt _ (by decide)

/-- Words with the same bits are the same. -/
theorem bits_eq {p q : Word} (h : ∀ j, p.getLsbD j = q.getLsbD j) : p = q := by
  apply BitVec.eq_of_getLsbD_eq; intro i _; exact h i

/-- Bit j of a narrowed pattern. -/
theorem narrow_bit (t : OpType) (x : Word) (j : Nat) :
    (narrow t x.toInt).getLsbD j = (decide (j < typeBits t) && x.getLsbD j) := by
  rw [narrow_toInt]
  have := typeBits_le t
  simp only [BitVec.getLsbD_setWidth]
  by_cases h : j < typeBits t
  · have : j < 32 := by omega
    simp [h, this]
  · simp [h]

/-- Bit k of a word with a field replaced. -/
theorem setField_bit (lo len : Nat) (v : BitVec len) (w : Word) (k : Nat) (h : lo + len ≤ 32) :
    (setField lo len v w).getLsbD k = if lo ≤ k ∧ k < lo + len then v.getLsbD (k - lo) else w.getLsbD k := by
  by_cases hk : k < 32
  · simp only [setField, BitVec.getLsbD_or, BitVec.getLsbD_and, BitVec.getLsbD_not, BitVec.getLsbD_shiftLeft, BitVec.getLsbD_setWidth, BitVec.getLsbD_allOnes]
    by_cases h1 : k < lo
    · simp [h1, hk, show ¬ lo ≤ k by omega]
    · by_cases h2 : k < lo + len
      · have h3 : k - lo < len := by omega
        have h4 : k - lo < 32 := by omega
        simp [h1, h2, h3, h4, hk, show lo ≤ k by omega]
      · have h3 : ¬ k - lo < len := by omega
        have h5 : v.getLsbD (k - lo) = false := BitVec.getLsbD_of_ge _ _ (by omega)
        simp [h1, h2, h3, hk, h5]
  · rw [BitVec.getLsbD_of_ge _ _ (by omega), if_neg (by omega), BitVec.getLsbD_of_ge _ _ (by omega)]

end Sys2Proof.Machine
end

