-- ==== Sys2Proof/Laws/Exceptions.lean ====
section
/-! SUPPORT. Words stored on the stack, the gate transfer, and what taking a trap or an interrupt leaves. -/

namespace Sys2Proof.Machine

/-! ## Words stored from an address up -/

/-- Memory m is that of s with these words at a. -/
structure MemHolds (s : State) (a : Word) (ws : List Word) (m : Memory) : Prop where
  wf : Memory.wf m
  words : ∀ k (h : k < ws.length), HoldsBytes { s with mem := m } (wordUp a k) 4 ws[k]
  others : ∀ b, ¬ covers a (4 * ws.length) b → Memory.read m b = s.mem.read b

theorem HoldsBytes.congr {s t : State} {a v : Word} {n : Nat} (h : HoldsBytes s a n v)
    (e : ∀ b, covers a n b → t.mem.read b = s.mem.read b) : HoldsBytes t a n v :=
  fun k hk => (e _ ⟨k, hk, rfl⟩).trans (h k hk)

/-- One word. -/
theorem store_one {s : State} {a : Word} (v : Word) (h : Room s a 1) (wf : s.mem.wf) :
    ∃ m, memWrite a .word v s = .ok ((), { s with mem := m }) ∧ MemHolds s a [v] m := by
  obtain ⟨m, e, w, hold, oth⟩ := memWrite_ram v h.head wf
  refine ⟨m, e, w, fun k hk => ?_, oth⟩
  obtain rfl : k = 0 := by simpa using hk
  rw [wordUp_zero]; exact hold

theorem not_covers_of_apart {a : Word} {n j k b : Nat} (hn : 4 * n ≤ 2 ^ 32) (hj : j < n) (hk : k < n) (h : j ≠ k)
    (h1 : covers (wordUp a j) 4 b) : ¬ covers (wordUp a k) 4 b :=
  words_apart (by omega) (by omega) h h1

/-- Two words, the lower one first. -/
theorem store_two {s : State} {a : Word} (v w : Word) (h : Room s a 2) (wf : s.mem.wf) :
    ∃ m₁ m, memWrite a .word v s = .ok ((), { s with mem := m₁ }) ∧
      memWrite (a + 4) .word w { s with mem := m₁ } = .ok ((), { s with mem := m }) ∧ MemHolds s a [v, w] m := by
  obtain ⟨m₁, e₁, w₁, hold₁, oth₁⟩ := memWrite_ram v h.head wf
  obtain ⟨m, e, w', hold, oth⟩ := memWrite_ram (s := { s with mem := m₁ }) w h.tail.head w₁
  refine ⟨m₁, m, e₁, e, w', fun k hk => ?_, fun b hb => ?_⟩
  · rcases k with _ | _ | k
    · rw [wordUp_zero]
      refine hold₁.congr fun b hb => oth b ?_
      rw [← wordUp_zero a] at hb
      rw [← wordUp_one]
      exact not_covers_of_apart (n := 2) (by omega) (by omega) (by omega) (by omega) hb
    · exact hold
    · simp at hk
  · rw [oth b fun hc => hb ?_, oth₁ b fun hc => hb ?_]
    · rw [← wordUp_zero a] at hc; exact covers_word (n := 2) (by omega) hc
    · rw [← wordUp_one] at hc; exact covers_word (n := 2) (by omega) hc

/-- Two words, the upper one first. -/
theorem store_two_down {s : State} {a : Word} (v w : Word) (h : Room s a 2) (wf : s.mem.wf) :
    ∃ m₁ m, memWrite (a + 4) .word w s = .ok ((), { s with mem := m₁ }) ∧
      memWrite a .word v { s with mem := m₁ } = .ok ((), { s with mem := m }) ∧ MemHolds s a [v, w] m := by
  obtain ⟨m₁, e₁, w₁, hold₁, oth₁⟩ := memWrite_ram w h.tail.head wf
  obtain ⟨m, e, w', hold, oth⟩ := memWrite_ram (s := { s with mem := m₁ }) v h.head w₁
  refine ⟨m₁, m, e₁, e, w', fun k hk => ?_, fun b hb => ?_⟩
  · rcases k with _ | _ | k
    · rw [wordUp_zero]; exact hold
    · refine hold₁.congr fun b hb => oth b ?_
      rw [← wordUp_one] at hb
      rw [← wordUp_zero a]
      exact not_covers_of_apart (n := 2) (by omega) (by omega) (by omega) (by omega) hb
    · simp at hk
  · rw [oth b fun hc => hb ?_, oth₁ b fun hc => hb ?_]
    · rw [← wordUp_one] at hc; exact covers_word (n := 2) (by omega) hc
    · rw [← wordUp_zero a] at hc; exact covers_word (n := 2) (by omega) hc

/-- A word outside the stored ones reads as before. -/
theorem MemHolds.word_apart {s : State} {a c : Word} {ws : List Word} {m : Memory} (h : MemHolds s a ws m)
    (hc : ∀ b, covers a (4 * ws.length) b → ¬ covers c 4 b) : wordAt { s with mem := m } c = wordAt s c :=
  wordAt_congr fun b hb => h.others b fun hb' => hc b hb' hb

/-- A stored word reads as it was stored. -/
theorem MemHolds.word {s : State} {a : Word} {ws : List Word} {m : Memory} (h : MemHolds s a ws m) {k : Nat}
    (hk : k < ws.length) : wordAt { s with mem := m } (wordUp a k) = ws[k] :=
  (h.words k hk).word

/-- The frame of an instruction that stores words and changes registers. -/
theorem MemHolds.stored {s s₁ t : State} {a : Word} {ws : List Word} {changed : List RegNum} {m : Memory}
    (h : MemHolds s₁ a ws m) (hs : SameCore s s₁) (ht : t = { s₁ with mem := m, regs := t.regs })
    (hr : ∀ n, n ∉ changed → t.reg n = s.reg n) : StoredWords changed a ws s s₁ t := by
  have hm : t.mem = m := by rw [ht]
  exact {
    registers := hr
    words := fun k hk j hj => by rw [hm]; exact h.words k hk j hj
    otherBytes := fun b hb => by rw [hm, h.others b hb, hs.mem]
    device := by rw [ht]; exact ⟨rfl, rfl⟩
    params := by rw [ht]; exact hs.params
    status := by rw [ht]; exact hs.status
    waiting := by rw [ht]; exact hs.waiting
    trace := by rw [ht]; exact hs.trace }

/-! ## The gate transfer -/

/-- What a gate transfer that can be made answers. -/
theorem gateTransfer_spec {s : State} {l1 off : Word} (savedPC savedPSW : Word) (ipl : Option (BitVec 4))
    (h : GateReady s l1 off) (wf : s.mem.wf) :
    ∃ m, MemHolds s s.sp [savedPC, savedPSW] m ∧
      gateTransfer savedPC savedPSW l1 off ipl s =
        .ok ((), (({ s with mem := m }.setSp (s.sp + 8)).setPsw
          (gatePsw s.psw (wordAt s (gateEntry s l1 off)) ipl)).setPc (wordAt s (gateEntry s l1 off + 4))) := by
  obtain ⟨m₁, m, e₁, e, hm⟩ := store_two savedPC savedPSW h.room wf
  refine ⟨m, hm, ?_⟩
  have a1 : ∀ b, covers s.sp (4 * 2) b → ¬ covers (s.params.gateL1Base + l1) 4 b := fun b hb => (h.apart b hb).1
  have sub : ∀ b n, n = 0 ∨ n = 1 → covers (wordUp (gateEntry s l1 off) n) 4 b → covers (gateEntry s l1 off) 8 b :=
    fun b n hn hb => covers_word (n := 2) (by omega) hb
  have a2 : ∀ b, covers s.sp (4 * 2) b → ¬ covers (gateEntry s l1 off) 4 b := fun b hb hc =>
    (h.apart b hb).2 (sub b 0 (by omega) (by rw [wordUp_zero]; exact hc))
  have a3 : ∀ b, covers s.sp (4 * 2) b → ¬ covers (gateEntry s l1 off + 4) 4 b := fun b hb hc =>
    (h.apart b hb).2 (sub b 1 (by omega) (by rw [wordUp_one]; exact hc))
  have r1 := (h.base.of_params (t := { s with mem := m }) rfl).read
  have r2 := (h.psw.of_params (t := { s with mem := m }) rfl).read
  have r3 := (h.pc.of_params (t := { s with mem := m }) rfl).read
  rw [hm.word_apart a1] at r1
  rw [hm.word_apart a2] at r2
  rw [hm.word_apart a3] at r3
  unfold gateTransfer
  rw [bind_ok (getState_apply s), bind_ok e₁, bind_ok e, bind_ok r1]
  change ((memRead (gateEntry s l1 off) .word >>= _) _) = _
  rw [bind_ok r2]
  change ((memRead (gateEntry s l1 off + 4) .word >>= _) _) = _
  rw [bind_ok r3, update_apply]

theorem psw_field {lo len : Nat} (v : BitVec len) (w : Word) (h : lo + len ≤ 32) :
    (setField lo len v w).extractLsb' lo len = v := by
  apply BitVec.eq_of_getLsbD_eq
  intro i hi
  rw [BitVec.getLsbD_extractLsb', setField_bit _ _ _ _ _ h, if_pos (by omega), Nat.add_sub_cancel_left]
  simp [hi]

theorem psw_field_ne {lo len lo' len' : Nat} (v : BitVec len) (w : Word) (h : lo + len ≤ 32)
    (hd : lo' + len' ≤ lo ∨ lo + len ≤ lo') :
    (setField lo len v w).extractLsb' lo' len' = w.extractLsb' lo' len' := by
  apply BitVec.eq_of_getLsbD_eq
  intro i hi
  rw [BitVec.getLsbD_extractLsb', BitVec.getLsbD_extractLsb', setField_bit _ _ _ _ _ h, if_neg (by omega)]

theorem pswMask_bit (k : Nat) : Config.pswMask.getLsbD k = decide (k < 26) := by
  by_cases h : k < 32
  · have : ∀ k : Fin 32, Config.pswMask.getLsbD k.val = decide (k.val < 26) := by decide
    exact this ⟨k, h⟩
  · rw [BitVec.getLsbD_of_ge _ _ (by omega)]
    simp; omega

theorem gatePsw_pm (old entry : Word) (ipl : Option (BitVec 4)) : Psw.pm (gatePsw old entry ipl) = Psw.cm old := by
  unfold gatePsw Psw.pm Psw.setIpl Psw.setTm Psw.setPm
  rw [psw_field_ne _ _ (by decide) (by decide), psw_field_ne _ _ (by decide) (by decide), psw_field _ _ (by decide)]

theorem gatePsw_ipl (old entry : Word) (ipl : Option (BitVec 4)) :
    Psw.ipl (gatePsw old entry ipl) = ipl.getD (Psw.ipl old) := by
  unfold gatePsw Psw.setIpl
  exact psw_field _ _ (by decide)

theorem gatePsw_bit (old entry : Word) (ipl : Option (BitVec 4)) (k : Nat) (h : k ∉ [2, 9, 10, 13, 14, 15, 16]) :
    (gatePsw old entry ipl).getLsbD k = (decide (k < 26) && entry.getLsbD k) := by
  simp only [List.mem_cons, List.not_mem_nil, or_false, not_or] at h
  unfold gatePsw Psw.setIpl Psw.setTm Psw.setPm
  rw [setField_bit _ _ _ _ _ (by decide), if_neg (by omega), setField_bit _ _ _ _ _ (by decide), if_neg (by omega),
    setField_bit _ _ _ _ _ (by decide), if_neg (by omega), BitVec.getLsbD_and, pswMask_bit, Bool.and_comm]

theorem gatePsw_tm (old entry : Word) (ipl : Option (BitVec 4)) : Psw.tm (gatePsw old entry ipl) = false := by
  unfold gatePsw Psw.tm Psw.setIpl Psw.setTm
  rw [setField_bit _ _ _ _ _ (by decide), if_neg (by omega), setField_bit _ _ _ _ _ (by decide), if_pos (by omega)]
  rfl

/-- The state a gate transfer leaves, in the terms of R820. -/
theorem GateTaken.intro {s u t : State} {savedPC savedPSW l1 off : Word} {ipl : Option (BitVec 4)} {m : Memory}
    (hm : MemHolds s s.sp [savedPC, savedPSW] m) (hu : SameCore u s)
    (hd : u.duart = s.duart ∧ u.pending = s.pending)
    (ht : t = (({ s with mem := m }.setSp (s.sp + 8)).setPsw
      (gatePsw s.psw (wordAt s (gateEntry s l1 off)) ipl)).setPc (wordAt s (gateEntry s l1 off + 4))) :
    GateTaken savedPC savedPSW l1 off (ipl.getD (Psw.ipl s.psw)) u t := by
  have hpsw : t.psw = gatePsw s.psw (wordAt s (gateEntry s l1 off)) ipl := by rw [ht]; simp
  have hw : ∀ a, wordAt u a = wordAt s a := fun a => (wordAt_congr fun b _ => by rw [hu.mem]).symm
  have he : gateEntry u l1 off = gateEntry s l1 off := by unfold gateEntry; rw [hw, hu.params]
  exact {
    frame := by
      rw [← hu.sp]
      have := hm.stored (t := t) (changed := [regPC, regSP, regPSW]) hu (by rw [ht]; rfl) (fun n hn => by
        simp only [List.mem_cons, List.not_mem_nil, or_false, not_or] at hn
        rw [ht, setPc_reg, if_neg hn.1, setPsw_reg, if_neg hn.2.2, setSp_reg, if_neg hn.2.1, setMem_reg, hu.reg])
      exact { this with device := by rw [this.device.1, this.device.2]; exact ⟨hd.1.symm, hd.2.symm⟩ }
    sp := by rw [ht, ← hu.sp]; simp
    pc := by rw [ht, he, hw]; simp
    previous := by rw [hpsw, gatePsw_pm, hu.psw]
    untraced := by rw [hpsw, gatePsw_tm]
    level := by rw [hpsw, gatePsw_ipl]
    fields := fun k hk => by rw [hpsw, gatePsw_bit _ _ _ _ hk, he, hw] }

/-- The saved PSW of a trap or an interrupt. -/
theorem savedPsw_intro (et : BitVec 2) (isc : BitVec 4) (psw : Word) :
    SavedPsw et isc psw (Psw.setIsc isc (Psw.setEt et psw)) where
  et := by
    unfold Psw.et Psw.setIsc Psw.setEt
    rw [psw_field_ne _ _ (by decide) (by decide), psw_field _ _ (by decide)]
  isc := psw_field _ _ (by decide)
  others := fun k hk => by
    unfold Psw.setIsc Psw.setEt
    rw [setField_bit _ _ _ _ _ (by decide), if_neg (by omega), setField_bit _ _ _ _ _ (by decide), if_neg (by omega)]

/-- A trap that can be delivered. -/
theorem takeTrap_spec {s : State} (k : FaultKind) (h : GateReady s 0 (gateOffset (iscOf k).toNat)) (wf : s.mem.wf) :
    ∃ m, MemHolds s s.sp [s.pc, trapPsw k s.psw] m ∧
      takeTrap k s = { (({ s with mem := m }.setSp (s.sp + 8)).setPsw
        (gatePsw s.psw (wordAt s (gateEntry s 0 (gateOffset (iscOf k).toNat))) none)).setPc
        (wordAt s (gateEntry s 0 (gateOffset (iscOf k).toNat) + 4)) with waiting := false } := by
  obtain ⟨m, hm, e⟩ := gateTransfer_spec s.pc (trapPsw k s.psw) none h wf
  refine ⟨m, hm, ?_⟩
  unfold takeTrap
  rw [e]

/-- A trap that cannot be delivered (R814). -/
theorem takeTrap_failed {s : State} {k : FaultKind} {e : Exn}
    (h : gateTransfer s.pc (trapPsw k s.psw) 0 (gateOffset (iscOf k).toNat) none s = .error e) :
    takeTrap k s = { s with status := .faulted k } := by
  unfold takeTrap
  rw [h]

/-! ## Push and pop -/

/-- A push in room for it. -/
theorem push_spec {s s₁ : State} (v : Word) (hs : SameCore s s₁) (hr : Room s s.sp 1) (wf : s.mem.wf) :
    ∃ m, MemHolds s₁ s.sp [v] m ∧ push v s₁ = .ok ((), { s₁ with mem := m }.setSp (s.sp + 4)) := by
  obtain ⟨m, e, hm⟩ := store_one v (hr.of_params hs.params) (by rw [hs.mem]; exact wf)
  refine ⟨m, hm, ?_⟩
  unfold push
  rw [bind_ok (getReg_apply ..)]
  change ((memWrite s₁.sp .word v >>= fun _ => setReg regSP (s₁.sp + 4)) _) = _
  rw [hs.sp, bind_ok e, setReg_apply]; rfl

/-- A pop of a readable word. -/
theorem pop_spec {s : State} (h : Readable s (s.sp - 4)) :
    pop s = .ok (wordAt s (s.sp - 4), s.setSp (s.sp - 4)) := by
  unfold pop
  rw [bind_ok (getReg_apply ..)]
  change ((memRead (s.sp - 4) .word >>= _) _) = _
  rw [bind_ok h.read, bind_ok (setReg_apply ..)]; rfl

/-- A frame or a first-level word that cannot be reached makes a gate transfer fault. -/
theorem gate_fails {s : State} (h : (∃ k e, k < 2 ∧ dataRoute s.params (wordUp s.sp k) .word .write = .error e) ∨
      (∃ e, dataRoute s.params s.params.gateL1Base .word .read = .error e)) (a b off : Word)
    (ipl : Option (BitVec 4)) :
    ∃ e, gateTransfer a b 0 off ipl s = .error e := by
  unfold gateTransfer
  rw [bind_ok (getState_apply s)]
  cases h0 : dataRoute s.params s.sp .word .write with
  | error e => exact ⟨e, bind_error (memWrite_error h0)⟩
  | ok g =>
    obtain ⟨t, e, eff⟩ := memWrite_spec a h0
    rw [bind_ok e]
    have hp := eff.cpu.params
    cases h1 : dataRoute s.params (s.sp + 4) .word .write with
    | error e => exact ⟨e, bind_error (memWrite_error (by rw [hp]; exact h1))⟩
    | ok g =>
      obtain ⟨t', e', eff'⟩ := memWrite_spec (s := t) b (by rw [hp]; exact h1)
      rw [bind_ok e']
      rcases h with ⟨k, e, hk, he⟩ | ⟨e, he⟩
      · rcases k with _ | _ | k
        · rw [wordUp_zero, h0] at he; cases he
        · rw [wordUp_one, h1] at he; cases he
        · omega
      · refine ⟨e, bind_error (memRead_error ?_)⟩
        rw [eff'.cpu.params, hp, show s.params.gateL1Base + 0 = s.params.gateL1Base from BitVec.add_zero _]; exact he

/-- An entry word that cannot be reached makes a gate transfer fault, where the frame can be stored and the first-level
word read, apart from the frame. -/
theorem gate_fails_entry {s : State} {off : Word} (hr : Room s s.sp 2) (hb : Readable s s.params.gateL1Base)
    (hap : ∀ b, covers s.sp 8 b → ¬ covers s.params.gateL1Base 4 b)
    (he : ∃ e, dataRoute s.params (gateEntry s 0 off) .word .read = .error e ∨
      dataRoute s.params (gateEntry s 0 off + 4) .word .read = .error e) (a b : Word) (ipl : Option (BitVec 4)) :
    ∃ e, gateTransfer a b 0 off ipl s = .error e := by
  have h0 : dataRoute s.params s.sp .word .write = .ok .ram := hr.head
  have h1 : dataRoute s.params (s.sp + 4) .word .write = .ok .ram := hr 1 (by omega)
  unfold gateTransfer
  rw [bind_ok (getState_apply s)]
  obtain ⟨t, e, eff⟩ := memWrite_spec a h0
  obtain ⟨u, e', eff'⟩ := memWrite_spec (s := t) b (by rw [eff.cpu.params]; exact h1)
  rw [bind_ok e, bind_ok e']
  have hp : u.params = s.params := eff'.cpu.params.trans eff.cpu.params
  have hw : wordAt u s.params.gateL1Base = wordAt s s.params.gateL1Base := wordAt_congr fun x hx => by
    have n (k : Nat) (hk : k < 2) : ¬ covers (wordUp s.sp k) 4 x := fun h => hap x (covers_word hk h) hx
    exact (eff'.others x (n 1 (by omega))).trans (eff.others x (by have := n 0 (by omega); rwa [wordUp_zero] at this))
  have z0 : s.params.gateL1Base + 0 = s.params.gateL1Base := BitVec.add_zero _
  have eb : memRead (s.params.gateL1Base + 0) .word u = .ok (wordAt s s.params.gateL1Base, u) := by
    rw [z0, ← hw]; exact (hb.of_params hp).read
  have hg : wordAt s s.params.gateL1Base + off = gateEntry s 0 off := by
    rw [gateEntry, z0]
  rw [bind_ok eb]
  rw [hg]
  cases h2 : dataRoute s.params (gateEntry s 0 off) .word .read with
  | error e => exact ⟨e, bind_error (memRead_error (by rw [hp]; exact h2))⟩
  | ok g =>
    obtain ⟨v, w, e2, c⟩ := memRead_spec (s := u) (by rw [hp]; exact h2)
    obtain ⟨e, h3⟩ := he
    rw [h2] at h3
    rcases h3 with h3 | h3
    · cases h3
    · exact ⟨e, by rw [bind_ok e2]; exact bind_error (memRead_error (by rw [c.params, hp]; exact h3))⟩

/-- A gate transfer at the first word that the bus refuses: of the frame, the first-level word, or the entry. -/
theorem gate_traps {s : State} {l1 off : Word} {k : FaultKind}
    (h : AccessTraps s s.sp .word .write k ∨
      (Reached s s.sp .word .write ∧ AccessTraps s (s.sp + 4) .word .write k) ∨
      (Reached s s.sp .word .write ∧ Reached s (s.sp + 4) .word .write ∧
        AccessTraps s (s.params.gateL1Base + l1) .word .read k) ∨
      (Room s s.sp 2 ∧ Readable s (s.params.gateL1Base + l1) ∧
        (∀ b, covers s.sp 8 b → ¬ covers (s.params.gateL1Base + l1) 4 b) ∧
        (AccessTraps s (gateEntry s l1 off) .word .read k ∨
          (Reached s (gateEntry s l1 off) .word .read ∧ AccessTraps s (gateEntry s l1 off + 4) .word .read k))))
    (a b : Word) (ipl : Option (BitVec 4)) : ∃ i, gateTransfer a b l1 off ipl s = .error (.trap k i) := by
  unfold gateTransfer
  rw [bind_ok (getState_apply s)]
  rcases h with h | ⟨h0, h⟩ | ⟨h0, h1, h⟩ | ⟨hr, hb, hap, h⟩
  · obtain ⟨i, e⟩ := h.write a
    exact ⟨i, bind_error e⟩
  · obtain ⟨t, e, c⟩ := h0.write a
    obtain ⟨i, e'⟩ := (h.of_params c.params).write b
    exact ⟨i, by rw [bind_ok e]; exact bind_error e'⟩
  · obtain ⟨t, e, c⟩ := h0.write a
    obtain ⟨u, e', c'⟩ := (h1.of_params c.params).write b
    obtain ⟨i, e''⟩ := (h.of_params (c'.params.trans c.params)).read
    exact ⟨i, by rw [bind_ok e, bind_ok e']; exact bind_error e''⟩
  · obtain ⟨t, e, eff⟩ := memWrite_spec a hr.head
    obtain ⟨u, e', eff'⟩ := memWrite_spec (s := t) b (by rw [eff.cpu.params]; exact hr 1 (by omega))
    have hp : u.params = s.params := eff'.cpu.params.trans eff.cpu.params
    have hw : wordAt u (s.params.gateL1Base + l1) = wordAt s (s.params.gateL1Base + l1) := wordAt_congr fun x hx => by
      have n (k : Nat) (hk : k < 2) : ¬ covers (wordUp s.sp k) 4 x := fun h => hap x (covers_word hk h) hx
      exact (eff'.others x (n 1 (by omega))).trans (eff.others x (by have := n 0 (by omega); rwa [wordUp_zero] at this))
    have eb : memRead (s.params.gateL1Base + l1) .word u = .ok (wordAt s (s.params.gateL1Base + l1), u) := by
      rw [← hw]; exact (hb.of_params hp).read
    rw [wordUp_one] at e'
    rw [bind_ok e, bind_ok e', bind_ok eb]
    rcases h with h | ⟨h2, h⟩
    · obtain ⟨i, e''⟩ := (h.of_params hp).read
      exact ⟨i, bind_error e''⟩
    · obtain ⟨v, w, e2, c⟩ := (h2.of_params hp).read
      obtain ⟨i, e''⟩ := (h.of_params (c.params.trans hp)).read
      exact ⟨i, by unfold gateEntry at e2 e''; rw [bind_ok e2]; exact bind_error e''⟩

/-- RETG with a readable frame. -/
theorem retg_eq {s : State} (h4 : Readable s (s.sp - 4)) (h8 : Readable s (s.sp - 8)) :
    returnFromGate s = if Psw.cm (wordAt s (s.sp - 4) &&& Config.pswMask) < Psw.cm s.psw then .error (.trap .illegalLevelChange none)
      else .ok ((), ((s.setSp (s.sp - 8)).setPsw (if s.kernel then wordAt s (s.sp - 4) &&& Config.pswMask else Psw.setIpl (Psw.ipl s.psw) (wordAt s (s.sp - 4) &&& Config.pswMask))).setPc (wordAt s (s.sp - 8))) := by
  unfold returnFromGate
  rw [bind_ok (getState_apply s), bind_ok h4.read, bind_ok h8.read]
  split <;> rfl

end Sys2Proof.Machine
end

