-- ==== Sys2Proof/Laws/Calls.lean ====
section
/-! SUPPORT. What the shared work of SAVE, RESTORE, CALL and RET does (45_call_stack.md R661 to R664). -/

namespace Sys2Proof.Machine

/-! ## SAVE and RESTORE -/

/-- A word stored, then the words above it. -/
theorem MemHolds.cons {s : State} {a v : Word} {ws : List Word} {m₁ m : Memory} (hn : 4 * (ws.length + 1) ≤ 2 ^ 32)
    (h : MemHolds s a [v] m₁) (k : MemHolds { s with mem := m₁ } (a + 4) ws m) : MemHolds s a (v :: ws) m := by
  have e : ∀ j b, covers (wordUp (a + 4) j) 4 b → covers (wordUp a (j + 1)) 4 b :=
      fun j b hb => by rw [wordUp_succ]; exact hb
  have hout : ∀ b, covers a 4 b → ¬ covers (a + 4) (4 * ws.length) b := by
    rintro b ⟨i, hi, rfl⟩ ⟨j, hj, e⟩
    have e := BitVec.eq_of_toNat_eq e
    have e4 : (4 : Word) = BitVec.ofNat 32 4 := rfl
    rw [e4, BitVec.add_assoc, ← BitVec.ofNat_add] at e
    have e := (BitVec.add_right_inj a).1 e
    have := congrArg BitVec.toNat e
    simp only [BitVec.toNat_ofNat] at this
    omega
  refine ⟨k.wf, fun i hi => ?_, fun b hb => ?_⟩
  · cases i with
    | zero =>
      have h0 := h.words 0 (by simp)
      rw [wordUp_zero] at *
      exact h0.congr fun b hb => k.others b (hout b hb)
    | succ i =>
      have := k.words i (by simpa using hi)
      rw [wordUp_succ]; exact this
  · rw [k.others b fun hc => hb ?_, h.others b fun hc => hb ?_]
    · obtain ⟨j, hj, rfl⟩ := hc
      exact ⟨j, by simp at hj ⊢; omega, rfl⟩
    · obtain ⟨j, hj, rfl⟩ := hc
      refine ⟨4 + j, by simp; omega, ?_⟩
      rw [BitVec.ofNat_add, ← BitVec.add_assoc]; rfl

theorem MemHolds.nil {s : State} (a : Word) (wf : s.mem.wf) : MemHolds s a [] s.mem :=
  ⟨wf, fun _ h => by simp at h, fun _ _ => rfl⟩

/-- Registers stored at ascending words (SAVE). -/
theorem storeRegs_spec (l : List RegNum) {s : State} {a : Word} (hn : 4 * l.length ≤ 2 ^ 32) (h :
    Room s a l.length) (wf : s.mem.wf) :
    ∃ m, MemHolds s a (l.map s.reg) m ∧ storeRegs a l s = .ok ((), { s with mem := m }) := by
  induction l generalizing s a with
  | nil => exact ⟨s.mem, .nil a wf, rfl⟩
  | cons r rest ih =>
    obtain ⟨m₁, e, h1⟩ := store_one (s.reg r) (s := s) (a := a) (fun k hk => h k (by simp; omega)) wf
    obtain ⟨m, h2, e2⟩ := ih (s := { s with mem := m₁ }) (a := a + 4) (by simp at hn; omega) h.tail h1.wf
    refine ⟨m, ?_, ?_⟩
    · have := MemHolds.cons (by simpa using hn) h1 h2
      exact this
    · unfold storeRegs
      rw [bind_ok (getReg_apply ..), bind_ok e]; exact e2

/-- Registers loaded from ascending words (RESTORE). -/
theorem loadRegs_spec (l : List RegNum) {s : State} {a : Word} (hd : l.Nodup)
    (h : ∀ k, k < l.length → Readable s (wordUp a k)) :
    ∃ t, loadRegs a l s = .ok ((), t) ∧ t = { s with regs := t.regs } ∧ (∀ r, r ∉ l → t.reg r = s.reg r) ∧
      ∀ k (hk : k < l.length), t.reg l[k] = wordAt s (wordUp a k) := by
  induction l generalizing s a with
  | nil => exact ⟨s, rfl, rfl, fun _ _ => rfl, fun k hk => by simp at hk⟩
  | cons r rest ih =>
    have h0 := h 0 (by simp)
    rw [wordUp_zero] at h0
    obtain ⟨t, e, ht, ho, hv⟩ := ih (s := s.setReg r (wordAt s a)) (a := a + 4) (List.nodup_cons.1 hd).2
        (fun k hk => by
      have := h (k + 1) (by simpa using hk)
      rw [wordUp_succ] at this; exact this.of_params rfl)
    refine ⟨t, ?_, ?_, ?_, ?_⟩
    · unfold loadRegs
      rw [bind_ok h0.read, bind_ok (setReg_apply ..)]; exact e
    · rw [ht]; rfl
    · intro x hx
      simp only [List.mem_cons, not_or] at hx
      rw [ho x hx.2, reg_setReg_ne _ _ hx.1]
    · intro k hk
      cases k with
      | zero =>
        rw [wordUp_zero, List.getElem_cons_zero, ho r (List.nodup_cons.1 hd).1, reg_setReg_self]
      | succ k =>
        rw [List.getElem_cons_succ, hv k (by simpa using hk), wordUp_succ]; rfl

theorem savedRegs_length (n : RegNum) : (savedRegs n).length = 9 - n.val := by revert n; decide
theorem savedRegs_nodup (n : RegNum) : (savedRegs n).Nodup := by revert n; decide
theorem savedRegs_get (n r : RegNum) (h : n ≤ r) (h' : r ≤ 8) : ∃ hk : r.val - n.val < (savedRegs n).length,
    (savedRegs n)[r.val - n.val] = r := by
  revert n r; decide
theorem savedRegs_mem (n r : RegNum) : r ∈ savedRegs n ↔ n ≤ r ∧ r ≤ 8 := by revert n r; decide

/-- SAVE and RESTORE name r3 to r14. -/
theorem namedReg_ok {n : RegNum} (h3 : 3 ≤ n) (h15 : n ≠ 15) (s : State) : namedReg ⟨none, .reg n⟩ s = .ok (n,
    s) := by
  revert h3 h15; revert n
  have : ∀ n : RegNum, 3 ≤ n → n ≠ 15 → operandOk .regName ⟨none, .reg n⟩ = true := by decide
  intro n h3 h15
  unfold namedReg
  have e : requireLegal [(.regName, ⟨none, .reg n⟩)] s = .ok ((), s) := by
    simp [requireLegal, this n h3 h15]
  rw [bind_ok e]; rfl

/-- What SAVE does where its frame has room. -/
theorem save_spec {s : State} {n : RegNum} (h3 : 3 ≤ n) (h15 : n ≠ 15) (hr : Room s s.sp (1 + (9 - n.val))) (wf :
    s.mem.wf) :
    ∃ m, MemHolds s s.sp (s.reg regFP :: (savedRegs n).map s.reg) m ∧
      saveFrame ⟨none, .reg n⟩ s = .ok ((), ((({ s with mem := m }.setSp (s.sp + 28)).setReg regFP
          (s.sp + 28)).setPc (s.pc + 2))) := by
  have hl := savedRegs_length n
  obtain ⟨m₁, e, h1⟩ := store_one (s.reg regFP) (s := s) (a := s.sp) (fun k hk => hr k (by omega)) wf
  obtain ⟨m, h2, e2⟩ := storeRegs_spec (savedRegs n) (s := { s with mem := m₁ }) (a := s.sp + 4)
      (by rw [hl]; omega) (by
    rw [hl]; rw [Nat.add_comm] at hr; exact hr.tail) h1.wf
  refine ⟨m, MemHolds.cons (by simp; rw [hl]; omega) h1 h2, ?_⟩
  unfold saveFrame
  rw [bind_ok (namedReg_ok h3 h15 s), bind_ok (getState_apply s), bind_ok e, bind_ok e2, bind_ok (setReg_apply ..),
      bind_ok (setReg_apply ..), advancePc_apply,
    setReg_pc_ne _ _ (by decide), setReg_pc_ne _ _ (by decide)]
  rfl

/-- What RESTORE does where its frame can be read. -/
theorem restore_spec {s : State} {n : RegNum} (h3 : 3 ≤ n) (h15 : n ≠ 15) (h28 : Readable s (s.reg regFP - 28))
    (h : ∀ k, k < 9 - n.val → Readable s (wordUp (s.reg regFP - 24) k)) :
    ∃ t, restoreFrame ⟨none, .reg n⟩ s = .ok ((), t) ∧ 
      (∀ r : RegNum, n ≤ r → r ≤ 8 → t.reg r = wordAt s (wordUp (s.reg regFP - 24) (r.val - n.val))) ∧
      (∀ r : RegNum, (r < n ∨ 8 < r) → r ∉ [regFP, regSP, regPC] → t.reg r = s.reg r) ∧
      t.reg regFP = wordAt s (s.reg regFP - 28) ∧ t.sp = s.reg regFP - 28 ∧ t.pc = s.pc + 2 ∧
      t = { s with regs := t.regs } := by
  obtain ⟨u, e, hu, ho, hv⟩ := loadRegs_spec (savedRegs n) (s := s) (a := s.reg regFP - 24) (savedRegs_nodup n)
      (by rw [savedRegs_length]; exact h)
  have hpc : u.pc = s.pc := ho regPC (by rw [savedRegs_mem]; rintro ⟨-, h⟩; revert h; decide)
  refine ⟨((u.setReg regFP (wordAt s (s.reg regFP - 28))).setReg regSP (s.reg regFP - 28)).setPc (s.pc + 2), ?_,
      ?_, ?_, ?_, ?_, ?_, ?_⟩
  · unfold restoreFrame
    rw [bind_ok (namedReg_ok h3 h15 s), bind_ok (getState_apply s), bind_ok h28.read, bind_ok e, bind_ok
        (setReg_apply ..), bind_ok (setReg_apply ..), advancePc_apply,
      setReg_pc_ne _ _ (by decide), setReg_pc_ne _ _ (by decide), hpc]
    rfl
  · intro r h1 h2
    obtain ⟨hk, hg⟩ := savedRegs_get n r h1 h2
    have n1 : r ≠ regPC := by rintro rfl; revert h2; decide
    have n2 : r ≠ regSP := by rintro rfl; revert h2; decide
    have n3 : r ≠ regFP := by rintro rfl; revert h2; decide
    rw [setPc_reg, if_neg n1, reg_setReg_ne _ _ n2, reg_setReg_ne _ _ n3, ← hv _ hk, hg]
  · intro r h1 h2
    simp only [List.mem_cons, List.not_mem_nil, or_false, not_or] at h2
    rw [setPc_reg, if_neg h2.2.2, reg_setReg_ne _ _ h2.2.1, reg_setReg_ne _ _ h2.1, ho]
    rw [savedRegs_mem]; rintro ⟨a, b⟩; rcases h1 with h1 | h1
    · exact absurd a (not_le.2 h1)
    · exact absurd b (not_le.2 h1)
  · rw [setPc_reg, if_neg (by decide), reg_setReg_ne _ _ (by decide), reg_setReg_self]
  · rw [setPc_sp]; exact reg_setReg_self ..
  · simp
  · rw [hu]; rfl

/-! ## CALL and RET -/

/-- What CALL does where its two words have room. -/
theorem call_spec {s s₁ : State} {argp dst : Operand} {x y : Opnd}
    (h : gather2 .addr .addr wordT argp dst s = .ok ((x, y), s₁)) (hr : Room s s.sp 2) (wf : s.mem.wf) :
    ∃ m, MemHolds s₁ s.sp [s.pc + BitVec.ofNat 32 (1 + argp.len + dst.len), s.reg regAP] m ∧
      call argp dst s = .ok ((), ((({ s₁ with mem := m }.setSp (s.sp + 8)).setReg regAP (addressOf x)).setPc
          (addressOf y))) := by
  have hs := (Reads.gather2 _ _ _ _ _).sameCore _ _ _ h
  obtain ⟨m₁, m, e₁, e, hm⟩ := store_two_down (s := s₁) (a := s.sp) (s.pc + BitVec.ofNat 32
      (1 + argp.len + dst.len)) (s.reg regAP) (hr.of_params hs.params) (by rw [hs.mem]; exact wf)
  refine ⟨m, hm, ?_⟩
  unfold call
  rw [bind_ok h]
  dsimp only
  rw [bind_ok (getState_apply _), hs.sp, hs.reg, hs.pc, bind_ok e₁, bind_ok e, bind_ok (setReg_apply ..), bind_ok
      (setReg_apply ..), setReg_apply]
  rfl

/-- What RET does where its two words can be read. -/
theorem ret_spec {s : State} (h4 : Readable s (s.sp - 4)) (h8 : Readable s (s.sp - 8)) :
    returnProcedure s = .ok ((), ((s.setReg regAP (wordAt s (s.sp - 4))).setPc (wordAt s (s.sp - 8))).setSp
        (s.reg regAP)) := by
  unfold returnProcedure
  rw [bind_ok (getState_apply _), bind_ok h4.read, bind_ok h8.read, bind_ok (setReg_apply ..), bind_ok
      (setReg_apply ..), setReg_apply]
  rfl

end Sys2Proof.Machine
end

