-- ==== Sys2Proof/Laws/Blocks.lean ====
section
/-! SUPPORT. What the loops of MOVBLW, STRCPY and STREND do (46_block_string.md R701 to R703). -/

namespace Sys2Proof.Machine

/-- Two states with equal fields are equal. -/
theorem state_ext {s t : State} (h1 : s.params = t.params) (h2 : ∀ n, s.reg n = t.reg n) (h3 : s.status = t.status)
    (h4 : s.waiting = t.waiting) (h5 : s.trace = t.trace) (h6 : s.mem = t.mem) (h7 : s.duart = t.duart)
    (h8 : s.pending = t.pending) : s = t := by
  obtain ⟨⟩ := s
  obtain ⟨⟩ := t
  simp only at h1 h3 h4 h5 h6 h7 h8
  subst h1 h3 h4 h5 h6 h7 h8
  congr 1
  exact Vector.ext fun i hi => h2 ⟨i, hi⟩

theorem setReg_same (s : State) (n : RegNum) : s.setReg n (s.reg n) = s := by
  refine state_ext rfl (fun m => ?_) rfl rfl rfl rfl rfl rfl
  rw [reg_setReg]; split
  · next h => rw [h]
  · rfl

/-! ## The bytes that MOVBLW leaves -/

theorem covers_iff {a b : Word} {n : Nat} : covers a n b.toNat ↔ (b - a).toNat < n := by
  constructor
  · rintro ⟨k, hk, e⟩
    have e := BitVec.eq_of_toNat_eq e
    subst e
    have : a + BitVec.ofNat 32 k - a = BitVec.ofNat 32 k := by rw [BitVec.add_comm, BitVec.add_sub_cancel]
    rw [this, BitVec.toNat_ofNat]
    exact Nat.lt_of_le_of_lt (Nat.mod_le ..) hk
  · intro h
    refine ⟨(b - a).toNat, h, ?_⟩
    rw [BitVec.ofNat_toNat, BitVec.setWidth_eq, BitVec.add_comm, BitVec.sub_add_cancel]

/-- Copying n + 1 words is copying the first one and then the others. -/
theorem copiedByte_front {m m₁ : Memory} {a c : Word} (h : ∀ b, m₁.read b.toNat = copiedByte m a c 1 b) (n : Nat)
    (b : Word) : copiedByte m a c (n + 1) b = copiedByte m₁ (a + 4) (c + 4) n b := by
  induction n generalizing b with
  | zero => exact (h b).symm
  | succ n ih =>
    rw [copiedByte, wordUp_succ, wordUp_succ, ih, ih]
    rfl

/-- A byte over which no word is stored. -/
theorem copiedByte_other {m : Memory} {a c b : Word} (n : Nat) (h : ∀ j, j < n → ¬ covers (wordUp c j) 4 b.toNat) :
    copiedByte m a c n b = m.read b.toNat := by
  induction n with
  | zero => rfl
  | succ n ih =>
    have := h n (by omega)
    rw [covers_iff] at this
    rw [copiedByte, if_neg this]
    exact ih fun j hj => h j (by omega)

theorem sub_wordUp (c : Word) (k x : Nat) (hx : x < 4) :
    (wordUp c k + BitVec.ofNat 32 x - wordUp c k) = BitVec.ofNat 32 x ∧ (BitVec.ofNat 32 x).toNat < 4 := by
  refine ⟨by rw [BitVec.add_comm, BitVec.add_sub_cancel], ?_⟩
  rw [BitVec.toNat_ofNat]; omega

/-- A byte of destination word k is the one that was read for it: no later word is stored over it. -/
theorem copiedByte_dest {m : Memory} {a c : Word} {n k x : Nat} (hn : 4 * n ≤ 2 ^ 32) (hk : k < n) (hx : x < 4) :
    copiedByte m a c n (wordUp c k + BitVec.ofNat 32 x) = copiedByte m a c k (wordUp a k + BitVec.ofNat 32 x) := by
  induction n with
  | zero => omega
  | succ n ih =>
    by_cases e : k = n
    · subst e
      obtain ⟨e1, e2⟩ := sub_wordUp c k x hx
      rw [copiedByte, e1, if_pos e2]
    · have h : ¬ covers (wordUp c n) 4 (wordUp c k + BitVec.ofNat 32 x).toNat :=
        words_apart (by omega) (by omega) e ⟨x, hx, rfl⟩
      rw [covers_iff] at h
      rw [copiedByte, if_neg h]
      exact ih (by omega) (by omega)

/-- Where no word is stored over a later source word, the destination holds the source. -/
theorem copiedByte_apart {m : Memory} {a c : Word} {n k x : Nat} (hn : 4 * n ≤ 2 ^ 32)
    (h : ∀ j k, j < k → k < n → ∀ b, covers (wordUp a k) 4 b → ¬ covers (wordUp c j) 4 b) (hk : k < n) (hx : x < 4) :
    copiedByte m a c n (wordUp c k + BitVec.ofNat 32 x) = m.read (wordUp a k + BitVec.ofNat 32 x).toNat := by
  rw [copiedByte_dest hn hk hx]
  exact copiedByte_other k fun j hj => h j k hj hk _ ⟨x, hx, rfl⟩

/-- With the destination d words above the source, the first d words are replicated. -/
theorem copiedByte_replicated {m : Memory} {a c : Word} {n d x : Nat} (hn : 4 * n ≤ 2 ^ 32) (h0 : 0 < d) (hd : d < n)
    (hc : c = wordUp a d) (hx : x < 4) (k : Nat) (hk : k < n) :
    copiedByte m a c k (wordUp a k + BitVec.ofNat 32 x) = m.read (wordUp a (k % d) + BitVec.ofNat 32 x).toNat := by
  induction k using Nat.strongRecOn with
  | ind k ih =>
    by_cases h : k < d
    · rw [Nat.mod_eq_of_lt h]
      refine copiedByte_other k fun j hj => ?_
      have e : wordUp c j = wordUp (wordUp a k) (d + j - k) := by
        rw [hc, wordUp_add, wordUp_add]
        congr 1
        omega
      rw [e]
      refine words_apart (a := wordUp a k) (j := 0) (by omega) (by omega) (by omega) ?_
      rw [wordUp_zero]
      exact ⟨x, hx, rfl⟩
    · have e : wordUp a k = wordUp c (k - d) := by
        rw [hc, wordUp_add]
        congr 1
        omega
      rw [e, copiedByte_dest (by omega) (by omega) hx, ih (k - d) (by omega) (by omega),
        ← Nat.mod_eq_sub_mod (Nat.le_of_not_lt h)]

/-- Copying a region onto itself changes nothing. -/
theorem copiedByte_self (m : Memory) (a : Word) (n : Nat) (b : Word) : copiedByte m a a n b = m.read b.toNat := by
  induction n generalizing b with
  | zero => rfl
  | succ n ih =>
    rw [copiedByte]
    split
    · rw [ih, BitVec.add_comm, BitVec.sub_add_cancel]
    · exact ih b

/-- Words whose bytes are equal are equal. -/
theorem wordAt_of_bytes {s t : State} {p q : Word}
    (h : ∀ x, x < 4 → t.mem.read (p + BitVec.ofNat 32 x).toNat = s.mem.read (q + BitVec.ofNat 32 x).toNat) :
    wordAt t p = wordAt s q := by
  have h0 := h 0 (by omega)
  simp only [BitVec.add_zero] at h0
  exact congrArg₂ (· ++ ·) (congrArg₂ (· ++ ·) (congrArg₂ (· ++ ·) h0 (h 1 (by omega))) (h 2 (by omega)))
    (h 3 (by omega))

/-- The bytes of a word. -/
theorem wordAt_byte (s : State) (a : Word) {x : Nat} (hx : x < 4) :
    valueByte 4 (wordAt s a) x = s.mem.read (a + BitVec.ofNat 32 x).toNat := by
  unfold wordAt valueByte
  ext i hi
  rw [BitVec.getElem_extractLsb', BitVec.getLsbD_append, BitVec.getLsbD_append, BitVec.getLsbD_append]
  interval_cases x <;> simp [BitVec.getLsbD_eq_getElem, hi] <;> (repeat' split) <;>
    first | omega | (simp only [← BitVec.getLsbD_eq_getElem]; congr 1; omega)

/-- The bytes after one word was copied. -/
theorem copiedByte_one {s : State} {m₁ : Memory} {a c : Word}
    (h : HoldsBytes { s with mem := m₁ } c 4 (wordAt s a)) (ho : ∀ b, ¬ covers c 4 b → m₁.read b = s.mem.read b)
    (b : Word) : m₁.read b.toNat = copiedByte s.mem a c 1 b := by
  rw [copiedByte, wordUp_zero, wordUp_zero]
  split
  · next hb =>
    have e := h (b - c).toNat hb
    rw [wordAt_byte _ _ hb] at e
    simp only [BitVec.ofNat_toNat, BitVec.setWidth_eq] at e
    rw [BitVec.add_comm c, BitVec.sub_add_cancel] at e
    exact e
  · next hb => exact ho _ fun hc => hb (covers_iff.1 hc)

theorem covers_left {a : Word} {n b : Nat} (h : covers a 4 b) : covers a (4 * (n + 1)) b := by
  obtain ⟨j, hj, rfl⟩ := h
  exact ⟨j, by omega, rfl⟩

theorem covers_right {a : Word} {n b : Nat} (h : covers (a + 4) (4 * n) b) : covers a (4 * (n + 1)) b := by
  obtain ⟨j, hj, rfl⟩ := h
  refine ⟨4 + j, by omega, ?_⟩
  rw [BitVec.ofNat_add, ← BitVec.add_assoc]; rfl

/-- MOVBLW's loop, whether the regions overlap or not. -/
theorem moveWords_spec (n : Nat) {s : State} (wf : s.mem.wf)
    (hr : ∀ k, k < n → Readable s (wordUp (s.reg 0) k)) (hw : Room s (s.reg 1) n) :
    ∃ m, Memory.wf m ∧ (∀ b : Word, Memory.read m b.toNat = copiedByte s.mem (s.reg 0) (s.reg 1) n b) ∧
      (∀ b, ¬ covers (s.reg 1) (4 * n) b → Memory.read m b = s.mem.read b) ∧
      moveWords n s = .ok ((), ((({ s with mem := m }.setReg 0 (wordUp (s.reg 0) n)).setReg 1
        (wordUp (s.reg 1) n)).setReg 2 (s.reg 2 - BitVec.ofNat 32 n))) := by
  induction n generalizing s with
  | zero =>
    refine ⟨s.mem, wf, fun _ => rfl, fun _ _ => rfl, ?_⟩
    rw [wordUp_zero, wordUp_zero]
    have e0 : s.reg 2 - BitVec.ofNat 32 0 = s.reg 2 := by simp
    rw [e0]
    show Except.ok ((), s) = _
    have h1 : ({ s with mem := s.mem } : State) = s := rfl
    rw [h1, setReg_same, setReg_same, setReg_same]
  | succ n ih =>
    have h0 := hr 0 (by omega)
    rw [wordUp_zero] at h0
    obtain ⟨m₁, e, wf₁, h1, ho₁⟩ := memWrite_ram (wordAt s (s.reg 0)) hw.head wf
    let s₁ : State := (({ s with mem := m₁ }.setReg 0 (s.reg 0 + 4)).setReg 1 (s.reg 1 + 4)).setReg 2 (s.reg 2 - 1)
    have r0 : s₁.reg 0 = s.reg 0 + 4 := by
      show (State.setReg _ 2 _).reg 0 = _
      rw [reg_setReg_ne _ _ (by decide), reg_setReg_ne _ _ (by decide), reg_setReg_self]
    have r1 : s₁.reg 1 = s.reg 1 + 4 := by
      show (State.setReg _ 2 _).reg 1 = _
      rw [reg_setReg_ne _ _ (by decide), reg_setReg_self]
    have r2 : s₁.reg 2 = s.reg 2 - 1 := reg_setReg_self ..
    obtain ⟨m, wf₂, h2, ho₂, e2⟩ := ih (s := s₁) wf₁
      (fun k hk => by rw [r0, ← wordUp_succ]; exact (hr (k + 1) (by omega)).of_params rfl)
      (by rw [r1]; exact hw.tail.of_params rfl)
    rw [r0, r1] at h2
    rw [r1] at ho₂
    refine ⟨m, wf₂, fun b => ?_, fun b hb => ?_, ?_⟩
    · rw [copiedByte_front (copiedByte_one h1 ho₁)]
      exact h2 b
    · exact (ho₂ b fun h => hb (covers_right h)).trans (ho₁ b fun h => hb (covers_left h))
    · unfold moveWords
      rw [bind_ok (getState_apply s), bind_ok h0.read, bind_ok e, bind_ok (setReg_apply ..), bind_ok
          (setReg_apply ..),
        bind_ok (setReg_apply ..)]
      refine e2.trans ?_
      rw [r0, r1, r2, wordUp_succ, wordUp_succ]
      have e3 : s.reg 2 - 1 - BitVec.ofNat 32 n = s.reg 2 - BitVec.ofNat 32 (n + 1) := by
        rw [BitVec.ofNat_add]; have : BitVec.ofNat 32 1 = 1#32 := rfl
        rw [this]; bv_omega
      rw [e3]
      congr 1
      congr 1
      refine state_ext rfl (fun r => ?_) rfl rfl rfl rfl rfl rfl
      simp only [reg_setReg, setMem_reg]
      split
      · rfl
      split
      · rfl
      split
      · rfl
      · show s₁.reg r = _
        simp only [s₁, reg_setReg, setMem_reg]
        simp [*]

/-! ## The loops where an access is refused -/

/-- SAVE's loop at a word that cannot be stored. -/
theorem storeRegs_fails (l : List RegNum) {s : State} {a : Word} {k : FaultKind} {m : Nat} (hm : m < l.length)
    (h : ∀ j, j < m → Reached s (wordUp a j) .word .write) (hk : AccessTraps s (wordUp a m) .word .write k) :
    ∃ i, storeRegs a l s = .error (.trap k i) := by
  induction l generalizing s a m with
  | nil => simp at hm
  | cons r rest ih =>
    unfold storeRegs
    rw [bind_ok (getReg_apply ..)]
    cases m with
    | zero =>
      rw [wordUp_zero] at hk
      obtain ⟨i, e⟩ := hk.write (s.reg r)
      exact ⟨i, bind_error e⟩
    | succ m =>
      have h0 := h 0 (by omega)
      rw [wordUp_zero] at h0
      obtain ⟨t, e, c⟩ := h0.write (s.reg r)
      rw [bind_ok e]
      rw [wordUp_succ] at hk
      exact ih (by simpa using hm) (fun j hj => by rw [← wordUp_succ]; exact (h (j + 1) (by omega)).of_params c.params)
        (hk.of_params c.params)

/-- RESTORE's loop at a word that cannot be read. -/
theorem loadRegs_fails (l : List RegNum) {s : State} {a : Word} {k : FaultKind} {m : Nat} (hm : m < l.length)
    (h : ∀ j, j < m → Reached s (wordUp a j) .word .read) (hk : AccessTraps s (wordUp a m) .word .read k) :
    ∃ i, loadRegs a l s = .error (.trap k i) := by
  induction l generalizing s a m with
  | nil => simp at hm
  | cons r rest ih =>
    unfold loadRegs
    cases m with
    | zero =>
      rw [wordUp_zero] at hk
      obtain ⟨i, e⟩ := hk.read
      exact ⟨i, bind_error e⟩
    | succ m =>
      have h0 := h 0 (by omega)
      rw [wordUp_zero] at h0
      obtain ⟨v, t, e, c⟩ := h0.read
      rw [bind_ok e, bind_ok (setReg_apply ..)]
      rw [wordUp_succ] at hk
      exact ih (by simpa using hm) (fun j hj => by rw [← wordUp_succ]; exact (h (j + 1) (by omega)).of_params c.params)
        (hk.of_params c.params)

/-- MOVBLW's loop at a word that cannot be read or stored. -/
theorem moveWords_fails (n : Nat) {s : State} {k : FaultKind} {m : Nat} (hm : m < n)
    (h : ∀ j, j < m → Reached s (wordUp (s.reg 0) j) .word .read ∧ Reached s (wordUp (s.reg 1) j) .word .write)
    (hk : AccessTraps s (wordUp (s.reg 0) m) .word .read k ∨
      (Reached s (wordUp (s.reg 0) m) .word .read ∧ AccessTraps s (wordUp (s.reg 1) m) .word .write k)) :
    ∃ i, moveWords n s = .error (.trap k i) := by
  induction n generalizing s m with
  | zero => omega
  | succ n ih =>
    unfold moveWords
    rw [bind_ok (getState_apply s)]
    cases m with
    | zero =>
      rw [wordUp_zero, wordUp_zero] at hk
      rcases hk with hk | ⟨hr, hk⟩
      · obtain ⟨i, e⟩ := hk.read
        exact ⟨i, bind_error e⟩
      · obtain ⟨v, t, e, c⟩ := hr.read
        obtain ⟨i, e'⟩ := (hk.of_params c.params).write v
        exact ⟨i, by rw [bind_ok e]; exact bind_error e'⟩
    | succ m =>
      obtain ⟨h0, h1⟩ := h 0 (by omega)
      rw [wordUp_zero] at h0 h1
      obtain ⟨v, t, e, c⟩ := h0.read
      obtain ⟨u, e', c'⟩ := (h1.of_params c.params).write v
      rw [bind_ok e, bind_ok e', bind_ok (setReg_apply ..), bind_ok (setReg_apply ..), bind_ok (setReg_apply ..)]
      let s₁ : State := ((u.setReg 0 (s.reg 0 + 4)).setReg 1 (s.reg 1 + 4)).setReg 2 (s.reg 2 - 1)
      have r0 : s₁.reg 0 = s.reg 0 + 4 := by
        show (State.setReg _ 2 _).reg 0 = _
        rw [reg_setReg_ne _ _ (by decide), reg_setReg_ne _ _ (by decide), reg_setReg_self]
      have r1 : s₁.reg 1 = s.reg 1 + 4 := by
        show (State.setReg _ 2 _).reg 1 = _
        rw [reg_setReg_ne _ _ (by decide), reg_setReg_self]
      have hp : s₁.params = s.params := c'.params.trans c.params
      refine ih (s := s₁) (m := m) (by omega) (fun j hj => ?_) ?_
      · rw [r0, r1, ← wordUp_succ, ← wordUp_succ]
        exact ⟨(h (j + 1) (by omega)).1.of_params hp, (h (j + 1) (by omega)).2.of_params hp⟩
      · rw [r0, r1, ← wordUp_succ, ← wordUp_succ]
        exact hk.imp (·.of_params hp) fun x => ⟨x.1.of_params hp, x.2.of_params hp⟩

/-! ## Strings -/

/-- A byte stored in RAM. -/
theorem memWrite_byte_ram {s : State} {a : Word} (v : Word) (h : dataRoute s.params a .byte .write = .ok .ram) :
    memWrite a .byte v s = .ok ((), { s with mem := s.mem.write a.toNat (v.extractLsb' 0 8) }) := by
  rw [memWrite_eq h]
  show storeBytes .ram a (bigEndianBytes 1 v) s = _
  rw [bigEndianBytes_byte]
  simp only [storeBytes, bind_pure_unit]
  rfl

theorem ReadableByte.read {s : State} {a : Word} (h : ReadableByte s a) :
    memRead a .byte s = .ok ((s.mem.read a.toNat).setWidth 32, s) := by
  obtain ⟨g, h1, h2⟩ := h
  exact memRead_byte h1 h2

theorem setWidth_byte_zero (b : Byte) : (b.setWidth 32 = (0 : Word)) ↔ b = 0 := by
  constructor
  · intro h
    have := congrArg BitVec.toNat h
    simp at this
    apply BitVec.eq_of_toNat_eq
    simp
    omega
  · rintro rfl; rfl

theorem up_succ (a : Word) (k : Nat) : a + BitVec.ofNat 32 (k + 1) = a + 1 + BitVec.ofNat 32 k := by
  rw [Nat.add_comm, BitVec.ofNat_add, BitVec.add_assoc]; rfl

/-- STREND's loop. -/
theorem findNul_spec (n fuel : Nat) {s : State} {a : Word} (hf : n < fuel)
    (hr : ∀ k, k ≤ n → ReadableByte s (a + BitVec.ofNat 32 k))
    (hne : ∀ k, k < n → s.mem.read (a + BitVec.ofNat 32 k).toNat ≠ 0)
    (h0 : s.mem.read (a + BitVec.ofNat 32 n).toNat = 0) :
    findNul fuel a s = .ok (a + BitVec.ofNat 32 n, s) := by
  induction n generalizing a fuel with
  | zero =>
    obtain ⟨f, rfl⟩ : ∃ f, fuel = f + 1 := ⟨fuel - 1, by omega⟩
    have r := hr 0 (by omega)
    simp only [BitVec.add_zero] at r h0 ⊢
    unfold findNul
    rw [bind_ok r.read, if_pos ((setWidth_byte_zero _).2 h0)]; rfl
  | succ n ih =>
    obtain ⟨f, rfl⟩ : ∃ f, fuel = f + 1 := ⟨fuel - 1, by omega⟩
    have r := hr 0 (by omega)
    have hz := hne 0 (by omega)
    simp only [BitVec.add_zero] at r hz
    unfold findNul
    rw [bind_ok r.read, if_neg (fun h => hz ((setWidth_byte_zero _).1 h)), up_succ]
    exact ih f (by omega) (fun k hk => by rw [← up_succ]; exact hr (k + 1) (by omega))
      (fun k hk => by rw [← up_succ]; exact hne (k + 1) (by omega)) (by rw [← up_succ]; exact h0)

/-- STRCPY's loop where no byte is stored over a later source byte. -/
theorem copyString_spec (n fuel : Nat) {s : State} {a c : Word} (hf : n < fuel) (hn : n < 2 ^ 32) (wf : s.mem.wf)
    (hr : ∀ k, k ≤ n → ReadableByte s (a + BitVec.ofNat 32 k))
    (hw : ∀ k, k ≤ n → dataRoute s.params (c + BitVec.ofNat 32 k) .byte .write = .ok .ram)
    (hne : ∀ k, k < n → s.mem.read (a + BitVec.ofNat 32 k).toNat ≠ 0)
    (h0 : s.mem.read (a + BitVec.ofNat 32 n).toNat = 0)
    (ha : ∀ i j, i < j → j ≤ n → a + BitVec.ofNat 32 j ≠ c + BitVec.ofNat 32 i) :
    ∃ m, copyString fuel a c s = .ok ((), { s with mem := m }) ∧ Memory.wf m ∧
      (∀ k, k ≤ n → Memory.read m (c + BitVec.ofNat 32 k).toNat = s.mem.read (a + BitVec.ofNat 32 k).toNat) ∧
      ∀ b, ¬ covers c (n + 1) b → Memory.read m b = s.mem.read b := by
  induction n generalizing a c fuel s with
  | zero =>
    obtain ⟨f, rfl⟩ : ∃ f, fuel = f + 1 := ⟨fuel - 1, by omega⟩
    have r := hr 0 (by omega)
    have w := hw 0 (by omega)
    simp only [BitVec.add_zero] at r h0 w
    have e := memWrite_byte_ram (s := s) ((s.mem.read a.toNat).setWidth 32) w
    rw [h0] at e
    refine ⟨s.mem.write c.toNat 0, ?_, Memory.wf_write wf .., ?_, ?_⟩
    · unfold copyString
      rw [bind_ok r.read, h0, bind_ok e, if_pos (by decide)]; rfl
    · intro k hk
      obtain rfl : k = 0 := by omega
      simp only [BitVec.add_zero]
      rw [Memory.read_write_self wf, h0]
    · intro b hb
      exact Memory.read_write_ne _ _ (fun h => hb ⟨0, by omega, by simpa using h⟩)
  | succ n ih =>
    obtain ⟨f, rfl⟩ : ∃ f, fuel = f + 1 := ⟨fuel - 1, by omega⟩
    have r := hr 0 (by omega)
    have hz := hne 0 (by omega)
    have w := hw 0 (by omega)
    simp only [BitVec.add_zero] at r hz w
    have e := memWrite_byte_ram (s := s) ((s.mem.read a.toNat).setWidth 32) w
    have ev : ((s.mem.read a.toNat).setWidth 32).extractLsb' 0 8 = s.mem.read a.toNat := by
      apply BitVec.eq_of_toNat_eq; simp; exact (s.mem.read a.toNat).isLt
    rw [ev] at e
    have same : ∀ k, k ≤ n → Memory.read (s.mem.write c.toNat (s.mem.read a.toNat)) (a + BitVec.ofNat 32 (k + 1)).toNat =
        s.mem.read (a + BitVec.ofNat 32 (k + 1)).toNat := fun k hk =>
      Memory.read_write_ne _ _ fun h => ha 0 (k + 1) (by omega) (by omega) (by simpa using BitVec.eq_of_toNat_eq h)
    obtain ⟨m, em, hm, hk, ho⟩ := ih f (s := { s with mem := s.mem.write c.toNat (s.mem.read a.toNat) }) (a :=
        a + 1) (c := c + 1)
      (by omega) (by omega) (Memory.wf_write wf ..)
      (fun k hk => by rw [← up_succ]; exact hr (k + 1) (by omega))
      (fun k hk => by rw [← up_succ]; exact hw (k + 1) (by omega))
      (fun k hk => by rw [← up_succ]; dsimp only; rw [same k (by omega)]; exact hne (k + 1) (by omega))
      (by rw [← up_succ]; dsimp only; rw [same n (by omega)]; exact h0)
      (fun i j h1 h2 => by rw [← up_succ, ← up_succ]; exact ha (i + 1) (j + 1) (by omega) (by omega))
    refine ⟨m, ?_, hm, ?_, ?_⟩
    · unfold copyString
      rw [bind_ok r.read, bind_ok e, if_neg (fun h => hz ((setWidth_byte_zero _).1 h))]
      exact em
    · intro k hk'
      cases k with
      | zero =>
        simp only [BitVec.add_zero]
        rw [ho _ (not_covers_self (by omega))]
        exact Memory.read_write_self wf ..
      | succ k =>
        rw [up_succ, hk k (by omega), ← up_succ]
        exact same k (by omega)
    · intro b hb
      rw [covers_succ, not_or] at hb
      rw [ho b hb.2]
      exact Memory.read_write_ne _ _ hb.1

/-- STREND's loop at a byte that cannot be read. -/
theorem findNul_fails (m fuel : Nat) {s : State} {a : Word} {k : FaultKind} (hf : m < fuel)
    (h : ∀ j, j < m → ReadableByte s (a + BitVec.ofNat 32 j) ∧ s.mem.read (a + BitVec.ofNat 32 j).toNat ≠ 0)
    (hk : AccessTraps s (a + BitVec.ofNat 32 m) .byte .read k) : ∃ i, findNul fuel a s = .error (.trap k i) := by
  induction m generalizing a fuel with
  | zero =>
    obtain ⟨f, rfl⟩ : ∃ f, fuel = f + 1 := ⟨fuel - 1, by omega⟩
    rw [BitVec.add_zero] at hk
    obtain ⟨i, e⟩ := hk.read
    exact ⟨i, by unfold findNul; exact bind_error e⟩
  | succ m ih =>
    obtain ⟨f, rfl⟩ : ∃ f, fuel = f + 1 := ⟨fuel - 1, by omega⟩
    obtain ⟨r, hz⟩ := h 0 (by omega)
    simp only [BitVec.add_zero] at r hz
    unfold findNul
    rw [bind_ok r.read, if_neg (fun h => hz ((setWidth_byte_zero _).1 h))]
    rw [up_succ] at hk
    exact ih f (by omega) (fun j hj => by rw [← up_succ]; exact h (j + 1) (by omega)) hk

/-- STRCPY's loop at a byte that cannot be read or stored. -/
theorem copyString_fails (m fuel : Nat) {s : State} {a c : Word} {k : FaultKind} (hf : m < fuel)
    (h : ∀ j, j < m → ReadableByte s (a + BitVec.ofNat 32 j) ∧ s.mem.read (a + BitVec.ofNat 32 j).toNat ≠ 0)
    (hw : ∀ j, j < m → dataRoute s.params (c + BitVec.ofNat 32 j) .byte .write = .ok .ram)
    (ha : ∀ i j, i < j → j < m → a + BitVec.ofNat 32 j ≠ c + BitVec.ofNat 32 i)
    (hk : AccessTraps s (a + BitVec.ofNat 32 m) .byte .read k ∨
      (ReadableByte s (a + BitVec.ofNat 32 m) ∧ AccessTraps s (c + BitVec.ofNat 32 m) .byte .write k)) :
    ∃ i, copyString fuel a c s = .error (.trap k i) := by
  induction m generalizing a c fuel s with
  | zero =>
    obtain ⟨f, rfl⟩ : ∃ f, fuel = f + 1 := ⟨fuel - 1, by omega⟩
    simp only [BitVec.add_zero] at hk
    unfold copyString
    rcases hk with hk | ⟨hr, hk⟩
    · obtain ⟨i, e⟩ := hk.read
      exact ⟨i, bind_error e⟩
    · obtain ⟨i, e⟩ := hk.write ((s.mem.read a.toNat).setWidth 32)
      exact ⟨i, by rw [bind_ok hr.read]; exact bind_error e⟩
  | succ m ih =>
    obtain ⟨f, rfl⟩ : ∃ f, fuel = f + 1 := ⟨fuel - 1, by omega⟩
    obtain ⟨r, hz⟩ := h 0 (by omega)
    have w := hw 0 (by omega)
    simp only [BitVec.add_zero] at r hz w
    unfold copyString
    rw [bind_ok r.read, bind_ok (memWrite_byte_ram _ w), if_neg (fun h => hz ((setWidth_byte_zero _).1 h))]
    rw [up_succ, up_succ] at hk
    refine ih f (s := { s with mem := _ }) (by omega) (fun j hj => ?_) (fun j hj => ?_) (fun i j h1 h2 => ?_) hk
    · rw [← up_succ]
      refine ⟨(h (j + 1) (by omega)).1, ?_⟩
      dsimp only
      rw [Memory.read_write_ne]
      · exact (h (j + 1) (by omega)).2
      · exact fun e => ha 0 (j + 1) (by omega) (by omega) (by simpa using BitVec.eq_of_toNat_eq e)
    · rw [← up_succ]; exact hw (j + 1) (by omega)
    · rw [← up_succ, ← up_succ]; exact ha (i + 1) (j + 1) (by omega) (by omega)

/-- A string ends within the address space. -/
theorem nul_lt {s : State} {a : Word} {n : Nat} (hne : ∀ k, k < n → s.mem.read (a + BitVec.ofNat 32 k).toNat ≠ 0)
    (h0 : s.mem.read (a + BitVec.ofNat 32 n).toNat = 0) : n < 2 ^ 32 := by
  by_contra h
  have := hne (n - 2 ^ 32) (by omega)
  have e : BitVec.ofNat 32 (n - 2 ^ 32) = BitVec.ofNat 32 n := by
    apply BitVec.eq_of_toNat_eq; simp only [BitVec.toNat_ofNat]; omega
  rw [e] at this
  exact this h0

end Sys2Proof.Machine
end

