-- ==== Sys2Proof/Laws/Bytes.lean ====
section
/-! SUPPORT. Wide accesses as bytes, regions as intervals,
    and that each byte of a routed access can be read by itself. -/

namespace Sys2Proof.Machine

theorem memRead_half {a : Word} {s : State} {g : Region} (h : dataRoute s.params a .half .read = .ok g)
    (hg : g ≠ .duart) : memRead a .half s = .ok ((s.mem.read a.toNat ++ s.mem.read (a + 1).toNat).setWidth 32,
        s) := by
  unfold memRead
  rw [bind_ok (route_ok h)]
  dsimp only
  rw [bind_ok (readByteAt_plain hg ..), bind_ok (readByteAt_plain hg ..)]
  rfl

/-- Two bytes as shifted and joined. -/
theorem half_or (b0 b1 : Byte) : (b0 ++ b1).setWidth 32 = (b0.setWidth 32 <<< 8 ||| b1.setWidth 32 : Word) := by
  apply BitVec.eq_of_getLsbD_eq
  intro i hi
  simp only [BitVec.getLsbD_append, BitVec.getLsbD_or, BitVec.getLsbD_shiftLeft, BitVec.getLsbD_setWidth]
  interval_cases i <;> simp

/-- Four bytes as shifted and joined. -/
theorem word_or (b0 b1 b2 b3 : Byte) : b0 ++ b1 ++ b2 ++ b3 =
    (b0.setWidth 32 <<< 24 ||| b1.setWidth 32 <<< 16 ||| b2.setWidth 32 <<< 8 ||| b3.setWidth 32 : Word) := by
  apply BitVec.eq_of_getLsbD_eq
  intro i hi
  simp only [BitVec.getLsbD_append, BitVec.getLsbD_or, BitVec.getLsbD_shiftLeft, BitVec.getLsbD_setWidth]
  interval_cases i <;> simp

theorem half_of_bytes (v : Word) :
    (valueByte 2 v 0 ++ valueByte 2 v 1).setWidth 32 = (v.setWidth 16).setWidth 32 := by
  apply BitVec.eq_of_getLsbD_eq
  intro i hi
  simp only [BitVec.getLsbD_append, BitVec.getLsbD_setWidth, valueByte, BitVec.getLsbD_extractLsb']
  interval_cases i <;> simp

theorem valid_sizes {p : Params} (h : p.valid = true) : p.romSize ≤ 2097152 ∧ p.ramSize ≤ 4287627264 := by
  simp only [Params.valid, Bool.and_eq_true] at h
  have := of_decide_eq_true h.1.1.1
  exact ⟨this.2.1, this.2.2.1⟩

/-- Regions are intervals that end within the address space. -/
theorem regionOf_between {p : Params} (hp : p.valid = true) {a b c : Nat} {g : Region} (ha : regionOf p a = some g)
    (hc : regionOf p c = some g) (h1 : a ≤ b) (h2 : b ≤ c) : regionOf p b = some g ∧ c < 2 ^ 32 := by
  obtain ⟨v1, v2⟩ := valid_sizes hp
  have c1 : Config.romBase = 0 := rfl
  have c2 : Config.duartBase = 2097152 := rfl
  have c3 : Config.duartSize = 64 := rfl
  have c4 : Config.ramBase = 7340032 := rfl
  unfold regionOf at *
  split at ha
  · cases ha
    repeat' split at hc
    all_goals simp at hc
    rw [if_pos (by omega)]; exact ⟨rfl, by omega⟩
  split at ha
  · cases ha
    repeat' split at hc
    all_goals simp at hc
    rw [if_neg (by omega), if_pos (by omega)]; exact ⟨rfl, by omega⟩
  split at ha
  · cases ha
    repeat' split at hc
    all_goals simp at hc
    rw [if_neg (by omega), if_neg (by omega), if_pos (by omega)]; exact ⟨rfl, by omega⟩
  · cases ha

/-- Each byte of an access that is routed is routed by itself. -/
theorem byte_route_of {p : Params} (hp : p.valid = true) {a : Word} {z : Size} {k k' : AccessKind} {g : Region}
    (h : dataRoute p a z k = .ok g) (hk : ¬ (g = .rom ∧ k' = .write)) (hf : k' ≠ .fetch)
    (j : Nat) (hj : j < sizeBytes z) : dataRoute p (a + BitVec.ofNat 32 j) .byte k' = .ok g := by
  obtain ⟨h1, h2, -⟩ := dataRoute_region h
  have hz := sizeBytes_le z
  obtain ⟨h3, h4⟩ := regionOf_between hp h1 h2 (b := a.toNat + j) (by omega) (by omega)
  have e : (a + BitVec.ofNat 32 j).toNat = a.toNat + j := by
    rw [BitVec.toNat_add, BitVec.toNat_ofNat]; omega
  unfold dataRoute
  rw [if_pos (by simp [aligned, sizeBytes, Nat.mod_one])]
  unfold busRoute
  rw [e, h3]
  dsimp only
  rw [if_pos]
  exact ⟨by simpa [sizeBytes] using h3, hk, fun h => hf h.2⟩

/-- Each byte of an access that is routed can be read by itself. -/
theorem byte_route {s : State} (hp : s.params.valid = true) {a : Word} {z : Size} {k : AccessKind} {g : Region}
    (h : dataRoute s.params a z k = .ok g)
    (j : Nat) (hj : j < sizeBytes z) : dataRoute s.params (a + BitVec.ofNat 32 j) .byte .read = .ok g :=
  byte_route_of hp h (by simp) (by simp) j hj

/-- Each byte of a write that is routed can be written by itself. -/
theorem byte_route_write {p : Params} (hp : p.valid = true) {a : Word} {z : Size} {g : Region}
    (h : dataRoute p a z .write = .ok g)
    (j : Nat) (hj : j < sizeBytes z) : dataRoute p (a + BitVec.ofNat 32 j) .byte .write = .ok g :=
  byte_route_of hp h (dataRoute_region h).2.2 (by simp) j hj

/-- A byte read in the region it is routed to. -/
theorem memRead_byte_at {a : Word} {s : State} {g : Region} (h : dataRoute s.params a .byte .read = .ok g) {b : Byte}
    {t : State} (hb : readByteAt g a s = .ok (b, t)) : memRead a .byte s = .ok (b.setWidth 32, t) := by
  unfold memRead
  rw [bind_ok (route_ok h)]
  dsimp only
  rw [bind_ok hb]
  rfl

/-- A byte write in the region it is routed to. -/
theorem memWrite_byte_at {a v : Word} {s : State} {g : Region} (h : dataRoute s.params a .byte .write = .ok g) :
    memWrite a .byte v s = writeByteAt g a (v.extractLsb' 0 8) s := by
  unfold memWrite
  rw [bind_ok (route_ok h)]

/-- A byte write keeps the parameters. -/
theorem writeByteAt_params (g : Region) (a : Word) (b : Byte) (s : State) :
    ∃ t, writeByteAt g a b s = .ok ((), t) ∧ t.params = s.params := by
  cases g
  · exact ⟨s, rfl, rfl⟩
  · exact ⟨_, writeByteAt_duart .., (writeDuart_sameCore ..).params⟩
  · exact ⟨_, writeByteAt_ram .., rfl⟩

end Sys2Proof.Machine
end

