-- ==== Sys2Proof/Laws/Duart.lean ====
section
/-! SUPPORT. The DUART (60_exceptions.md R860 to R885): conditions bit by bit, pacing and counter runs, and that every
register access and advance keeps the queues within their capacities. -/

namespace Sys2Proof.Machine

/-! ## Conditions -/

theorem byteOfBits_bit : ∀ b7 b6 b5 b4 b3 b2 b1 b0, (byteOfBits b7 b6 b5 b4 b3 b2 b1 b0).getLsbD 0 = b0 ∧
    (byteOfBits b7 b6 b5 b4 b3 b2 b1 b0).getLsbD 1 = b1 ∧ (byteOfBits b7 b6 b5 b4 b3 b2 b1 b0).getLsbD 3 = b3 ∧
    (byteOfBits b7 b6 b5 b4 b3 b2 b1 b0).getLsbD 4 = b4 ∧ (byteOfBits b7 b6 b5 b4 b3 b2 b1 b0).getLsbD 5 = b5 := by
  decide

/-- The interrupt conditions, source by source (R840, R874). -/
theorem cond_eq (d : Duart) :
    d.cond 0 = (d.chA.rxReady && d.imr.getLsbD 1) ∧ d.cond 1 = (d.chA.txReady && d.imr.getLsbD 0) ∧
    d.cond 2 = (d.chB.rxReady && d.imr.getLsbD 5) ∧ d.cond 3 = (d.chB.txReady && d.imr.getLsbD 4) ∧
    d.cond 4 = (d.ctReady && d.imr.getLsbD 3) := by
  obtain ⟨h0, h1, h3, h4, h5⟩ := byteOfBits_bit false false d.chB.rxReady d.chB.txReady d.ctReady false d.chA.rxReady
    d.chA.txReady
  have (i : Fin 5) : d.cond i = (d.isr.getLsbD (irqBit i) && d.imr.getLsbD (irqBit i)) := BitVec.getLsbD_and ..
  simp only [this]
  exact ⟨congrArg (· && _) h1, congrArg (· && _) h0, congrArg (· && _) h5, congrArg (· && _) h4, congrArg (· && _) h3⟩

theorem latch_cleared {s : State} {i : Fin 5} (d : Duart) (h : d.cond i = false) :
    (s.withDuart d).pending[i] = false := by
  simp [updateLatches, h]

/-! ## Pacing and the counter -/

/-- One advance of a receiver that a character can enter (R870). -/
theorem advanceRx_eq {p : Params} {acr b : Byte} {rest : List Byte} {x : Channel} {c : Nat} (h1 : x.rxEnabled = true)
    (h2 : x.rhr = none) (h3 : x.rxQueue = b :: rest)
    (hc : (if x.rxCount = 0 then x.delayRx p acr else x.rxCount) = c) :
    x.advanceRx p acr = if c - 1 = 0 then { x with rxCount := 0, rhr := some b, rxQueue := rest }
      else { x with rxCount := c - 1 } := by
  subst hc
  unfold Channel.advanceRx
  simp only [h1, h2, h3]

/-- The receiver while a character is arriving (R870). -/
theorem rx_run {p : Params} {acr b : Byte} {rest : List Byte} {x : Channel} (h1 : x.rxEnabled = true) (h2 :
    x.rhr = none) (h3 : x.rxQueue = b :: rest)
    (h4 : x.rxCount = 0) (n : Nat) (hn : n < x.delayRx p acr) :
    Nat.iterate (Channel.advanceRx p acr) n x =
      { x with rxCount := if n = 0 then 0 else x.delayRx p acr - n } := by
  induction n with
  | zero =>
    show x = _
    rw [if_pos rfl, ← h4]
  | succ n ih =>
    rw [Function.iterate_succ_apply', ih (by omega),
      advanceRx_eq (x := { x with rxCount := if n = 0 then 0 else x.delayRx p acr - n })
      (c := x.delayRx p acr - n) h1 h2 h3,
      if_neg (show ¬ x.delayRx p acr - n - 1 = 0 by omega), if_neg (show ¬ n + 1 = 0 by omega)]
    · rfl
    · show (if (if n = 0 then 0 else x.delayRx p acr - n) = 0 then x.delayRx p acr else _) = _
      by_cases hz : n = 0
      · simp [hz]
      · rw [if_neg hz, if_neg (by omega)]

/-- The transmitter from the load of a held byte up to its last advance (R871). -/
theorem tx_run {p : Params} {acr b : Byte} {x : Channel} (h1 : x.txEnabled = true) (h2 : x.txShift = none)
    (h3 : x.thr = some b) (n : Nat) (h0 : 1 ≤ n) (hn : n ≤ x.delayTx p acr) :
    Nat.iterate (fun y => (Channel.finishTx p y).1.loadTx p acr) n x =
      { x with txShift := some b, thr := none, txCount := x.delayTx p acr - (n - 1) } := by
  induction n with
  | zero => omega
  | succ n ih =>
    rw [Function.iterate_succ_apply']
    by_cases hz : n = 0
    · subst hz
      show Channel.loadTx p acr (Channel.finishTx p x).1 = _
      simp [Channel.finishTx, h2, Channel.loadTx, h3, h1]
    · rw [ih (by omega) (by omega)]
      have e : ¬ (x.delayTx p acr - (n - 1) - 1 = 0 ∧ x.txQueue.length < p.txCapacity) := by omega
      simp only [Channel.finishTx, e, if_false, Channel.loadTx]
      have : x.delayTx p acr - (n - 1) - 1 = x.delayTx p acr - n := by omega
      rw [this, Nat.add_sub_cancel]

/-- The counter k advances after it was started, before its period ends (R878). -/
theorem counter_run (d : Duart) (n : Nat) (hn : n = (if d.ctPreload = 0 then 65536 else d.ctPreload.toNat))
    (k : Nat) (hk : k < n) :
    Nat.iterate Duart.advanceCounter k d.startCounter =
      { d.startCounter with ctValue := BitVec.ofNat 16 (n - k) } := by
  have hle : n ≤ 65536 := by split at hn <;> [omega; (have := d.ctPreload.isLt; omega)]
  induction k with
  | zero =>
    show d.startCounter = _
    have : BitVec.ofNat 16 (n - 0) = d.ctPreload := by
      rw [hn]; split
      · next h => rw [h]; rfl
      · simp
    rw [this]; rfl
  | succ k ih =>
    rw [Function.iterate_succ_apply', ih (by omega)]
    unfold Duart.advanceCounter
    have e : BitVec.ofNat 16 (n - k) - 1 = BitVec.ofNat 16 (n - (k + 1)) := by
      apply BitVec.eq_of_toNat_eq
      rw [BitVec.toNat_sub]
      simp only [BitVec.toNat_ofNat, show (1 : BitVec 16).toNat = 1 from rfl]
      omega
    have e0 : ¬ BitVec.ofNat 16 (n - (k + 1)) = 0 := by
      intro h
      have := congrArg BitVec.toNat h
      simp only [BitVec.toNat_ofNat, show (0 : BitVec 16).toNat = 0 from rfl] at this
      omega
    simp only [e, e0, if_false]
    rfl

/-! ## Advances of the whole DUART (R876) -/

/-- A channel's part of `advance(1)`: RX pacing, then TX pacing. -/
def tick (p : Params) (acr : Byte) (x : Channel) : Channel :=
  ((x.advanceRx p acr).finishTx p).1.loadTx p acr

/-- One channel's part of an advance: its tick, and the bell where a byte completes (R871, R885). -/
theorem advanceChannel_eq (p : Params) (d : Duart) (c : ChannelId) :
    d.advanceChannel p c = { d.setChannel c (tick p d.acr (d.channel c)) with
      bell := ((((d.channel c).advanceRx p d.acr).finishTx p).2.map (· == p.bellByte)).getD d.bell } := by
  unfold Duart.advanceChannel tick
  cases h : (((d.channel c).advanceRx p d.acr).finishTx p).2 <;> cases c <;> simp only [h] <;> rfl

/-- The counter's part of an advance changes the counter alone. -/
theorem advanceCounter_eq (d : Duart) : d.advanceCounter =
    { d with ctValue := d.advanceCounter.ctValue, ctReady := d.advanceCounter.ctReady } := by
  unfold Duart.advanceCounter
  split
  · split <;> rfl
  · rfl

/-- The counter's state. -/
def counterPart (d : Duart) : BitVec 16 × BitVec 16 × Bool × Bool × Bool :=
  (d.ctPreload, d.ctValue, d.ctRunning, d.ctStarted, d.ctReady)

theorem advanceCounter_congr {d e : Duart} (h : counterPart d = counterPart e) :
    counterPart d.advanceCounter = counterPart e.advanceCounter := by
  obtain ⟨a, b, acr, imr, oc, op, cp, cv, cr, cs, cy, bell⟩ := d
  obtain ⟨a', b', acr', imr', oc', op', cp', cv', cr', cs', cy', bell'⟩ := e
  simp only [counterPart, Prod.mk.injEq] at h
  obtain ⟨rfl, rfl, rfl, rfl, rfl⟩ := h
  unfold Duart.advanceCounter
  dsimp only
  split
  · split <;> rfl
  · rfl

theorem advanceChannel_counterPart (p : Params) (d : Duart) (c : ChannelId) :
    counterPart (d.advanceChannel p c) = counterPart d := by
  rw [advanceChannel_eq]; cases c <;> rfl

theorem advance_counterPart (p : Params) (d : Duart) : counterPart (d.advance p) = counterPart d.advanceCounter :=
  advanceCounter_congr ((advanceChannel_counterPart ..).trans (advanceChannel_counterPart ..))

/-- `advance(1)`: both channels' ticks, the counter, and the bell of the last byte that completes (R876). -/
theorem advance_eq (p : Params) (d : Duart) :
    d.advance p = { d.advanceCounter with
      chA := tick p d.acr d.chA
      chB := tick p d.acr d.chB
      bell := (((d.chB.advanceRx p d.acr).finishTx p).2.map (· == p.bellByte)).getD
        ((((d.chA.advanceRx p d.acr).finishTx p).2.map (· == p.bellByte)).getD d.bell) } := by
  have hc := advance_counterPart p d
  simp only [counterPart, Prod.mk.injEq] at hc
  obtain ⟨-, h2, -, -, h5⟩ := hc
  rw [advanceCounter_eq d, ← h2, ← h5]
  unfold Duart.advance
  rw [advanceCounter_eq ((d.advanceChannel p .a).advanceChannel p .b)]
  simp only [advanceChannel_eq]
  rfl

theorem advance_channel (p : Params) (d : Duart) (c : ChannelId) :
    (d.advance p).channel c = tick p d.acr (d.channel c) ∧ (d.advance p).acr = d.acr := by
  rw [advance_eq, advanceCounter_eq d]
  cases c <;> exact ⟨rfl, rfl⟩

/-- A channel over n advances of the DUART. -/
theorem iterate_advance_channel (p : Params) (d : Duart) (c : ChannelId) (n : Nat) :
    (Nat.iterate (Duart.advance p) n d).channel c = Nat.iterate (tick p d.acr) n (d.channel c) ∧
      (Nat.iterate (Duart.advance p) n d).acr = d.acr := by
  induction n with
  | zero => exact ⟨rfl, rfl⟩
  | succ n ih =>
    obtain ⟨h1, h2⟩ := ih
    simp only [Function.iterate_succ_apply']
    obtain ⟨k1, k2⟩ := advance_channel p (Nat.iterate (Duart.advance p) n d) c
    rw [k1, k2, h1, h2]
    exact ⟨rfl, rfl⟩

/-- The receiver's state of a channel. -/
def rxPart (x : Channel) : Bool × Option Byte × List Byte × Nat × Byte := (x.rxEnabled, x.rhr, x.rxQueue, x.rxCount, x.csr)

/-- The transmitter's state of a channel. -/
def txPart (x : Channel) : Bool × Option Byte × Option Byte × Nat × List Byte × Byte :=
  (x.txEnabled, x.thr, x.txShift, x.txCount, x.txQueue, x.csr)

theorem finishTx_rxPart (p : Params) (x : Channel) : rxPart (x.finishTx p).1 = rxPart x := by
  unfold Channel.finishTx
  split
  · rfl
  · split <;> rfl

theorem loadTx_rxPart (p : Params) (acr : Byte) (x : Channel) : rxPart (x.loadTx p acr) = rxPart x := by
  unfold Channel.loadTx
  split <;> rfl

theorem advanceRx_txPart (p : Params) (acr : Byte) (x : Channel) : txPart (x.advanceRx p acr) = txPart x := by
  unfold Channel.advanceRx
  split
  · dsimp only
    split <;> split <;> rfl
  · rfl

theorem advanceRx_congr (p : Params) (acr : Byte) {x y : Channel} (h : rxPart x = rxPart y) :
    rxPart (x.advanceRx p acr) = rxPart (y.advanceRx p acr) := by
  simp only [rxPart, Prod.mk.injEq] at h
  obtain ⟨h1, h2, h3, h4, h5⟩ := h
  unfold Channel.advanceRx Channel.delayRx
  rw [h1, h2, h3, h4, h5]
  split
  · dsimp only
    generalize (if y.rxCount = 0 then _ else y.rxCount) - 1 = n
    split <;> rfl
  · simp [rxPart, h1, h2, h3, h4, h5]

theorem finishTx_congr (p : Params) {x y : Channel} (h : txPart x = txPart y) :
    txPart (x.finishTx p).1 = txPart (y.finishTx p).1 := by
  simp only [txPart, Prod.mk.injEq] at h
  obtain ⟨h1, h2, h3, h4, h5, h6⟩ := h
  unfold Channel.finishTx
  rw [h3, h4, h5]
  split
  · simp [txPart, h1, h2, h3, h4, h5, h6]
  · split <;> simp [txPart, h1, h2, h6]

theorem loadTx_congr (p : Params) (acr : Byte) {x y : Channel} (h : txPart x = txPart y) :
    txPart (x.loadTx p acr) = txPart (y.loadTx p acr) := by
  simp only [txPart, Prod.mk.injEq] at h
  obtain ⟨h1, h2, h3, h4, h5, h6⟩ := h
  unfold Channel.loadTx Channel.delayTx
  rw [h1, h2, h3, h6]
  split <;> simp [txPart, h1, h2, h3, h4, h5, h6]

/-- Over n advances the receiver sees RX pacing alone. -/
theorem iterate_rxPart (p : Params) (acr : Byte) (x : Channel) (n : Nat) :
    rxPart (Nat.iterate (tick p acr) n x) = rxPart (Nat.iterate (Channel.advanceRx p acr) n x) := by
  induction n with
  | zero => rfl
  | succ n ih =>
    rw [Function.iterate_succ_apply', Function.iterate_succ_apply', tick, loadTx_rxPart, finishTx_rxPart]
    exact advanceRx_congr p acr ih

/-- Over n advances the transmitter sees TX pacing alone. -/
theorem iterate_txPart (p : Params) (acr : Byte) (x : Channel) (n : Nat) :
    txPart (Nat.iterate (tick p acr) n x) =
      txPart (Nat.iterate (fun y => (Channel.finishTx p y).1.loadTx p acr) n x) := by
  induction n with
  | zero => rfl
  | succ n ih =>
    rw [Function.iterate_succ_apply', Function.iterate_succ_apply', tick]
    exact loadTx_congr p acr (finishTx_congr p ((advanceRx_txPart ..).trans ih))

/-- Over n advances the counter sees its own rule alone. -/
theorem iterate_counterPart (p : Params) (d : Duart) (n : Nat) :
    counterPart (Nat.iterate (Duart.advance p) n d) = counterPart (Nat.iterate Duart.advanceCounter n d) := by
  induction n with
  | zero => rfl
  | succ n ih =>
    rw [Function.iterate_succ_apply', Function.iterate_succ_apply', advance_counterPart]
    exact advanceCounter_congr ih

/-! ## What accesses and advances keep -/

/-- A channel within its capacities; an idle transmitter has no countdown. -/
structure ChannelOk (p : Params) (x : Channel) : Prop where
  rx : x.rxHeld ≤ p.rxCapacity
  tx : x.txQueue.length ≤ p.txCapacity
  idle : x.txShift = none → x.txCount = 0

/-- Both channels within their capacities. -/
structure DuartOk (p : Params) (d : Duart) : Prop where
  a : ChannelOk p d.chA
  b : ChannelOk p d.chB

theorem ChannelOk.readMr {p : Params} {x : Channel} (h : ChannelOk p x) : ChannelOk p x.readMr.2 := by
  unfold Channel.readMr
  split
  · exact ⟨h.rx, h.tx, h.idle⟩
  · exact h

theorem ChannelOk.readRhr {p : Params} {x : Channel} (h : ChannelOk p x) : ChannelOk p x.readRhr.2 := by
  unfold Channel.readRhr
  split
  · refine ⟨?_, h.tx, h.idle⟩
    have := h.rx
    unfold Channel.rxHeld at *
    simp only [Option.isSome_none, Bool.false_eq_true, if_false]
    omega
  · exact h

theorem DuartOk.readByte {p : Params} {d : Duart} (h : DuartOk p d) (off : Nat) : DuartOk p (d.readByte p off).2 := by
  unfold Duart.readByte
  split
  · unfold Duart.readRegister
    split
    all_goals first
      | exact h
      | exact ⟨h.a.readMr, h.b⟩
      | exact ⟨h.a.readRhr, h.b⟩
      | exact ⟨h.a, h.b.readMr⟩
      | exact ⟨h.a, h.b.readRhr⟩
      | exact ⟨h.a, h.b⟩
  · exact h

theorem ChannelOk.writeMr {p : Params} {x : Channel} (h : ChannelOk p x) (v : Byte) : ChannelOk p (x.writeMr v) := by
  unfold Channel.writeMr
  split <;> exact ⟨h.rx, h.tx, h.idle⟩

theorem ChannelOk.writeCr {p : Params} {x : Channel} (h : ChannelOk p x) (v : Byte) : ChannelOk p (x.writeCr v) := by
  have hm : ∀ c, ChannelOk p (x.miscCommand c) := fun c => by
    unfold Channel.miscCommand
    split
    · exact ⟨h.rx, h.tx, h.idle⟩
    · exact ⟨Nat.zero_le _, h.tx, h.idle⟩
    · exact ⟨h.rx, Nat.zero_le _, fun _ => rfl⟩
    · exact h
  exact ⟨(hm _).rx, (hm _).tx, (hm _).idle⟩

theorem ChannelOk.writeThr {p : Params} {x : Channel} (h : ChannelOk p x) (v : Byte) : ChannelOk p
    (x.writeThr v) := by
  unfold Channel.writeThr
  split
  · exact ⟨h.rx, h.tx, h.idle⟩
  · exact h

theorem DuartOk.writeByte {p : Params} {d : Duart} (h : DuartOk p d) (off : Nat) (v : Byte) :
    DuartOk p (d.writeByte off v) := by
  have csr {x : Channel} (k : ChannelOk p x) : ChannelOk p { x with csr := v } := ⟨k.rx, k.tx, k.idle⟩
  unfold Duart.writeByte
  split
  · unfold Duart.writeRegister
    split
    all_goals first
      | exact ⟨h.a.writeMr v, h.b⟩
      | exact ⟨csr h.a, h.b⟩
      | exact ⟨h.a.writeCr v, h.b⟩
      | exact ⟨h.a.writeThr v, h.b⟩
      | exact ⟨h.a, h.b.writeMr v⟩
      | exact ⟨h.a, csr h.b⟩
      | exact ⟨h.a, h.b.writeCr v⟩
      | exact ⟨h.a, h.b.writeThr v⟩
      | exact ⟨h.a, h.b⟩
  · exact h

theorem ChannelOk.advanceRx {p : Params} {x : Channel} (h : ChannelOk p x) (acr : Byte) :
    ChannelOk p (x.advanceRx p acr) := by
  unfold Channel.advanceRx
  split
  · next b rest h1 h2 h3 =>
    dsimp only
    generalize (if x.rxCount = 0 then x.delayRx p acr else x.rxCount) - 1 = c
    split
    · refine ⟨?_, h.tx, h.idle⟩
      have := h.rx
      simp only [Channel.rxHeld, h2, h3, List.length_cons, Option.isSome_none, Option.isSome_some, Bool.false_eq_true,
        if_false, if_true] at this ⊢
      omega
    · exact ⟨h.rx, h.tx, h.idle⟩
  · exact h

theorem ChannelOk.finishTx {p : Params} {x : Channel} (h : ChannelOk p x) : ChannelOk p (x.finishTx p).1 := by
  unfold Channel.finishTx
  split
  · exact h
  · next b hb =>
    split
    · next hc =>
      exact ⟨h.rx, by simp only [List.length_append, List.length_singleton]; omega, fun _ => rfl⟩
    · exact ⟨h.rx, h.tx, fun hn => by rw [hb] at hn; cases hn⟩

theorem ChannelOk.loadTx {p : Params} {x : Channel} (h : ChannelOk p x) (acr : Byte) : ChannelOk p
    (x.loadTx p acr) := by
  unfold Channel.loadTx
  split
  · exact ⟨h.rx, h.tx, fun hn => by cases hn⟩
  · exact h

theorem DuartOk.advance {p : Params} {d : Duart} (h : DuartOk p d) : DuartOk p (d.advance p) := by
  have bell {d : Duart} (b : Bool) (k : DuartOk p d) : DuartOk p { d with bell := b } := ⟨k.a, k.b⟩
  have step {d : Duart} (k : DuartOk p d) (c : ChannelId) : DuartOk p (d.advanceChannel p c) := by
    have ks : ∀ y, ChannelOk p y → DuartOk p (d.setChannel c y) := fun y hy => by
      cases c
      · exact ⟨hy, k.b⟩
      · exact ⟨k.a, hy⟩
    have kc : ChannelOk p (d.channel c) := by
      cases c
      · exact k.a
      · exact k.b
    unfold Duart.advanceChannel
    dsimp only
    split
    · exact bell _ (ks _ (((kc.advanceRx _).finishTx).loadTx _))
    · exact ks _ (((kc.advanceRx _).finishTx).loadTx _)
  have h2 := step (step h .a) .b
  unfold Duart.advance Duart.advanceCounter
  split
  · split
    · exact ⟨h2.a, h2.b⟩
    · exact ⟨h2.a, h2.b⟩
  · exact h2

theorem DuartOk.reset (p : Params) : DuartOk p Duart.reset :=
  ⟨⟨Nat.zero_le _, Nat.zero_le _, fun _ => rfl⟩, ⟨Nat.zero_le _, Nat.zero_le _, fun _ => rfl⟩⟩

end Sys2Proof.Machine
end

