-- ==== Sys2Proof/Laws/Encoding.lean ====
section
/-! SUPPORT. The decoder and the encoder on operands and operand fields (30_encoding.md R310 to R345): each undoes the
other, and the encoding is as long as R321 counts it. -/

namespace Sys2Proof

/-! ## Raw fields -/

theorem half_of_stream (h : Half) : halfOfStream (h.extractLsb' 0 8) (h.extractLsb' 8 8) = h := by
  apply BitVec.eq_of_getLsbD_eq
  intro i hi
  simp only [halfOfStream, BitVec.getLsbD_append, BitVec.getLsbD_extractLsb']
  interval_cases i <;> simp

theorem word_of_stream (w : Word) :
    wordOfStream (w.extractLsb' 0 8) (w.extractLsb' 8 8) (w.extractLsb' 16 8) (w.extractLsb' 24 8) = w := by
  apply BitVec.eq_of_getLsbD_eq
  intro i hi
  simp only [wordOfStream, BitVec.getLsbD_append, BitVec.getLsbD_extractLsb']
  interval_cases i <;> simp

theorem stream_of_half (b0 b1 : Byte) : streamOfHalf (halfOfStream b0 b1) = [b0, b1] := by
  have e0 : (b1 ++ b0).extractLsb' 0 8 = b0 := by
    apply BitVec.eq_of_getLsbD_eq
    intro i hi
    simp only [BitVec.getLsbD_append, BitVec.getLsbD_extractLsb']
    interval_cases i <;> simp
  have e1 : (b1 ++ b0).extractLsb' 8 8 = b1 := by
    apply BitVec.eq_of_getLsbD_eq
    intro i hi
    simp only [BitVec.getLsbD_append, BitVec.getLsbD_extractLsb']
    interval_cases i <;> simp
  exact congrArg₂ (fun x y => [x, y]) e0 e1

theorem stream_of_word (b0 b1 b2 b3 : Byte) : streamOfWord (wordOfStream b0 b1 b2 b3) = [b0, b1, b2, b3] := by
  have bit (lo : Nat) (x : Byte) (h : ∀ i, i < 8 → (b3 ++ b2 ++ b1 ++ b0).getLsbD (lo + i) = x.getLsbD i) :
      (b3 ++ b2 ++ b1 ++ b0).extractLsb' lo 8 = x := by
    apply BitVec.eq_of_getLsbD_eq
    intro i hi
    rw [BitVec.getLsbD_extractLsb', h i hi]
    simp [hi]
  have e0 := bit 0 b0 fun i hi => by
    simp only [BitVec.getLsbD_append]
    interval_cases i <;> simp
  have e1 := bit 8 b1 fun i hi => by
    simp only [BitVec.getLsbD_append]
    interval_cases i <;> simp
  have e2 := bit 16 b2 fun i hi => by
    simp only [BitVec.getLsbD_append]
    interval_cases i <;> simp
  have e3 := bit 24 b3 fun i hi => by
    simp only [BitVec.getLsbD_append]
    interval_cases i <;> simp
  show [_, _, _, _] = _
  unfold wordOfStream
  rw [e0, e1, e2, e3]

theorem take16_stream {α : Type} (h : Half) (rest : List Byte) (k : Half → List Byte → Except DecodeStop α) :
    take16 (streamOfHalf h ++ rest) k = k h rest := by
  show k (halfOfStream _ _) rest = _
  rw [half_of_stream]

theorem take32_stream {α : Type} (w : Word) (rest : List Byte) (k : Word → List Byte → Except DecodeStop α) :
    take32 (streamOfWord w ++ rest) k = k w rest := by
  show k (wordOfStream _ _ _ _) rest = _
  rw [word_of_stream]

theorem take8_ok {α : Type} {bs : List Byte} {k : Byte → List Byte → Except DecodeStop α} {x : α}
    (h : take8 bs k = .ok x) : ∃ b rest, bs = b :: rest ∧ k b rest = .ok x := by
  cases bs with
  | nil => cases h
  | cons b rest => exact ⟨b, rest, rfl, h⟩

theorem take16_ok {α : Type} {bs : List Byte} {k : Half → List Byte → Except DecodeStop α} {x : α}
    (h : take16 bs k = .ok x) : ∃ v rest, bs = streamOfHalf v ++ rest ∧ k v rest = .ok x := by
  match bs, h with
  | b0 :: b1 :: rest, h => exact ⟨_, rest, by rw [stream_of_half]; rfl, h⟩

theorem take32_ok {α : Type} {bs : List Byte} {k : Word → List Byte → Except DecodeStop α} {x : α}
    (h : take32 bs k = .ok x) : ∃ v rest, bs = streamOfWord v ++ rest ∧ k v rest = .ok x := by
  match bs, h with
  | b0 :: b1 :: b2 :: b3 :: rest, h => exact ⟨_, rest, by rw [stream_of_word]; rfl, h⟩

/-! ## Descriptors -/

theorem descReg_val (d : Byte) : (descReg d).val = d.toNat % 16 := rfl

theorem descByte_toNat {m : Nat} (h : m < 16) (r : RegNum) : (descByte m r).toNat = m * 16 + r.val := by
  have := r.isLt
  show (m * 16 + r.val) % 2 ^ 8 = _
  omega

theorem descByte_mode {m : Nat} (h : m < 16) (r : RegNum) : (descByte m r).toNat / 16 = m := by
  have := r.isLt
  rw [descByte_toNat h]; omega

theorem descByte_reg {m : Nat} (h : m < 16) (r : RegNum) : descReg (descByte m r) = r := by
  have := r.isLt
  apply Fin.ext
  rw [descReg_val, descByte_toNat h]; omega

/-- A descriptor is its mode and register fields. -/
theorem descByte_self {d : Byte} {m : Nat} (h : d.toNat / 16 = m) : d = descByte m (descReg d) := by
  have := d.isLt
  apply BitVec.eq_of_toNat_eq
  rw [descByte_toNat (by omega), descReg_val]; omega

theorem etypeOf_eq (d : Byte) {t : EType} (h : etypeOf d = some t) : d = encodeEType t := by
  have : ∀ d : Fin 256, ∀ t ∈ ([.uword, .uhalf, .ubyte, .sword, .shalf, .sbyte] : List EType),
      etypeOf (BitVec.ofFin d) = some t → BitVec.ofFin d = encodeEType t := by decide +kernel
  exact this d.toFin t (by cases t <;> decide) h

theorem etypeOf_encode (t : EType) : etypeOf (encodeEType t) = some t := by cases t <;> rfl

theorem etypeOf_none {d : Byte} (h : d.toNat / 16 ≠ 14 ∨ d.toNat = 0xEF) : etypeOf d = none := by
  unfold etypeOf
  split <;> first | rfl | omega

/-! ## Forms and operands -/

/-- The first byte of a form is no expanded type. -/
theorem encodeForm_head (f : Form) : ∃ d rest, encodeForm f = d :: rest ∧ etypeOf d = none := by
  have desc (m : Nat) (h : m < 14 ∨ m = 15) (r : RegNum) : etypeOf (descByte m r) = none :=
    etypeOf_none (.inl (by rw [descByte_mode (by omega)]; omega))
  cases f with
  | posLit v =>
    refine ⟨_, _, rfl, etypeOf_none (.inl ?_)⟩
    have := v.isLt
    show v.val % 2 ^ 8 / 16 ≠ 14
    omega
  | wordImm v | halfImm v | byteImm v | absolute v | absDef v => exact ⟨_, _, rfl, rfl⟩
  | _ => exact ⟨_, _, rfl, desc _ (by decide) _⟩

/-- Decoding an encoded form gives it back. -/
theorem decodeForm_encode {f : Form} (h : f.encodable = true) (rest : List Byte) {d : Byte} {ds : List Byte}
    (e : encodeForm f = d :: ds) : decodeForm d (ds ++ rest) = .ok (f, rest) := by
  have mode (m : Nat) (hm : m < 16) (r : RegNum) := descByte_mode hm r
  have reg (m : Nat) (hm : m < 16) (r : RegNum) := descByte_reg hm r
  cases f with
  | posLit v =>
    cases e
    have hv := v.isLt
    have e1 : (BitVec.ofNat 8 v.val).toNat = v.val := by show v.val % 2 ^ 8 = _; omega
    have e2 : Fin.ofNat 64 v.val = v := by apply Fin.ext; show v.val % 64 = _; omega
    have : v.val / 16 = 0 ∨ v.val / 16 = 1 ∨ v.val / 16 = 2 ∨ v.val / 16 = 3 := by omega
    unfold decodeForm
    rw [e1]
    rcases this with h | h | h | h <;> simp only [h, e2] <;> rfl
  | negLit k =>
    cases e
    simp only [decodeForm, mode 15 (by decide), reg 15 (by decide), List.nil_append]
  | reg r =>
    cases e
    simp only [Form.encodable, bne_iff_ne, ne_eq] at h
    simp only [decodeForm, mode 4 (by decide), reg 4 (by decide), h, if_false, List.nil_append]
  | wordImm v =>
    cases e
    exact Eq.trans (b := take32 (streamOfWord v ++ rest) fun v rest => .ok (.wordImm v, rest)) rfl (take32_stream ..)
  | halfImm v =>
    cases e
    exact Eq.trans (b := take16 (streamOfHalf v ++ rest) fun v rest => .ok (.halfImm v, rest)) rfl (take16_stream ..)
  | byteImm v =>
    cases e
    rfl
  | regDef r =>
    cases e
    simp only [Form.encodable, Bool.and_eq_true, bne_iff_ne, ne_eq] at h
    simp only [decodeForm, mode 5 (by decide), reg 5 (by decide), h.1, h.2, if_false, List.nil_append]
  | fpShort k =>
    cases e
    simp only [decodeForm, mode 6 (by decide), reg 6 (by decide), List.nil_append]
    rw [dif_pos (show (k.castSucc).val < 15 from k.isLt)]
    rfl
  | apShort k =>
    cases e
    simp only [decodeForm, mode 7 (by decide), reg 7 (by decide), List.nil_append]
    rw [dif_pos (show (k.castSucc).val < 15 from k.isLt)]
    rfl
  | absolute a =>
    cases e
    exact Eq.trans (b := take32 (streamOfWord a ++ rest) fun a rest => .ok (.absolute a, rest)) rfl (take32_stream ..)
  | absDef a =>
    cases e
    exact Eq.trans (b := take32 (streamOfWord a ++ rest) fun a rest => .ok (.absDef a, rest)) rfl (take32_stream ..)
  | wordDisp r v =>
    cases e
    simp only [Form.encodable, bne_iff_ne, ne_eq] at h
    simp only [decodeForm, dispReg, mode 8 (by decide), reg 8 (by decide), h, if_false, take32_stream]
  | wordDispDef r v =>
    cases e
    simp only [Form.encodable, bne_iff_ne, ne_eq] at h
    simp only [decodeForm, dispReg, mode 9 (by decide), reg 9 (by decide), h, if_false, take32_stream]
  | halfDisp r v =>
    cases e
    simp only [Form.encodable, bne_iff_ne, ne_eq] at h
    simp only [decodeForm, dispReg, mode 10 (by decide), reg 10 (by decide), h, if_false, take16_stream]
  | halfDispDef r v =>
    cases e
    simp only [Form.encodable, bne_iff_ne, ne_eq] at h
    simp only [decodeForm, dispReg, mode 11 (by decide), reg 11 (by decide), h, if_false, take16_stream]
  | byteDisp r v =>
    cases e
    simp only [Form.encodable, bne_iff_ne, ne_eq] at h
    simp only [decodeForm, dispReg, mode 12 (by decide), reg 12 (by decide), h, if_false, List.cons_append, take8,
      List.nil_append]
  | byteDispDef r v =>
    cases e
    simp only [Form.encodable, bne_iff_ne, ne_eq] at h
    simp only [decodeForm, dispReg, mode 13 (by decide), reg 13 (by decide), h, if_false, List.cons_append, take8,
      List.nil_append]

/-- Decoding an encoded operand gives it back, with any expanded type. -/
theorem decodeOperand_encode {o : Operand} (h : o.form.encodable = true) (rest : List Byte) :
    decodeOperand (encodeOperand o ++ rest) = .ok (o, rest) := by
  obtain ⟨t, f⟩ := o
  obtain ⟨d, ds, e, hd⟩ := encodeForm_head f
  have hf := decodeForm_encode h rest e
  cases t with
  | none =>
    show decodeOperand (encodeForm f ++ rest) = _
    rw [e]
    simp only [decodeOperand, List.cons_append, hd, hf]
  | some t =>
    show decodeOperand (encodeEType t :: (encodeForm f ++ rest)) = _
    rw [e]
    simp only [decodeOperand, List.cons_append, etypeOf_encode, hd, hf]

theorem dispReg_ok {α : Type} {d : Byte} {rest : List Byte} {k : RegNum → Except DecodeStop α} {x : α}
    (h : dispReg d rest k = .ok x) : descReg d ≠ 11 ∧ k (descReg d) = .ok x := by
  unfold dispReg at h
  split at h
  · cases h
  · next hn => exact ⟨hn, h⟩

/-- What a form was decoded from is its encoding. -/
theorem decodeForm_ok {d : Byte} {bs rest : List Byte} {f : Form} (h : decodeForm d bs = .ok (f, rest)) :
    d :: bs = encodeForm f ++ rest ∧ f.encodable = true := by
  have ok {a b : Form × List Byte} (e : Except.ok (ε := DecodeStop) a = .ok b) : a = b := by injection e
  have desc (m : Nat) (r : RegNum) (hm : d.toNat / 16 = m) (hr : descReg d = r) : d = descByte m r := by
    rw [← hr]; exact descByte_self hm
  unfold decodeForm at h
  dsimp only at h
  split at h
  case h_1 hm | h_2 hm | h_3 hm | h_4 hm =>
    cases ok h
    refine ⟨?_, rfl⟩
    have : d = BitVec.ofNat 8 (Fin.ofNat 64 d.toNat).val := by
      apply BitVec.eq_of_toNat_eq
      show d.toNat = d.toNat % 64 % 2 ^ 8
      omega
    show _ = _ :: _
    rw [← this]; rfl
  case h_5 hm =>
    split at h
    · next hr =>
      obtain ⟨v, rest', rfl, h'⟩ := take32_ok h
      cases ok h'
      exact ⟨by rw [desc 4 15 hm hr]; rfl, rfl⟩
    · next hr =>
      cases ok h
      exact ⟨by rw [desc 4 _ hm rfl, descByte_reg (by decide)]; rfl, by simp [Form.encodable, hr]⟩
  case h_6 hm =>
    split at h
    · next hr =>
      obtain ⟨v, rest', rfl, h'⟩ := take16_ok h
      cases ok h'
      exact ⟨by rw [desc 5 15 hm hr]; rfl, rfl⟩
    · next hr =>
      split at h
      · cases h
      · next hr' =>
        cases ok h
        exact ⟨by rw [desc 5 _ hm rfl, descByte_reg (by decide)]; rfl, by simp [Form.encodable, hr, hr']⟩
  case h_7 hm =>
    split at h
    · next hr =>
      cases ok h
      exact ⟨congrArg (· :: _) (desc 6 _ hm rfl), rfl⟩
    · next hr =>
      obtain ⟨v, rest', rfl, h'⟩ := take8_ok h
      cases ok h'
      exact ⟨congrArg (· :: _) (desc 6 15 hm (Fin.ext (by have := (descReg d).isLt; show _ = 15; omega))), rfl⟩
  case h_8 hm =>
    split at h
    · next hr =>
      cases ok h
      exact ⟨congrArg (· :: _) (desc 7 _ hm rfl), rfl⟩
    · next hr =>
      obtain ⟨v, rest', rfl, h'⟩ := take32_ok h
      cases ok h'
      exact ⟨congrArg (· :: _) (desc 7 15 hm (Fin.ext (by have := (descReg d).isLt; show _ = 15; omega))), rfl⟩
  case h_9 hm =>
    obtain ⟨hr, h⟩ := dispReg_ok h
    obtain ⟨v, rest', rfl, h'⟩ := take32_ok h
    cases ok h'
    exact ⟨congrArg (· :: _) (desc 8 _ hm rfl), by simp [Form.encodable, hr]⟩
  case h_10 hm =>
    obtain ⟨hr, h⟩ := dispReg_ok h
    obtain ⟨v, rest', rfl, h'⟩ := take32_ok h
    cases ok h'
    exact ⟨congrArg (· :: _) (desc 9 _ hm rfl), by simp [Form.encodable, hr]⟩
  case h_11 hm =>
    obtain ⟨hr, h⟩ := dispReg_ok h
    obtain ⟨v, rest', rfl, h'⟩ := take16_ok h
    cases ok h'
    exact ⟨congrArg (· :: _) (desc 10 _ hm rfl), by simp [Form.encodable, hr]⟩
  case h_12 hm =>
    obtain ⟨hr, h⟩ := dispReg_ok h
    obtain ⟨v, rest', rfl, h'⟩ := take16_ok h
    cases ok h'
    exact ⟨congrArg (· :: _) (desc 11 _ hm rfl), by simp [Form.encodable, hr]⟩
  case h_13 hm =>
    obtain ⟨hr, h⟩ := dispReg_ok h
    obtain ⟨v, rest', rfl, h'⟩ := take8_ok h
    cases ok h'
    exact ⟨congrArg (· :: _) (desc 12 _ hm rfl), by simp [Form.encodable, hr]⟩
  case h_14 hm =>
    obtain ⟨hr, h⟩ := dispReg_ok h
    obtain ⟨v, rest', rfl, h'⟩ := take8_ok h
    cases ok h'
    exact ⟨congrArg (· :: _) (desc 13 _ hm rfl), by simp [Form.encodable, hr]⟩
  case h_15 hm =>
    split at h
    · next hr =>
      obtain ⟨v, rest', rfl, h'⟩ := take32_ok h
      cases ok h'
      exact ⟨by rw [desc 14 15 hm hr]; rfl, rfl⟩
    · cases h
  case h_16 =>
    have hm : d.toNat / 16 = 15 := by
      have := d.isLt
      simp only [imp_false] at *
      omega
    cases ok h
    exact ⟨congrArg (· :: _) (desc 15 _ hm rfl), rfl⟩

/-- What an operand was decoded from is its encoding. -/
theorem decodeOperand_ok {bs rest : List Byte} {o : Operand} (h : decodeOperand bs = .ok (o, rest)) :
    bs = encodeOperand o ++ rest ∧ o.form.encodable = true := by
  cases bs with
  | nil => cases h
  | cons d bs =>
    simp only [decodeOperand] at h
    split at h
    · split at h
      · next hf => cases h; exact decodeForm_ok hf
      · cases h
    · next t ht =>
      cases bs with
      | nil => cases h
      | cons d' bs =>
        dsimp only at h
        split at h
        · cases h
        · split at h
          · next hf =>
            cases h
            obtain ⟨e, he⟩ := decodeForm_ok hf
            exact ⟨by rw [e, etypeOf_eq d ht]; rfl, he⟩
          · cases h

/-! ## Fields -/

theorem decodeNext_encode {α : Type} (c : OpClass) {o : Operand} (h : o.form.encodable = true) (rest : List Byte)
    {k : Operand → List Byte → Except DecodeStop α} {x : α} (hk : k o rest = .ok x) :
    decodeNext c (encodeOperand o ++ rest) k = .ok x := by
  unfold decodeNext
  rw [decodeOperand_encode h]
  dsimp only
  rw [hk]

theorem decodeNext_ok {α : Type} {c : OpClass} {bs : List Byte} {k : Operand → List Byte → Except DecodeStop α} {x : α}
    (h : decodeNext c bs k = .ok x) :
    ∃ o rest, bs = encodeOperand o ++ rest ∧ o.form.encodable = true ∧ k o rest = .ok x := by
  unfold decodeNext at h
  split at h
  · cases h
  · next o rest ho =>
    obtain ⟨e, he⟩ := decodeOperand_ok ho
    split at h
    · next hk => cases h; exact ⟨o, rest, e, he, hk⟩
    · split at h <;> cases h

theorem orRefused_ok {α : Type} {b : Bool} {bs : List Byte} {x : Except DecodeStop α} {r : α}
    (h : orRefused b bs x = .ok r) : x = .ok r := by
  cases x with
  | ok y => exact h
  | error e => cases h

/-! ## Lengths -/

theorem encodeForm_length (f : Form) : (encodeForm f).length = f.len := by
  cases f <;> rfl

theorem encodeOperand_length (o : Operand) : (encodeOperand o).length = o.len := by
  obtain ⟨t, f⟩ := o
  cases t with
  | none => exact encodeForm_length f
  | some t => exact congrArg (· + 1) (encodeForm_length f)

theorem encodeField_length (f : Field) : (encodeField f).length = f.len := by
  cases f with
  | g c o => exact encodeOperand_length o
  | _ => rfl

/-- The encoding is as long as R321 and R345 count it. -/
theorem encode_length (i : Instr) : (encode i).length = i.length := by
  unfold encode Instr.length
  rw [List.length_append, List.length_flatMap]
  congr 2
  exact List.map_congr_left fun f _ => encodeField_length f

theorem operand_len_le (o : Operand) : 1 ≤ o.len ∧ o.len ≤ 6 := by
  obtain ⟨t, f⟩ := o
  cases t <;> cases f <;> exact ⟨by simp [Operand.len, Form.len], by simp [Operand.len, Form.len]⟩

end Sys2Proof
end

