-- ==== Sys2Proof/Laws/Host.lean ====
section
/-! SUPPORT. The host's debug accesses (70_reset_and_hazards.md R934): bytes loaded and big-endian numbers. -/

namespace Sys2Proof.Machine

/-- Loaded bytes leave every other byte as it was. -/
theorem Memory.read_load_ne (m : Memory) (a : Nat) (bs : List Byte) {b : Nat} (h : b < a ∨ a + bs.length ≤ b) :
    (m.load a bs).read b = m.read b := by
  induction bs generalizing m a with
  | nil => rfl
  | cons x rest ih =>
    simp only [List.length_cons] at h
    exact (ih (m.write a x) (a + 1) (by omega)).trans (Memory.read_write_ne m x (by omega))

/-- Loaded bytes are read back. -/
theorem Memory.read_load {m : Memory} (wf : m.wf) (a : Nat) (bs : List Byte) {k : Nat} (h : k < bs.length) :
    (m.load a bs).read (a + k) = bs[k] := by
  induction bs generalizing m a k with
  | nil => simp at h
  | cons x rest ih =>
    cases k with
    | zero =>
      show ((m.write a x).load (a + 1) rest).read a = x
      rw [Memory.read_load_ne _ _ _ (by omega), Memory.read_write_self wf]
    | succ k =>
      simp only [List.length_cons] at h
      have := ih (Memory.wf_write wf a x) (a + 1) (k := k) (by omega)
      rw [List.getElem_cons_succ, ← this, show a + (k + 1) = a + 1 + k by omega]
      rfl

theorem valueByte_toNat (n : Nat) (v : Word) (k : Nat) :
    (valueByte n v k).toNat = v.toNat / 2 ^ (8 * (n - 1 - k)) % 256 := by
  simp only [valueByte, BitVec.extractLsb'_toNat, Nat.shiftRight_eq_div_pow]

/-- One, two or four bytes as a big-endian number: it has as many bits, and its bytes are those. -/
theorem bigEndian_one (b : Byte) : (BitVec.ofNat 32 (bigEndian 0 [b])).toNat < 2 ^ 8 ∧
    ∀ k, k < 1 → valueByte 1 (BitVec.ofNat 32 (bigEndian 0 [b])) k = b := by
  have := b.isLt
  simp only [bigEndian]
  refine ⟨by simp only [BitVec.toNat_ofNat]; omega, fun k hk => BitVec.eq_of_toNat_eq ?_⟩
  rw [valueByte_toNat, BitVec.toNat_ofNat, show k = 0 by omega]
  norm_num
  omega

theorem bigEndian_two (b0 b1 : Byte) : (BitVec.ofNat 32 (bigEndian 0 [b0, b1])).toNat < 2 ^ 16 ∧
    ∀ k, k < 2 → valueByte 2 (BitVec.ofNat 32 (bigEndian 0 [b0, b1])) k = [b0, b1].getD k 0 := by
  have := b0.isLt
  have := b1.isLt
  simp only [bigEndian]
  refine ⟨by simp only [BitVec.toNat_ofNat]; omega, fun k hk => BitVec.eq_of_toNat_eq ?_⟩
  rw [valueByte_toNat, BitVec.toNat_ofNat]
  rcases (show k = 0 ∨ k = 1 by omega) with rfl | rfl <;> norm_num <;> omega

theorem bigEndian_four (b0 b1 b2 b3 : Byte) : (BitVec.ofNat 32 (bigEndian 0 [b0, b1, b2, b3])).toNat < 2 ^ 32 ∧
    ∀ k, k < 4 → valueByte 4 (BitVec.ofNat 32 (bigEndian 0 [b0, b1, b2, b3])) k = [b0, b1, b2, b3].getD k 0 := by
  have := b0.isLt
  have := b1.isLt
  have := b2.isLt
  have := b3.isLt
  simp only [bigEndian]
  refine ⟨by simp only [BitVec.toNat_ofNat]; omega, fun k hk => BitVec.eq_of_toNat_eq ?_⟩
  rw [valueByte_toNat, BitVec.toNat_ofNat]
  rcases (show k = 0 ∨ k = 1 ∨ k = 2 ∨ k = 3 by omega) with rfl | rfl | rfl | rfl <;> norm_num <;> omega

end Sys2Proof.Machine
end

