-- ==== Sys2Proof/Laws/Step.lean ====
section
/-! SUPPORT. What one step does around the instruction it executes: TM and TE, the fetch window, interrupt entry, the
interrupt chosen. -/

namespace Sys2Proof.Machine

/-! ## The start of an instruction -/

theorem startTrace_bit (s : State) (k : Nat) (h : k ≠ 2) : s.startTrace.psw.getLsbD k = s.psw.getLsbD k := by
  unfold State.startTrace Psw.setTm
  rw [setPsw_psw, setField_bit _ _ _ _ _ (by decide), if_neg (by omega)]

@[simp] theorem startTrace_params (s : State) : s.startTrace.params = s.params := rfl
@[simp] theorem startTrace_mem (s : State) : s.startTrace.mem = s.mem := rfl
@[simp] theorem startTrace_trace (s : State) : s.startTrace.trace = s.trace := rfl
@[simp] theorem startTrace_pc (s : State) : s.startTrace.pc = s.pc := setPsw_pc ..

theorem startTrace_cm (s : State) : Psw.cm s.startTrace.psw = Psw.cm s.psw := by
  unfold State.startTrace Psw.setTm Psw.cm
  rw [setPsw_psw, psw_field_ne _ _ (by decide) (by decide)]

@[simp] theorem startTrace_kernel (s : State) : s.startTrace.kernel = s.kernel := by
  simp [State.kernel, startTrace_cm]

/-- The fetch reads memory, the parameters and the PC only. -/
theorem fetchStream_congr {s t : State} (hp : t.params = s.params) (hm : t.mem = s.mem) (a : Word) (n : Nat) :
    fetchStream t a n = fetchStream s a n := by
  induction n generalizing a with
  | zero => rfl
  | succ n ih => simp only [fetchStream, hp, hm, ih]

@[simp] theorem startTrace_window (s : State) : fetchWindow s.startTrace = fetchWindow s := by
  unfold fetchWindow
  rw [startTrace_pc]
  exact fetchStream_congr rfl rfl ..

/-- A step with nothing to accept executes one instruction. -/
theorem step_eq {s : State} (h1 : s.status = .running) (h2 : s.waiting = false)
    (h3 : pickIrq s.params s.pending (Psw.ipl s.psw) = none) :
    step s = match executeAt exec s.startTrace with
      | .next t => .next (endOfStep t)
      | .fault f => .fault f
      | .refused r => .refused r := by
  have e : checkInterrupt s = s := by unfold checkInterrupt; rw [h3]
  unfold step stepWith
  rw [if_pos h1, e]
  dsimp only
  rw [if_pos h1, h2]
  all_goals rfl

/-- What executing the instruction at the PC is, when it decodes. -/
theorem executeAt_ok {s : State} {i : Instr} {rest : List Byte} (h : decode (fetchWindow s) = .ok (i, rest)) :
    executeAt exec s = match exec i s with
      | .next t => .next { t with trace := some (traceOf s i (fetchWindow s)) }
      | .fault f => .fault f
      | .refused r => .refused r := by
  unfold executeAt
  rw [h]
  all_goals rfl

/-- What executing the instruction at the PC is, when it does not decode. -/
theorem executeAt_error {s : State} {e : DecodeError} (h : decode (fetchWindow s) = .error e) :
    executeAt exec s =
      .next { takeTrap (decodeTrap s e.why) s with trace := traceOfError s e (fetchWindow s) } := by
  unfold executeAt
  rw [h]

/-! ## Interrupts -/

/-- A request that can be chosen among the sources. -/
def IrqReady (p : Params) (pending : Vector Bool 5) (threshold : BitVec 4) (j : Fin 5) : Prop :=
  pending[j] = true ∧ threshold < p.irqPriority[j]

/-- What a choice among the sources below n is. -/
structure BestBelow (p : Params) (pending : Vector Bool 5) (threshold : BitVec 4) (n : Nat) (x : Option (Fin 5)) :
    Prop where
  best : ∀ i, x = some i → i.val < n ∧ IrqReady p pending threshold i ∧ ∀ j : Fin 5, j.val < n →
    IrqReady p pending threshold j →
    p.irqPriority[j] < p.irqPriority[i] ∨ (p.irqPriority[j] = p.irqPriority[i] ∧ i ≤ j)
  none : x = .none → ∀ j : Fin 5, j.val < n → ¬ IrqReady p pending threshold j

theorem BestBelow.next {p : Params} {pending : Vector Bool 5} {threshold : BitVec 4} {k : Fin 5} {x : Option (Fin 5)}
    (h : BestBelow p pending threshold k.val x) :
    BestBelow p pending threshold (k.val + 1) (betterIrq p x
      (if pending[k] && decide (threshold < p.irqPriority[k]) then some k else .none)) := by
  have split (j : Fin 5) (hj : j.val < k.val + 1) : j.val < k.val ∨ j = k := by
    rcases Nat.lt_or_ge j.val k.val with h | h
    · exact .inl h
    · exact .inr (Fin.ext (by omega))
  by_cases hk : IrqReady p pending threshold k
  · have e : (if pending[k] && decide (threshold < p.irqPriority[k]) then some k else Option.none) = some k := by
      simp only [hk.1, hk.2, decide_true, Bool.and_self, if_true]
    rw [e]
    cases x with
    | none =>
      refine ⟨fun i hi => ?_, fun hi => by cases hi⟩
      cases hi
      refine ⟨by omega, hk, fun j hj hr => ?_⟩
      rcases split j hj with hj | rfl
      · exact absurd hr (h.none rfl j hj)
      · exact .inr ⟨rfl, Fin.le_refl _⟩
    | some i =>
      obtain ⟨h1, h2, h3⟩ := h.best i rfl
      simp only [betterIrq]
      by_cases hlt : p.irqPriority[i] < p.irqPriority[k]
      · rw [if_pos hlt]
        refine ⟨fun i' hi => ?_, fun hi => by cases hi⟩
        cases hi
        refine ⟨by omega, hk, fun j hj hr => ?_⟩
        rcases split j hj with hj | rfl
        · rcases h3 j hj hr with h | ⟨h, -⟩
          · exact .inl (BitVec.lt_trans h hlt)
          · exact .inl (by rw [h]; exact hlt)
        · exact .inr ⟨rfl, Fin.le_refl _⟩
      · rw [if_neg hlt]
        refine ⟨fun i' hi => ?_, fun hi => by cases hi⟩
        cases hi
        refine ⟨by omega, h2, fun j hj hr => ?_⟩
        rcases split j hj with hj | rfl
        · exact h3 j hj hr
        · rw [BitVec.lt_def] at hlt ⊢
          rcases Nat.lt_or_ge p.irqPriority[j].toNat p.irqPriority[i].toNat with h | h
          · exact .inl h
          · exact .inr ⟨BitVec.eq_of_toNat_eq (by omega), by show i.val ≤ j.val; omega⟩
  · have e : (if pending[k] && decide (threshold < p.irqPriority[k]) then some k else Option.none) = .none := by
      rw [if_neg]
      intro hc
      rw [Bool.and_eq_true, decide_eq_true_eq] at hc
      exact hk hc
    rw [e]
    have e2 : betterIrq p x .none = x := by cases x <;> rfl
    rw [e2]
    refine ⟨fun i hi => ?_, fun hi j hj hr => ?_⟩
    · obtain ⟨h1, h2, h3⟩ := h.best i hi
      refine ⟨by omega, h2, fun j hj hr => ?_⟩
      rcases split j hj with hj | rfl
      · exact h3 j hj hr
      · exact absurd hr hk
    · rcases split j hj with hj | rfl
      · exact h.none hi j hj hr
      · exact hk hr

/-- The interrupt chosen is the best of the five sources (R842). -/
theorem pickIrq_best (p : Params) (pending : Vector Bool 5) (threshold : BitVec 4) :
    BestBelow p pending threshold 5 (pickIrq p pending threshold) := by
  have h0 : BestBelow p pending threshold 0 .none :=
    ⟨fun i h => (by cases h), fun _ j hj => absurd hj (Nat.not_lt_zero _)⟩
  have h1 := h0.next (k := 0)
  have e : ∀ y, betterIrq p .none y = y := fun _ => rfl
  rw [e] at h1
  exact (((h1.next (k := 1)).next (k := 2)).next (k := 3)).next (k := 4)

/-- Interrupt entry where the frame and the table can be reached (R843). -/
theorem takeInterrupt_spec {s : State} (i : Fin 5) (h : GateReady s 0 (gateOffset (irqVectorIndex i)))
    (wf : s.mem.wf) :
    ∃ m, MemHolds s s.sp [s.pc, interruptPsw s.psw] m ∧
      takeInterrupt i s = { (({ s with mem := m }.setSp (s.sp + 8)).setPsw
        (gatePsw s.psw (wordAt s (gateEntry s 0 (gateOffset (irqVectorIndex i)))) (some s.params.irqPriority[i]))).setPc
        (wordAt s (gateEntry s 0 (gateOffset (irqVectorIndex i)) + 4)) with
          pending := s.pending.set i.val false i.isLt, waiting := false } := by
  obtain ⟨m, hm, e⟩ := gateTransfer_spec s.pc (interruptPsw s.psw) (some s.params.irqPriority[i]) h wf
  refine ⟨m, hm, ?_⟩
  unfold takeInterrupt
  rw [e]
  rfl

end Sys2Proof.Machine
end

