-- ==== Sys2Proof/Laws/Invariant.lean ====
section
/-! SUPPORT. What every access, register update, trap and advance keeps: the parts of `Safe`, ROM bytes and parameters, and
the registers that user mode cannot change. -/

namespace Sys2Proof.Machine

/-! ## The PSW's reserved bits (10_state.md R110, R111) -/

theorem notMask_bit (k : Nat) (h : k < 32) : (~~~Config.pswMask).getLsbD k = decide (26 ≤ k) := by
  rw [BitVec.getLsbD_not, pswMask_bit]
  by_cases h2 : k < 26
  · simp [h2, show ¬ 26 ≤ k by omega]
  · simp [h, h2, show 26 ≤ k by omega]

/-- A PSW has its reserved bits 0 when bits 26 up are 0. -/
theorem reserved_iff (w : Word) : w &&& ~~~Config.pswMask = 0 ↔ ∀ k, 26 ≤ k → w.getLsbD k = false := by
  constructor
  · intro h k hk
    by_cases hk2 : k < 32
    · have := congrArg (·.getLsbD k) h
      simp only [BitVec.getLsbD_and, notMask_bit k hk2, hk, decide_true, Bool.and_true] at this
      rw [this]; simp
    · exact BitVec.getLsbD_of_ge _ _ (by omega)
  · intro h
    apply BitVec.eq_of_getLsbD_eq
    intro k hk
    rw [BitVec.getLsbD_and, notMask_bit k hk]
    by_cases h2 : 26 ≤ k
    · rw [h k h2]; simp
    · simp [h2]

theorem masked_bit (w : Word) (k : Nat) (h : 26 ≤ k) : (w &&& Config.pswMask).getLsbD k = false := by
  rw [BitVec.getLsbD_and, pswMask_bit]
  simp [show ¬ k < 26 by omega]

theorem setField_high {lo len : Nat} (v : BitVec len) (w : Word) (k : Nat) (h : lo + len ≤ 26) (hk : 26 ≤ k) :
    (setField lo len v w).getLsbD k = w.getLsbD k := by
  rw [setField_bit _ _ _ _ _ (by omega), if_neg (by omega)]

theorem gatePsw_high (old entry : Word) (ipl : Option (BitVec 4)) (k : Nat) (hk : 26 ≤ k) :
    (gatePsw old entry ipl).getLsbD k = false := by
  rw [gatePsw_bit _ _ _ _ (by simp; omega)]
  simp [show ¬ k < 26 by omega]

/-! ## Latches (R841) -/

/-- A latch is set only while its condition holds, after any access or advance. -/
theorem withDuart_latched (s : State) (d : Duart) (i : Fin 5) (h : (s.withDuart d).pending[i] = true) :
    (s.withDuart d).duart.cond i = true := by
  simp only [withDuart_pending, updateLatches, withDuart_duart] at h ⊢
  cases hc : d.cond i with
  | true => rfl
  | false => simp [hc] at h

/-! ## Regions -/

/-- Every byte of a routed access is in its region. -/
theorem covers_region {p : Params} (hp : p.valid = true) {a : Word} {z : Size} {k : AccessKind} {g : Region}
    (h : dataRoute p a z k = .ok g) {b : Nat} (hb : covers a (sizeBytes z) b) : regionOf p b = some g := by
  obtain ⟨h1, h2, -⟩ := dataRoute_region h
  obtain ⟨j, hj, rfl⟩ := hb
  obtain ⟨h3, h4⟩ := regionOf_between hp h1 h2 (b := a.toNat + j) (by omega) (by omega)
  have e : (a + BitVec.ofNat 32 j).toNat = a.toNat + j := by
    rw [BitVec.toNat_add, BitVec.toNat_ofNat]; omega
  rw [e]; exact h3

/-! ## The DUART part -/

/-- The DUART within its capacities, and the latches only where their conditions hold. -/
structure DeviceOk (s : State) : Prop where
  duart : DuartOk s.params s.duart
  latched : ∀ i : Fin 5, s.pending[i] = true → s.duart.cond i = true

theorem DeviceOk.withDuart {s : State} {d : Duart} (h : DuartOk s.params d) : DeviceOk (s.withDuart d) :=
  ⟨h, withDuart_latched s d⟩

/-- A computation that keeps the DUART part. -/
structure KeepsDevice {α : Type} (x : M α) : Prop where
  holds : ∀ s a t, x s = .ok (a, t) → DeviceOk s → DeviceOk t

theorem KeepsDevice.bind {α β : Type} {x : M α} {f : α → M β} (hx : KeepsDevice x) (hf : ∀ a, KeepsDevice (f a)) :
    KeepsDevice (x >>= f) :=
  ⟨fun s b t h hs => by
    obtain ⟨a, u, h1, h2⟩ := of_bind_ok h
    exact (hf a).holds u b t h2 (hx.holds s a u h1 hs)⟩

theorem KeepsDevice.pure {α : Type} (a : α) : KeepsDevice (Pure.pure a : M α) :=
  ⟨fun s b t h hs => by cases h; exact hs⟩

theorem KeepsDevice.route (a : Word) (z : Size) (k : AccessKind) : KeepsDevice (Machine.route a z k) :=
  ⟨fun s b t h hs => by
    unfold Machine.route at h
    split at h
    · cases h; exact hs
    · cases h⟩

theorem result_eq {α : Type} {s t u : State} {a b : α} (h : (Except.ok (ε := Exn) (a, s)) = .ok (b, t)) (e : u = s) :
    u = t := by
  injection h with h
  exact e.trans (Prod.mk.inj h).2

theorem DeviceOk.writeDuart {s : State} (h : DeviceOk s) (off : Nat) (b : Byte) : DeviceOk (s.writeDuart off b) :=
  .withDuart (s := { s with pending := clearReset off b s.pending }) (h.duart.writeByte off b)

theorem KeepsDevice.readByteAt (g : Region) (a : Word) : KeepsDevice (Machine.readByteAt g a) :=
  ⟨fun s b t h hs => by
    cases g
    · rw [← result_eq h rfl]; exact hs
    · rw [← result_eq h rfl]; exact .withDuart (hs.duart.readByte _)
    · rw [← result_eq h rfl]; exact hs⟩

theorem KeepsDevice.writeByteAt (g : Region) (a : Word) (v : Byte) : KeepsDevice (Machine.writeByteAt g a v) :=
  ⟨fun s b t h hs => by
    cases g
    · rw [← result_eq h rfl]; exact hs
    · rw [← result_eq h rfl]; exact hs.writeDuart _ _
    · rw [← result_eq h rfl]; exact ⟨hs.duart, hs.latched⟩⟩

theorem KeepsDevice.memRead (a : Word) (z : Size) : KeepsDevice (Machine.memRead a z) := by
  refine .bind (.route ..) fun g => ?_
  cases z
  · exact .bind (.readByteAt ..) fun _ => .pure _
  · exact .bind (.readByteAt ..) fun _ => .bind (.readByteAt ..) fun _ => .pure _
  · exact .bind (.readByteAt ..) fun _ => .bind (.readByteAt ..) fun _ => .bind (.readByteAt ..) fun _ =>
      .bind (.readByteAt ..) fun _ => .pure _

theorem KeepsDevice.memWrite (a : Word) (z : Size) (v : Word) : KeepsDevice (Machine.memWrite a z v) := by
  refine .bind (.route ..) fun g => ?_
  cases z
  · exact .writeByteAt ..
  · exact .bind (.writeByteAt ..) fun _ => .writeByteAt ..
  · exact .bind (.writeByteAt ..) fun _ => .bind (.writeByteAt ..) fun _ => .bind (.writeByteAt ..) fun _ =>
      .writeByteAt ..

/-! ## Parts of `Safe` -/

theorem Safe.device {s : State} (h : Safe s) : DeviceOk s :=
  ⟨⟨⟨h.rxBounded .a, h.txBounded .a, h.txIdle .a⟩, ⟨h.rxBounded .b, h.txBounded .b, h.txIdle .b⟩⟩, h.latched⟩

/-- `Safe` from its parts. -/
theorem Safe.of_parts {s : State} (wf : s.mem.wf)
    (mapped : ∀ c ∈ s.mem, regionOf s.params c.1 = some .rom ∨ regionOf s.params c.1 = some .ram)
    (psw : ∀ k, 26 ≤ k → s.psw.getLsbD k = false) (dev : DeviceOk s) (valid : s.params.valid = true) : Safe s where
  memCanonical := wf
  memMapped := mapped
  pswReserved := (reserved_iff _).2 psw
  rxBounded := fun c => by
    cases c
    · exact dev.duart.a.rx
    · exact dev.duart.b.rx
  txBounded := fun c => by
    cases c
    · exact dev.duart.a.tx
    · exact dev.duart.b.tx
  txIdle := fun c => by
    cases c
    · exact dev.duart.a.idle
    · exact dev.duart.b.idle
  latched := dev.latched
  paramsValid := valid

theorem Safe.psw_high {s : State} (h : Safe s) (k : Nat) (hk : 26 ≤ k) : s.psw.getLsbD k = false :=
  (reserved_iff _).1 h.pswReserved k hk

/-- A change of registers, status, wait or trace record alone keeps `Safe` where the PSW keeps its reserved bits. -/
theorem Safe.of_same {s t : State} (h : Safe s) (hp : t.params = s.params) (hm : t.mem = s.mem)
    (hd : t.duart = s.duart) (hq : t.pending = s.pending) (hw : ∀ k, 26 ≤ k → t.psw.getLsbD k = false) : Safe t :=
  .of_parts (by rw [hm]; exact h.memCanonical) (by rw [hm, hp]; exact h.memMapped) hw
    ⟨by rw [hp, hd]; exact h.device.duart, by rw [hq, hd]; exact h.latched⟩ (by rw [hp]; exact h.paramsValid)

theorem Safe.read {s t : State} {a : Word} {z : Size} {v : Word} (h : Safe s) (e : memRead a z s = .ok (v, t)) :
    Safe t := by
  have c := memRead_sameCore e
  exact .of_parts (by rw [c.mem]; exact h.memCanonical) (by rw [c.mem, c.params]; exact h.memMapped)
    (by rw [c.psw]; exact h.psw_high) ((KeepsDevice.memRead a z).holds s v t e h.device) (by rw [c.params]; exact h.paramsValid)

theorem Safe.write {s t : State} {a : Word} {z : Size} {v : Word} (h : Safe s) (e : memWrite a z v s = .ok ((), t)) :
    Safe t := by
  obtain ⟨g, hg, eff⟩ := memWrite_effect e
  refine .of_parts (eff.wf h.memCanonical) (fun c hc => ?_) (by rw [eff.cpu.psw]; exact h.psw_high)
    ((KeepsDevice.memWrite a z v).holds s () t e h.device) (by rw [eff.cpu.params]; exact h.paramsValid)
  rw [eff.cpu.params]
  rcases eff.cells c hc with h' | ⟨rfl, hcov⟩
  · exact h.memMapped c h'
  · exact .inr (covers_region h.paramsValid hg hcov)

theorem Safe.advance {s : State} (h : Safe s) : Safe s.advanceDuart :=
  .of_parts h.memCanonical h.memMapped h.psw_high (.withDuart h.device.duart.advance) h.paramsValid

theorem Safe.gate {s t : State} {a b l1 off : Word} {ipl : Option (BitVec 4)} (h : Safe s)
    (e : gateTransfer a b l1 off ipl s = .ok ((), t)) : Safe t := by
  unfold gateTransfer at e
  obtain ⟨s₀, u₀, e0, e⟩ := of_bind_ok e
  cases e0
  obtain ⟨_, u₁, e1, e⟩ := of_bind_ok e
  obtain ⟨_, u₂, e2, e⟩ := of_bind_ok e
  obtain ⟨_, u₃, e3, e⟩ := of_bind_ok e
  obtain ⟨_, u₄, e4, e⟩ := of_bind_ok e
  obtain ⟨_, u₅, e5, e⟩ := of_bind_ok e
  cases e
  have h5 := ((((h.write e1).write e2).read e3).read e4).read e5
  refine h5.of_same rfl rfl rfl rfl ?_
  simp only [setPc_psw, setPsw_psw]
  exact fun k hk => gatePsw_high _ _ _ k hk

theorem Safe.trap {s : State} (h : Safe s) (k : FaultKind) : Safe (takeTrap k s) := by
  unfold takeTrap
  split
  · next t e =>
    have := h.gate e
    exact this.of_same rfl rfl rfl rfl this.psw_high
  · exact h.of_same rfl rfl rfl rfl h.psw_high

/-! ## What a trap keeps of everything -/

/-- A gate transfer changes the registers SP, PSW and PC, memory and the DUART. -/
theorem gateTransfer_regs {s t : State} {a b l1 off : Word} {ipl : Option (BitVec 4)}
    (e : gateTransfer a b l1 off ipl s = .ok ((), t)) :
    t.params = s.params ∧ (∀ n, n ∉ [regPC, regPSW, regSP] → t.reg n = s.reg n) ∧
      Psw.ipl t.psw = ipl.getD (Psw.ipl s.psw) := by
  unfold gateTransfer at e
  obtain ⟨s₀, u₀, e0, e⟩ := of_bind_ok e
  cases e0
  obtain ⟨_, u₁, e1, e⟩ := of_bind_ok e
  obtain ⟨_, u₂, e2, e⟩ := of_bind_ok e
  obtain ⟨_, u₃, e3, e⟩ := of_bind_ok e
  obtain ⟨_, u₄, e4, e⟩ := of_bind_ok e
  obtain ⟨_, u₅, e5, e⟩ := of_bind_ok e
  cases e
  obtain ⟨_, _, f1⟩ := memWrite_effect e1
  obtain ⟨_, _, f2⟩ := memWrite_effect e2
  have c := ((f1.cpu.trans f2.cpu).trans ((memRead_sameCore e3).trans
    ((memRead_sameCore e4).trans (memRead_sameCore e5))).cpu)
  refine ⟨c.params, fun n hn => ?_, ?_⟩
  · simp only [List.mem_cons, List.not_mem_nil, or_false, not_or] at hn
    rw [setPc_reg, if_neg hn.1, setPsw_reg, if_neg hn.2.1, setSp_reg, if_neg hn.2.2, c.reg]
  · simp only [setPc_psw, setPsw_psw]
    exact gatePsw_ipl ..

/-- Taking a trap keeps the other registers and IPL. -/
theorem takeTrap_regs (k : FaultKind) (s : State) :
    (takeTrap k s).params = s.params ∧ (∀ n, n ∉ [regPC, regPSW, regSP] → (takeTrap k s).reg n = s.reg n) ∧
      Psw.ipl (takeTrap k s).psw = Psw.ipl s.psw := by
  unfold takeTrap
  split
  · next t e => exact gateTransfer_regs e
  · exact ⟨rfl, fun _ _ => rfl, rfl⟩

/-- ROM bytes and parameters as they were, under parameters R8 allows. -/
def RomKept (s t : State) : Prop :=
  s.params.valid = true → t.params = s.params ∧
    ∀ a, regionOf s.params a = some .rom → t.mem.read a = s.mem.read a

theorem RomKept.refl (s : State) : RomKept s s := fun _ => ⟨rfl, fun _ _ => rfl⟩

theorem RomKept.trans {s t u : State} (h : RomKept s t) (k : RomKept t u) : RomKept s u := fun v => by
  obtain ⟨h1, h2⟩ := h v
  obtain ⟨k1, k2⟩ := k (by rw [h1]; exact v)
  exact ⟨k1.trans h1, fun a ha => (k2 a (by rw [h1]; exact ha)).trans (h2 a ha)⟩

theorem RomKept.of_same {s t : State} (hp : t.params = s.params) (hm : t.mem = s.mem) : RomKept s t :=
  fun _ => ⟨hp, fun _ _ => by rw [hm]⟩

theorem RomKept.write {s t : State} {a : Word} {z : Size} {v : Word} (e : memWrite a z v s = .ok ((), t)) :
    RomKept s t := by
  intro hv
  obtain ⟨g, hg, eff⟩ := memWrite_effect e
  refine ⟨eff.cpu.params, fun b hb => eff.others b fun hc => ?_⟩
  have := covers_region hv hg hc
  rw [hb] at this
  cases this
  exact (dataRoute_region hg).2.2 ⟨rfl, rfl⟩

theorem RomKept.gate {s t : State} {a b l1 off : Word} {ipl : Option (BitVec 4)}
    (e : gateTransfer a b l1 off ipl s = .ok ((), t)) : RomKept s t := by
  unfold gateTransfer at e
  obtain ⟨s₀, u₀, e0, e⟩ := of_bind_ok e
  cases e0
  obtain ⟨_, u₁, e1, e⟩ := of_bind_ok e
  obtain ⟨_, u₂, e2, e⟩ := of_bind_ok e
  obtain ⟨_, u₃, e3, e⟩ := of_bind_ok e
  obtain ⟨_, u₄, e4, e⟩ := of_bind_ok e
  obtain ⟨_, u₅, e5, e⟩ := of_bind_ok e
  cases e
  have c := (memRead_sameCore e3).trans ((memRead_sameCore e4).trans (memRead_sameCore e5))
  exact ((RomKept.write e1).trans (.write e2)).trans (.of_same c.params c.mem)

theorem RomKept.trap (k : FaultKind) (s : State) : RomKept s (takeTrap k s) := by
  unfold takeTrap
  split
  · next t e => exact (RomKept.gate e).trans (.of_same rfl rfl)
  · exact .of_same rfl rfl

end Sys2Proof.Machine
end

