-- ==== Sys2Proof/Laws/Opcodes.lean ====
section
/-! SUPPORT. The decoder and the encoder on whole instructions: each undoes the other, opcode by opcode (30_encoding.md
R340 to R343). -/

namespace Sys2Proof

/-- The instructions of a row have this opcode and the fields the row decodes. -/
def RowOk (opcode : List Byte) : Build → Prop
  | .op0 i => i.opcode = opcode ∧ i.fields = []
  | .g1 c f => ∀ o, (f o).opcode = opcode ∧ (f o).fields = [.g c o]
  | .g2 c₁ c₂ f => ∀ o₁ o₂, (f o₁ o₂).opcode = opcode ∧ (f o₁ o₂).fields = [.g c₁ o₁, .g c₂ o₂]
  | .g3 c₁ c₂ c₃ f =>
    ∀ o₁ o₂ o₃, (f o₁ o₂ o₃).opcode = opcode ∧ (f o₁ o₂ o₃).fields = [.g c₁ o₁, .g c₂ o₂, .g c₃ o₃]
  | .g4 c₁ c₂ c₃ c₄ f =>
    ∀ o₁ o₂ o₃ o₄, (f o₁ o₂ o₃ o₄).opcode = opcode ∧
      (f o₁ o₂ o₃ o₄).fields = [.g c₁ o₁, .g c₂ o₂, .g c₃ o₃, .g c₄ o₄]
  | .d8 f => ∀ b, (f b).opcode = opcode ∧ (f b).fields = [.raw8 b]
  | .d16 f => ∀ h, (f h).opcode = opcode ∧ (f h).fields = [.raw16 h]
  | .movtr f => ∀ o₁ o₂, (f o₁ o₂).opcode = opcode ∧ (f o₁ o₂).fields = [.g .ignored o₁, .g .ignored o₂]
  | .spop0 f => ∀ w, (f w).opcode = opcode ∧ (f w).fields = [.raw32 w]
  | .spop1 f => ∀ w o, (f w o).opcode = opcode ∧ (f w o).fields = [.raw32 w, .g .ignored o]
  | .spop2 f =>
    ∀ w o₁ o₂, (f w o₁ o₂).opcode = opcode ∧ (f w o₁ o₂).fields = [.raw32 w, .g .ignored o₁, .g .ignored o₂]

/-! ## The rows -/

theorem opRows0_ok : ∀ r ∈ opRows0, RowOk [r.code] r.build := by
  simp only [opRows0, List.forall_mem_cons]
  repeat' apply And.intro
  all_goals first
    | rfl
    | exact fun _ => ⟨rfl, rfl⟩
    | exact fun _ _ => ⟨rfl, rfl⟩
    | exact fun _ _ _ => ⟨rfl, rfl⟩
    | exact fun _ _ _ _ => ⟨rfl, rfl⟩
    | exact fun _ h => absurd h List.not_mem_nil

theorem opRows1_ok : ∀ r ∈ opRows1, RowOk [r.code] r.build := by
  simp only [opRows1, List.forall_mem_cons]
  repeat' apply And.intro
  all_goals first
    | rfl
    | exact fun _ => ⟨rfl, rfl⟩
    | exact fun _ _ => ⟨rfl, rfl⟩
    | exact fun _ _ _ => ⟨rfl, rfl⟩
    | exact fun _ _ _ _ => ⟨rfl, rfl⟩
    | exact fun _ h => absurd h List.not_mem_nil

theorem opRows2_ok : ∀ r ∈ opRows2, RowOk [r.code] r.build := by
  simp only [opRows2, List.forall_mem_cons]
  repeat' apply And.intro
  all_goals first
    | rfl
    | exact fun _ => ⟨rfl, rfl⟩
    | exact fun _ _ => ⟨rfl, rfl⟩
    | exact fun _ _ _ => ⟨rfl, rfl⟩
    | exact fun _ _ _ _ => ⟨rfl, rfl⟩
    | exact fun _ h => absurd h List.not_mem_nil

theorem opRows3_ok : ∀ r ∈ opRows3, RowOk [r.code] r.build := by
  simp only [opRows3, List.forall_mem_cons]
  repeat' apply And.intro
  all_goals first
    | rfl
    | exact fun _ => ⟨rfl, rfl⟩
    | exact fun _ _ => ⟨rfl, rfl⟩
    | exact fun _ _ _ => ⟨rfl, rfl⟩
    | exact fun _ _ _ _ => ⟨rfl, rfl⟩
    | exact fun _ h => absurd h List.not_mem_nil

theorem opRows4_ok : ∀ r ∈ opRows4, RowOk [r.code] r.build := by
  simp only [opRows4, List.forall_mem_cons]
  repeat' apply And.intro
  all_goals first
    | rfl
    | exact fun _ => ⟨rfl, rfl⟩
    | exact fun _ _ => ⟨rfl, rfl⟩
    | exact fun _ _ _ => ⟨rfl, rfl⟩
    | exact fun _ _ _ _ => ⟨rfl, rfl⟩
    | exact fun _ h => absurd h List.not_mem_nil

theorem opRows5_ok : ∀ r ∈ opRows5, RowOk [r.code] r.build := by
  simp only [opRows5, List.forall_mem_cons]
  repeat' apply And.intro
  all_goals first
    | rfl
    | exact fun _ => ⟨rfl, rfl⟩
    | exact fun _ _ => ⟨rfl, rfl⟩
    | exact fun _ _ _ => ⟨rfl, rfl⟩
    | exact fun _ _ _ _ => ⟨rfl, rfl⟩
    | exact fun _ h => absurd h List.not_mem_nil

theorem opRows6_ok : ∀ r ∈ opRows6, RowOk [r.code] r.build := by
  simp only [opRows6, List.forall_mem_cons]
  repeat' apply And.intro
  all_goals first
    | rfl
    | exact fun _ => ⟨rfl, rfl⟩
    | exact fun _ _ => ⟨rfl, rfl⟩
    | exact fun _ _ _ => ⟨rfl, rfl⟩
    | exact fun _ _ _ _ => ⟨rfl, rfl⟩
    | exact fun _ h => absurd h List.not_mem_nil

theorem opRows7_ok : ∀ r ∈ opRows7, RowOk [r.code] r.build := by
  simp only [opRows7, List.forall_mem_cons]
  repeat' apply And.intro
  all_goals first
    | rfl
    | exact fun _ => ⟨rfl, rfl⟩
    | exact fun _ _ => ⟨rfl, rfl⟩
    | exact fun _ _ _ => ⟨rfl, rfl⟩
    | exact fun _ _ _ _ => ⟨rfl, rfl⟩
    | exact fun _ h => absurd h List.not_mem_nil

theorem opRows8_ok : ∀ r ∈ opRows8, RowOk [r.code] r.build := by
  simp only [opRows8, List.forall_mem_cons]
  repeat' apply And.intro
  all_goals first
    | rfl
    | exact fun _ => ⟨rfl, rfl⟩
    | exact fun _ _ => ⟨rfl, rfl⟩
    | exact fun _ _ _ => ⟨rfl, rfl⟩
    | exact fun _ _ _ _ => ⟨rfl, rfl⟩
    | exact fun _ h => absurd h List.not_mem_nil

theorem opRows9_ok : ∀ r ∈ opRows9, RowOk [r.code] r.build := by
  simp only [opRows9, List.forall_mem_cons]
  repeat' apply And.intro
  all_goals first
    | rfl
    | exact fun _ => ⟨rfl, rfl⟩
    | exact fun _ _ => ⟨rfl, rfl⟩
    | exact fun _ _ _ => ⟨rfl, rfl⟩
    | exact fun _ _ _ _ => ⟨rfl, rfl⟩
    | exact fun _ h => absurd h List.not_mem_nil

theorem opRowsA_ok : ∀ r ∈ opRowsA, RowOk [r.code] r.build := by
  simp only [opRowsA, List.forall_mem_cons]
  repeat' apply And.intro
  all_goals first
    | rfl
    | exact fun _ => ⟨rfl, rfl⟩
    | exact fun _ _ => ⟨rfl, rfl⟩
    | exact fun _ _ _ => ⟨rfl, rfl⟩
    | exact fun _ _ _ _ => ⟨rfl, rfl⟩
    | exact fun _ h => absurd h List.not_mem_nil

theorem opRowsB_ok : ∀ r ∈ opRowsB, RowOk [r.code] r.build := by
  simp only [opRowsB, List.forall_mem_cons]
  repeat' apply And.intro
  all_goals first
    | rfl
    | exact fun _ => ⟨rfl, rfl⟩
    | exact fun _ _ => ⟨rfl, rfl⟩
    | exact fun _ _ _ => ⟨rfl, rfl⟩
    | exact fun _ _ _ _ => ⟨rfl, rfl⟩
    | exact fun _ h => absurd h List.not_mem_nil

theorem opRowsC_ok : ∀ r ∈ opRowsC, RowOk [r.code] r.build := by
  simp only [opRowsC, List.forall_mem_cons]
  repeat' apply And.intro
  all_goals first
    | rfl
    | exact fun _ => ⟨rfl, rfl⟩
    | exact fun _ _ => ⟨rfl, rfl⟩
    | exact fun _ _ _ => ⟨rfl, rfl⟩
    | exact fun _ _ _ _ => ⟨rfl, rfl⟩
    | exact fun _ h => absurd h List.not_mem_nil

theorem opRowsD_ok : ∀ r ∈ opRowsD, RowOk [r.code] r.build := by
  simp only [opRowsD, List.forall_mem_cons]
  repeat' apply And.intro
  all_goals first
    | rfl
    | exact fun _ => ⟨rfl, rfl⟩
    | exact fun _ _ => ⟨rfl, rfl⟩
    | exact fun _ _ _ => ⟨rfl, rfl⟩
    | exact fun _ _ _ _ => ⟨rfl, rfl⟩
    | exact fun _ h => absurd h List.not_mem_nil

theorem opRowsE_ok : ∀ r ∈ opRowsE, RowOk [r.code] r.build := by
  simp only [opRowsE, List.forall_mem_cons]
  repeat' apply And.intro
  all_goals first
    | rfl
    | exact fun _ => ⟨rfl, rfl⟩
    | exact fun _ _ => ⟨rfl, rfl⟩
    | exact fun _ _ _ => ⟨rfl, rfl⟩
    | exact fun _ _ _ _ => ⟨rfl, rfl⟩
    | exact fun _ h => absurd h List.not_mem_nil

theorem opRowsF_ok : ∀ r ∈ opRowsF, RowOk [r.code] r.build := by
  simp only [opRowsF, List.forall_mem_cons]
  repeat' apply And.intro
  all_goals first
    | rfl
    | exact fun _ => ⟨rfl, rfl⟩
    | exact fun _ _ => ⟨rfl, rfl⟩
    | exact fun _ _ _ => ⟨rfl, rfl⟩
    | exact fun _ _ _ _ => ⟨rfl, rfl⟩
    | exact fun _ h => absurd h List.not_mem_nil

/-- Every row of the one-byte map (R340). -/
theorem oneByteRows_ok : ∀ r ∈ oneByteRows, RowOk [r.code] r.build := by
  simp only [oneByteRows, List.forall_mem_append]
  exact ⟨⟨⟨⟨⟨⟨⟨⟨⟨⟨⟨⟨⟨⟨⟨opRows0_ok, opRows1_ok⟩, opRows2_ok⟩, opRows3_ok⟩, opRows4_ok⟩, opRows5_ok⟩, opRows6_ok⟩,
    opRows7_ok⟩, opRows8_ok⟩, opRows9_ok⟩, opRowsA_ok⟩, opRowsB_ok⟩, opRowsC_ok⟩, opRowsD_ok⟩, opRowsE_ok⟩, opRowsF_ok⟩

/-- Every row of the two-byte map (R342). -/
theorem twoByteRows_ok : ∀ r ∈ twoByteRows, RowOk [0x30, r.code] r.build := by
  simp only [twoByteRows, List.forall_mem_cons]
  repeat' apply And.intro
  all_goals first
    | rfl
    | exact fun _ h => absurd h List.not_mem_nil

/-! ## Decoding, then encoding -/

theorem findRow_some {rows : List OpRow} {b : Byte} {r : OpRow} (h : findRow rows b = some r) :
    r ∈ rows ∧ r.code = b :=
  ⟨List.mem_of_find?_eq_some h, by simpa using List.find?_some h⟩

/-- What a row's fields were decoded from is their encoding. -/
theorem decodeFields_ok {opcode : List Byte} {b : Build} (hb : RowOk opcode b) {bs rest : List Byte} {i : Instr}
    (h : decodeFields b bs = .ok (i, rest)) :
    i.opcode = opcode ∧ bs = i.fields.flatMap encodeField ++ rest ∧ i.encodable = true := by
  have fin {a : Instr × List Byte} (e : Except.ok (ε := DecodeStop) a = .ok (i, rest)) : a = (i, rest) := by injection e
  have close (j : Instr) (fs : List Field) (ho : j.opcode = opcode) (hf : j.fields = fs)
      (he : fs.all Field.encodable = true) : j.opcode = opcode ∧
        fs.flatMap encodeField ++ rest = j.fields.flatMap encodeField ++ rest ∧ j.encodable = true :=
    ⟨ho, by rw [hf], by unfold Instr.encodable; rw [hf]; exact he⟩
  cases b with
  | op0 j =>
    simp only [decodeFields] at h
    cases fin h
    exact close _ [] hb.1 hb.2 rfl
  | g1 c f =>
    simp only [decodeFields] at h
    obtain ⟨o, r, rfl, e, k1⟩ := decodeNext_ok h
    cases fin k1
    simpa [encodeField] using close _ _ (hb o).1 (hb o).2 (by simp [Field.encodable, e])
  | g2 c₁ c₂ f =>
    simp only [decodeFields] at h
    obtain ⟨o₁, r₁, rfl, e₁, k2⟩ := decodeNext_ok h
    obtain ⟨o₂, r₂, rfl, e₂, k3⟩ := decodeNext_ok k2
    cases fin k3
    simpa [encodeField] using close _ _ (hb o₁ o₂).1 (hb o₁ o₂).2 (by simp [Field.encodable, e₁, e₂])
  | g3 c₁ c₂ c₃ f =>
    simp only [decodeFields] at h
    obtain ⟨o₁, r₁, rfl, e₁, k4⟩ := decodeNext_ok h
    obtain ⟨o₂, r₂, rfl, e₂, k5⟩ := decodeNext_ok k4
    obtain ⟨o₃, r₃, rfl, e₃, k6⟩ := decodeNext_ok k5
    cases fin k6
    simpa [encodeField] using close _ _ (hb o₁ o₂ o₃).1 (hb o₁ o₂ o₃).2 (by simp [Field.encodable, e₁, e₂, e₃])
  | g4 c₁ c₂ c₃ c₄ f =>
    simp only [decodeFields] at h
    obtain ⟨o₁, r₁, rfl, e₁, k7⟩ := decodeNext_ok h
    obtain ⟨o₂, r₂, rfl, e₂, k8⟩ := decodeNext_ok k7
    obtain ⟨o₃, r₃, rfl, e₃, k9⟩ := decodeNext_ok k8
    obtain ⟨o₄, r₄, rfl, e₄, k10⟩ := decodeNext_ok k9
    cases fin k10
    simpa [encodeField] using close _ _ (hb o₁ o₂ o₃ o₄).1 (hb o₁ o₂ o₃ o₄).2
      (by simp [Field.encodable, e₁, e₂, e₃, e₄])
  | d8 f =>
    simp only [decodeFields] at h
    obtain ⟨v, r, rfl, k11⟩ := take8_ok h
    cases fin k11
    simpa [encodeField] using close _ _ (hb v).1 (hb v).2 rfl
  | d16 f =>
    simp only [decodeFields] at h
    obtain ⟨v, r, rfl, k12⟩ := take16_ok h
    cases fin k12
    simpa [encodeField] using close _ _ (hb v).1 (hb v).2 rfl
  | movtr f =>
    simp only [decodeFields] at h
    obtain ⟨o₁, r₁, rfl, e₁, k13⟩ := decodeNext_ok (orRefused_ok h)
    obtain ⟨o₂, r₂, rfl, e₂, k14⟩ := decodeNext_ok k13
    cases fin k14
    simpa [encodeField] using close _ _ (hb o₁ o₂).1 (hb o₁ o₂).2 (by simp [Field.encodable, e₁, e₂])
  | spop0 f =>
    simp only [decodeFields] at h
    obtain ⟨w, r, rfl, k15⟩ := take32_ok (orRefused_ok h)
    cases fin k15
    simpa [encodeField] using close _ _ (hb w).1 (hb w).2 rfl
  | spop1 f =>
    simp only [decodeFields] at h
    obtain ⟨w, r, rfl, k16⟩ := take32_ok (orRefused_ok h)
    obtain ⟨o₁, r₁, rfl, e₁, k17⟩ := decodeNext_ok k16
    cases fin k17
    simpa [encodeField] using close _ _ (hb w o₁).1 (hb w o₁).2 (by simp [Field.encodable, e₁])
  | spop2 f =>
    simp only [decodeFields] at h
    obtain ⟨w, r, rfl, k18⟩ := take32_ok (orRefused_ok h)
    obtain ⟨o₁, r₁, rfl, e₁, k19⟩ := decodeNext_ok k18
    obtain ⟨o₂, r₂, rfl, e₂, k20⟩ := decodeNext_ok k19
    cases fin k20
    simpa [encodeField] using close _ _ (hb w o₁ o₂).1 (hb w o₁ o₂).2 (by simp [Field.encodable, e₁, e₂])

/-- What a row was decoded from is the rest of the encoding. -/
theorem decodeRow_ok {row : Option OpRow} {opcode : List Byte} (hb : ∀ r, row = some r → RowOk opcode r.build)
    {bs rest : List Byte} {i : Instr} (h : decodeRow row bs = .ok (i, rest)) :
    i.opcode = opcode ∧ bs = i.fields.flatMap encodeField ++ rest ∧ i.encodable = true := by
  unfold decodeRow at h
  split at h
  · cases h
  · next r =>
    split at h
    · next x hx => cases h; exact decodeFields_ok (hb r rfl) hx
    · cases h

/-- What an instruction was decoded from is its encoding (R343). -/
theorem encode_of_decode {bs rest : List Byte} {i : Instr} (h : decode bs = .ok (i, rest)) :
    bs = encode i ++ rest ∧ i.encodable = true := by
  cases bs with
  | nil => cases h
  | cons b bs =>
    unfold decode at h
    dsimp only at h
    split at h
    · next hb =>
      cases bs with
      | nil => cases h
      | cons b₂ bs =>
        obtain ⟨e1, e2, e3⟩ := decodeRow_ok (opcode := [0x30, b₂]) (fun r hr => by
          obtain ⟨h1, h2⟩ := findRow_some hr
          rw [← h2]; exact twoByteRows_ok r h1) h
        refine ⟨?_, e3⟩
        unfold encode
        rw [e1, hb, e2]
        simp
    · obtain ⟨e1, e2, e3⟩ := decodeRow_ok (opcode := [b]) (fun r hr => by
        obtain ⟨h1, h2⟩ := findRow_some hr
        rw [← h2]; exact oneByteRows_ok r h1) h
      refine ⟨?_, e3⟩
      unfold encode
      rw [e1, e2]
      simp

/-! ## Encoding, then decoding -/

theorem decode_row {b : Byte} {bs : List Byte} (h : b ≠ 0x30) : decode (b :: bs) = decodeRow (findRow oneByteRows b) bs := by
  unfold decode
  exact if_neg h

theorem decode_row_ok {b : Byte} {r : OpRow} {i : Instr} {rest : List Byte} (ho : i.opcode = [b]) (hb : b ≠ 0x30)
    (hr : findRow oneByteRows b = some r)
    (hd : decodeFields r.build (i.fields.flatMap encodeField ++ rest) = .ok (i, rest)) :
    decode (encode i ++ rest) = .ok (i, rest) := by
  unfold encode
  rw [ho]
  show decode (b :: ([] ++ i.fields.flatMap encodeField ++ rest)) = _
  rw [decode_row hb, hr, List.nil_append]
  unfold decodeRow
  dsimp only
  rw [hd]

section

variable {rest : List Byte} {i : Instr}

theorem fields_g1 {c : OpClass} {f : Operand → Instr} {o : Operand} (hi : i = f o) (hf : i.fields = [.g c o])
    (he : i.encodable = true) :
    decodeFields (.g1 c f) (i.fields.flatMap encodeField ++ rest) = .ok (i, rest) := by
  subst hi
  rw [Instr.encodable, hf] at he
  simp only [List.all_cons, List.all_nil, Bool.and_true, Field.encodable] at he
  rw [hf]
  simp only [List.flatMap_cons, List.flatMap_nil, encodeField, List.append_nil]
  simp only [decodeFields]
  exact decodeNext_encode c he _ rfl

theorem fields_g2 {c₁ c₂ : OpClass} {f : Operand → Operand → Instr} {o₁ o₂ : Operand} (hi : i = f o₁ o₂)
    (hf : i.fields = [.g c₁ o₁, .g c₂ o₂]) (he : i.encodable = true) :
    decodeFields (.g2 c₁ c₂ f) (i.fields.flatMap encodeField ++ rest) = .ok (i, rest) := by
  subst hi
  rw [Instr.encodable, hf] at he
  simp only [List.all_cons, List.all_nil, Bool.and_true, Field.encodable, Bool.and_eq_true] at he
  rw [hf]
  simp only [List.flatMap_cons, List.flatMap_nil, encodeField, List.append_nil, List.append_assoc]
  exact decodeNext_encode _ he.1 _ (decodeNext_encode _ he.2 _ rfl)

theorem fields_g3 {c₁ c₂ c₃ : OpClass} {f : Operand → Operand → Operand → Instr} {o₁ o₂ o₃ : Operand}
    (hi : i = f o₁ o₂ o₃) (hf : i.fields = [.g c₁ o₁, .g c₂ o₂, .g c₃ o₃]) (he : i.encodable = true) :
    decodeFields (.g3 c₁ c₂ c₃ f) (i.fields.flatMap encodeField ++ rest) = .ok (i, rest) := by
  subst hi
  rw [Instr.encodable, hf] at he
  simp only [List.all_cons, List.all_nil, Bool.and_true, Field.encodable, Bool.and_eq_true] at he
  rw [hf]
  simp only [List.flatMap_cons, List.flatMap_nil, encodeField, List.append_nil, List.append_assoc]
  exact decodeNext_encode _ he.1 _ (decodeNext_encode _ he.2.1 _ (decodeNext_encode _ he.2.2 _ rfl))

theorem fields_g4 {c₁ c₂ c₃ c₄ : OpClass} {f : Operand → Operand → Operand → Operand → Instr} {o₁ o₂ o₃ o₄ : Operand}
    (hi : i = f o₁ o₂ o₃ o₄) (hf : i.fields = [.g c₁ o₁, .g c₂ o₂, .g c₃ o₃, .g c₄ o₄]) (he : i.encodable = true) :
    decodeFields (.g4 c₁ c₂ c₃ c₄ f) (i.fields.flatMap encodeField ++ rest) = .ok (i, rest) := by
  subst hi
  rw [Instr.encodable, hf] at he
  simp only [List.all_cons, List.all_nil, Bool.and_true, Field.encodable, Bool.and_eq_true] at he
  rw [hf]
  simp only [List.flatMap_cons, List.flatMap_nil, encodeField, List.append_nil, List.append_assoc]
  exact decodeNext_encode _ he.1 _ (decodeNext_encode _ he.2.1 _ (decodeNext_encode _ he.2.2.1 _
    (decodeNext_encode _ he.2.2.2 _ rfl)))

theorem fields_d16 {f : Half → Instr} {h : Half} (hi : i = f h) (hf : i.fields = [.raw16 h]) :
    decodeFields (.d16 f) (i.fields.flatMap encodeField ++ rest) = .ok (i, rest) := by
  subst hi
  rw [hf]
  simp only [List.flatMap_cons, List.flatMap_nil, encodeField, List.append_nil]
  simp only [decodeFields, take16_stream]

theorem fields_movtr {f : Operand → Operand → Instr} {o₁ o₂ : Operand} (hi : i = f o₁ o₂)
    (hf : i.fields = [.g .ignored o₁, .g .ignored o₂]) (he : i.encodable = true) :
    decodeFields (.movtr f) (i.fields.flatMap encodeField ++ rest) = .ok (i, rest) := by
  have h := fields_g2 (rest := rest) hi hf he
  simp only [decodeFields] at h ⊢
  rw [h]; rfl

theorem fields_spop0 {f : Word → Instr} {w : Word} (hi : i = f w) (hf : i.fields = [.raw32 w]) :
    decodeFields (.spop0 f) (i.fields.flatMap encodeField ++ rest) = .ok (i, rest) := by
  subst hi
  rw [hf]
  simp only [List.flatMap_cons, List.flatMap_nil, encodeField, List.append_nil, decodeFields, take32_stream]
  rfl

theorem fields_spop1 {f : Word → Operand → Instr} {w : Word} {o : Operand} (hi : i = f w o)
    (hf : i.fields = [.raw32 w, .g .ignored o]) (he : i.encodable = true) :
    decodeFields (.spop1 f) (i.fields.flatMap encodeField ++ rest) = .ok (i, rest) := by
  subst hi
  rw [Instr.encodable, hf] at he
  simp only [List.all_cons, List.all_nil, Bool.and_true, Field.encodable, Bool.true_and] at he
  rw [hf]
  simp only [List.flatMap_cons, List.flatMap_nil, encodeField, List.append_nil, List.append_assoc, decodeFields,
    take32_stream]
  rw [decodeNext_encode _ he _ rfl]; rfl

theorem fields_spop2 {f : Word → Operand → Operand → Instr} {w : Word} {o₁ o₂ : Operand} (hi : i = f w o₁ o₂)
    (hf : i.fields = [.raw32 w, .g .ignored o₁, .g .ignored o₂]) (he : i.encodable = true) :
    decodeFields (.spop2 f) (i.fields.flatMap encodeField ++ rest) = .ok (i, rest) := by
  subst hi
  rw [Instr.encodable, hf] at he
  simp only [List.all_cons, List.all_nil, Bool.and_true, Field.encodable, Bool.true_and, Bool.and_eq_true] at he
  rw [hf]
  simp only [List.flatMap_cons, List.flatMap_nil, encodeField, List.append_nil, List.append_assoc, decodeFields,
    take32_stream]
  rw [decodeNext_encode _ he.1 _ (decodeNext_encode _ he.2 _ rfl)]; rfl

end
/-- Decoding an encoded instruction gives it back. -/
theorem decode_of_encode {i : Instr} (he : i.encodable = true) (rest : List Byte) :
    decode (encode i ++ rest) = .ok (i, rest) := by
  cases i
  case callps | disvjmp | enbvjmp | gate | intack | movblw | mverno | retg | retps | strcpy | strend => rfl
  case movtrw => exact decode_row_ok rfl (by decide) rfl (fields_movtr rfl rfl he)
  case spop => exact decode_row_ok rfl (by decide) rfl (fields_spop0 rfl rfl)
  case spoprs | spoprd | spoprt | spopws | spopwd | spopwt =>
    exact decode_row_ok rfl (by decide) rfl (fields_spop1 rfl rfl he)
  case spops2 | spopd2 | spopt2 =>
    exact decode_row_ok rfl (by decide) rfl (fields_spop2 rfl rfl he)
  case movw | movh | movb | movaw | addw2 | addh2 | addb2 | subw2 | subh2 | subb2 | mulw2 | mulh2 | mulb2 |
      divw2 | divh2 | divb2 | modw2 | modh2 | modb2 | mnegw | mnegh | mnegb | andw2 | andh2 | andb2 | orw2 |
      orh2 | orb2 | xorw2 | xorh2 | xorb2 | mcomw | mcomh | mcomb | cmpw | cmph | cmpb | bitw | bith | bitb |
      call =>
    exact decode_row_ok rfl (by decide) rfl (fields_g2 rfl rfl he)
  case clrw | clrh | clrb | pushw | pushaw | popw | swapwi | swaphi | swapbi | incw | inch | incb | decw | dech
      | decb | tstw | tsth | tstb | jmp | save | restore | jsb =>
    exact decode_row_ok rfl (by decide) rfl (fields_g1 rfl rfl he)
  case addw3 | addh3 | addb3 | subw3 | subh3 | subb3 | mulw3 | mulh3 | mulb3 | divw3 | divh3 | divb3 | modw3 |
      modh3 | modb3 | andw3 | andh3 | andb3 | orw3 | orh3 | orb3 | xorw3 | xorh3 | xorb3 | alsw3 | arsw3 | arsh3
      | arsb3 | llsw3 | llsh3 | llsb3 | lrsw3 | rotw =>
    exact decode_row_ok rfl (by decide) rfl (fields_g3 rfl rfl he)
  case insfw | insfh | insfb | extfw | extfh | extfb =>
    exact decode_row_ok rfl (by decide) rfl (fields_g4 rfl rfl he)
  case brb | bgeb | bgb | blb | bleb | bgeub | bgub | blub | bleub | bvcb | bneub | bvsb | beub | bneb | beb |
      rgeq | rgtr | rlss | rleq | rgequ | rgtru | rlssu | rlequ | rvc | rnequ | rvs | reqlu | rneq | reql | ret
      | rsb | bsbb | halt | nop | nop2 | bpt | extop | wait | cflush =>
    rfl
  case brh | bgeh | bgh | blh | bleh | bgeuh | bguh | bluh | bleuh | bvch | bneuh | bvsh | beuh | bneh | beh |
      bsbh | nop3 =>
    exact decode_row_ok rfl (by decide) rfl (fields_d16 rfl rfl)

end Sys2Proof
end

