-- ==== Sys2Proof/Laws/PerInstr.lean ====
section
/-! SUPPORT. One lemma an instruction: its opcode is a row of the opcode maps (30_encoding.md R340, R342) whose operand
fields are the instruction's. -/

namespace Sys2Proof.Laws

/-- The instruction's opcode bytes are found in the maps, in a row whose instructions have that opcode and the fields the
row decodes. -/
def OpcodeMap.Statement (i : Instr) : Prop :=
  ∃ r, rowOfOpcode i.opcode = some r ∧ RowOk i.opcode r.build

theorem OpcodeMap.movw (src dst : Operand) : OpcodeMap.Statement (.movw src dst) :=
  ⟨_, rfl, fun _ _ => ⟨rfl, rfl⟩⟩

theorem OpcodeMap.movh (src dst : Operand) : OpcodeMap.Statement (.movh src dst) :=
  ⟨_, rfl, fun _ _ => ⟨rfl, rfl⟩⟩

theorem OpcodeMap.movb (src dst : Operand) : OpcodeMap.Statement (.movb src dst) :=
  ⟨_, rfl, fun _ _ => ⟨rfl, rfl⟩⟩

theorem OpcodeMap.movaw (src dst : Operand) : OpcodeMap.Statement (.movaw src dst) :=
  ⟨_, rfl, fun _ _ => ⟨rfl, rfl⟩⟩

theorem OpcodeMap.clrw (dst : Operand) : OpcodeMap.Statement (.clrw dst) :=
  ⟨_, rfl, fun _ => ⟨rfl, rfl⟩⟩

theorem OpcodeMap.clrh (dst : Operand) : OpcodeMap.Statement (.clrh dst) :=
  ⟨_, rfl, fun _ => ⟨rfl, rfl⟩⟩

theorem OpcodeMap.clrb (dst : Operand) : OpcodeMap.Statement (.clrb dst) :=
  ⟨_, rfl, fun _ => ⟨rfl, rfl⟩⟩

theorem OpcodeMap.pushw (src : Operand) : OpcodeMap.Statement (.pushw src) :=
  ⟨_, rfl, fun _ => ⟨rfl, rfl⟩⟩

theorem OpcodeMap.pushaw (src : Operand) : OpcodeMap.Statement (.pushaw src) :=
  ⟨_, rfl, fun _ => ⟨rfl, rfl⟩⟩

theorem OpcodeMap.popw (dst : Operand) : OpcodeMap.Statement (.popw dst) :=
  ⟨_, rfl, fun _ => ⟨rfl, rfl⟩⟩

theorem OpcodeMap.swapwi (dst : Operand) : OpcodeMap.Statement (.swapwi dst) :=
  ⟨_, rfl, fun _ => ⟨rfl, rfl⟩⟩

theorem OpcodeMap.swaphi (dst : Operand) : OpcodeMap.Statement (.swaphi dst) :=
  ⟨_, rfl, fun _ => ⟨rfl, rfl⟩⟩

theorem OpcodeMap.swapbi (dst : Operand) : OpcodeMap.Statement (.swapbi dst) :=
  ⟨_, rfl, fun _ => ⟨rfl, rfl⟩⟩

theorem OpcodeMap.addw2 (src dst : Operand) : OpcodeMap.Statement (.addw2 src dst) :=
  ⟨_, rfl, fun _ _ => ⟨rfl, rfl⟩⟩

theorem OpcodeMap.addh2 (src dst : Operand) : OpcodeMap.Statement (.addh2 src dst) :=
  ⟨_, rfl, fun _ _ => ⟨rfl, rfl⟩⟩

theorem OpcodeMap.addb2 (src dst : Operand) : OpcodeMap.Statement (.addb2 src dst) :=
  ⟨_, rfl, fun _ _ => ⟨rfl, rfl⟩⟩

theorem OpcodeMap.addw3 (src1 src2 dst : Operand) : OpcodeMap.Statement (.addw3 src1 src2 dst) :=
  ⟨_, rfl, fun _ _ _ => ⟨rfl, rfl⟩⟩

theorem OpcodeMap.addh3 (src1 src2 dst : Operand) : OpcodeMap.Statement (.addh3 src1 src2 dst) :=
  ⟨_, rfl, fun _ _ _ => ⟨rfl, rfl⟩⟩

theorem OpcodeMap.addb3 (src1 src2 dst : Operand) : OpcodeMap.Statement (.addb3 src1 src2 dst) :=
  ⟨_, rfl, fun _ _ _ => ⟨rfl, rfl⟩⟩

theorem OpcodeMap.subw2 (src dst : Operand) : OpcodeMap.Statement (.subw2 src dst) :=
  ⟨_, rfl, fun _ _ => ⟨rfl, rfl⟩⟩

theorem OpcodeMap.subh2 (src dst : Operand) : OpcodeMap.Statement (.subh2 src dst) :=
  ⟨_, rfl, fun _ _ => ⟨rfl, rfl⟩⟩

theorem OpcodeMap.subb2 (src dst : Operand) : OpcodeMap.Statement (.subb2 src dst) :=
  ⟨_, rfl, fun _ _ => ⟨rfl, rfl⟩⟩

theorem OpcodeMap.subw3 (src1 src2 dst : Operand) : OpcodeMap.Statement (.subw3 src1 src2 dst) :=
  ⟨_, rfl, fun _ _ _ => ⟨rfl, rfl⟩⟩

theorem OpcodeMap.subh3 (src1 src2 dst : Operand) : OpcodeMap.Statement (.subh3 src1 src2 dst) :=
  ⟨_, rfl, fun _ _ _ => ⟨rfl, rfl⟩⟩

theorem OpcodeMap.subb3 (src1 src2 dst : Operand) : OpcodeMap.Statement (.subb3 src1 src2 dst) :=
  ⟨_, rfl, fun _ _ _ => ⟨rfl, rfl⟩⟩

theorem OpcodeMap.mulw2 (src dst : Operand) : OpcodeMap.Statement (.mulw2 src dst) :=
  ⟨_, rfl, fun _ _ => ⟨rfl, rfl⟩⟩

theorem OpcodeMap.mulh2 (src dst : Operand) : OpcodeMap.Statement (.mulh2 src dst) :=
  ⟨_, rfl, fun _ _ => ⟨rfl, rfl⟩⟩

theorem OpcodeMap.mulb2 (src dst : Operand) : OpcodeMap.Statement (.mulb2 src dst) :=
  ⟨_, rfl, fun _ _ => ⟨rfl, rfl⟩⟩

theorem OpcodeMap.mulw3 (src1 src2 dst : Operand) : OpcodeMap.Statement (.mulw3 src1 src2 dst) :=
  ⟨_, rfl, fun _ _ _ => ⟨rfl, rfl⟩⟩

theorem OpcodeMap.mulh3 (src1 src2 dst : Operand) : OpcodeMap.Statement (.mulh3 src1 src2 dst) :=
  ⟨_, rfl, fun _ _ _ => ⟨rfl, rfl⟩⟩

theorem OpcodeMap.mulb3 (src1 src2 dst : Operand) : OpcodeMap.Statement (.mulb3 src1 src2 dst) :=
  ⟨_, rfl, fun _ _ _ => ⟨rfl, rfl⟩⟩

theorem OpcodeMap.divw2 (src dst : Operand) : OpcodeMap.Statement (.divw2 src dst) :=
  ⟨_, rfl, fun _ _ => ⟨rfl, rfl⟩⟩

theorem OpcodeMap.divh2 (src dst : Operand) : OpcodeMap.Statement (.divh2 src dst) :=
  ⟨_, rfl, fun _ _ => ⟨rfl, rfl⟩⟩

theorem OpcodeMap.divb2 (src dst : Operand) : OpcodeMap.Statement (.divb2 src dst) :=
  ⟨_, rfl, fun _ _ => ⟨rfl, rfl⟩⟩

theorem OpcodeMap.divw3 (src1 src2 dst : Operand) : OpcodeMap.Statement (.divw3 src1 src2 dst) :=
  ⟨_, rfl, fun _ _ _ => ⟨rfl, rfl⟩⟩

theorem OpcodeMap.divh3 (src1 src2 dst : Operand) : OpcodeMap.Statement (.divh3 src1 src2 dst) :=
  ⟨_, rfl, fun _ _ _ => ⟨rfl, rfl⟩⟩

theorem OpcodeMap.divb3 (src1 src2 dst : Operand) : OpcodeMap.Statement (.divb3 src1 src2 dst) :=
  ⟨_, rfl, fun _ _ _ => ⟨rfl, rfl⟩⟩

theorem OpcodeMap.modw2 (src dst : Operand) : OpcodeMap.Statement (.modw2 src dst) :=
  ⟨_, rfl, fun _ _ => ⟨rfl, rfl⟩⟩

theorem OpcodeMap.modh2 (src dst : Operand) : OpcodeMap.Statement (.modh2 src dst) :=
  ⟨_, rfl, fun _ _ => ⟨rfl, rfl⟩⟩

theorem OpcodeMap.modb2 (src dst : Operand) : OpcodeMap.Statement (.modb2 src dst) :=
  ⟨_, rfl, fun _ _ => ⟨rfl, rfl⟩⟩

theorem OpcodeMap.modw3 (src1 src2 dst : Operand) : OpcodeMap.Statement (.modw3 src1 src2 dst) :=
  ⟨_, rfl, fun _ _ _ => ⟨rfl, rfl⟩⟩

theorem OpcodeMap.modh3 (src1 src2 dst : Operand) : OpcodeMap.Statement (.modh3 src1 src2 dst) :=
  ⟨_, rfl, fun _ _ _ => ⟨rfl, rfl⟩⟩

theorem OpcodeMap.modb3 (src1 src2 dst : Operand) : OpcodeMap.Statement (.modb3 src1 src2 dst) :=
  ⟨_, rfl, fun _ _ _ => ⟨rfl, rfl⟩⟩

theorem OpcodeMap.incw (dst : Operand) : OpcodeMap.Statement (.incw dst) :=
  ⟨_, rfl, fun _ => ⟨rfl, rfl⟩⟩

theorem OpcodeMap.inch (dst : Operand) : OpcodeMap.Statement (.inch dst) :=
  ⟨_, rfl, fun _ => ⟨rfl, rfl⟩⟩

theorem OpcodeMap.incb (dst : Operand) : OpcodeMap.Statement (.incb dst) :=
  ⟨_, rfl, fun _ => ⟨rfl, rfl⟩⟩

theorem OpcodeMap.decw (dst : Operand) : OpcodeMap.Statement (.decw dst) :=
  ⟨_, rfl, fun _ => ⟨rfl, rfl⟩⟩

theorem OpcodeMap.dech (dst : Operand) : OpcodeMap.Statement (.dech dst) :=
  ⟨_, rfl, fun _ => ⟨rfl, rfl⟩⟩

theorem OpcodeMap.decb (dst : Operand) : OpcodeMap.Statement (.decb dst) :=
  ⟨_, rfl, fun _ => ⟨rfl, rfl⟩⟩

theorem OpcodeMap.mnegw (src dst : Operand) : OpcodeMap.Statement (.mnegw src dst) :=
  ⟨_, rfl, fun _ _ => ⟨rfl, rfl⟩⟩

theorem OpcodeMap.mnegh (src dst : Operand) : OpcodeMap.Statement (.mnegh src dst) :=
  ⟨_, rfl, fun _ _ => ⟨rfl, rfl⟩⟩

theorem OpcodeMap.mnegb (src dst : Operand) : OpcodeMap.Statement (.mnegb src dst) :=
  ⟨_, rfl, fun _ _ => ⟨rfl, rfl⟩⟩

theorem OpcodeMap.andw2 (src dst : Operand) : OpcodeMap.Statement (.andw2 src dst) :=
  ⟨_, rfl, fun _ _ => ⟨rfl, rfl⟩⟩

theorem OpcodeMap.andh2 (src dst : Operand) : OpcodeMap.Statement (.andh2 src dst) :=
  ⟨_, rfl, fun _ _ => ⟨rfl, rfl⟩⟩

theorem OpcodeMap.andb2 (src dst : Operand) : OpcodeMap.Statement (.andb2 src dst) :=
  ⟨_, rfl, fun _ _ => ⟨rfl, rfl⟩⟩

theorem OpcodeMap.andw3 (src1 src2 dst : Operand) : OpcodeMap.Statement (.andw3 src1 src2 dst) :=
  ⟨_, rfl, fun _ _ _ => ⟨rfl, rfl⟩⟩

theorem OpcodeMap.andh3 (src1 src2 dst : Operand) : OpcodeMap.Statement (.andh3 src1 src2 dst) :=
  ⟨_, rfl, fun _ _ _ => ⟨rfl, rfl⟩⟩

theorem OpcodeMap.andb3 (src1 src2 dst : Operand) : OpcodeMap.Statement (.andb3 src1 src2 dst) :=
  ⟨_, rfl, fun _ _ _ => ⟨rfl, rfl⟩⟩

theorem OpcodeMap.orw2 (src dst : Operand) : OpcodeMap.Statement (.orw2 src dst) :=
  ⟨_, rfl, fun _ _ => ⟨rfl, rfl⟩⟩

theorem OpcodeMap.orh2 (src dst : Operand) : OpcodeMap.Statement (.orh2 src dst) :=
  ⟨_, rfl, fun _ _ => ⟨rfl, rfl⟩⟩

theorem OpcodeMap.orb2 (src dst : Operand) : OpcodeMap.Statement (.orb2 src dst) :=
  ⟨_, rfl, fun _ _ => ⟨rfl, rfl⟩⟩

theorem OpcodeMap.orw3 (src1 src2 dst : Operand) : OpcodeMap.Statement (.orw3 src1 src2 dst) :=
  ⟨_, rfl, fun _ _ _ => ⟨rfl, rfl⟩⟩

theorem OpcodeMap.orh3 (src1 src2 dst : Operand) : OpcodeMap.Statement (.orh3 src1 src2 dst) :=
  ⟨_, rfl, fun _ _ _ => ⟨rfl, rfl⟩⟩

theorem OpcodeMap.orb3 (src1 src2 dst : Operand) : OpcodeMap.Statement (.orb3 src1 src2 dst) :=
  ⟨_, rfl, fun _ _ _ => ⟨rfl, rfl⟩⟩

theorem OpcodeMap.xorw2 (src dst : Operand) : OpcodeMap.Statement (.xorw2 src dst) :=
  ⟨_, rfl, fun _ _ => ⟨rfl, rfl⟩⟩

theorem OpcodeMap.xorh2 (src dst : Operand) : OpcodeMap.Statement (.xorh2 src dst) :=
  ⟨_, rfl, fun _ _ => ⟨rfl, rfl⟩⟩

theorem OpcodeMap.xorb2 (src dst : Operand) : OpcodeMap.Statement (.xorb2 src dst) :=
  ⟨_, rfl, fun _ _ => ⟨rfl, rfl⟩⟩

theorem OpcodeMap.xorw3 (src1 src2 dst : Operand) : OpcodeMap.Statement (.xorw3 src1 src2 dst) :=
  ⟨_, rfl, fun _ _ _ => ⟨rfl, rfl⟩⟩

theorem OpcodeMap.xorh3 (src1 src2 dst : Operand) : OpcodeMap.Statement (.xorh3 src1 src2 dst) :=
  ⟨_, rfl, fun _ _ _ => ⟨rfl, rfl⟩⟩

theorem OpcodeMap.xorb3 (src1 src2 dst : Operand) : OpcodeMap.Statement (.xorb3 src1 src2 dst) :=
  ⟨_, rfl, fun _ _ _ => ⟨rfl, rfl⟩⟩

theorem OpcodeMap.mcomw (src dst : Operand) : OpcodeMap.Statement (.mcomw src dst) :=
  ⟨_, rfl, fun _ _ => ⟨rfl, rfl⟩⟩

theorem OpcodeMap.mcomh (src dst : Operand) : OpcodeMap.Statement (.mcomh src dst) :=
  ⟨_, rfl, fun _ _ => ⟨rfl, rfl⟩⟩

theorem OpcodeMap.mcomb (src dst : Operand) : OpcodeMap.Statement (.mcomb src dst) :=
  ⟨_, rfl, fun _ _ => ⟨rfl, rfl⟩⟩

theorem OpcodeMap.alsw3 (count src dst : Operand) : OpcodeMap.Statement (.alsw3 count src dst) :=
  ⟨_, rfl, fun _ _ _ => ⟨rfl, rfl⟩⟩

theorem OpcodeMap.arsw3 (count src dst : Operand) : OpcodeMap.Statement (.arsw3 count src dst) :=
  ⟨_, rfl, fun _ _ _ => ⟨rfl, rfl⟩⟩

theorem OpcodeMap.arsh3 (count src dst : Operand) : OpcodeMap.Statement (.arsh3 count src dst) :=
  ⟨_, rfl, fun _ _ _ => ⟨rfl, rfl⟩⟩

theorem OpcodeMap.arsb3 (count src dst : Operand) : OpcodeMap.Statement (.arsb3 count src dst) :=
  ⟨_, rfl, fun _ _ _ => ⟨rfl, rfl⟩⟩

theorem OpcodeMap.llsw3 (count src dst : Operand) : OpcodeMap.Statement (.llsw3 count src dst) :=
  ⟨_, rfl, fun _ _ _ => ⟨rfl, rfl⟩⟩

theorem OpcodeMap.llsh3 (count src dst : Operand) : OpcodeMap.Statement (.llsh3 count src dst) :=
  ⟨_, rfl, fun _ _ _ => ⟨rfl, rfl⟩⟩

theorem OpcodeMap.llsb3 (count src dst : Operand) : OpcodeMap.Statement (.llsb3 count src dst) :=
  ⟨_, rfl, fun _ _ _ => ⟨rfl, rfl⟩⟩

theorem OpcodeMap.lrsw3 (count src dst : Operand) : OpcodeMap.Statement (.lrsw3 count src dst) :=
  ⟨_, rfl, fun _ _ _ => ⟨rfl, rfl⟩⟩

theorem OpcodeMap.rotw (count src dst : Operand) : OpcodeMap.Statement (.rotw count src dst) :=
  ⟨_, rfl, fun _ _ _ => ⟨rfl, rfl⟩⟩

theorem OpcodeMap.insfw (width offset src dst : Operand) : OpcodeMap.Statement (.insfw width offset src dst) :=
  ⟨_, rfl, fun _ _ _ _ => ⟨rfl, rfl⟩⟩

theorem OpcodeMap.insfh (width offset src dst : Operand) : OpcodeMap.Statement (.insfh width offset src dst) :=
  ⟨_, rfl, fun _ _ _ _ => ⟨rfl, rfl⟩⟩

theorem OpcodeMap.insfb (width offset src dst : Operand) : OpcodeMap.Statement (.insfb width offset src dst) :=
  ⟨_, rfl, fun _ _ _ _ => ⟨rfl, rfl⟩⟩

theorem OpcodeMap.extfw (width offset src dst : Operand) : OpcodeMap.Statement (.extfw width offset src dst) :=
  ⟨_, rfl, fun _ _ _ _ => ⟨rfl, rfl⟩⟩

theorem OpcodeMap.extfh (width offset src dst : Operand) : OpcodeMap.Statement (.extfh width offset src dst) :=
  ⟨_, rfl, fun _ _ _ _ => ⟨rfl, rfl⟩⟩

theorem OpcodeMap.extfb (width offset src dst : Operand) : OpcodeMap.Statement (.extfb width offset src dst) :=
  ⟨_, rfl, fun _ _ _ _ => ⟨rfl, rfl⟩⟩

theorem OpcodeMap.cmpw (src1 src2 : Operand) : OpcodeMap.Statement (.cmpw src1 src2) :=
  ⟨_, rfl, fun _ _ => ⟨rfl, rfl⟩⟩

theorem OpcodeMap.cmph (src1 src2 : Operand) : OpcodeMap.Statement (.cmph src1 src2) :=
  ⟨_, rfl, fun _ _ => ⟨rfl, rfl⟩⟩

theorem OpcodeMap.cmpb (src1 src2 : Operand) : OpcodeMap.Statement (.cmpb src1 src2) :=
  ⟨_, rfl, fun _ _ => ⟨rfl, rfl⟩⟩

theorem OpcodeMap.tstw (src : Operand) : OpcodeMap.Statement (.tstw src) :=
  ⟨_, rfl, fun _ => ⟨rfl, rfl⟩⟩

theorem OpcodeMap.tsth (src : Operand) : OpcodeMap.Statement (.tsth src) :=
  ⟨_, rfl, fun _ => ⟨rfl, rfl⟩⟩

theorem OpcodeMap.tstb (src : Operand) : OpcodeMap.Statement (.tstb src) :=
  ⟨_, rfl, fun _ => ⟨rfl, rfl⟩⟩

theorem OpcodeMap.bitw (src1 src2 : Operand) : OpcodeMap.Statement (.bitw src1 src2) :=
  ⟨_, rfl, fun _ _ => ⟨rfl, rfl⟩⟩

theorem OpcodeMap.bith (src1 src2 : Operand) : OpcodeMap.Statement (.bith src1 src2) :=
  ⟨_, rfl, fun _ _ => ⟨rfl, rfl⟩⟩

theorem OpcodeMap.bitb (src1 src2 : Operand) : OpcodeMap.Statement (.bitb src1 src2) :=
  ⟨_, rfl, fun _ _ => ⟨rfl, rfl⟩⟩

theorem OpcodeMap.brb (disp : Byte) : OpcodeMap.Statement (.brb disp) :=
  ⟨_, rfl, fun _ => ⟨rfl, rfl⟩⟩

theorem OpcodeMap.brh (disp : Half) : OpcodeMap.Statement (.brh disp) :=
  ⟨_, rfl, fun _ => ⟨rfl, rfl⟩⟩

theorem OpcodeMap.bgeb (disp : Byte) : OpcodeMap.Statement (.bgeb disp) :=
  ⟨_, rfl, fun _ => ⟨rfl, rfl⟩⟩

theorem OpcodeMap.bgeh (disp : Half) : OpcodeMap.Statement (.bgeh disp) :=
  ⟨_, rfl, fun _ => ⟨rfl, rfl⟩⟩

theorem OpcodeMap.bgb (disp : Byte) : OpcodeMap.Statement (.bgb disp) :=
  ⟨_, rfl, fun _ => ⟨rfl, rfl⟩⟩

theorem OpcodeMap.bgh (disp : Half) : OpcodeMap.Statement (.bgh disp) :=
  ⟨_, rfl, fun _ => ⟨rfl, rfl⟩⟩

theorem OpcodeMap.blb (disp : Byte) : OpcodeMap.Statement (.blb disp) :=
  ⟨_, rfl, fun _ => ⟨rfl, rfl⟩⟩

theorem OpcodeMap.blh (disp : Half) : OpcodeMap.Statement (.blh disp) :=
  ⟨_, rfl, fun _ => ⟨rfl, rfl⟩⟩

theorem OpcodeMap.bleb (disp : Byte) : OpcodeMap.Statement (.bleb disp) :=
  ⟨_, rfl, fun _ => ⟨rfl, rfl⟩⟩

theorem OpcodeMap.bleh (disp : Half) : OpcodeMap.Statement (.bleh disp) :=
  ⟨_, rfl, fun _ => ⟨rfl, rfl⟩⟩

theorem OpcodeMap.bgeub (disp : Byte) : OpcodeMap.Statement (.bgeub disp) :=
  ⟨_, rfl, fun _ => ⟨rfl, rfl⟩⟩

theorem OpcodeMap.bgeuh (disp : Half) : OpcodeMap.Statement (.bgeuh disp) :=
  ⟨_, rfl, fun _ => ⟨rfl, rfl⟩⟩

theorem OpcodeMap.bgub (disp : Byte) : OpcodeMap.Statement (.bgub disp) :=
  ⟨_, rfl, fun _ => ⟨rfl, rfl⟩⟩

theorem OpcodeMap.bguh (disp : Half) : OpcodeMap.Statement (.bguh disp) :=
  ⟨_, rfl, fun _ => ⟨rfl, rfl⟩⟩

theorem OpcodeMap.blub (disp : Byte) : OpcodeMap.Statement (.blub disp) :=
  ⟨_, rfl, fun _ => ⟨rfl, rfl⟩⟩

theorem OpcodeMap.bluh (disp : Half) : OpcodeMap.Statement (.bluh disp) :=
  ⟨_, rfl, fun _ => ⟨rfl, rfl⟩⟩

theorem OpcodeMap.bleub (disp : Byte) : OpcodeMap.Statement (.bleub disp) :=
  ⟨_, rfl, fun _ => ⟨rfl, rfl⟩⟩

theorem OpcodeMap.bleuh (disp : Half) : OpcodeMap.Statement (.bleuh disp) :=
  ⟨_, rfl, fun _ => ⟨rfl, rfl⟩⟩

theorem OpcodeMap.bvcb (disp : Byte) : OpcodeMap.Statement (.bvcb disp) :=
  ⟨_, rfl, fun _ => ⟨rfl, rfl⟩⟩

theorem OpcodeMap.bvch (disp : Half) : OpcodeMap.Statement (.bvch disp) :=
  ⟨_, rfl, fun _ => ⟨rfl, rfl⟩⟩

theorem OpcodeMap.bneub (disp : Byte) : OpcodeMap.Statement (.bneub disp) :=
  ⟨_, rfl, fun _ => ⟨rfl, rfl⟩⟩

theorem OpcodeMap.bneuh (disp : Half) : OpcodeMap.Statement (.bneuh disp) :=
  ⟨_, rfl, fun _ => ⟨rfl, rfl⟩⟩

theorem OpcodeMap.bvsb (disp : Byte) : OpcodeMap.Statement (.bvsb disp) :=
  ⟨_, rfl, fun _ => ⟨rfl, rfl⟩⟩

theorem OpcodeMap.bvsh (disp : Half) : OpcodeMap.Statement (.bvsh disp) :=
  ⟨_, rfl, fun _ => ⟨rfl, rfl⟩⟩

theorem OpcodeMap.beub (disp : Byte) : OpcodeMap.Statement (.beub disp) :=
  ⟨_, rfl, fun _ => ⟨rfl, rfl⟩⟩

theorem OpcodeMap.beuh (disp : Half) : OpcodeMap.Statement (.beuh disp) :=
  ⟨_, rfl, fun _ => ⟨rfl, rfl⟩⟩

theorem OpcodeMap.bneb (disp : Byte) : OpcodeMap.Statement (.bneb disp) :=
  ⟨_, rfl, fun _ => ⟨rfl, rfl⟩⟩

theorem OpcodeMap.bneh (disp : Half) : OpcodeMap.Statement (.bneh disp) :=
  ⟨_, rfl, fun _ => ⟨rfl, rfl⟩⟩

theorem OpcodeMap.beb (disp : Byte) : OpcodeMap.Statement (.beb disp) :=
  ⟨_, rfl, fun _ => ⟨rfl, rfl⟩⟩

theorem OpcodeMap.beh (disp : Half) : OpcodeMap.Statement (.beh disp) :=
  ⟨_, rfl, fun _ => ⟨rfl, rfl⟩⟩

theorem OpcodeMap.rgeq : OpcodeMap.Statement .rgeq :=
  ⟨_, rfl, ⟨rfl, rfl⟩⟩

theorem OpcodeMap.rgtr : OpcodeMap.Statement .rgtr :=
  ⟨_, rfl, ⟨rfl, rfl⟩⟩

theorem OpcodeMap.rlss : OpcodeMap.Statement .rlss :=
  ⟨_, rfl, ⟨rfl, rfl⟩⟩

theorem OpcodeMap.rleq : OpcodeMap.Statement .rleq :=
  ⟨_, rfl, ⟨rfl, rfl⟩⟩

theorem OpcodeMap.rgequ : OpcodeMap.Statement .rgequ :=
  ⟨_, rfl, ⟨rfl, rfl⟩⟩

theorem OpcodeMap.rgtru : OpcodeMap.Statement .rgtru :=
  ⟨_, rfl, ⟨rfl, rfl⟩⟩

theorem OpcodeMap.rlssu : OpcodeMap.Statement .rlssu :=
  ⟨_, rfl, ⟨rfl, rfl⟩⟩

theorem OpcodeMap.rlequ : OpcodeMap.Statement .rlequ :=
  ⟨_, rfl, ⟨rfl, rfl⟩⟩

theorem OpcodeMap.rvc : OpcodeMap.Statement .rvc :=
  ⟨_, rfl, ⟨rfl, rfl⟩⟩

theorem OpcodeMap.rnequ : OpcodeMap.Statement .rnequ :=
  ⟨_, rfl, ⟨rfl, rfl⟩⟩

theorem OpcodeMap.rvs : OpcodeMap.Statement .rvs :=
  ⟨_, rfl, ⟨rfl, rfl⟩⟩

theorem OpcodeMap.reqlu : OpcodeMap.Statement .reqlu :=
  ⟨_, rfl, ⟨rfl, rfl⟩⟩

theorem OpcodeMap.rneq : OpcodeMap.Statement .rneq :=
  ⟨_, rfl, ⟨rfl, rfl⟩⟩

theorem OpcodeMap.reql : OpcodeMap.Statement .reql :=
  ⟨_, rfl, ⟨rfl, rfl⟩⟩

theorem OpcodeMap.jmp (dst : Operand) : OpcodeMap.Statement (.jmp dst) :=
  ⟨_, rfl, fun _ => ⟨rfl, rfl⟩⟩

theorem OpcodeMap.call (argp dst : Operand) : OpcodeMap.Statement (.call argp dst) :=
  ⟨_, rfl, fun _ _ => ⟨rfl, rfl⟩⟩

theorem OpcodeMap.ret : OpcodeMap.Statement .ret :=
  ⟨_, rfl, ⟨rfl, rfl⟩⟩

theorem OpcodeMap.save (first : Operand) : OpcodeMap.Statement (.save first) :=
  ⟨_, rfl, fun _ => ⟨rfl, rfl⟩⟩

theorem OpcodeMap.restore (first : Operand) : OpcodeMap.Statement (.restore first) :=
  ⟨_, rfl, fun _ => ⟨rfl, rfl⟩⟩

theorem OpcodeMap.jsb (dst : Operand) : OpcodeMap.Statement (.jsb dst) :=
  ⟨_, rfl, fun _ => ⟨rfl, rfl⟩⟩

theorem OpcodeMap.rsb : OpcodeMap.Statement .rsb :=
  ⟨_, rfl, ⟨rfl, rfl⟩⟩

theorem OpcodeMap.bsbb (disp : Byte) : OpcodeMap.Statement (.bsbb disp) :=
  ⟨_, rfl, fun _ => ⟨rfl, rfl⟩⟩

theorem OpcodeMap.bsbh (disp : Half) : OpcodeMap.Statement (.bsbh disp) :=
  ⟨_, rfl, fun _ => ⟨rfl, rfl⟩⟩

theorem OpcodeMap.movblw : OpcodeMap.Statement .movblw :=
  ⟨_, rfl, ⟨rfl, rfl⟩⟩

theorem OpcodeMap.strcpy : OpcodeMap.Statement .strcpy :=
  ⟨_, rfl, ⟨rfl, rfl⟩⟩

theorem OpcodeMap.strend : OpcodeMap.Statement .strend :=
  ⟨_, rfl, ⟨rfl, rfl⟩⟩

theorem OpcodeMap.halt : OpcodeMap.Statement .halt :=
  ⟨_, rfl, ⟨rfl, rfl⟩⟩

theorem OpcodeMap.nop : OpcodeMap.Statement .nop :=
  ⟨_, rfl, ⟨rfl, rfl⟩⟩

theorem OpcodeMap.nop2 (ignored : Byte) : OpcodeMap.Statement (.nop2 ignored) :=
  ⟨_, rfl, fun _ => ⟨rfl, rfl⟩⟩

theorem OpcodeMap.nop3 (ignored : Half) : OpcodeMap.Statement (.nop3 ignored) :=
  ⟨_, rfl, fun _ => ⟨rfl, rfl⟩⟩

theorem OpcodeMap.bpt : OpcodeMap.Statement .bpt :=
  ⟨_, rfl, ⟨rfl, rfl⟩⟩

theorem OpcodeMap.extop : OpcodeMap.Statement .extop :=
  ⟨_, rfl, ⟨rfl, rfl⟩⟩

theorem OpcodeMap.mverno : OpcodeMap.Statement .mverno :=
  ⟨_, rfl, ⟨rfl, rfl⟩⟩

theorem OpcodeMap.gate : OpcodeMap.Statement .gate :=
  ⟨_, rfl, ⟨rfl, rfl⟩⟩

theorem OpcodeMap.retg : OpcodeMap.Statement .retg :=
  ⟨_, rfl, ⟨rfl, rfl⟩⟩

theorem OpcodeMap.wait : OpcodeMap.Statement .wait :=
  ⟨_, rfl, ⟨rfl, rfl⟩⟩

theorem OpcodeMap.cflush : OpcodeMap.Statement .cflush :=
  ⟨_, rfl, ⟨rfl, rfl⟩⟩

theorem OpcodeMap.intack : OpcodeMap.Statement .intack :=
  ⟨_, rfl, ⟨rfl, rfl⟩⟩

theorem OpcodeMap.callps : OpcodeMap.Statement .callps :=
  ⟨_, rfl, ⟨rfl, rfl⟩⟩

theorem OpcodeMap.retps : OpcodeMap.Statement .retps :=
  ⟨_, rfl, ⟨rfl, rfl⟩⟩

theorem OpcodeMap.enbvjmp : OpcodeMap.Statement .enbvjmp :=
  ⟨_, rfl, ⟨rfl, rfl⟩⟩

theorem OpcodeMap.disvjmp : OpcodeMap.Statement .disvjmp :=
  ⟨_, rfl, ⟨rfl, rfl⟩⟩

theorem OpcodeMap.movtrw (src dst : Operand) : OpcodeMap.Statement (.movtrw src dst) :=
  ⟨_, rfl, fun _ _ => ⟨rfl, rfl⟩⟩

theorem OpcodeMap.spop (cmd : Word) : OpcodeMap.Statement (.spop cmd) :=
  ⟨_, rfl, fun _ => ⟨rfl, rfl⟩⟩

theorem OpcodeMap.spoprs (cmd : Word) (src : Operand) : OpcodeMap.Statement (.spoprs cmd src) :=
  ⟨_, rfl, fun _ _ => ⟨rfl, rfl⟩⟩

theorem OpcodeMap.spoprd (cmd : Word) (src : Operand) : OpcodeMap.Statement (.spoprd cmd src) :=
  ⟨_, rfl, fun _ _ => ⟨rfl, rfl⟩⟩

theorem OpcodeMap.spoprt (cmd : Word) (src : Operand) : OpcodeMap.Statement (.spoprt cmd src) :=
  ⟨_, rfl, fun _ _ => ⟨rfl, rfl⟩⟩

theorem OpcodeMap.spops2 (cmd : Word) (src dst : Operand) : OpcodeMap.Statement (.spops2 cmd src dst) :=
  ⟨_, rfl, fun _ _ _ => ⟨rfl, rfl⟩⟩

theorem OpcodeMap.spopd2 (cmd : Word) (src dst : Operand) : OpcodeMap.Statement (.spopd2 cmd src dst) :=
  ⟨_, rfl, fun _ _ _ => ⟨rfl, rfl⟩⟩

theorem OpcodeMap.spopt2 (cmd : Word) (src dst : Operand) : OpcodeMap.Statement (.spopt2 cmd src dst) :=
  ⟨_, rfl, fun _ _ _ => ⟨rfl, rfl⟩⟩

theorem OpcodeMap.spopws (cmd : Word) (dst : Operand) : OpcodeMap.Statement (.spopws cmd dst) :=
  ⟨_, rfl, fun _ _ => ⟨rfl, rfl⟩⟩

theorem OpcodeMap.spopwd (cmd : Word) (dst : Operand) : OpcodeMap.Statement (.spopwd cmd dst) :=
  ⟨_, rfl, fun _ _ => ⟨rfl, rfl⟩⟩

theorem OpcodeMap.spopwt (cmd : Word) (dst : Operand) : OpcodeMap.Statement (.spopwt cmd dst) :=
  ⟨_, rfl, fun _ _ => ⟨rfl, rfl⟩⟩

end Sys2Proof.Laws
end

