-- ==== Sys2Proof/Tests/Slice0.lean ====
section
/-! SUPPORT. Tests: ill-formed terms refused, a word of every instruction decoded, single steps on the examples of the
rules and the vectors of 95_test_vectors.md, and for every statement with hypotheses a state that meets them. Expected
values are the spec's. -/

namespace Sys2Proof.Tests

open Sys2Proof.Machine

-- One theorem after another: each kernel evaluation is short, and waiting ones would each hold a thread.
set_option Elab.async false

/-! ## Small states -/

/-- 8 KiB of ROM and 4 KiB of RAM, the other parameters at their defaults. -/
def testParams : Params := Params.ofSizes 0x2000 0x1000

/-- A machine with these bytes at the PC, these registers, memory words and PSW. -/
def boot (pc : Word) (code : List Byte) (regs : List (RegNum × Word)) (words : List (Nat × Word))
    (psw : Word := 0x0001E000) : State :=
  let s := State.created testParams []
  let m := (words.foldr (fun w m => m.load w.1 (bigEndianBytes 4 w.2)) s.mem).load pc.toNat code
  let t := regs.foldl (fun t r => t.setReg r.1 r.2) { s with mem := m }
  (t.setPsw psw).setPc pc

/-- The state after one step. -/
def after (s : State) : Option State :=
  match step s with
  | .next t => some t
  | _ => none

/-- Flags from 0 and 1, in the spec's order N Z C V. -/
def fl (n z c v : Nat) : Flags := ⟨n == 1, z == 1, c == 1, v == 1⟩

/-- One step leaves these values in these registers and these memory words, the machine Running. -/
def leaves (s : State) (regs : List (RegNum × Word)) (words : List (Nat × Word)) : Bool :=
  match after s with
  | some t => t.status == .running && regs.all (fun r => t.reg r.1 == r.2) &&
      words.all fun w => wordAt t (BitVec.ofNat 32 w.1) == w.2
  | none => false

/-- One step of the instruction at 0x100 leaves the value in the register, the flags, and the PC after its bytes. -/
def gives (code : List Byte) (regs : List (RegNum × Word)) (r : RegNum) (v : Word) (f : Flags) : Bool :=
  match after (boot 0x100 code regs []) with
  | some t => t.status == .running && t.reg r == v && Psw.flags t.psw == f &&
      t.pc == 0x100 + BitVec.ofNat 32 code.length
  | none => false

/-- `gives` for every row of a table. -/
def allGive (rows : List (List Byte × List (RegNum × Word) × RegNum × Word × Flags)) : Bool :=
  rows.all fun (code, regs, r, v, f) => gives code regs r v f

/-- The bytes decode to the instruction, with nothing left over. -/
def decodesTo (rows : List (List Byte × Instr)) : Bool :=
  rows.all fun (code, i) => (decode code).toOption == some (i, [])

/-- The bytes are rejected for this reason. -/
def rejects (code : List Byte) (why : DecodeWhy) : Bool :=
  match decode code with
  | .ok _ => false
  | .error e => e.why == why

/-- A gate table at 0x700080 whose entry k has PSW 0 and PC 0x800 + k. -/
def gates : List (Nat × Word) :=
  (0x700000, 0x700080) ::
    (List.range 21).flatMap fun k => [(0x700080 + 8 * k, 0), (0x700084 + 8 * k, BitVec.ofNat 32 (0x800 + k))]

/-- The step of the instruction at 0x100 takes a trap with this ISC and saved PC: frame, handler and SP (R810, R820). -/
def traps (code : List Byte) (regs : List (RegNum × Word)) (isc : Nat) (saved : Word) (psw : Word := 0x0001E000) : Bool :=
  match after (boot 0x100 code ((12, 0x700200) :: regs) gates psw) with
  | some t => t.status == .running && wordAt t 0x700200 == saved &&
      Psw.et (wordAt t 0x700204) == 3 && Psw.isc (wordAt t 0x700204) == BitVec.ofNat 4 isc &&
      t.sp == 0x700208 && t.pc == BitVec.ofNat 32 (0x800 + isc)
  | none => false

/-! ## Well-formedness: one ill-formed term for each check -/

theorem test_wf_reg15 : (Instr.tstw ⟨none, .reg 15⟩).wellFormed = false := by decide
theorem test_wf_regDef11 : (Instr.tstw ⟨none, .regDef 11⟩).wellFormed = false := by decide
theorem test_wf_regDef15 : (Instr.tstw ⟨none, .regDef 15⟩).wellFormed = false := by decide
theorem test_wf_dispBase11 :
    [Form.wordDisp 11 0, .wordDispDef 11 0, .halfDisp 11 0, .halfDispDef 11 0, .byteDisp 11 0, .byteDispDef 11 0].all
      (fun f => !(Instr.tstw ⟨none, f⟩).wellFormed) = true := by decide
theorem test_wf_writeLiteral : (Instr.movw ⟨none, .reg 0⟩ ⟨none, .posLit 1⟩).wellFormed = false := by decide
theorem test_wf_modifyImmediate : (Instr.addw2 ⟨none, .reg 0⟩ ⟨none, .wordImm 1⟩).wellFormed = false := by decide
theorem test_wf_addressRegister : (Instr.jmp ⟨none, .reg 0⟩).wellFormed = false := by decide
theorem test_wf_addressLiteral : (Instr.movaw ⟨none, .negLit 3⟩ ⟨none, .reg 0⟩).wellFormed = false := by decide
theorem test_wf_addressExpanded : (Instr.pushaw ⟨some .uword, .regDef 1⟩).wellFormed = false := by decide
theorem test_wf_saveMemory : (Instr.save ⟨none, .regDef 6⟩).wellFormed = false := by decide
theorem test_wf_saveRegister2 : (Instr.save ⟨none, .reg 2⟩).wellFormed = false := by decide
theorem test_wf_restoreExpanded : (Instr.restore ⟨some .sword, .reg 6⟩).wellFormed = false := by decide
theorem test_wf_swapRegister : (Instr.swapwi ⟨none, .reg 1⟩).wellFormed = false := by decide
theorem test_wf_ignoredForm : (Instr.spoprs 0 ⟨none, .regDef 15⟩).wellFormed = false := by decide
theorem test_wf_legal : (Instr.save ⟨none, .reg 3⟩).wellFormed = true := by decide

/-! ## Decoding -/

/-- One word for every instruction of R451 to R464, written from its Encoding line and R320. -/
theorem test_decode_data_movement :
    decodesTo
      [([0x84, 0x40, 0x62], .movw ⟨none, .reg 0⟩ ⟨none, .fpShort 2⟩),
       ([0x86, 0x05, 0x73], .movh ⟨none, .posLit 5⟩ ⟨none, .apShort 3⟩),
       ([0x87, 0x51, 0xC9, 0x08], .movb ⟨none, .regDef 1⟩ ⟨none, .byteDisp 9 8⟩),
       ([0x04, 0x51, 0x7F, 0x00, 0x00, 0x70, 0x00], .movaw ⟨none, .regDef 1⟩ ⟨none, .absolute 0x700000⟩),
       ([0x80, 0xD1, 0xF8], .clrw ⟨none, .byteDispDef 1 0xF8⟩),
       ([0x82, 0xA2, 0x00, 0x01], .clrh ⟨none, .halfDisp 2 0x0100⟩),
       ([0x83, 0xEF, 0x04, 0x00, 0x70, 0x00], .clrb ⟨none, .absDef 0x700004⟩),
       ([0xA0, 0xFF], .pushw ⟨none, .negLit 15⟩),
       ([0xE0, 0x62], .pushaw ⟨none, .fpShort 2⟩),
       ([0x20, 0xE3, 0xB3, 0xFE, 0xFF], .popw ⟨some .ubyte, .halfDispDef 3 0xFFFE⟩),
       ([0x1C, 0x73], .swapwi ⟨none, .apShort 3⟩),
       ([0x1E, 0xC9, 0x08], .swaphi ⟨none, .byteDisp 9 8⟩),
       ([0x1F, 0x7F, 0x00, 0x00, 0x70, 0x00], .swapbi ⟨none, .absolute 0x700000⟩)] = true := by
  decide +kernel

/-- One word for every instruction of R501 to R512, written from its Encoding line and R320. -/
theorem test_decode_arithmetic_add_sub :
    decodesTo
      [([0x9C, 0x6F, 0x80, 0x73], .addw2 ⟨none, .byteImm 0x80⟩ ⟨none, .apShort 3⟩),
       ([0x9E, 0x62, 0xE4, 0xC9, 0x08], .addh2 ⟨none, .fpShort 2⟩ ⟨some .sword, .byteDisp 9 8⟩),
       ([0x9F, 0x5F, 0x34, 0x12, 0x7F, 0x00, 0x00, 0x70, 0x00],
        .addb2 ⟨none, .halfImm 0x1234⟩ ⟨none, .absolute 0x700000⟩),
       ([0xDC, 0x73, 0x4F, 0x78, 0x56, 0x34, 0x12, 0x84, 0x01, 0x00, 0x00, 0x80],
        .addw3 ⟨none, .apShort 3⟩ ⟨none, .wordImm 0x12345678⟩ ⟨none, .wordDisp 4 0x80000001⟩),
       ([0xDE, 0xC9, 0x08, 0xE6, 0x7F, 0x00, 0x00, 0x70, 0x00, 0x95, 0x78, 0x56, 0x34, 0x12],
        .addh3 ⟨none, .byteDisp 9 8⟩ ⟨some .shalf, .absolute 0x700000⟩ ⟨none, .wordDispDef 5 0x12345678⟩),
       ([0xDF, 0xD1, 0xF8, 0xA2, 0x00, 0x01, 0xCF, 0x10],
        .addb3 ⟨none, .byteDispDef 1 0xF8⟩ ⟨none, .halfDisp 2 0x0100⟩ ⟨none, .byteDisp 15 0x10⟩),
       ([0xBC, 0xEF, 0x04, 0x00, 0x70, 0x00, 0xD1, 0xF8],
        .subw2 ⟨none, .absDef 0x700004⟩ ⟨none, .byteDispDef 1 0xF8⟩),
       ([0xBE, 0xE7, 0xB3, 0xFE, 0xFF, 0xA2, 0x00, 0x01],
        .subh2 ⟨some .sbyte, .halfDispDef 3 0xFFFE⟩ ⟨none, .halfDisp 2 0x0100⟩),
       ([0xBF, 0x84, 0x01, 0x00, 0x00, 0x80, 0xEF, 0x04, 0x00, 0x70, 0x00],
        .subb2 ⟨none, .wordDisp 4 0x80000001⟩ ⟨none, .absDef 0x700004⟩),
       ([0xFC, 0x95, 0x78, 0x56, 0x34, 0x12, 0x3F, 0x4E],
        .subw3 ⟨none, .wordDispDef 5 0x12345678⟩ ⟨none, .posLit 63⟩ ⟨none, .reg 14⟩),
       ([0xFE, 0xE0, 0xF0, 0xCF, 0x10, 0x8F, 0x00, 0x01, 0x00, 0x00],
        .subh3 ⟨some .uword, .negLit 0⟩ ⟨none, .byteDisp 15 0x10⟩ ⟨none, .wordDisp 15 0x100⟩),
       ([0xFF, 0x4E, 0x8F, 0x00, 0x01, 0x00, 0x00, 0x4B],
        .subb3 ⟨none, .reg 14⟩ ⟨none, .wordDisp 15 0x100⟩ ⟨none, .reg 11⟩)] = true := by
  decide +kernel

/-- One word for every instruction of R513 to R530, written from its Encoding line and R320. -/
theorem test_decode_arithmetic_mul_div :
    decodesTo
      [([0xA8, 0x40, 0xE2, 0xB3, 0xFE, 0xFF], .mulw2 ⟨none, .reg 0⟩ ⟨some .uhalf, .halfDispDef 3 0xFFFE⟩),
       ([0xAA, 0x05, 0x84, 0x01, 0x00, 0x00, 0x80], .mulh2 ⟨none, .posLit 5⟩ ⟨none, .wordDisp 4 0x80000001⟩),
       ([0xAB, 0x51, 0x95, 0x78, 0x56, 0x34, 0x12], .mulb2 ⟨none, .regDef 1⟩ ⟨none, .wordDispDef 5 0x12345678⟩),
       ([0xE8, 0xFF, 0x6F, 0x80, 0xE3, 0x5C],
        .mulw3 ⟨none, .negLit 15⟩ ⟨none, .byteImm 0x80⟩ ⟨some .ubyte, .regDef 12⟩),
       ([0xEA, 0x62, 0x5F, 0x34, 0x12, 0x6E],
        .mulh3 ⟨none, .fpShort 2⟩ ⟨none, .halfImm 0x1234⟩ ⟨none, .fpShort 14⟩),
       ([0xEB, 0x73, 0x4F, 0x78, 0x56, 0x34, 0x12, 0x7E],
        .mulb3 ⟨none, .apShort 3⟩ ⟨none, .wordImm 0x12345678⟩ ⟨none, .apShort 14⟩),
       ([0xAC, 0xE4, 0xC9, 0x08, 0xCF, 0x10], .divw2 ⟨some .sword, .byteDisp 9 8⟩ ⟨none, .byteDisp 15 0x10⟩),
       ([0xAE, 0x7F, 0x00, 0x00, 0x70, 0x00, 0x4E], .divh2 ⟨none, .absolute 0x700000⟩ ⟨none, .reg 14⟩),
       ([0xAF, 0xD1, 0xF8, 0x8F, 0x00, 0x01, 0x00, 0x00],
        .divb2 ⟨none, .byteDispDef 1 0xF8⟩ ⟨none, .wordDisp 15 0x100⟩),
       ([0xEC, 0xA2, 0x00, 0x01, 0xE6, 0xEF, 0x04, 0x00, 0x70, 0x00, 0x40],
        .divw3 ⟨none, .halfDisp 2 0x0100⟩ ⟨some .shalf, .absDef 0x700004⟩ ⟨none, .reg 0⟩),
       ([0xEE, 0xB3, 0xFE, 0xFF, 0x84, 0x01, 0x00, 0x00, 0x80, 0x51],
        .divh3 ⟨none, .halfDispDef 3 0xFFFE⟩ ⟨none, .wordDisp 4 0x80000001⟩ ⟨none, .regDef 1⟩),
       ([0xEF, 0x95, 0x78, 0x56, 0x34, 0x12, 0x3F, 0xE7, 0x62],
        .divb3 ⟨none, .wordDispDef 5 0x12345678⟩ ⟨none, .posLit 63⟩ ⟨some .sbyte, .fpShort 2⟩),
       ([0xA4, 0xF0, 0x4B], .modw2 ⟨none, .negLit 0⟩ ⟨none, .reg 11⟩),
       ([0xA6, 0xCF, 0x10, 0x5C], .modh2 ⟨none, .byteDisp 15 0x10⟩ ⟨none, .regDef 12⟩),
       ([0xA7, 0x4E, 0x6E], .modb2 ⟨none, .reg 14⟩ ⟨none, .fpShort 14⟩),
       ([0xE4, 0xE0, 0x8F, 0x00, 0x01, 0x00, 0x00, 0x40, 0x73],
        .modw3 ⟨some .uword, .wordDisp 15 0x100⟩ ⟨none, .reg 0⟩ ⟨none, .apShort 3⟩),
       ([0xE6, 0x05, 0x51, 0xC9, 0x08], .modh3 ⟨none, .posLit 5⟩ ⟨none, .regDef 1⟩ ⟨none, .byteDisp 9 8⟩),
       ([0xE7, 0xFF, 0xE2, 0x6F, 0x80, 0x7F, 0x00, 0x00, 0x70, 0x00],
        .modb3 ⟨none, .negLit 15⟩ ⟨some .uhalf, .byteImm 0x80⟩ ⟨none, .absolute 0x700000⟩)] = true := by
  decide +kernel

/-- One word for every instruction of R531 to R539, written from its Encoding line and R320. -/
theorem test_decode_arithmetic_inc_dec_neg :
    decodesTo
      [([0x90, 0x7E], .incw ⟨none, .apShort 14⟩),
       ([0x92, 0x40], .inch ⟨none, .reg 0⟩),
       ([0x93, 0x51], .incb ⟨none, .regDef 1⟩),
       ([0x94, 0x62], .decw ⟨none, .fpShort 2⟩),
       ([0x96, 0x73], .dech ⟨none, .apShort 3⟩),
       ([0x97, 0xE3, 0xC9, 0x08], .decb ⟨some .ubyte, .byteDisp 9 8⟩),
       ([0x8C, 0x62, 0xD1, 0xF8], .mnegw ⟨none, .fpShort 2⟩ ⟨none, .byteDispDef 1 0xF8⟩),
       ([0x8E, 0x5F, 0x34, 0x12, 0xA2, 0x00, 0x01], .mnegh ⟨none, .halfImm 0x1234⟩ ⟨none, .halfDisp 2 0x0100⟩),
       ([0x8F, 0x73, 0xEF, 0x04, 0x00, 0x70, 0x00], .mnegb ⟨none, .apShort 3⟩ ⟨none, .absDef 0x700004⟩)] = true := by
  decide +kernel

/-- One word for every instruction of R551 to R571, written from its Encoding line and R320. -/
theorem test_decode_logical :
    decodesTo
      [([0xB8, 0xE4, 0x4F, 0x78, 0x56, 0x34, 0x12, 0x7F, 0x00, 0x00, 0x70, 0x00],
        .andw2 ⟨some .sword, .wordImm 0x12345678⟩ ⟨none, .absolute 0x700000⟩),
       ([0xBA, 0xC9, 0x08, 0xD1, 0xF8], .andh2 ⟨none, .byteDisp 9 8⟩ ⟨none, .byteDispDef 1 0xF8⟩),
       ([0xBB, 0x7F, 0x00, 0x00, 0x70, 0x00, 0xA2, 0x00, 0x01],
        .andb2 ⟨none, .absolute 0x700000⟩ ⟨none, .halfDisp 2 0x0100⟩),
       ([0xF8, 0xD1, 0xF8, 0xE6, 0xA2, 0x00, 0x01, 0xB3, 0xFE, 0xFF],
        .andw3 ⟨none, .byteDispDef 1 0xF8⟩ ⟨some .shalf, .halfDisp 2 0x0100⟩ ⟨none, .halfDispDef 3 0xFFFE⟩),
       ([0xFA, 0xEF, 0x04, 0x00, 0x70, 0x00, 0xB3, 0xFE, 0xFF, 0x84, 0x01, 0x00, 0x00, 0x80],
        .andh3 ⟨none, .absDef 0x700004⟩ ⟨none, .halfDispDef 3 0xFFFE⟩ ⟨none, .wordDisp 4 0x80000001⟩),
       ([0xFB, 0x84, 0x01, 0x00, 0x00, 0x80, 0x95, 0x78, 0x56, 0x34, 0x12, 0xE7, 0x95, 0x78, 0x56, 0x34, 0x12],
        .andb3 ⟨none, .wordDisp 4 0x80000001⟩ ⟨none, .wordDispDef 5 0x12345678⟩ ⟨some .sbyte, .wordDispDef 5 0x12345678⟩),
       ([0xB0, 0x3F, 0xEF, 0x04, 0x00, 0x70, 0x00], .orw2 ⟨none, .posLit 63⟩ ⟨none, .absDef 0x700004⟩),
       ([0xB2, 0xF0, 0xB3, 0xFE, 0xFF], .orh2 ⟨none, .negLit 0⟩ ⟨none, .halfDispDef 3 0xFFFE⟩),
       ([0xB3, 0xCF, 0x10, 0x84, 0x01, 0x00, 0x00, 0x80],
        .orb2 ⟨none, .byteDisp 15 0x10⟩ ⟨none, .wordDisp 4 0x80000001⟩),
       ([0xF0, 0xE0, 0x4E, 0x8F, 0x00, 0x01, 0x00, 0x00, 0xCF, 0x10],
        .orw3 ⟨some .uword, .reg 14⟩ ⟨none, .wordDisp 15 0x100⟩ ⟨none, .byteDisp 15 0x10⟩),
       ([0xF2, 0x40, 0x05, 0x4E], .orh3 ⟨none, .reg 0⟩ ⟨none, .posLit 5⟩ ⟨none, .reg 14⟩),
       ([0xF3, 0x51, 0xE2, 0xFF, 0x8F, 0x00, 0x01, 0x00, 0x00],
        .orb3 ⟨none, .regDef 1⟩ ⟨some .uhalf, .negLit 15⟩ ⟨none, .wordDisp 15 0x100⟩),
       ([0xB4, 0x6F, 0x80, 0x95, 0x78, 0x56, 0x34, 0x12],
        .xorw2 ⟨none, .byteImm 0x80⟩ ⟨none, .wordDispDef 5 0x12345678⟩),
       ([0xB6, 0x62, 0xCF, 0x10], .xorh2 ⟨none, .fpShort 2⟩ ⟨none, .byteDisp 15 0x10⟩),
       ([0xB7, 0x5F, 0x34, 0x12, 0xE3, 0x4E], .xorb2 ⟨none, .halfImm 0x1234⟩ ⟨some .ubyte, .reg 14⟩),
       ([0xF4, 0x73, 0x4F, 0x78, 0x56, 0x34, 0x12, 0x4B],
        .xorw3 ⟨none, .apShort 3⟩ ⟨none, .wordImm 0x12345678⟩ ⟨none, .reg 11⟩),
       ([0xF6, 0xC9, 0x08, 0x7F, 0x00, 0x00, 0x70, 0x00, 0x5C],
        .xorh3 ⟨none, .byteDisp 9 8⟩ ⟨none, .absolute 0x700000⟩ ⟨none, .regDef 12⟩),
       ([0xF7, 0xE4, 0xD1, 0xF8, 0xA2, 0x00, 0x01, 0x6E],
        .xorb3 ⟨some .sword, .byteDispDef 1 0xF8⟩ ⟨none, .halfDisp 2 0x0100⟩ ⟨none, .fpShort 14⟩),
       ([0x88, 0xEF, 0x04, 0x00, 0x70, 0x00, 0x7E], .mcomw ⟨none, .absDef 0x700004⟩ ⟨none, .apShort 14⟩),
       ([0x8A, 0xB3, 0xFE, 0xFF, 0x40], .mcomh ⟨none, .halfDispDef 3 0xFFFE⟩ ⟨none, .reg 0⟩),
       ([0x8B, 0xE6, 0x84, 0x01, 0x00, 0x00, 0x80, 0x51],
        .mcomb ⟨some .shalf, .wordDisp 4 0x80000001⟩ ⟨none, .regDef 1⟩)] = true := by
  decide +kernel

/-- One word for every instruction of R572 to R586, written from its Encoding line and R320. -/
theorem test_decode_shift_field :
    decodesTo
      [([0xC0, 0x95, 0x78, 0x56, 0x34, 0x12, 0x3F, 0x62],
        .alsw3 ⟨none, .wordDispDef 5 0x12345678⟩ ⟨none, .posLit 63⟩ ⟨none, .fpShort 2⟩),
       ([0xC4, 0xF0, 0xCF, 0x10, 0xE7, 0x73],
        .arsw3 ⟨none, .negLit 0⟩ ⟨none, .byteDisp 15 0x10⟩ ⟨some .sbyte, .apShort 3⟩),
       ([0xC6, 0x4E, 0x8F, 0x00, 0x01, 0x00, 0x00, 0xC9, 0x08],
        .arsh3 ⟨none, .reg 14⟩ ⟨none, .wordDisp 15 0x100⟩ ⟨none, .byteDisp 9 8⟩),
       ([0xC7, 0x40, 0x05, 0x7F, 0x00, 0x00, 0x70, 0x00],
        .arsb3 ⟨none, .reg 0⟩ ⟨none, .posLit 5⟩ ⟨none, .absolute 0x700000⟩),
       ([0xD0, 0xE0, 0x51, 0xFF, 0xD1, 0xF8],
        .llsw3 ⟨some .uword, .regDef 1⟩ ⟨none, .negLit 15⟩ ⟨none, .byteDispDef 1 0xF8⟩),
       ([0xD2, 0x6F, 0x80, 0x62, 0xA2, 0x00, 0x01],
        .llsh3 ⟨none, .byteImm 0x80⟩ ⟨none, .fpShort 2⟩ ⟨none, .halfDisp 2 0x0100⟩),
       ([0xD3, 0x5F, 0x34, 0x12, 0xE2, 0x73, 0xEF, 0x04, 0x00, 0x70, 0x00],
        .llsb3 ⟨none, .halfImm 0x1234⟩ ⟨some .uhalf, .apShort 3⟩ ⟨none, .absDef 0x700004⟩),
       ([0xD4, 0x4F, 0x78, 0x56, 0x34, 0x12, 0xC9, 0x08, 0xB3, 0xFE, 0xFF],
        .lrsw3 ⟨none, .wordImm 0x12345678⟩ ⟨none, .byteDisp 9 8⟩ ⟨none, .halfDispDef 3 0xFFFE⟩),
       ([0xD8, 0x7F, 0x00, 0x00, 0x70, 0x00, 0xD1, 0xF8, 0xE3, 0x84, 0x01, 0x00, 0x00, 0x80],
        .rotw ⟨none, .absolute 0x700000⟩ ⟨none, .byteDispDef 1 0xF8⟩ ⟨some .ubyte, .wordDisp 4 0x80000001⟩),
       ([0xC8, 0xA2, 0x00, 0x01, 0xEF, 0x04, 0x00, 0x70, 0x00, 0xB3, 0xFE, 0xFF, 0x8F, 0x00, 0x01, 0x00, 0x00],
        .insfw ⟨none, .halfDisp 2 0x0100⟩ ⟨none, .absDef 0x700004⟩ ⟨none, .halfDispDef 3 0xFFFE⟩ ⟨none, .wordDisp 15 0x100⟩),
       ([0xCA, 0x84, 0x01, 0x00, 0x00, 0x80, 0x95, 0x78, 0x56, 0x34, 0x12, 0xE4, 0x3F, 0x4B],
        .insfh ⟨none, .wordDisp 4 0x80000001⟩ ⟨none, .wordDispDef 5 0x12345678⟩ ⟨some .sword, .posLit 63⟩ ⟨none, .reg 11⟩),
       ([0xCB, 0xF0, 0xCF, 0x10, 0x4E, 0x5C],
        .insfb ⟨none, .negLit 0⟩ ⟨none, .byteDisp 15 0x10⟩ ⟨none, .reg 14⟩ ⟨none, .regDef 12⟩),
       ([0xCC, 0x8F, 0x00, 0x01, 0x00, 0x00, 0xE6, 0x40, 0x05, 0x95, 0x78, 0x56, 0x34, 0x12],
        .extfw ⟨none, .wordDisp 15 0x100⟩ ⟨some .shalf, .reg 0⟩ ⟨none, .posLit 5⟩ ⟨none, .wordDispDef 5 0x12345678⟩),
       ([0xCE, 0x51, 0xFF, 0x6F, 0x80, 0xCF, 0x10],
        .extfh ⟨none, .regDef 1⟩ ⟨none, .negLit 15⟩ ⟨none, .byteImm 0x80⟩ ⟨none, .byteDisp 15 0x10⟩),
       ([0xCF, 0xE7, 0x62, 0x5F, 0x34, 0x12, 0x73, 0x4E],
        .extfb ⟨some .sbyte, .fpShort 2⟩ ⟨none, .halfImm 0x1234⟩ ⟨none, .apShort 3⟩ ⟨none, .reg 14⟩)] = true := by
  decide +kernel

/-- One word for every instruction of R601 to R609, written from its Encoding line and R320. -/
theorem test_decode_compare :
    decodesTo
      [([0x3C, 0x4F, 0x78, 0x56, 0x34, 0x12, 0xC9, 0x08], .cmpw ⟨none, .wordImm 0x12345678⟩ ⟨none, .byteDisp 9 8⟩),
       ([0x3E, 0x7F, 0x00, 0x00, 0x70, 0x00, 0xE0, 0xD1, 0xF8],
        .cmph ⟨none, .absolute 0x700000⟩ ⟨some .uword, .byteDispDef 1 0xF8⟩),
       ([0x3F, 0xA2, 0x00, 0x01, 0xEF, 0x04, 0x00, 0x70, 0x00],
        .cmpb ⟨none, .halfDisp 2 0x0100⟩ ⟨none, .absDef 0x700004⟩),
       ([0x28, 0xB3, 0xFE, 0xFF], .tstw ⟨none, .halfDispDef 3 0xFFFE⟩),
       ([0x2A, 0x84, 0x01, 0x00, 0x00, 0x80], .tsth ⟨none, .wordDisp 4 0x80000001⟩),
       ([0x2B, 0x95, 0x78, 0x56, 0x34, 0x12], .tstb ⟨none, .wordDispDef 5 0x12345678⟩),
       ([0x38, 0x3F, 0xE2, 0xF0], .bitw ⟨none, .posLit 63⟩ ⟨some .uhalf, .negLit 0⟩),
       ([0x3A, 0xCF, 0x10, 0x4E], .bith ⟨none, .byteDisp 15 0x10⟩ ⟨none, .reg 14⟩),
       ([0x3B, 0x8F, 0x00, 0x01, 0x00, 0x00, 0x40], .bitb ⟨none, .wordDisp 15 0x100⟩ ⟨none, .reg 0⟩)] = true := by
  decide +kernel

/-- One word for every instruction of R611 to R625, written from its Encoding line and R320. -/
theorem test_decode_branch_a :
    decodesTo
      [([0x7B, 0xF0], .brb 0xF0),
       ([0x7A, 0x34, 0x12], .brh 0x1234),
       ([0x43, 0xF0], .bgeb 0xF0),
       ([0x42, 0x34, 0x12], .bgeh 0x1234),
       ([0x47, 0xF0], .bgb 0xF0),
       ([0x46, 0x34, 0x12], .bgh 0x1234),
       ([0x4B, 0xF0], .blb 0xF0),
       ([0x4A, 0x34, 0x12], .blh 0x1234),
       ([0x4F, 0xF0], .bleb 0xF0),
       ([0x4E, 0x34, 0x12], .bleh 0x1234),
       ([0x53, 0xF0], .bgeub 0xF0),
       ([0x52, 0x34, 0x12], .bgeuh 0x1234),
       ([0x57, 0xF0], .bgub 0xF0),
       ([0x56, 0x34, 0x12], .bguh 0x1234),
       ([0x5B, 0xF0], .blub 0xF0)] = true := by
  decide +kernel

/-- One word for every instruction of R626 to R640, written from its Encoding line and R320. -/
theorem test_decode_branch_b :
    decodesTo
      [([0x5A, 0x34, 0x12], .bluh 0x1234),
       ([0x5F, 0xF0], .bleub 0xF0),
       ([0x5E, 0x34, 0x12], .bleuh 0x1234),
       ([0x63, 0xF0], .bvcb 0xF0),
       ([0x62, 0x34, 0x12], .bvch 0x1234),
       ([0x67, 0xF0], .bneub 0xF0),
       ([0x66, 0x34, 0x12], .bneuh 0x1234),
       ([0x6B, 0xF0], .bvsb 0xF0),
       ([0x6A, 0x34, 0x12], .bvsh 0x1234),
       ([0x6F, 0xF0], .beub 0xF0),
       ([0x6E, 0x34, 0x12], .beuh 0x1234),
       ([0x77, 0xF0], .bneb 0xF0),
       ([0x76, 0x34, 0x12], .bneh 0x1234),
       ([0x7F, 0xF0], .beb 0xF0),
       ([0x7E, 0x34, 0x12], .beh 0x1234)] = true := by
  decide +kernel

/-- One word for every instruction of R641 to R655, written from its Encoding line and R320. -/
theorem test_decode_return_jump :
    decodesTo
      [([0x40], .rgeq),
       ([0x44], .rgtr),
       ([0x48], .rlss),
       ([0x4C], .rleq),
       ([0x50], .rgequ),
       ([0x54], .rgtru),
       ([0x58], .rlssu),
       ([0x5C], .rlequ),
       ([0x60], .rvc),
       ([0x64], .rnequ),
       ([0x68], .rvs),
       ([0x6C], .reqlu),
       ([0x74], .rneq),
       ([0x7C], .reql),
       ([0x24, 0xD1, 0xF8], .jmp ⟨none, .byteDispDef 1 0xF8⟩)] = true := by
  decide +kernel

/-- One word for every instruction of R661 to R668, written from its Encoding line and R320. -/
theorem test_decode_call :
    decodesTo
      [([0x2C, 0xA2, 0x00, 0x01, 0xEF, 0x04, 0x00, 0x70, 0x00],
        .call ⟨none, .halfDisp 2 0x0100⟩ ⟨none, .absDef 0x700004⟩),
       ([0x08], .ret),
       ([0x10, 0x43], .save ⟨none, .reg 3⟩),
       ([0x18, 0x48], .restore ⟨none, .reg 8⟩),
       ([0x34, 0xB3, 0xFE, 0xFF], .jsb ⟨none, .halfDispDef 3 0xFFFE⟩),
       ([0x78], .rsb),
       ([0x37, 0xF0], .bsbb 0xF0),
       ([0x36, 0x34, 0x12], .bsbh 0x1234)] = true := by
  decide +kernel

/-- One word for every instruction of R701 to R703, written from its Encoding line and R320. -/
theorem test_decode_block :
    decodesTo
      [([0x30, 0x19], .movblw),
       ([0x30, 0x35], .strcpy),
       ([0x30, 0x1F], .strend)] = true := by
  decide +kernel

/-- One word for every instruction of R721 to R755, written from its Encoding line and R320. -/
theorem test_decode_system :
    decodesTo
      [([0x00], .halt),
       ([0x70], .nop),
       ([0x73, 0xF0], .nop2 0xF0),
       ([0x72, 0x34, 0x12], .nop3 0x1234),
       ([0x2E], .bpt),
       ([0x14], .extop),
       ([0x30, 0x09], .mverno),
       ([0x30, 0x61], .gate),
       ([0x30, 0x45], .retg),
       ([0x2F], .wait),
       ([0x27], .cflush),
       ([0x30, 0x2F], .intack),
       ([0x30, 0xAC], .callps),
       ([0x30, 0xC8], .retps),
       ([0x30, 0x0D], .enbvjmp),
       ([0x30, 0x13], .disvjmp),
       ([0x0C, 0x84, 0x01, 0x00, 0x00, 0x80, 0x8F, 0x00, 0x01, 0x00, 0x00],
        .movtrw ⟨none, .wordDisp 4 0x80000001⟩ ⟨none, .wordDisp 15 0x100⟩)] = true := by
  decide +kernel

/-- One word for every instruction of R757 to R766, written from its Encoding line and R320. -/
theorem test_decode_support_processor :
    decodesTo
      [([0x32, 0x78, 0x56, 0x34, 0x12], .spop 0x12345678),
       ([0x22, 0x78, 0x56, 0x34, 0x12, 0x40], .spoprs 0x12345678 ⟨none, .reg 0⟩),
       ([0x02, 0x78, 0x56, 0x34, 0x12, 0x05], .spoprd 0x12345678 ⟨none, .posLit 5⟩),
       ([0x06, 0x78, 0x56, 0x34, 0x12, 0x51], .spoprt 0x12345678 ⟨none, .regDef 1⟩),
       ([0x23, 0x78, 0x56, 0x34, 0x12, 0xFF, 0x6F, 0x80],
        .spops2 0x12345678 ⟨none, .negLit 15⟩ ⟨none, .byteImm 0x80⟩),
       ([0x03, 0x78, 0x56, 0x34, 0x12, 0x62, 0x5F, 0x34, 0x12],
        .spopd2 0x12345678 ⟨none, .fpShort 2⟩ ⟨none, .halfImm 0x1234⟩),
       ([0x07, 0x78, 0x56, 0x34, 0x12, 0x73, 0x4F, 0x78, 0x56, 0x34, 0x12],
        .spopt2 0x12345678 ⟨none, .apShort 3⟩ ⟨none, .wordImm 0x12345678⟩),
       ([0x33, 0x78, 0x56, 0x34, 0x12, 0xC9, 0x08], .spopws 0x12345678 ⟨none, .byteDisp 9 8⟩),
       ([0x13, 0x78, 0x56, 0x34, 0x12, 0x7F, 0x00, 0x00, 0x70, 0x00],
        .spopwd 0x12345678 ⟨none, .absolute 0x700000⟩),
       ([0x17, 0x78, 0x56, 0x34, 0x12, 0xD1, 0xF8], .spopwt 0x12345678 ⟨none, .byteDispDef 1 0xF8⟩)] = true := by
  decide +kernel

/-- R320, R322, R403: invalid descriptors, and a descriptor after an expanded type that is one itself. -/
theorem test_decode_invalid :
    [[0x28, 0x5B], [0x28, 0x8B], [0x28, 0xDB], [0x28, 0xE1], [0x28, 0xEB], [0x28, 0xE0, 0xE4]].all
      (fun bs => rejects (bs ++ [0, 0, 0, 0]) .invalidDescriptor) = true := by
  decide +kernel

/-- R341, V28 and V29: undefined opcodes. -/
theorem test_decode_undefined :
    [[0x01], [0xFD], [0x30, 0x00]].all (fun bs => rejects bs .undefinedOpcode) = true := by
  decide +kernel

/-- R230, R345: bytes that end too early. -/
theorem test_decode_truncated :
    [[], [0x30], [0x84], [0x84, 0x40], [0x84, 0x4F, 0, 0, 0], [0x7A, 0]].all (fun bs => rejects bs .truncated) = true := by
  decide +kernel

/-- The table's two-byte opcode 0x3061 is GATE, and 0x84 with operand bytes of zeros is MOVW with literals. -/
theorem test_decode_table :
    decodeTableWord 16 0x3061 = some .gate ∧ decodeTableWord 8 0x7B = some (.brb 0) := by
  decide +kernel

/-! ## Single steps: the examples of the rules -/

/-- R451: register to memory. -/
theorem test_movw :
    leaves (boot 0x100 [0x84, 0x40, 0x51] [(0, 0x80000000), (1, 0x700000)] []) [(11, 0x0021E000), (15, 0x103)]
      [(0x700000, 0x80000000)] = true := by
  decide +kernel

/-- The examples of R451 to R457. -/
theorem test_examples_moves :
    allGive
      [([0x86, 0x40, 0x41], [(0, 0x00018000)], 1, 0xFFFF8000, fl 1 0 0 0),
       ([0x87, 0x6F, 0x80, 0x41], [], 1, 0x00000080, fl 1 0 0 0),
       ([0x04, 0xC9, 0x08, 0x40], [(9, 0x00700100)], 0, 0x00700108, fl 0 0 0 0),
       ([0x80, 0x41], [(1, 0xFFFFFFFF)], 1, 0, fl 0 1 0 0),
       ([0x82, 0x41], [(1, 0xFFFFFFFF)], 1, 0, fl 0 1 0 0),
       ([0x83, 0x41], [(1, 0xFFFFFFFF)], 1, 0, fl 0 1 0 0)] = true := by
  decide +kernel

/-- The examples of R501 to R512. -/
theorem test_examples_add_sub :
    allGive
      [([0x9C, 0x40, 0x41], [(0, 0x7FFFFFFF), (1, 0x00000001)], 1, 0x80000000, fl 1 0 0 1),
       ([0x9E, 0x40, 0x41], [(0, 0x00007FFF), (1, 0x00000001)], 1, 0xFFFF8000, fl 1 0 0 1),
       ([0x9F, 0x40, 0x41], [(0, 0x000000FF), (1, 0x00000001)], 1, 0x00000000, fl 0 1 1 0),
       ([0xDC, 0x40, 0x41, 0x42], [(0, 0x7FFFFFFF), (1, 0x00000001)], 2, 0x80000000, fl 1 0 0 1),
       ([0xDE, 0x40, 0x41, 0x42], [(0, 0x00007FFF), (1, 0x00000001)], 2, 0xFFFF8000, fl 1 0 0 1),
       ([0xDF, 0x40, 0x41, 0x42], [(0, 0x000000FF), (1, 0x00000001)], 2, 0x00000000, fl 0 1 1 0),
       ([0xBC, 0x40, 0x41], [(0, 0x00000001), (1, 0x00000000)], 1, 0xFFFFFFFF, fl 1 0 1 0),
       ([0xBE, 0x40, 0x41], [(0, 0x00000001), (1, 0x00008000)], 1, 0x00007FFF, fl 0 0 0 1),
       ([0xBF, 0x40, 0x41], [(0, 0x00000005), (1, 0x00000003)], 1, 0x000000FE, fl 1 0 1 0),
       ([0xFC, 0x40, 0x41, 0x42], [(0, 0x00000001), (1, 0x00000000)], 2, 0xFFFFFFFF, fl 1 0 1 0),
       ([0xFE, 0x40, 0x41, 0x42], [(0, 0x00000001), (1, 0x00008000)], 2, 0x00007FFF, fl 0 0 0 1),
       ([0xFF, 0x40, 0x41, 0x42], [(0, 0x00000005), (1, 0x00000003)], 2, 0x000000FE, fl 1 0 1 0)] = true := by
  decide +kernel

/-- The examples of R513 to R530. -/
theorem test_examples_mul_div :
    allGive
      [([0xA8, 0x40, 0x41], [(0, 0x00010000), (1, 0x00010000)], 1, 0x00000000, fl 0 1 0 1),
       ([0xAA, 0x40, 0x41], [(0, 0x00000100), (1, 0x0000007F)], 1, 0x00007F00, fl 0 0 0 0),
       ([0xAB, 0x40, 0x41], [(0, 0x00000010), (1, 0x00000010)], 1, 0x00000000, fl 0 1 0 1),
       ([0xE8, 0x40, 0x41, 0x42], [(0, 0x00010000), (1, 0x00010000)], 2, 0x00000000, fl 0 1 0 1),
       ([0xEA, 0x40, 0x41, 0x42], [(0, 0x00000100), (1, 0x0000007F)], 2, 0x00007F00, fl 0 0 0 0),
       ([0xEB, 0x40, 0x41, 0x42], [(0, 0x00000010), (1, 0x00000010)], 2, 0x00000000, fl 0 1 0 1),
       ([0xAC, 0x40, 0x41], [(0, 0xFFFFFFFF), (1, 0x80000000)], 1, 0x80000000, fl 1 0 0 1),
       ([0xAE, 0x40, 0x41], [(0, 0x0000FFFD), (1, 0x00000007)], 1, 0xFFFFFFFE, fl 1 0 0 0),
       ([0xAF, 0x40, 0x41], [(0, 0x00000003), (1, 0x000000C8)], 1, 0x00000042, fl 0 0 0 0),
       ([0xEC, 0x40, 0x41, 0x42], [(0, 0xFFFFFFFF), (1, 0x80000000)], 2, 0x80000000, fl 1 0 0 1),
       ([0xEE, 0x40, 0x41, 0x42], [(0, 0x0000FFFD), (1, 0x00000007)], 2, 0xFFFFFFFE, fl 1 0 0 0),
       ([0xEF, 0x40, 0x41, 0x42], [(0, 0x00000003), (1, 0x000000C8)], 2, 0x00000042, fl 0 0 0 0),
       ([0xA4, 0x40, 0x41], [(0, 0x00000003), (1, 0xFFFFFFF9)], 1, 0xFFFFFFFF, fl 1 0 0 0),
       ([0xA6, 0x40, 0x41], [(0, 0x0000FFFD), (1, 0x00000007)], 1, 0x00000001, fl 0 0 0 0),
       ([0xA7, 0x40, 0x41], [(0, 0x00000003), (1, 0x000000C8)], 1, 0x00000002, fl 0 0 0 0),
       ([0xE4, 0x40, 0x41, 0x42], [(0, 0x00000003), (1, 0xFFFFFFF9)], 2, 0xFFFFFFFF, fl 1 0 0 0),
       ([0xE6, 0x40, 0x41, 0x42], [(0, 0x0000FFFD), (1, 0x00000007)], 2, 0x00000001, fl 0 0 0 0),
       ([0xE7, 0x40, 0x41, 0x42], [(0, 0x00000003), (1, 0x000000C8)], 2, 0x00000002, fl 0 0 0 0)] = true := by
  decide +kernel

/-- The examples of R531 to R539. -/
theorem test_examples_inc_dec_neg :
    allGive
      [([0x90, 0x40], [(0, 0x7FFFFFFF)], 0, 0x80000000, fl 1 0 0 1),
       ([0x92, 0x40], [(0, 0x0000FFFF)], 0, 0x00000000, fl 0 1 1 0),
       ([0x93, 0x40], [(0, 0x000000FF)], 0, 0x00000000, fl 0 1 1 0),
       ([0x94, 0x40], [(0, 0x00000000)], 0, 0xFFFFFFFF, fl 1 0 1 0),
       ([0x96, 0x40], [(0, 0x00008000)], 0, 0x00007FFF, fl 0 0 0 1),
       ([0x97, 0x40], [(0, 0x00000000)], 0, 0x000000FF, fl 1 0 1 0),
       ([0x8C, 0x40, 0x41], [(0, 0x80000000)], 1, 0x80000000, fl 1 0 1 1),
       ([0x8E, 0x40, 0x41], [(0, 0x00008000)], 1, 0xFFFF8000, fl 1 0 1 1),
       ([0x8F, 0x40, 0x41], [(0, 0x00000001)], 1, 0x000000FF, fl 1 0 1 0)] = true := by
  decide +kernel

/-- The examples of R551 to R571. -/
theorem test_examples_logical :
    allGive
      [([0xB8, 0x40, 0x41], [(0, 0xF0F0F0F0), (1, 0xFF00FF00)], 1, 0xF000F000, fl 1 0 0 0),
       ([0xBA, 0x40, 0x41], [(0, 0xF0F0F0F0), (1, 0xFF00FF00)], 1, 0xFFFFF000, fl 1 0 0 0),
       ([0xBB, 0x40, 0x41], [(0, 0xF0F0F0F0), (1, 0xFF00FF00)], 1, 0x00000000, fl 0 1 0 0),
       ([0xF8, 0x40, 0x41, 0x42], [(0, 0xF0F0F0F0), (1, 0xFF00FF00)], 2, 0xF000F000, fl 1 0 0 0),
       ([0xFA, 0x40, 0x41, 0x42], [(0, 0xF0F0F0F0), (1, 0xFF00FF00)], 2, 0xFFFFF000, fl 1 0 0 0),
       ([0xFB, 0x40, 0x41, 0x42], [(0, 0xF0F0F0F0), (1, 0xFF00FF00)], 2, 0x00000000, fl 0 1 0 0),
       ([0xB0, 0x40, 0x41], [(0, 0x0F0F0F0F), (1, 0xF0000000)], 1, 0xFF0F0F0F, fl 1 0 0 0),
       ([0xB2, 0x40, 0x41], [(0, 0x0F0F0F0F), (1, 0xF0000000)], 1, 0x00000F0F, fl 0 0 0 0),
       ([0xB3, 0x40, 0x41], [(0, 0x0F0F0F0F), (1, 0xF0000000)], 1, 0x0000000F, fl 0 0 0 0),
       ([0xF0, 0x40, 0x41, 0x42], [(0, 0x0F0F0F0F), (1, 0xF0000000)], 2, 0xFF0F0F0F, fl 1 0 0 0),
       ([0xF2, 0x40, 0x41, 0x42], [(0, 0x0F0F0F0F), (1, 0xF0000000)], 2, 0x00000F0F, fl 0 0 0 0),
       ([0xF3, 0x40, 0x41, 0x42], [(0, 0x0F0F0F0F), (1, 0xF0000000)], 2, 0x0000000F, fl 0 0 0 0),
       ([0xB4, 0x40, 0x41], [(0, 0xFFFFFFFF), (1, 0xFFFFFFFF)], 1, 0x00000000, fl 0 1 0 0),
       ([0xB6, 0x40, 0x41], [(0, 0xFFFFFFFF), (1, 0xFFFFFFFF)], 1, 0x00000000, fl 0 1 0 0),
       ([0xB7, 0x40, 0x41], [(0, 0xFFFFFFFF), (1, 0xFFFFFFFF)], 1, 0x00000000, fl 0 1 0 0),
       ([0xF4, 0x40, 0x41, 0x42], [(0, 0xFFFFFFFF), (1, 0xFFFFFFFF)], 2, 0x00000000, fl 0 1 0 0),
       ([0xF6, 0x40, 0x41, 0x42], [(0, 0xFFFFFFFF), (1, 0xFFFFFFFF)], 2, 0x00000000, fl 0 1 0 0),
       ([0xF7, 0x40, 0x41, 0x42], [(0, 0xFFFFFFFF), (1, 0xFFFFFFFF)], 2, 0x00000000, fl 0 1 0 0),
       ([0x88, 0x40, 0x41], [(0, 0x0000005A)], 1, 0xFFFFFFA5, fl 1 0 0 0),
       ([0x8A, 0x40, 0x41], [(0, 0x0000005A)], 1, 0xFFFFFFA5, fl 1 0 0 0),
       ([0x8B, 0x40, 0x41], [(0, 0x0000005A)], 1, 0x000000A5, fl 1 0 0 0)] = true := by
  decide +kernel

/-- The examples of R572 to R586. -/
theorem test_examples_shift_field :
    allGive
      [([0xC0, 0x40, 0x41, 0x42], [(0, 1), (1, 0x40000000)], 2, 0x80000000, fl 1 0 0 1),
       ([0xC4, 0x40, 0x41, 0x42], [(0, 4), (1, 0x80000010)], 2, 0xF8000001, fl 1 0 0 0),
       ([0xC6, 0x40, 0x41, 0x42], [(0, 4), (1, 0x00008010)], 2, 0xFFFFF801, fl 1 0 0 0),
       ([0xC7, 0x40, 0x41, 0x42], [(0, 4), (1, 0x00000090)], 2, 0x000000F9, fl 1 0 0 0),
       ([0xD0, 0x40, 0x41, 0x42], [(0, 1), (1, 0x80000001)], 2, 0x00000002, fl 0 0 0 0),
       ([0xD2, 0x40, 0x41, 0x42], [(0, 1), (1, 0x00004001)], 2, 0xFFFF8002, fl 1 0 0 0),
       ([0xD3, 0x40, 0x41, 0x42], [(0, 1), (1, 0x00000081)], 2, 0x00000002, fl 0 0 0 0),
       ([0xD4, 0x40, 0x41, 0x42], [(0, 31), (1, 0x80000000)], 2, 0x00000001, fl 0 0 0 0),
       ([0xD8, 0x40, 0x41, 0x42], [(0, 1), (1, 0x00000001)], 2, 0x80000000, fl 1 0 0 0),
       ([0xC8, 0x03, 0x04, 0x45, 0x41], [(5, 0x00000005), (1, 0xFFFFFFFF)], 1, 0xFFFFFF5F, fl 1 0 0 0),
       ([0xCA, 0x03, 0x04, 0x45, 0x41], [(5, 0x00000005), (1, 0x0000FFFF)], 1, 0xFFFFFF5F, fl 1 0 0 0),
       ([0xCB, 0x03, 0x04, 0x45, 0x41], [(5, 0x00000005), (1, 0x000000FF)], 1, 0x0000005F, fl 0 0 0 0),
       ([0xCC, 0x07, 0x04, 0x41, 0x42], [(1, 0x0000ABCD)], 2, 0x000000BC, fl 0 0 0 0),
       ([0xCE, 0x07, 0x04, 0x41, 0x42], [(1, 0x0000ABCD)], 2, 0x000000BC, fl 0 0 0 0),
       ([0xCF, 0x07, 0x04, 0x41, 0x42], [(1, 0x0000ABCD)], 2, 0x0000000C, fl 0 0 0 0)] = true := by
  decide +kernel

/-- R458 to R460: the pushes and the pop; V36: a pop into SP. -/
theorem test_stack :
    (leaves (boot 0x100 [0xA0, 0x40] [(0, 0x12345678), (12, 0x700000)] []) [(12, 0x700004), (11, 0x0001E000)]
      [(0x700000, 0x12345678)] &&
    leaves (boot 0x100 [0xE0, 0xC9, 0xF8] [(9, 0x700100), (12, 0x700200)] []) [(12, 0x700204)]
      [(0x700200, 0x007000F8)] &&
    leaves (boot 0x100 [0x20, 0x40] [(12, 0x700004)] [(0x700000, 0x12345678)]) [(0, 0x12345678), (12, 0x700000)] [] &&
    leaves (boot 0x100 [0x20, 0x4C] [(12, 0x700104)] [(0x700100, 0x12345)]) [(12, 0x12345)] []) = true := by
  decide +kernel

/-- R462 to R464: the interlocked swaps; V38: an unsigned byte and its N. -/
theorem test_swap :
    (leaves (boot 0x100 [0x1C, 0x51] [(0, 0xAA), (1, 0x700000)] [(0x700000, 0x55)]) [(0, 0x55)] [(0x700000, 0xAA)] &&
    leaves (boot 0x100 [0x1E, 0x51] [(0, 0xAA), (1, 0x700000)] [(0x700000, 0x80550000)]) [(0, 0xFFFF8055)]
      [(0x700000, 0x00AA0000)] &&
    leaves (boot 0x100 [0x1F, 0x51] [(0, 0x1FF), (1, 0x700003)] [(0x700000, 0x80)]) [(0, 0x80), (11, 0x0021E000)]
      [(0x700000, 0xFF)]) = true := by
  decide +kernel

/-- V10 to V14 and V26, V27: literals, immediates, widths and expanded types. -/
theorem test_vectors_values :
    allGive
      [([0x84, 0xFF, 0x40], [], 0, 0xFFFFFFFF, fl 1 0 0 0),
       ([0x84, 0x6F, 0x80, 0x40], [], 0, 0xFFFFFF80, fl 1 0 0 0),
       ([0x84, 0x5F, 0x00, 0x80, 0x40], [], 0, 0xFFFF8000, fl 1 0 0 0),
       ([0x87, 0x6F, 0x80, 0x41], [(1, 0xFFFFFFFF)], 1, 0x80, fl 1 0 0 0),
       ([0x86, 0x40, 0x41], [(0, 0x18000)], 1, 0xFFFF8000, fl 1 0 0 0),
       ([0x84, 0xE7, 0x40, 0xE4, 0x41], [(0, 0xF0)], 1, 0xFFFFFFF0, fl 1 0 0 0),
       ([0x84, 0xE3, 0xFF, 0x41], [], 1, 0xFF, fl 1 0 0 0),
       ([0x87, 0xE4, 0x4F, 0, 1, 0, 0, 0xE3, 0x41], [(1, 0xFFFFFFFF)], 1, 0, fl 0 1 0 1)] = true := by
  decide +kernel

/-- V15 to V20 and V22: the memory forms. -/
theorem test_vectors_addressing :
    (leaves (boot 0x100 [0x84, 0x51, 0x40] [(1, 0x700000)] [(0x700000, 0xCAFEF00D)]) [(0, 0xCAFEF00D)] [] &&
    leaves (boot 0x100 [0x84, 0xC1, 0xFC, 0x40] [(1, 0x700004)] [(0x700000, 5)]) [(0, 5)] [] &&
    leaves (boot 0x100 [0x84, 0xA1, 0, 1, 0x40] [(1, 0x700000)] [(0x700100, 9)]) [(0, 9)] [] &&
    leaves (boot 0x100 [0x84, 0xD1, 4, 0x40] [(1, 0x700000)] [(0x700004, 0x700010), (0x700010, 7)]) [(0, 7)] [] &&
    leaves (boot 0x100 [0x84, 0x7F, 0, 0, 0x70, 0, 0x40] [] [(0x700000, 3)]) [(0, 3), (15, 0x107)] [] &&
    leaves (boot 0x100 [0x84, 0xEF, 0, 0, 0x70, 0, 0x40] [] [(0x700000, 0x700008), (0x700008, 4)]) [(0, 4)] [] &&
    leaves (boot 0x100 [0x84, 0xCF, 0, 0x40] [] []) [(0, 0x84CF0040)] []) = true := by
  decide +kernel

/-- V21, V23 to V25, V28 to V30, V59, V90, V110, V111: each abandons its instruction with the opcode's address saved. -/
theorem test_vectors_traps :
    (traps [0x84, 0x62, 0x40] [(9, 0x700000)] 5 0x100 && traps [0x84, 0x40, 0x01] [] 4 0x100 &&
    traps [0x04, 0x40, 0x41] [] 4 0x100 && traps [0x84, 0xE1, 0x40, 0x41] [] 4 0x100 && traps [0x01] [] 2 0x100 &&
    traps [0x30, 0x00] [] 2 0x100 && traps [0x14] [] 3 0x100 && traps [0xEC, 0x40, 0x41, 0x42] [(1, 5)] 0 0x100 &&
    traps [0x10, 0x42] [] 4 0x100 && traps [0x84, 0x7F, 0, 0x20, 0, 0, 0x40] [] 5 0x100 &&
    traps [0x84, 0x40, 0x7F, 0, 0, 0, 0] [] 5 0x100) = true := by
  decide +kernel

/-- V40 and V41: a move to the PSW, and the same in user mode; V61: an overflow with OE set. -/
theorem test_vectors_psw :
    (leaves (boot 0x100 [0x84, 0x40, 0x4B] [(0, 0xFFFFFFFF)] []) [(11, 0x03FFFFFF)] [] &&
    traps [0x84, 0x40, 0x4B] [(0, 0xFFFFFFFF)] 15 0x100 0x1800 &&
    traps [0x90, 0x40] [(0, 0x7FFFFFFF)] 9 0x102 0x0041E000 &&
    leaves (boot 0x100 [0x90, 0x40] [(0, 0x7FFFFFFF), (12, 0x700200)] gates 0x0041E000) [(0, 0x80000000)] []) =
      true := by
  decide +kernel

/-- V42 to V58: ADDW3, SUBW3, MULW3, DIVW3 and MODW3 of r0 and r1 into r2. -/
theorem test_vectors_arithmetic :
    ([(0xDC, 0, 0, 0, fl 0 1 0 0), (0xDC, 1, 0xFFFFFFFF, 0, fl 0 1 1 0), (0xDC, 0x80000000, 0x80000000, 0, fl 0 1 1 1),
      (0xDC, 0x7FFFFFFF, 0x7FFFFFFF, 0xFFFFFFFE, fl 1 0 0 1), (0xDC, 0xFFFFFFFF, 0xFFFFFFFF, 0xFFFFFFFE, fl 1 0 1 0),
      (0xFC, 1, 0x80000000, 0x7FFFFFFF, fl 0 0 0 1), (0xFC, 0x80000000, 0, 0x80000000, fl 1 0 1 1),
      (0xFC, 5, 5, 0, fl 0 1 0 0), (0xFC, 0xFFFFFFFF, 0x7FFFFFFF, 0x80000000, fl 1 0 1 1),
      (0xE8, 2, 0x7FFFFFFF, 0xFFFFFFFE, fl 1 0 0 1), (0xE8, 0xFFFFFFFF, 0x80000000, 0x80000000, fl 1 0 0 1),
      (0xE8, 0xFFFFFFFF, 0xFFFFFFFF, 1, fl 0 0 0 0), (0xEC, 0xFFFFFFFE, 7, 0xFFFFFFFD, fl 1 0 0 0),
      (0xE4, 0xFFFFFFFE, 7, 1, fl 0 0 0 0), (0xE4, 2, 0xFFFFFFF9, 0xFFFFFFFF, fl 1 0 0 0),
      (0xEC, 0xFFFFFFFF, 0x80000000, 0x80000000, fl 1 0 0 1), (0xE4, 0xFFFFFFFF, 0x80000000, 0, fl 0 1 0 0)] :
      List (Byte × Word × Word × Word × Flags)).all
      (fun (op, a, b, r, f) => gives [op, 0x40, 0x41, 0x42] [(0, a), (1, b)] 2 r f) = true := by
  decide +kernel

/-- The vectors of section 5 whose operands are unlike the examples': counts past 31, wrapping fields, signed bytes. -/
theorem test_vectors_shift :
    allGive
      [([0xD0, 0x40, 0x41, 0x42], [(0, 32), (1, 0x12345678)], 2, 0x12345678, fl 0 0 0 0),
       ([0xD0, 0x40, 0x41, 0x42], [(0, 31), (1, 3)], 2, 0x80000000, fl 1 0 0 0),
       ([0xC4, 0x40, 0x41, 0x42], [(0, 31), (1, 0x80000000)], 2, 0xFFFFFFFF, fl 1 0 0 0),
       ([0xC7, 0x40, 0x41, 0x42], [(0, 1), (1, 0x80)], 2, 0xC0, fl 1 0 0 0),
       ([0xC0, 0x40, 0x41, 0x42], [(0, 1), (1, 0x80000000)], 2, 0, fl 0 1 0 1),
       ([0xD8, 0x40, 0x41, 0x42], [(0, 4), (1, 0x12345678)], 2, 0x81234567, fl 1 0 0 0),
       ([0xD8, 0x40, 0x41, 0x42], [(0, 0xFFFFFFFF), (1, 1)], 2, 2, fl 0 0 0 0),
       ([0xCC, 0x1F, 0x00, 0x41, 0x42], [(1, 0xDEADBEEF)], 2, 0xDEADBEEF, fl 1 0 0 0),
       ([0xCC, 0x03, 0x1E, 0x41, 0x42], [(1, 0x80000001)], 2, 6, fl 0 0 0 0),
       ([0xC8, 0x00, 0x1F, 0x40, 0x41], [(0, 1)], 1, 0x80000000, fl 1 0 0 0)] = true := by
  decide +kernel

/-- V70 to V75, V77, V78 and the examples of R601 to R609. V76 contradicts R603 (log entry 31). -/
theorem test_compare :
    ([([0x3C, 0x40, 0x41], 1, 1, fl 0 1 0 0), ([0x3C, 0x40, 0x41], 1, 2, fl 0 0 0 0),
      ([0x3C, 0x40, 0x41], 2, 1, fl 1 0 1 0), ([0x3C, 0x40, 0x41], 1, 0xFFFFFFFF, fl 1 0 0 0),
      ([0x3C, 0x40, 0x41], 0xFFFFFFFF, 1, fl 0 0 1 0), ([0x3C, 0x40, 0x41], 0x80000000, 0x7FFFFFFF, fl 0 0 1 0),
      ([0x3E, 0x40, 0x41], 1, 0xFFFFFFFF, fl 1 0 0 0), ([0x3F, 0x40, 0x41], 1, 0xFFFFFFFF, fl 1 0 0 0),
      ([0x28, 0x40], 0x8000, 0, fl 0 0 0 0), ([0x2A, 0x40], 0x8000, 0, fl 1 0 0 0), ([0x2B, 0x40], 0x8000, 0, fl 0 1 0 0),
      ([0x28, 0x40], 0x80000000, 0, fl 1 0 0 0), ([0x38, 0x40, 0x41], 0x0F, 0xF0, fl 0 1 0 0),
      ([0x3A, 0x40, 0x41], 0x0F, 0xF0, fl 0 1 0 0), ([0x3B, 0x40, 0x41], 0x0F, 0xF0, fl 0 1 0 0),
      ([0x3B, 0x6F, 8, 0x41], 0, 4, fl 0 1 0 0)] : List (List Byte × Word × Word × Flags)).all
      (fun (code, a, b, f) => gives code [(0, a), (1, b)] 0 a f) = true := by
  decide +kernel

/-- A branch by byte, by halfword and a return: taken as the examples of R611 to R654 say, or not. -/
def conditional (b h r : Byte) (psw : Word) (taken : Bool) : Bool :=
  leaves (boot 0x1000 [b, 0xF0] [] [] psw) [(15, if taken then 0xFF0 else 0x1002)] [] &&
  leaves (boot 0x1000 [h, 0x00, 0x01] [] [] psw) [(15, if taken then 0x1100 else 0x1003)] [] &&
  leaves (boot 0x1000 [r] [(12, 0x700010)] [(0x70000C, 0x200)] psw)
    [(15, if taken then 0x200 else 0x1001), (12, if taken then 0x70000C else 0x700010)] []

/-- R610 on V72: N = 1 and C = 1, where LSS, LEQ, LSSU, LEQU, NEQ and VC hold. -/
theorem test_conditions_less :
    ([(0x43, 0x42, 0x40, false), (0x47, 0x46, 0x44, false), (0x4B, 0x4A, 0x48, true), (0x4F, 0x4E, 0x4C, true),
      (0x53, 0x52, 0x50, false), (0x57, 0x56, 0x54, false), (0x5B, 0x5A, 0x58, true), (0x5F, 0x5E, 0x5C, true),
      (0x63, 0x62, 0x60, true), (0x6B, 0x6A, 0x68, false), (0x67, 0x66, 0x64, true), (0x77, 0x76, 0x74, true),
      (0x6F, 0x6E, 0x6C, false), (0x7F, 0x7E, 0x7C, false)] : List (Byte × Byte × Byte × Bool)).all
      (fun (b, h, r, taken) => conditional b h r 0x0025E000 taken) = true := by
  decide +kernel

/-- R610 on Z = 1 and V = 1: GEQ, LEQ, GEQU, LEQU, VS and EQL hold (V70 with V set). -/
theorem test_conditions_equal :
    ([(0x43, 0x42, 0x40, true), (0x47, 0x46, 0x44, false), (0x4B, 0x4A, 0x48, false), (0x4F, 0x4E, 0x4C, true),
      (0x53, 0x52, 0x50, true), (0x57, 0x56, 0x54, false), (0x5B, 0x5A, 0x58, false), (0x5F, 0x5E, 0x5C, true),
      (0x63, 0x62, 0x60, false), (0x6B, 0x6A, 0x68, true), (0x67, 0x66, 0x64, false), (0x77, 0x76, 0x74, false),
      (0x6F, 0x6E, 0x6C, true), (0x7F, 0x7E, 0x7C, true)] : List (Byte × Byte × Byte × Bool)).all
      (fun (b, h, r, taken) => conditional b h r 0x0019E000 taken) = true := by
  decide +kernel

/-- R611, R612, R655, V79 to V81, V83: jumps. -/
theorem test_jumps :
    (leaves (boot 0x1000 [0x7B, 0xF0] [] []) [(15, 0xFF0)] [] &&
    leaves (boot 0x1000 [0x7A, 0x00, 0x01] [] []) [(15, 0x1100)] [] &&
    leaves (boot 0x100 [0x7F, 0x05] [] [] 0x0011E000) [(15, 0x105)] [] &&
    leaves (boot 0x200 [0x7B, 0x00] [] []) [(15, 0x200)] [] &&
    leaves (boot 0x100 [0x24, 0x7F, 0x00, 0x02, 0x00, 0x00] [] []) [(15, 0x200)] [] &&
    traps [0x24, 0x40] [] 4 0x100) = true := by
  decide +kernel

/-- R661 and R662: the call and the return of the examples. -/
theorem test_call :
    (leaves (boot 0x1000 [0x2C, 0xCC, 0xF8, 0x7F, 0, 1, 0, 0] [(12, 0x700010), (10, 0x700000)] [])
      [(12, 0x700018), (10, 0x700008), (15, 0x100)] [(0x700010, 0x1008), (0x700014, 0x700000)] &&
    leaves (boot 0x100 [0x08] [(12, 0x700018), (10, 0x700008)] [(0x700010, 0x1008), (0x700014, 0x700000)])
      [(15, 0x1008), (10, 0x700000), (12, 0x700008)] []) = true := by
  decide +kernel

/-- R663 and R664: the examples; V91: SAVE of r14 stores FP only. -/
theorem test_save :
    (leaves (boot 0x100 [0x10, 0x46] [(12, 0x700018), (9, 0x700000), (6, 6), (7, 7), (8, 8)] [])
      [(12, 0x700034), (9, 0x700034)]
      [(0x700018, 0x700000), (0x70001C, 6), (0x700020, 7), (0x700024, 8), (0x700028, 0)] &&
    leaves (boot 0x100 [0x18, 0x46] [(12, 0x700034), (9, 0x700034)]
        [(0x700018, 0x700000), (0x70001C, 6), (0x700020, 7), (0x700024, 8)])
      [(6, 6), (7, 7), (8, 8), (9, 0x700000), (12, 0x700018)] [] &&
    leaves (boot 0x100 [0x10, 0x4E] [(12, 0x700100), (9, 0x700000), (8, 8)] []) [(12, 0x70011C), (9, 0x70011C)]
      [(0x700100, 0x700000), (0x700104, 0)]) = true := by
  decide +kernel

/-- R665 to R668: the subroutine calls and RSB. -/
theorem test_subroutine :
    (leaves (boot 0x1000 [0x34, 0x7F, 0, 2, 0, 0] [(12, 0x700000)] []) [(12, 0x700004), (15, 0x200)]
      [(0x700000, 0x1006)] &&
    leaves (boot 0x100 [0x78] [(12, 0x700004)] [(0x700000, 0x1006)]) [(15, 0x1006), (12, 0x700000)] [] &&
    leaves (boot 0x1000 [0x37, 0x10] [(12, 0x700000)] []) [(12, 0x700004), (15, 0x1010)] [(0x700000, 0x1002)] &&
    leaves (boot 0x1000 [0x36, 0x00, 0xFF] [(12, 0x700000)] []) [(12, 0x700004), (15, 0xF00)]
      [(0x700000, 0x1003)]) = true := by
  decide +kernel

/-- V92: RET through a misaligned SP takes the trap, which cannot be delivered through the same SP (R814). -/
theorem test_ret_misaligned :
    (after (boot 0x100 [0x08] [(12, 0x700006)] gates)).map (fun t => (t.status, t.sp, t.pc)) =
      some (.faulted .misalignedAccess, 0x700006, 0x100) := by
  decide +kernel

/-- R701, V95, V96: MOVBLW. -/
theorem test_movblw :
    (leaves (boot 0x100 [0x30, 0x19] [(0, 0x700000), (1, 0x700100), (2, 2)]
        [(0x700000, 0x11111111), (0x700004, 0x22222222)])
      [(0, 0x700008), (1, 0x700108), (2, 0), (15, 0x102)] [(0x700100, 0x11111111), (0x700104, 0x22222222)] &&
    leaves (boot 0x100 [0x30, 0x19] [(0, 0x700000), (1, 0x700100)] []) [(0, 0x700000), (1, 0x700100), (15, 0x102)] [] &&
    traps [0x30, 0x19] [(0, 0x700000), (1, 0x1000), (2, 1)] 5 0x100 &&
    leaves (boot 0x100 [0x30, 0x19] [(12, 0x700200), (0, 0x700000), (1, 0x1000), (2, 1)] gates)
      [(0, 0x700000), (1, 0x1000), (2, 1)] []) = true := by
  decide +kernel

/-- R702, R703, V97: the string instructions. -/
theorem test_strings :
    (leaves (boot 0x100 [0x30, 0x35] [(0, 0x700000), (1, 0x700010)] [(0x700000, 0x41420000), (0x700010, 0x55555555)])
      [(0, 0x700000), (1, 0x700010), (15, 0x102)] [(0x700010, 0x41420055)] &&
    leaves (boot 0x100 [0x30, 0x1F] [(0, 0x700000)] [(0x700000, 0x41420000)]) [(0, 0x700002), (15, 0x102)] [] &&
    leaves (boot 0x100 [0x30, 0x1F] [(0, 0x700000)] []) [(0, 0x700000)] []) = true := by
  decide +kernel

/-- R721: HALT. -/
theorem test_halt :
    (after (boot 0x100 [0x00] [] [])).map (fun t => (t.status, t.pc)) = some (.halted, 0x101) := by
  decide +kernel

/-- R722 to R724, R727, R748, V104: the instructions that only move the PC, MVERNO and WAIT in kernel mode. -/
theorem test_system :
    (leaves (boot 0x1000 [0x70] [] []) [(15, 0x1001)] [] && leaves (boot 0x1000 [0x73, 0xFF] [] []) [(15, 0x1002)] [] &&
    leaves (boot 0x1000 [0x72, 0, 0] [] []) [(15, 0x1003)] [] &&
    leaves (boot 0x1000 [0x27] [] []) [(15, 0x1001)] [] &&
    leaves (boot 0x1000 [0x30, 0x09] [] []) [(0, 0x1A), (15, 0x1002)] [] &&
    (after (boot 0x1000 [0x2F] [] [])).map (fun t => (t.waiting, t.pc)) == some (true, 0x1001)) = true := by
  decide +kernel

/-- V103, V108, V109, the examples of R750 to R755, and every SPOP: refused opcodes and their ISC. -/
theorem test_refused :
    (traps [0x2F] [] 10 0x100 0x1800 && traps [0x30, 0x2F] [] 2 0x100 && traps [0x30, 0xAC] [] 2 0x100 &&
    traps [0x30, 0xC8] [] 10 0x100 0x1800 && traps [0x30, 0x0D] [] 2 0x100 && traps [0x30, 0x13] [] 2 0x100 &&
    traps [0x0C, 0x51, 0x40] [] 2 0x100 && traps [0x32, 1, 2, 3, 4] [] 2 0x100 0x1800 &&
    ([0x22, 0x02, 0x06, 0x23, 0x03, 0x07, 0x33, 0x13, 0x17] : List Byte).all fun op =>
      traps [op, 1, 2, 3, 4, 0x40, 0x41] [] 2 0x100) = true := by
  decide +kernel

/-- V105: BPT saves the opcode's address and the PSW with ET 3 and ISC 14. -/
theorem test_bpt :
    leaves (boot 0x100 [0x2E] [(12, 0x700200)] gates) [(12, 0x700208), (15, 0x80E), (11, 0x0001E000)]
      [(0x700200, 0x100), (0x700204, 0x0001E073)] = true := by
  decide +kernel

/-- R728: the GATE example. -/
theorem test_gate :
    leaves (boot 0x1000 [0x30, 0x61] [(0, 0x10), (1, 4), (12, 0x700100)]
        [(0x700004, 0x600), (0x610, 0), (0x614, 0x800)] 0x1800)
      [(12, 0x700108), (15, 0x800), (11, 0x600)] [(0x700100, 0x1002), (0x700104, 0x1800)] = true := by
  decide +kernel

/-- R741, V106, V107: RETG to a less privileged level, and refused to a more privileged one. -/
theorem test_retg :
    (leaves (boot 0x100 [0x30, 0x45] [(12, 0x700208)] [(0x700200, 0x1234), (0x700204, 0x1800)])
      [(12, 0x700200), (15, 0x1234), (11, 0x1800)] [] &&
    leaves (boot 0x100 [0x30, 0x45] [(12, 0x700208)] (gates ++ [(0x700200, 0x1234), (0x700204, 0x0001E000)]) 0x1800)
      [(12, 0x700210), (15, 0x807)] [(0x700208, 0x100)]) = true := by
  decide +kernel

/-- V113: NOP with TE set ends in a Trace trap with TM and TE saved. -/
theorem test_trace :
    (traps [0x70] [] 1 0x101 0x0003E000 &&
    leaves (boot 0x100 [0x70] [(12, 0x700200)] gates 0x0003E000) [(11, 0x0001E000)] [(0x700204, 0x0003E00F)]) =
      true := by
  decide +kernel

/-- R843: a pending interrupt is taken before the instruction, whose handler's first instruction runs in the same step. -/
theorem test_interrupt :
    (after { boot 0x100 [0x70] [(12, 0x700200)] (gates ++ [(0x810, 0x70000000)]) 0 with
      pending := #v[true, false, false, false, false] }).map
      (fun t => (t.pc, t.sp, wordAt t 0x700200, wordAt t 0x700204, Psw.ipl t.psw, t.pending[0])) =
      some (0x811, 0x700208, 0x100, 1, 13, false) := by
  decide +kernel

/-! ## Single steps and host operations: the DUART, memory and reset -/

/-- V112: a word read of the DUART window answers MR1A in its low byte and moves the MR pointer of A only. -/
theorem test_duart_word :
    (after (boot 0x100 [0x84, 0x7F, 0, 0, 0x20, 0, 0x40] [(0, 5)] [])).map
      (fun t => (t.reg 0, t.duart.chA.mrPtr, t.duart.chB.mrPtr)) = some (0, .mr2, .mr1) := by
  decide +kernel

/-- V64: a counter of 3 is ready after three advances, not after two, and stopping it clears the bit. -/
theorem test_counter :
    let d := (({ Duart.reset with ctPreload := 3 }.startCounter).advanceCounter).advanceCounter
    d.ctReady = false ∧ d.ctValue = 1 ∧ d.advanceCounter.ctReady = true ∧ d.advanceCounter.ctValue = 3 ∧
      d.advanceCounter.stopCounter.ctReady = false := by
  decide +kernel

/-- V65: two rows of the delay table, and the delay after reset. -/
theorem test_baud :
    baudDelay testParams 0 0xB = 1042 ∧ baudDelay testParams 0x80 0xC = 521 ∧
      Channel.reset.delayTx testParams 0 = 200000 := by
  decide +kernel

/-- P4: the first advance after THRA is written loads the byte and counts 260 steps. -/
theorem test_transmit :
    let x := { Channel.reset with csr := 0xCC, txEnabled := true, thr := some 0x41 }.loadTx testParams 0
    x.txShift = some 0x41 ∧ x.txCount = 260 ∧ x.thr = none ∧ (x.txReady, x.txEmpty) = (true, false) := by
  decide +kernel

/-- V2, V66, V67: the queue's capacity, an unknown channel, an empty TX queue. -/
theorem test_host_queues :
    (match pushRx { boot 0 [] [] [] with duart := { Duart.reset with chA := { Channel.reset with
        rxQueue := List.replicate 16 0x10 } } } 0 0x20 with
      | .error .duartOverrun => true
      | _ => false) = true ∧
    (match pushRx (boot 0 [] [] []) 2 0 with
      | .error .invalidChannel => true
      | _ => false) = true ∧
    (match drainTx (boot 0 [] [] []) 0 with
      | .ok (none, _) => true
      | _ => false) = true := by
  decide +kernel

/-- V68: host accesses. -/
theorem test_host_memory :
    (hostRead (boot 0 [] [] [(0x700000, 0x12345678)]) 0x700000 .word).toOption = some 0x12345678 ∧
    (hostRead (boot 0 [] [] []) 0x200000 .word).toOption = none ∧
    (hostWrite (boot 0 [] [] []) 0 .byte 1).toOption = none := by
  decide +kernel

/-- R140, R900: the machine after reset. -/
theorem test_reset :
    State.reset.pc = 0 ∧ State.reset.psw = 0x0001E000 ∧ State.reset.status = .running ∧ State.reset.mem = [] ∧
      State.reset.waiting = false ∧ State.reset.duart = Duart.reset := by
  decide +kernel

/-! ## States that meet the hypotheses of the statements -/

/-- Operand register n. -/
def R (n : RegNum) : Operand := ⟨none, .reg n⟩

/-- Operand (%rn). -/
def D (n : RegNum) : Operand := ⟨none, .regDef n⟩

/-- r0 = 1, r1 = 2, r3 = 0x700300 whose word is 7, SP = 0x700200, the gate table, kernel mode, NOP at 0x100. -/
def w0 : State :=
  boot 0x100 [0x70] [(0, 1), (1, 2), (3, 0x700300), (9, 0x700380), (10, 0x700380), (12, 0x700200)]
    (gates ++ [(0x700300, 7), (0x7001F8, 0x1234), (0x7001FC, 0x1800)])

/-- The same in user mode. -/
def wUser : State := w0.setPsw 0x1800

/-- The same with N, Z, C and V set, which no relation but OR-conditions of R610 excludes. -/
def wFlags : State := w0.setPsw 0x003DE000

theorem apart_of {a c : Word} {m n : Nat}
    (h : ∀ k, k < m → ∀ j, j < n → (a + BitVec.ofNat 32 k).toNat ≠ (c + BitVec.ofNat 32 j).toNat) :
    ∀ b, covers a m b → ¬ covers c n b := by
  rintro b ⟨k, hk, rfl⟩ ⟨j, hj, hb⟩
  exact h k hk j hj hb

theorem gate_ready {s : State} {l1 off : Word} (h1 : ∀ k, k < 2 → dataRoute s.params (wordUp s.sp k) .word .write = .ok .ram)
    (h2 : dataRoute s.params (s.params.gateL1Base + l1) .word .read = .ok .ram)
    (h3 : dataRoute s.params (gateEntry s l1 off) .word .read = .ok .ram)
    (h4 : dataRoute s.params (gateEntry s l1 off + 4) .word .read = .ok .ram)
    (h5 : ∀ k, k < 8 → ∀ j, j < 4 →
      (s.sp + BitVec.ofNat 32 k).toNat ≠ (s.params.gateL1Base + l1 + BitVec.ofNat 32 j).toNat)
    (h6 : ∀ k, k < 8 → ∀ j, j < 8 →
      (s.sp + BitVec.ofNat 32 k).toNat ≠ (gateEntry s l1 off + BitVec.ofNat 32 j).toNat) : GateReady s l1 off where
  room := h1
  base := ⟨.ram, h2, by decide⟩
  psw := ⟨.ram, h3, by decide⟩
  pc := ⟨.ram, h4, by decide⟩
  apart b hb := ⟨apart_of h5 b hb, apart_of h6 b hb⟩

theorem w0_gate (k : Nat) (hk : k < 21) : GateReady w0 0 (BitVec.ofNat 32 (8 * k)) := by
  have h : ∀ k, k < 21 → dataRoute w0.params (gateEntry w0 0 (BitVec.ofNat 32 (8 * k))) .word .read = .ok .ram ∧
      dataRoute w0.params (gateEntry w0 0 (BitVec.ofNat 32 (8 * k)) + 4) .word .read = .ok .ram ∧
      ∀ i, i < 8 → ∀ j, j < 8 → (w0.sp + BitVec.ofNat 32 i).toNat ≠
        (gateEntry w0 0 (BitVec.ofNat 32 (8 * k)) + BitVec.ofNat 32 j).toNat := by decide +kernel
  exact gate_ready (by decide +kernel) (by decide +kernel) (h k hk).1 (h k hk).2.1 (by decide +kernel) (h k hk).2.2

theorem after_next {s : State} (h : (after s).isSome = true) : ∃ t, step s = .next t := by
  unfold after at h
  cases hs : step s with
  | next t => exact ⟨t, rfl⟩
  | fault f => rw [hs] at h; cases h
  | refused r => rw [hs] at h; cases h

theorem except_ok {ε α : Type} {x : Except ε α} (h : x.toOption.isSome = true) : ∃ a, x = .ok a := by
  cases x with
  | ok a => exact ⟨a, rfl⟩
  | error e => cases h

/-- The outcome is a next state of which p holds. -/
def reaches (x : Host.Outcome State Fault Refusal) (p : State → Bool) : Bool :=
  match x with
  | .next t => p t
  | _ => false

theorem of_reaches {x : Host.Outcome State Fault Refusal} {p : State → Bool} (h : reaches x p = true) :
    ∃ t, x = .next t ∧ p t = true := by
  cases x with
  | next t => exact ⟨t, rfl, h⟩
  | fault f => cases h
  | refused r => cases h

theorem w0_safe : Safe w0 where
  memCanonical := by decide +kernel
  memMapped := by decide +kernel
  pswReserved := by decide +kernel
  rxBounded c := by cases c <;> decide +kernel
  txBounded c := by cases c <;> decide +kernel
  txIdle c := by cases c <;> decide +kernel
  latched := by decide +kernel
  paramsValid := by decide +kernel

theorem witness_DecodeEncode :
    Instr.halt.encodable = true ∧
    (Instr.insfw ⟨some .uword, .wordImm 0xFFFFFFFF⟩ ⟨some .sbyte, .wordDisp 15 0x80000000⟩ ⟨some .uhalf, .absDef 0⟩
      ⟨some .sword, .wordDispDef 14 1⟩).encodable = true := by decide

theorem witness_EncodeDecode : decode [0x84, 0x3F, 0x4E, 0x00] = .ok (.movw ⟨none, .posLit 63⟩ (R 14), [0x00]) := by
  decide +kernel

theorem witness_UndefinedOpcodes :
    (0x00 : Byte) ∉ ([0x09, 0x0D, 0x13, 0x19, 0x1F, 0x2F, 0x35, 0x45, 0x61, 0xAC, 0xC8] : List Byte) ∧
    (let s := boot 0x100 [0xFD] [] []
    s.status = .running ∧ s.waiting = false ∧ pickIrq s.params s.pending (Psw.ipl s.psw) = none ∧
      decode (fetchWindow s) = .error ⟨.undefinedOpcode, none, List.replicate 24 0⟩) := by
  decide +kernel

theorem witness_StepRunsDecoded :
    w0.status = .running ∧ w0.waiting = false ∧ pickIrq w0.params w0.pending (Psw.ipl w0.psw) = none ∧
      decode (fetchWindow w0) = .ok (.nop, List.replicate 24 0) := by
  decide +kernel

/-- The state at this PC, with these bytes and PSW, is one whose instruction is rejected for this reason. -/
def Undecoded (pc : Word) (code : List Byte) (psw : Word) (why : DecodeWhy) (m : Option String) (rest : List Byte) : Prop :=
  let s := boot pc code [] [] psw
  s.status = .running ∧ s.waiting = false ∧ pickIrq s.params s.pending (Psw.ipl s.psw) = none ∧
    decode (fetchWindow s) = .error ⟨why, m, rest⟩

theorem witness_UndecodedTraps :
    Undecoded 0x1FFF [0x84] 0x0001E000 .truncated (some "MOVW") [] ∧
    Undecoded 0x1FFD [0x28, 0x5B, 0] 0x0001E000 .invalidDescriptor (some "TSTW") [0] ∧
    Undecoded 0x1FFF [0x01] 0x0001E000 .undefinedOpcode none [] ∧
    Undecoded 0x1FFE [0x22, 0] 0x0001E000 (.refusedOpcode false) (some "SPOPRS") [0] ∧
    Undecoded 0x1FFE [0x0C, 0x5B] 0x0001E000 (.refusedOpcode true) (some "MOVTRW") [0x5B] ∧
    Undecoded 0x1FFE [0x0C, 0x5B] 0x1800 (.refusedOpcode true) (some "MOVTRW") [0x5B] ∧
    Psw.cm 0x0001E000 = 0 ∧ Psw.cm 0x1800 ≠ 0 := by
  unfold Undecoded
  decide +kernel

theorem witness_StepsWithoutInstruction :
    (let s := { w0 with status := .halted }; s.status ≠ .running) ∧
    (let s := { w0 with waiting := true }
    s.status = .running ∧ s.waiting = true ∧ pickIrq s.params s.pending (Psw.ipl s.psw) = none) := by
  decide +kernel

/-- w0 with IPL 0, waiting, and two requests pending. -/
def wIrq : State := { w0.setPsw 0 with pending := #v[true, false, false, false, true], waiting := false }

theorem witness_InterruptTaken :
    wIrq.status = .running ∧ wIrq.mem.wf ∧ pickIrq wIrq.params wIrq.pending (Psw.ipl wIrq.psw) = some 0 ∧
      GateReady wIrq 0 (BitVec.ofNat 32 (8 * (16 + (0 : Fin 5).val))) :=
  ⟨by decide +kernel, by decide +kernel, by decide +kernel,
    gate_ready (by decide +kernel) (by decide +kernel) (by decide +kernel) (by decide +kernel) (by decide +kernel)
      (by decide +kernel)⟩

theorem witness_HighestPriority :
    (let p := { testParams with irqPriority := #v[13, 14, 14, 13, 15] }
    pickIrq p #v[true, true, true, false, false] 13 = some 1 ∧ pickIrq p #v[true, false, false, true, false] 13 = none) := by
  decide +kernel

/-- A DUART whose channel A holds a received byte and may request its interrupt. -/
def rxFull : Duart := { Duart.reset with imr := 2, chA := { Channel.reset with rhr := some 0x41, rxEnabled := true } }

theorem witness_LatchRule :
    (w0.duart.cond 0 = false ∧ rxFull.cond 0 = true) ∧ Duart.reset.cond 0 = false ∧
    ({ w0 with duart := rxFull }.duart.cond 0 = true ∧ rxFull.cond 0 = true) := by
  decide +kernel

/-- w0 whose channel A transmitter is ready and may request its interrupt, the latch set. -/
def wTx : State :=
  { w0 with
    duart := { Duart.reset with imr := 1, chA := { Channel.reset with txEnabled := true } }
    pending := #v[false, true, false, false, false] }

/-- The window's first and last byte; CRA written with reset transmitter and enable, and with enable alone, the condition
holding before and after. -/
theorem witness_LatchRule_access :
    regionOf w0.params (0x200000 : Word).toNat = some .duart ∧ 0 = (0x200000 : Word).toNat - 0x00200000 ∧
    regionOf w0.params (0x20003F : Word).toNat = some .duart ∧ 0x3F = (0x20003F : Word).toNat - 0x00200000 ∧
    regionOf wTx.params (0x20000B : Word).toNat = some .duart ∧ 0x0B = (0x20000B : Word).toNat - 0x00200000 ∧
    (∀ v ∈ ([0x34, 0x04] : List Byte), wTx.duart.cond 1 = true ∧ (wTx.duart.writeByte 0x0B v).cond 1 = true) ∧
    ((1 : Fin 5).val < 4 ∧ 0x0B = 0x0B + 0x20 * ((1 : Fin 5).val / 2) ∧
      (0x34 : Byte).extractLsb' 4 3 = BitVec.ofNat 3 (2 + (1 : Fin 5).val % 2)) := by
  decide +kernel

/-- R841 (c), R865: reset transmitter with enable in one byte clears the latch; enable alone keeps it. -/
theorem test_reset_clears_latch :
    (wTx.writeDuart 0x0B 0x34).pending[1] = false ∧ (wTx.writeDuart 0x0B 0x34).duart.cond 1 = true ∧
      (wTx.writeDuart 0x0B 0x04).pending[1] = true := by
  decide +kernel

theorem witness_SafeStep : Safe w0 ∧ ∃ t, step w0 = .next t :=
  ⟨w0_safe, after_next (by decide +kernel)⟩

theorem witness_RomUnchanged :
    w0.params.valid = true ∧ (∃ t, step w0 = .next t) ∧ regionOf w0.params 0x1FFF = some .rom :=
  ⟨by decide +kernel, after_next (by decide +kernel), by decide +kernel⟩

theorem witness_UserModeKeepsPrivileged : wUser.kernel = false ∧ ∃ t, exec .nop wUser = .next t :=
  ⟨by decide +kernel, _, rfl⟩

theorem witness_HostKeepsSafe :
    Safe w0 ∧ (∃ t, hostWrite w0 0x700FFC .word 5 = .ok t) ∧ (∃ t, pushRx w0 1 5 = .ok t) ∧
      ∃ r t, drainTx w0 0 = .ok (r, t) := by
  have h3 : ∃ a, drainTx w0 0 = .ok a := except_ok (by decide +kernel)
  obtain ⟨a, h3⟩ := h3
  exact ⟨w0_safe, except_ok (by decide +kernel), except_ok (by decide +kernel), a.1, a.2, h3⟩

theorem witness_DirectReset : w0.params.resetEntry = .direct := rfl

/-- R110: bits 31:26 of RESET_PSW read as 0 (log entry 33). -/
theorem test_reset_psw_reserved :
    (resetMachine { w0 with params := { testParams with resetPsw := 0xFC01E000 } }).psw = 0x0001E000 := by
  decide +kernel

/-- RESET_ENTRY = PcbVector: the vector at 0x80, a context whose I bit is set (or not), and its three words. -/
def wVector (psw : Word) : State :=
  { boot 0x100 [] [] [(0x80, 0x700100), (0x700100, psw), (0x700110, 0x100), (0x700114, 0x700200)] with
    params := { testParams with resetEntry := .pcbVector } }

theorem witness_VectorReset (psw : Word) (h : psw ∈ [0x0001E000, 0x0001E080]) :
    (wVector psw).params.resetEntry = .pcbVector ∧ Readable (wVector psw) 0x80 ∧
    Readable (wVector psw) (wordAt (wVector psw) 0x80) ∧
    ∃ pcbp, pcbp = wordAt (wVector psw) 0x80 +
        (if (wordAt (wVector psw) (wordAt (wVector psw) 0x80)).getLsbD 7 then 12 else 0) ∧
      Readable (wVector psw) (pcbp + 4) ∧ Readable (wVector psw) (pcbp + 8) := by
  simp only [List.mem_cons, List.not_mem_nil, or_false] at h
  rcases h with rfl | rfl <;>
    exact ⟨rfl, ⟨.rom, by decide +kernel, by decide⟩, ⟨.ram, by decide +kernel, by decide⟩, _, rfl,
      ⟨.ram, by decide +kernel, by decide⟩, ⟨.ram, by decide +kernel, by decide⟩⟩

/-- RESET_ENTRY = PcbVector with the vector's word given, in a ROM of n bytes, the PC at 0x100. -/
def wVectorFault (n : Nat) (pcbp : Word) : State :=
  { boot 0x100 [] [] [(0x80, pcbp)] with
    params := { Params.ofSizes n 0x1000 with resetEntry := .pcbVector } }

/-- Each read of the PcbVector reset in a state where it faults: no ROM at 0x80, no memory at PCBP, the RAM's last word
(whose PSW has I clear) at PCBP, and at PCBP + 4. -/
theorem witness_VectorReset_faults :
    (∀ s ∈ [wVectorFault 0x40 0, wVectorFault 0x2000 0x300000, wVectorFault 0x2000 0x700FFC,
      wVectorFault 0x2000 0x700FF8], s.params.resetEntry = .pcbVector) ∧
    dataRoute (wVectorFault 0x40 0).params 0x80 .word .read = .error (.trap .busFault (some ⟨0x80, .read⟩)) ∧
    (Readable (wVectorFault 0x2000 0x300000) 0x80 ∧
      dataRoute (wVectorFault 0x2000 0x300000).params (wordAt (wVectorFault 0x2000 0x300000) 0x80) .word .read =
        .error (.trap .busFault (some ⟨0x300000, .read⟩))) ∧
    (let s := wVectorFault 0x2000 0x700FFC
    Readable s 0x80 ∧ Readable s (wordAt s 0x80) ∧
      (0x700FFC : Word) = wordAt s 0x80 + (if (wordAt s (wordAt s 0x80)).getLsbD 7 then 12 else 0) ∧
      dataRoute s.params (0x700FFC + 4) .word .read = .error (.trap .busFault (some ⟨0x701000, .read⟩))) ∧
    (let s := wVectorFault 0x2000 0x700FF8
    Readable s 0x80 ∧ Readable s (wordAt s 0x80) ∧
      (0x700FF8 : Word) = wordAt s 0x80 + (if (wordAt s (wordAt s 0x80)).getLsbD 7 then 12 else 0) ∧
      Readable s (0x700FF8 + 4) ∧
      dataRoute s.params (0x700FF8 + 8) .word .read = .error (.trap .busFault (some ⟨0x701000, .read⟩))) :=
  ⟨by decide +kernel, by decide +kernel, ⟨⟨.rom, by decide +kernel, by decide⟩, by decide +kernel⟩,
    ⟨⟨.rom, by decide +kernel, by decide⟩, ⟨.ram, by decide +kernel, by decide⟩, by decide +kernel, by decide +kernel⟩,
    ⟨.rom, by decide +kernel, by decide⟩, ⟨.ram, by decide +kernel, by decide⟩, by decide +kernel,
    ⟨.ram, by decide +kernel, by decide⟩, by decide +kernel⟩

/-- R902: the reset whose first read faults ends Faulted, with the PC it found (log entry 32). -/
theorem test_vector_reset_fault :
    (resetMachine (wVectorFault 0x40 0)).status = .faulted .busFault ∧
      (resetMachine (wVectorFault 0x40 0)).pc = 0x100 := by
  decide +kernel

theorem witness_BigEndian :
    w0.params.valid = true ∧ dataRoute w0.params 0x700FFE .half .read = .ok .ram ∧
    dataRoute w0.params 0x20003E .half .read = .ok .duart ∧ dataRoute w0.params 0x1FFC .word .read = .ok .rom ∧ dataRoute w0.params 0x700FFC .word .write = .ok .ram ∧
    dataRoute w0.params 0x700000 .half .write = .ok .ram ∧ w0.mem.wf := by
  decide +kernel

theorem witness_ReadAfterWrite :
    dataRoute w0.params 0x700FFC .word .write = .ok .ram ∧ dataRoute w0.params 0x700FFF .byte .write = .ok .ram ∧
    w0.mem.wf := by
  decide +kernel

theorem witness_AccessFaults :
    (let p := testParams
    let q := { testParams with alignPolicy := .permit }
    p.valid = true ∧ q.valid = true ∧ AccessKind.read ≠ .fetch ∧ AccessKind.write ≠ .fetch ∧
    (p.alignPolicy = .trap ∧ (0x700FFF : Word).toNat % sizeBytes .half ≠ 0) ∧
    q.alignPolicy = .permit ∧ (0x700FFC : Word).toNat % sizeBytes .word = 0 ∧
    regionOf p (0x2000 : Word).toNat = none ∧
    regionOf q ((0x1FFE : Word).toNat + sizeBytes .word - 1) ≠ regionOf q (0x1FFE : Word).toNat ∧
    2 ^ 32 < (0xFFFFFFFF : Word).toNat + sizeBytes .half ∧
    regionOf p (0x1FFF : Word).toNat = some .rom ∧
    regionOf p (0x20003F : Word).toNat = some .duart ∧
    regionOf p (0x700FFC : Word).toNat = some .ram ∧ regionOf p ((0x700FFC : Word).toNat + sizeBytes .word - 1) = some .ram) := by
  decide +kernel

theorem witness_EffectiveAddresses :
    Readable w0 0x700300 ∧ Readable w0 (w0.reg 3 + 0xFFFFFFFC) ∧
    Readable w0 (w0.reg 3 + (0xFF00 : Half).signExtend 32) ∧ Readable w0 (w0.reg 3 + (0x80 : Byte).signExtend 32) :=
  ⟨⟨.ram, by decide +kernel, by decide⟩, ⟨.ram, by decide +kernel, by decide⟩, ⟨.ram, by decide +kernel, by decide⟩,
    ⟨.ram, by decide +kernel, by decide⟩⟩

theorem witness_OperandValues :
    memRead 0x700300 .word w0 = .ok (7, w0) ∧
    gather1 .read wordT ⟨some .ubyte, .reg 0⟩ w0 = .ok (⟨.reg 0, byteT⟩, w0) ∧
    gather2 .read .write wordT ⟨some .ubyte, .reg 0⟩ (R 1) w0 = .ok ((⟨.reg 0, byteT⟩, ⟨.reg 1, byteT⟩), w0) ∧
    gather3 .read .read .write wordT ⟨some .ubyte, .reg 0⟩ (R 1) ⟨some .shalf, .reg 2⟩ w0 =
      .ok ((⟨.reg 0, byteT⟩, ⟨.reg 1, byteT⟩, ⟨.reg 2, halfT⟩), w0) ∧
    gather4 .read .read .read .write wordT (R 0) (R 1) ⟨some .shalf, .reg 2⟩ (D 3) w0 =
      .ok ((⟨.reg 0, wordT⟩, ⟨.reg 1, wordT⟩, ⟨.reg 2, halfT⟩, ⟨.mem 0x700300, halfT⟩), w0) :=
  ⟨by decide +kernel, by decide +kernel, by decide +kernel, by decide +kernel, by decide +kernel⟩

theorem witness_OperandsOnlyRead :
    inputR wordT (D 3) w0 = .ok (7, w0) ∧ inputRR wordT (R 0) (R 1) w0 = .ok ((1, 2), w0) ∧
    inputM wordT (R 1) w0 = .ok ((2, ⟨.reg 1, wordT⟩), w0) ∧
    inputRW wordT (R 0) (D 3) w0 = .ok ((1, ⟨.mem 0x700300, wordT⟩), w0) ∧
    inputRM wordT (R 0) (D 3) w0 = .ok ((1, 7, ⟨.mem 0x700300, wordT⟩), w0) ∧
    inputRRW wordT (R 0) (R 1) (R 2) w0 = .ok ((1, 2, ⟨.reg 2, wordT⟩), w0) ∧
    inputRRRW wordT (R 0) (R 1) (R 1) (R 2) w0 = .ok ((1, 2, 2, ⟨.reg 2, wordT⟩), w0) ∧
    inputRRRM wordT (R 0) (R 1) (R 1) (D 3) w0 = .ok ((1, 2, 2, 7, ⟨.mem 0x700300, wordT⟩), w0) ∧
    inputA (D 3) w0 = .ok (0x700300, w0) :=
  ⟨by decide +kernel, by decide +kernel, by decide +kernel, by decide +kernel, by decide +kernel, by decide +kernel,
    by decide +kernel, by decide +kernel, by decide +kernel⟩

theorem witness_AbandonedInstructions :
    operandsUndecoded (.save (R 2)) = false ∧ (Instr.save (R 2)).wellFormed = false := by
  decide

/-- An absolute operand, and an absolute deferred one. -/
def A (a : Word) : Operand := ⟨none, .absolute a⟩
def AD (a : Word) : Operand := ⟨none, .absDef a⟩

/-- A refused read of each shape of operands: unmapped, misaligned, a pointer that cannot be read, the last operand. -/
theorem witness_AbandonedInstructions_operands :
    (let f : Exn := .trap .busFault (some ⟨0x300000, .read⟩)
    inputRM wordT (R 0) (A 0x300000) w0 = .error f ∧ inputRRW byteT (R 0) (A 0x300000) (R 1) w0 = .error f ∧
    inputRW halfT (A 0x300000) (R 1) w0 = .error f ∧ inputM wordT (A 0x300000) w0 = .error f ∧
    inputRRRM wordT (R 0) (R 0) (R 0) (A 0x300000) w0 = .error f ∧
    inputRRRW wordT (R 0) (R 0) (A 0x300000) (R 1) w0 = .error f ∧
    inputRR wordT (R 0) (A 0x300000) w0 = .error f ∧ inputR wordT (A 0x300000) w0 = .error f ∧
    inputA (AD 0x300000) w0 = .error f ∧ gather2 .addr .write wordT (D 3) (AD 0x300000) w0 = .error f ∧
    gather2 .addr .addr wordT (D 3) (AD 0x300000) w0 = .error f ∧
    gather1 .write wordT (AD 0x300000) w0 = .error f ∧ gather1 .memModify wordT (AD 0x300000) w0 = .error f ∧
    gather1 .memModify wordT (A 0x300000) w0 = .ok (⟨.mem 0x300000, wordT⟩, w0) ∧
    readOpnd ⟨.mem 0x300000, wordT⟩ w0 = .error f) ∧
    inputR halfT (A 0x700FFF) w0 = .error (.trap .misalignedAccess (some ⟨0x700FFF, .read⟩)) := by
  refine ⟨⟨?_, ?_, ?_, ?_, ?_, ?_, ?_, ?_, ?_, ?_, ?_, ?_, ?_, ?_, ?_⟩, ?_⟩ <;> decide +kernel

theorem traps_of {s : State} {a : Word} {z : Size} {w : AccessKind} {k : FaultKind}
    (h : dataRoute s.params a z w = .error (.trap k (some ⟨a, w⟩))) : AccessTraps s a z w k := ⟨_, h⟩

theorem reached_of {s : State} {a : Word} {z : Size} {w : AccessKind} (h : dataRoute s.params a z w = .ok .ram) :
    Reached s a z w := ⟨_, h⟩

/-- The stack at the ends of RAM (0x700000 to 0x700FFF) and misaligned: pushes, pops, RET and RETG, CALL. -/
theorem witness_AbandonedInstructions_stack :
    (AccessTraps (w0.setSp 0x701000) (w0.setSp 0x701000).sp .word .write .busFault ∧
      inputR wordT (R 0) (w0.setSp 0x701000) = .ok (1, w0.setSp 0x701000) ∧
      inputA (D 3) (w0.setSp 0x701000) = .ok (0x700300, w0.setSp 0x701000)) ∧
    (AccessTraps (w0.setSp 0x700002) ((w0.setSp 0x700002).sp - 4) .word .read .misalignedAccess ∧
      gather1 .write wordT (R 0) (w0.setSp 0x700002) = .ok (⟨.reg 0, wordT⟩, w0.setSp 0x700002) ∧
      (fun f : Flags => !f.n || f.z) (Psw.flags (w0.setSp 0x700002).psw) = true) ∧
    (Reached (w0.setSp 0x700004) ((w0.setSp 0x700004).sp - 4) .word .read ∧
      AccessTraps (w0.setSp 0x700004) ((w0.setSp 0x700004).sp - 8) .word .read .busFault) ∧
    gather2 .addr .addr wordT (D 3) (D 3) (w0.setSp 0x700FFC) =
      .ok ((⟨.mem 0x700300, wordT⟩, ⟨.mem 0x700300, wordT⟩), w0.setSp 0x700FFC) ∧
    gather2 .addr .addr wordT (D 3) (D 3) (w0.setSp 0x6FFFFC) =
      .ok ((⟨.mem 0x700300, wordT⟩, ⟨.mem 0x700300, wordT⟩), w0.setSp 0x6FFFFC) ∧
    AccessTraps (w0.setSp 0x700FFC) ((w0.setSp 0x700FFC).sp + 4) .word .write .busFault ∧
    (Reached (w0.setSp 0x6FFFFC) ((w0.setSp 0x6FFFFC).sp + 4) .word .write ∧
      AccessTraps (w0.setSp 0x6FFFFC) (w0.setSp 0x6FFFFC).sp .word .write .busFault) :=
  ⟨⟨traps_of (by decide +kernel), by decide +kernel, by decide +kernel⟩,
    ⟨traps_of (by decide +kernel), by decide +kernel, by decide +kernel⟩,
    ⟨reached_of (by decide +kernel), traps_of (by decide +kernel)⟩, by decide +kernel, by decide +kernel,
    traps_of (by decide +kernel), reached_of (by decide +kernel), traps_of (by decide +kernel)⟩

/-- SAVE and RESTORE: the first word and the last of r3, and the only one of r14. -/
theorem witness_AbandonedInstructions_frame :
    ((3 : RegNum) ≤ 3 ∧ (3 : RegNum) ≠ 15 ∧ 0 < 1 + (9 - (3 : RegNum).val) ∧ 6 < 1 + (9 - (3 : RegNum).val) ∧
      (3 : RegNum) ≤ 14 ∧ (14 : RegNum) ≠ 15 ∧ 0 < 1 + (9 - (14 : RegNum).val)) ∧
    AccessTraps (w0.setSp 0x701000) (wordUp (w0.setSp 0x701000).sp 0) .word .write .busFault ∧
    ((∀ j, j < 6 → Reached (w0.setSp 0x700FE8) (wordUp (w0.setSp 0x700FE8).sp j) .word .write) ∧
      AccessTraps (w0.setSp 0x700FE8) (wordUp (w0.setSp 0x700FE8).sp 6) .word .write .busFault) ∧
    AccessTraps (w0.setReg 9 0x700018) (wordUp ((w0.setReg 9 0x700018).reg regFP - 28) 0) .word .read .busFault ∧
    ((∀ j, j < 6 → Reached (w0.setReg 9 0x701004) (wordUp ((w0.setReg 9 0x701004).reg regFP - 28) j) .word .read) ∧
      AccessTraps (w0.setReg 9 0x701004) (wordUp ((w0.setReg 9 0x701004).reg regFP - 28) 6) .word .read .busFault) := by
  have h : ∀ j, j < 6 → dataRoute testParams (wordUp (w0.setSp 0x700FE8).sp j) .word .write = .ok .ram := by
    decide +kernel
  have h' : ∀ j, j < 6 →
      dataRoute testParams (wordUp ((w0.setReg 9 0x701004).reg regFP - 28) j) .word .read = .ok .ram := by
    decide +kernel
  exact ⟨by decide, traps_of (by decide +kernel), ⟨fun j hj => ⟨_, h j hj⟩, traps_of (by decide +kernel)⟩,
    traps_of (by decide +kernel), fun j hj => ⟨_, h' j hj⟩, traps_of (by decide +kernel)⟩

theorem witness_TrapEntry :
    GateReady w0 0 (BitVec.ofNat 32 (8 * 0)) ∧ GateReady w0 0 (BitVec.ofNat 32 (8 * 15)) ∧ w0.mem.wf :=
  ⟨w0_gate 0 (by decide), w0_gate 15 (by decide), by decide +kernel⟩

theorem witness_DeliveryFails :
    (∃ k e, k < 2 ∧ dataRoute w0.params (wordUp (w0.setSp 0x700FFC).sp k) .word .write = .error e) ∧
    (∃ e, dataRoute w0.params 0x00300000 .word .read = .error e) :=
  ⟨⟨1, .trap .busFault (some ⟨0x701000, .write⟩), by decide +kernel, by decide +kernel⟩,
    .trap .busFault (some ⟨0x300000, .read⟩), by decide +kernel⟩

/-- A first-level word that points at this address. -/
def wEntry (a : Word) : State := boot 0x100 [] [(12, 0x700200)] [(0x700000, a)]

/-- Entry 14 (a breakpoint) whose PSW word is unmapped, and entry 16 (channel A RX) whose PC word alone is. -/
theorem witness_DeliveryFails_entry :
    (let s := wEntry 0x300000
    Room s s.sp 2 ∧ Readable s s.params.gateL1Base ∧
      (∀ b, covers s.sp 8 b → ¬ covers s.params.gateL1Base 4 b) ∧
      dataRoute s.params (gateEntry s 0 112) .word .read = .error (.trap .busFault (some ⟨0x300070, .read⟩)) ∧
      (112 : Word) = BitVec.ofNat 32 (8 * (iscOf .breakpoint).toNat)) ∧
    (let s := wEntry 0x700F7C
    Room s s.sp 2 ∧ Readable s s.params.gateL1Base ∧
      (∀ b, covers s.sp 8 b → ¬ covers s.params.gateL1Base 4 b) ∧
      dataRoute s.params (gateEntry s 0 128 + 4) .word .read = .error (.trap .busFault (some ⟨0x701000, .read⟩)) ∧
      (128 : Word) = BitVec.ofNat 32 (8 * (16 + (0 : Fin 5).val))) :=
  ⟨⟨by unfold Room; decide +kernel, ⟨.ram, by decide +kernel, by decide⟩, apart_of (by decide +kernel), by decide +kernel,
      by decide⟩,
    by unfold Room; decide +kernel, ⟨.ram, by decide +kernel, by decide⟩, apart_of (by decide +kernel), by decide +kernel,
    by decide⟩

/-- w0 with an unmapped gate table. -/
def wNoTable : State := { w0 with params := { testParams with gateL1Base := 0x300000 } }

/-- GATE: the frame's words, the first-level word, and the entry's words. -/
theorem witness_AbandonedInstructions_gate :
    AccessTraps (w0.setSp 0x701000) (w0.setSp 0x701000).sp .word .write .busFault ∧
    (Reached (w0.setSp 0x700FFC) (w0.setSp 0x700FFC).sp .word .write ∧
      AccessTraps (w0.setSp 0x700FFC) ((w0.setSp 0x700FFC).sp + 4) .word .write .busFault) ∧
    (Reached wNoTable wNoTable.sp .word .write ∧ Reached wNoTable (wNoTable.sp + 4) .word .write ∧
      AccessTraps wNoTable (wNoTable.params.gateL1Base + 0) .word .read .busFault) ∧
    (∀ a ∈ ([0x300000, 0x700FFC] : List Word), (0 : Word) = (wEntry a).reg 1 &&& 0x7C ∧
      (0 : Word) = (wEntry a).reg 0 &&& 0x7FF8 ∧ Room (wEntry a) (wEntry a).sp 2 ∧
      Readable (wEntry a) ((wEntry a).params.gateL1Base + 0) ∧
      ∀ b, covers (wEntry a).sp 8 b → ¬ covers ((wEntry a).params.gateL1Base + 0) 4 b) ∧
    AccessTraps (wEntry 0x300000) (gateEntry (wEntry 0x300000) 0 0) .word .read .busFault ∧
    (Reached (wEntry 0x700FFC) (gateEntry (wEntry 0x700FFC) 0 0) .word .read ∧
      AccessTraps (wEntry 0x700FFC) (gateEntry (wEntry 0x700FFC) 0 0 + 4) .word .read .busFault) := by
  refine ⟨traps_of (by decide +kernel), ⟨reached_of (by decide +kernel), traps_of (by decide +kernel)⟩,
    ⟨reached_of (by decide +kernel), reached_of (by decide +kernel), traps_of (by decide +kernel)⟩, fun a ha => ?_,
    traps_of (by decide +kernel), reached_of (by decide +kernel), traps_of (by decide +kernel)⟩
  simp only [List.mem_cons, List.not_mem_nil, or_false] at ha
  rcases ha with rfl | rfl <;>
    exact ⟨by decide +kernel, by decide +kernel, by unfold Room; decide +kernel, ⟨.ram, by decide +kernel, by decide⟩,
      apart_of (by decide +kernel)⟩

theorem witness_TrapReturn :
    GateReady w0 0 (gateOffset (iscOf .breakpoint).toNat) ∧ w0.mem.wf ∧ w0.psw &&& ~~~Config.pswMask = 0 ∧
      (takeTrap .breakpoint w0).kernel = true ∧ NotTraced (takeTrap .breakpoint w0) ∧
      (takeTrap .breakpoint w0).params = w0.params :=
  ⟨w0_gate 14 (by decide), by decide +kernel, by decide +kernel, by decide +kernel, by unfold NotTraced; decide +kernel,
    by decide +kernel⟩

/-- r0 = 0x7FFFFFFF, r1 = 1, OE set. -/
def wOverflow : State := (w0.setReg 0 0x7FFFFFFF).setPsw 0x0041E000

theorem witness_EndOfInstructionTraps :
    (inputRM wordT (R 0) (R 1) wOverflow = .ok ((0x7FFFFFFF, 2, ⟨.reg 1, wordT⟩), wOverflow) ∧
      aluResult .add 0x7FFFFFFF 2 = some 0x80000001 ∧ Opnd.Writable ⟨.reg 1, wordT⟩ wOverflow ∧ wOverflow.mem.wf ∧
      Psw.v (pswAfter ⟨.reg 1, wordT⟩ 0x80000001 (aluFlags .add wordT 0x7FFFFFFF 2 0x80000001) wOverflow.psw) = true ∧
      Psw.oe (pswAfter ⟨.reg 1, wordT⟩ 0x80000001 (aluFlags .add wordT 0x7FFFFFFF 2 0x80000001) wOverflow.psw) = true) ∧
    (inputRW wordT (R 0) (D 3) (w0.setPsw 4) = .ok ((1, ⟨.mem 0x700300, wordT⟩), w0.setPsw 4) ∧
      Opnd.Writable ⟨.mem 0x700300, wordT⟩ (w0.setPsw 4) ∧ (w0.setPsw 4).mem.wf ∧ Psw.tm (w0.setPsw 4).psw = true) :=
  ⟨⟨by decide +kernel, by decide +kernel, ⟨by decide +kernel, by decide +kernel⟩, by decide +kernel, by decide +kernel,
    by decide +kernel⟩, by decide +kernel, ⟨.ram, by decide +kernel⟩, by decide +kernel, by decide +kernel⟩

/-- r0 = n, OE set. -/
def wOe (n : Word) : State := (w0.setReg 0 n).setPsw 0x0041E000

/-- The PSW after an instruction with this result and these flags has V and OE set. -/
def Overflows (d : Opnd) (r : Int) (f : Flags) (s : State) : Prop :=
  Psw.v (pswAfter d r f s.psw) = true ∧ Psw.oe (pswAfter d r f s.psw) = true

/-- The other overflows: ADDW3, INCW of the largest word, MNEGB of -128 (SBYTE) and ALSW3 of 0x40000000 by 1. -/
theorem witness_EndOfInstructionTraps_overflow :
    (inputRRW wordT (R 0) (R 1) (R 2) (wOe 0x7FFFFFFF) = .ok ((0x7FFFFFFF, 2, ⟨.reg 2, wordT⟩), wOe 0x7FFFFFFF) ∧
      aluResult .add 0x7FFFFFFF 2 = some 0x80000001 ∧ Opnd.Writable ⟨.reg 2, wordT⟩ (wOe 0x7FFFFFFF) ∧
      Overflows ⟨.reg 2, wordT⟩ 0x80000001 (aluFlags .add wordT 0x7FFFFFFF 2 0x80000001) (wOe 0x7FFFFFFF)) ∧
    (inputM wordT (R 0) (wOe 0x7FFFFFFF) = .ok ((0x7FFFFFFF, ⟨.reg 0, wordT⟩), wOe 0x7FFFFFFF) ∧
      aluResult .add 1 0x7FFFFFFF = some 0x80000000 ∧ Opnd.Writable ⟨.reg 0, wordT⟩ (wOe 0x7FFFFFFF) ∧
      Overflows ⟨.reg 0, wordT⟩ 0x80000000 (aluFlags .add wordT 1 0x7FFFFFFF 0x80000000) (wOe 0x7FFFFFFF)) ∧
    (∃ d : Opnd, inputRW byteT ⟨some .sbyte, .reg 0⟩ (R 1) (wOe 0x80) = .ok ((-128, d), wOe 0x80) ∧
      d.Writable (wOe 0x80) ∧ Overflows d (-(-128)) (aluFlags .sub d.type (-128) 0 (-(-128))) (wOe 0x80)) ∧
    (inputRRW wordT ⟨none, .posLit 1⟩ (R 0) (R 1) (wOe 0x40000000) =
        .ok ((1, 0x40000000, ⟨.reg 1, wordT⟩), wOe 0x40000000) ∧
      (0x80000000 : Int) = 0x40000000 * 2 ^ ((patternOf 1).toNat % 32) ∧
      Opnd.Writable ⟨.reg 1, wordT⟩ (wOe 0x40000000) ∧
      Overflows ⟨.reg 1, wordT⟩ 0x80000000 (flagsOf wordT 0x80000000 false (flagTrunc wordT 0x80000000))
        (wOe 0x40000000)) ∧
    (wOe 0x7FFFFFFF).mem.wf ∧ (wOe 0x80).mem.wf ∧ (wOe 0x40000000).mem.wf :=
  ⟨⟨by decide +kernel, by decide +kernel, ⟨by decide +kernel, by decide +kernel⟩, by unfold Overflows; decide +kernel⟩,
    ⟨by decide +kernel, by decide +kernel, ⟨by decide +kernel, by decide +kernel⟩, by unfold Overflows; decide +kernel⟩,
    ⟨⟨.reg 1, ⟨.byte, true⟩⟩, by decide +kernel, ⟨by decide +kernel, by decide +kernel⟩, by unfold Overflows; decide +kernel⟩,
    ⟨by decide +kernel, by decide +kernel, ⟨by decide +kernel, by decide +kernel⟩, by unfold Overflows; decide +kernel⟩,
    by decide +kernel, by decide +kernel, by decide +kernel⟩

/-- w0 with TM set (kernel mode, IPL 15). -/
def wTraced : State := w0.setPsw 0x0001E004

/-- Traced: an addition without overflow, AND into memory, JMP, RSB, a branch, NOP, and some instruction that is not HALT. -/
theorem witness_EndOfInstructionTraps_trace :
    Psw.tm wTraced.psw = true ∧ wTraced.mem.wf ∧
    (inputRM wordT (R 0) (R 1) wTraced = .ok ((1, 2, ⟨.reg 1, wordT⟩), wTraced) ∧ aluResult .add 1 2 = some 3 ∧
      Opnd.Writable ⟨.reg 1, wordT⟩ wTraced ∧
      NoOverflow (pswAfter ⟨.reg 1, wordT⟩ 3 (aluFlags .add wordT 1 2 3) wTraced.psw)) ∧
    (inputRM wordT (R 0) (D 3) wTraced = .ok ((1, 7, ⟨.mem 0x700300, wordT⟩), wTraced) ∧
      Opnd.Writable ⟨.mem 0x700300, wordT⟩ wTraced) ∧
    inputA (D 3) wTraced = .ok (0x700300, wTraced) ∧ Readable wTraced (wTraced.sp - 4) ∧
    (Instr.nop ≠ .halt ∧ ∃ t, exec .nop wTraced = .next t) := by
  obtain ⟨t, h, -⟩ := of_reaches (x := exec .nop wTraced) (p := fun _ => true) (by decide +kernel)
  exact ⟨by decide +kernel, by decide +kernel, ⟨by decide +kernel, by decide +kernel, ⟨by decide +kernel, by decide +kernel⟩,
    by unfold NoOverflow; decide +kernel⟩, ⟨by decide +kernel, ⟨.ram, by decide +kernel⟩⟩, by decide +kernel,
    ⟨.ram, by decide +kernel, by decide⟩, by decide, t, h⟩

theorem witness_DestinationTraps :
    wUser.kernel = false ∧
    ∀ n ∈ [regPSW, regPCBP, regISP],
      (∃ v, inputRW wordT (R 0) (R n) wUser = .ok ((v, ⟨.reg n, wordT⟩), wUser)) ∧
      (∃ v, (1 : Int) ≠ 0 ∧ inputRM halfT (R 0) (R n) wUser = .ok ((1, v, ⟨.reg n, halfT⟩), wUser)) ∧
      gather1 .write byteT (R n) wUser = .ok (⟨.reg n, byteT⟩, wUser) :=
  ⟨by decide +kernel, fun n hn => by
    simp only [List.mem_cons, List.not_mem_nil, or_false] at hn
    rcases hn with rfl | rfl | rfl
    · exact ⟨⟨1, by decide +kernel⟩, ⟨0x1800, by decide, by decide +kernel⟩, by decide +kernel⟩
    · exact ⟨⟨1, by decide +kernel⟩, ⟨0, by decide, by decide +kernel⟩, by decide +kernel⟩
    · exact ⟨⟨1, by decide +kernel⟩, ⟨0, by decide, by decide +kernel⟩, by decide +kernel⟩⟩

/-- The other destinations: three operands, one, a field that ends at bit 31 (FIELD_WRAP = Fault), MOVAW and POPW. -/
theorem witness_DestinationTraps_forms :
    let s := { wUser with params := { testParams with fieldWrap := .fault } }
    s.kernel = false ∧
    ∀ n ∈ [regPSW, regPCBP, regISP],
      (1 : Int) ≠ 0 ∧ inputRRW wordT (R 0) (R 1) (R n) s = .ok ((1, 2, ⟨.reg n, wordT⟩), s) ∧
      (∃ v, inputM wordT (R n) s = .ok ((v, ⟨.reg n, wordT⟩), s)) ∧
      (∃ v, inputRRRM wordT ⟨none, .posLit 31⟩ ⟨none, .posLit 0⟩ (R 0) (R n) s =
        .ok ((31, 0, 1, v, ⟨.reg n, wordT⟩), s)) ∧
      inputRRRW wordT ⟨none, .posLit 31⟩ ⟨none, .posLit 0⟩ (R 0) (R n) s = .ok ((31, 0, 1, ⟨.reg n, wordT⟩), s) ∧
      (patternOf 0).toNat % 32 + ((patternOf 31).toNat % 32 + 1) ≤ 32 ∧
      gather2 .addr .write wordT (D 3) (R n) s = .ok ((⟨.mem 0x700300, wordT⟩, ⟨.reg n, wordT⟩), s) ∧
      gather1 .write wordT (R n) s = .ok (⟨.reg n, wordT⟩, s) ∧ Readable s (s.sp - 4) :=
  ⟨by decide +kernel, fun n hn => by
    simp only [List.mem_cons, List.not_mem_nil, or_false] at hn
    rcases hn with rfl | rfl | rfl
    · exact ⟨by decide, by decide +kernel, ⟨0x1800, by decide +kernel⟩, ⟨0x1800, by decide +kernel⟩, by decide +kernel,
        by decide +kernel, by decide +kernel, by decide +kernel, .ram, by decide +kernel, by decide⟩
    · exact ⟨by decide, by decide +kernel, ⟨0, by decide +kernel⟩, ⟨0, by decide +kernel⟩, by decide +kernel,
        by decide +kernel, by decide +kernel, by decide +kernel, .ram, by decide +kernel, by decide⟩
    · exact ⟨by decide, by decide +kernel, ⟨0, by decide +kernel⟩, ⟨0, by decide +kernel⟩, by decide +kernel,
        by decide +kernel, by decide +kernel, by decide +kernel, .ram, by decide +kernel, by decide⟩⟩

/-- Destinations that are refused: each privileged register, ROM, and a misaligned word. -/
theorem witness_DestinationTraps_refused :
    (∀ n ∈ [regPSW, regPCBP, regISP], Opnd.Refused ⟨.reg n, wordT⟩ wUser .privilegedRegister) ∧
    (inputRM wordT (R 0) (A 0x1FFC) w0 = .ok ((1, 0, ⟨.mem 0x1FFC, wordT⟩), w0) ∧
      gather1 .memModify wordT (A 0x1FFC) w0 = .ok (⟨.mem 0x1FFC, wordT⟩, w0) ∧
      readOpnd ⟨.mem 0x1FFC, wordT⟩ w0 = .ok (0, w0) ∧ Opnd.Refused ⟨.mem 0x1FFC, wordT⟩ w0 .busFault) ∧
    (inputRW wordT (R 0) (A 0x700301) w0 = .ok ((1, ⟨.mem 0x700301, wordT⟩), w0) ∧
      Opnd.Refused ⟨.mem 0x700301, wordT⟩ w0 .misalignedAccess) ∧
    Reached wUser (wUser.sp - 4) .word .read := by
  refine ⟨fun n hn => ?_, ⟨by decide +kernel, by decide +kernel, by decide +kernel, ⟨0x1FFC, .write⟩, by decide +kernel⟩,
    ⟨by decide +kernel, ⟨0x700301, .write⟩, by decide +kernel⟩, reached_of (by decide +kernel)⟩
  simp only [List.mem_cons, List.not_mem_nil, or_false] at hn
  rcases hn with rfl | rfl | rfl <;> exact ⟨by decide +kernel, by decide +kernel, rfl⟩

/-- A result instruction can complete: its destination takes a write, nothing traps after it. -/
def Ready (s : State) (d : Opnd) (psw : Word) : Prop :=
  d.Writable s ∧ s.mem.wf ∧ NotTraced s ∧ NoOverflow psw

theorem ready_reg (n : RegNum) (ty : OpType) (s : State) (psw : Word)
    (h : n ≠ regPC ∧ (privilegedReg n = true → s.kernel = true) ∧ s.mem.wf ∧ Psw.tm s.psw = false ∧
      ¬ (Psw.v psw = true ∧ Psw.oe psw = true)) : Ready s ⟨.reg n, ty⟩ psw :=
  ⟨⟨h.1, h.2.1⟩, h.2.2.1, h.2.2.2.1, h.2.2.2.2⟩

theorem ready_mem (a : Word) (ty : OpType) (s : State) (psw : Word)
    (h : dataRoute s.params a ty.size .write = .ok .ram ∧ s.mem.wf ∧ Psw.tm s.psw = false ∧
      ¬ (Psw.v psw = true ∧ Psw.oe psw = true)) : Ready s ⟨.mem a, ty⟩ psw :=
  ⟨⟨.ram, h.1⟩, h.2.1, h.2.2.1, h.2.2.2⟩

theorem witness_AddResults :
    (inputRM wordT (R 0) (D 3) w0 = .ok ((1, 7, ⟨.mem 0x700300, wordT⟩), w0) ∧
      Ready w0 ⟨.mem 0x700300, wordT⟩ (pswAfter ⟨.mem 0x700300, wordT⟩ (7 + 1) (flagsOf wordT (7 + 1)
        (flagCarry 32 1 7) (flagOvfAdd 32 7 1)) w0.psw)) ∧
    (inputRRW wordT (R 0) (R 1) (R 11) w0 = .ok ((1, 2, ⟨.reg 11, wordT⟩), w0) ∧
      Ready w0 ⟨.reg 11, wordT⟩ (pswAfter ⟨.reg 11, wordT⟩ (2 + 1) (flagsOf wordT (2 + 1)
        (flagCarry 32 1 2) (flagOvfAdd 32 2 1)) w0.psw)) ∧
    (inputM wordT (R 14) w0 = .ok ((0, ⟨.reg 14, wordT⟩), w0) ∧
      Ready w0 ⟨.reg 14, wordT⟩ (pswAfter ⟨.reg 14, wordT⟩ (0 + 1) (flagsOf wordT (0 + 1)
        (flagCarry 32 0 1) (flagOvfAdd 32 0 1)) w0.psw)) :=
  ⟨⟨by decide +kernel, ready_mem _ _ _ _ (by decide +kernel)⟩, ⟨by decide +kernel, ready_reg _ _ _ _ (by decide +kernel)⟩,
    by decide +kernel, ready_reg _ _ _ _ (by decide +kernel)⟩

theorem witness_SubResults :
    (inputRM byteT (R 0) (R 1) w0 = .ok ((1, 2, ⟨.reg 1, byteT⟩), w0) ∧
      Ready w0 ⟨.reg 1, byteT⟩ (pswAfter ⟨.reg 1, byteT⟩ (2 - 1) (flagsOf byteT (2 - 1)
        (flagBorrow 8 2 1) (flagOvfSub 8 2 1)) w0.psw)) ∧
    (inputRRW halfT (R 0) (R 1) (D 3) w0 = .ok ((1, 2, ⟨.mem 0x700300, halfT⟩), w0) ∧
      Ready w0 ⟨.mem 0x700300, halfT⟩ (pswAfter ⟨.mem 0x700300, halfT⟩ (2 - 1) (flagsOf halfT (2 - 1)
        (flagBorrow 16 2 1) (flagOvfSub 16 2 1)) w0.psw)) ∧
    (inputM wordT (R 1) w0 = .ok ((2, ⟨.reg 1, wordT⟩), w0) ∧
      Ready w0 ⟨.reg 1, wordT⟩ (pswAfter ⟨.reg 1, wordT⟩ (2 - 1) (flagsOf wordT (2 - 1)
        (flagBorrow 32 2 1) (flagOvfSub 32 2 1)) w0.psw)) ∧
    (inputRW wordT (R 0) (R 1) w0 = .ok ((1, ⟨.reg 1, wordT⟩), w0) ∧
      Ready w0 ⟨.reg 1, wordT⟩ (pswAfter ⟨.reg 1, wordT⟩ (-1) (flagsOf wordT (-1)
        (flagBorrow 32 0 1) (flagOvfSub 32 0 1)) w0.psw)) :=
  ⟨⟨by decide +kernel, ready_reg _ _ _ _ (by decide +kernel)⟩, ⟨by decide +kernel, ready_mem _ _ _ _ (by decide +kernel)⟩,
    ⟨by decide +kernel, ready_reg _ _ _ _ (by decide +kernel)⟩, by decide +kernel, ready_reg _ _ _ _ (by decide +kernel)⟩

theorem witness_MulResults :
    (inputRM wordT (R 0) (R 1) w0 = .ok ((1, 2, ⟨.reg 1, wordT⟩), w0) ∧
      Ready w0 ⟨.reg 1, wordT⟩ (pswAfter ⟨.reg 1, wordT⟩ (2 * 1) (flagsOf wordT (2 * 1) false
        (flagTrunc wordT (2 * 1))) w0.psw)) ∧
    (inputRRW wordT (R 0) (R 1) (D 3) w0 = .ok ((1, 2, ⟨.mem 0x700300, wordT⟩), w0) ∧
      Ready w0 ⟨.mem 0x700300, wordT⟩ (pswAfter ⟨.mem 0x700300, wordT⟩ (2 * 1) (flagsOf wordT (2 * 1) false
        (flagTrunc wordT (2 * 1))) w0.psw)) :=
  ⟨⟨by decide +kernel, ready_reg _ _ _ _ (by decide +kernel)⟩, by decide +kernel, ready_mem _ _ _ _ (by decide +kernel)⟩

theorem witness_DivResults :
    (inputRM wordT (R 1) (D 3) w0 = .ok ((2, 7, ⟨.mem 0x700300, wordT⟩), w0) ∧ (2 : Int) ≠ 0 ∧ (3 : Int) = Int.tdiv 7 2 ∧
      Ready w0 ⟨.mem 0x700300, wordT⟩ (pswAfter ⟨.mem 0x700300, wordT⟩ 3 (flagsOf wordT 3 false
        (flagTrunc wordT 3)) w0.psw)) ∧
    (inputRRW wordT (R 1) (D 3) (R 2) w0 = .ok ((2, 7, ⟨.reg 2, wordT⟩), w0) ∧ (1 : Int) = Int.tmod 7 2 ∧
      Ready w0 ⟨.reg 2, wordT⟩ (pswAfter ⟨.reg 2, wordT⟩ 1 (flagsOf wordT 1 false (flagTrunc wordT 1)) w0.psw)) :=
  ⟨⟨by decide +kernel, by decide, by decide, ready_mem _ _ _ _ (by decide +kernel)⟩, by decide +kernel, by decide,
    ready_reg _ _ _ _ (by decide +kernel)⟩

theorem witness_DivResults_zero :
    inputRM wordT ⟨none, .posLit 0⟩ (R 1) w0 = .ok ((0, 2, ⟨.reg 1, wordT⟩), w0) ∧
    inputRRW byteT ⟨none, .posLit 0⟩ (R 1) (D 3) w0 = .ok ((0, 2, ⟨.mem 0x700300, byteT⟩), w0) := by
  decide +kernel

theorem witness_BitwiseResults :
    (inputRM wordT (R 0) (D 3) w0 = .ok ((1, 7, ⟨.mem 0x700300, wordT⟩), w0) ∧ Ready w0 ⟨.mem 0x700300, wordT⟩ 0) ∧
    (inputRRW byteT (R 0) (R 1) (R 13) w0 = .ok ((1, 2, ⟨.reg 13, byteT⟩), w0) ∧ Ready w0 ⟨.reg 13, byteT⟩ 0) ∧
    (inputRW halfT (R 0) (R 1) w0 = .ok ((1, ⟨.reg 1, halfT⟩), w0) ∧ Ready w0 ⟨.reg 1, halfT⟩ 0) :=
  ⟨⟨by decide +kernel, ready_mem _ _ _ _ (by decide +kernel)⟩, ⟨by decide +kernel, ready_reg _ _ _ _ (by decide +kernel)⟩,
    by decide +kernel, ready_reg _ _ _ _ (by decide +kernel)⟩

theorem witness_ShiftResults :
    (inputRRW wordT ⟨none, .posLit 63⟩ (R 0) (R 2) w0 = .ok ((63, 1, ⟨.reg 2, wordT⟩), w0) ∧
      (2147483648 : Int) = 1 * 2 ^ ((patternOf 63).toNat % 32) ∧
      Ready w0 ⟨.reg 2, wordT⟩ (pswAfter ⟨.reg 2, wordT⟩ 2147483648 (flagsOf wordT 2147483648 false
        (flagTrunc wordT 2147483648)) w0.psw)) ∧
    (inputRRW byteT ⟨none, .posLit 0⟩ (R 1) (D 3) w0 = .ok ((0, 2, ⟨.mem 0x700300, byteT⟩), w0) ∧
      Ready w0 ⟨.mem 0x700300, byteT⟩ 0) :=
  ⟨⟨by decide +kernel, by decide +kernel, ready_reg _ _ _ _ (by decide +kernel)⟩, by decide +kernel,
    ready_mem _ _ _ _ (by decide +kernel)⟩

/-- w0 with FIELD_WRAP = Fault. -/
def wFault : State := { w0 with params := { testParams with fieldWrap := .fault } }

/-- A statement about every bit follows from its 32 cases where no bit is set above them. -/
theorem bits_of {p : Word} {c : Nat → Bool} {f : Nat → Bool} (h : ∀ j, j < 32 → p.getLsbD j = (c j && f j))
    (hc : ∀ j, 32 ≤ j → c j = false) : ∀ j, p.getLsbD j = (c j && f j) := by
  intro j
  rcases Nat.lt_or_ge j 32 with hj | hj
  · exact h j hj
  · rw [hc j hj, BitVec.getLsbD_of_ge p j hj]
    rfl

/-- A field of two bits at offset 31 (width operand 1), and one of one bit there (width operand 0), into 2 and 7. -/
theorem witness_FieldResults :
    (inputRRRM wordT ⟨none, .posLit 1⟩ ⟨none, .posLit 31⟩ (R 0) (R 1) wFault =
        .ok ((1, 31, 1, 2, ⟨.reg 1, wordT⟩), wFault) ∧
      (∀ j, (0x80000002 : Word).getLsbD j = (decide (j < typeBits wordT) &&
        if (j + 32 - 31) % 32 ≤ (patternOf 1).toNat % 32 then (patternOf 1).getLsbD ((j + 32 - 31) % 32)
        else (patternOf 2).getLsbD j)) ∧
      wFault.params.fieldWrap = .fault ∧ 32 < 31 + ((patternOf 1).toNat % 32 + 1)) ∧
    (inputRRRM wordT ⟨none, .posLit 0⟩ ⟨none, .posLit 31⟩ (R 0) (R 1) wFault =
        .ok ((0, 31, 1, 2, ⟨.reg 1, wordT⟩), wFault) ∧
      (∀ j, (0x80000002 : Word).getLsbD j = (decide (j < typeBits wordT) &&
        if (j + 32 - 31) % 32 ≤ (patternOf 0).toNat % 32 then (patternOf 1).getLsbD ((j + 32 - 31) % 32)
        else (patternOf 2).getLsbD j)) ∧
      31 + ((patternOf 0).toNat % 32 + 1) ≤ 32 ∧ Ready wFault ⟨.reg 1, wordT⟩ 0) ∧
    (inputRRRW wordT ⟨none, .posLit 1⟩ ⟨none, .posLit 31⟩ (R 0) (R 2) wFault =
        .ok ((1, 31, 1, ⟨.reg 2, wordT⟩), wFault) ∧
      (∀ j, (2 : Word).getLsbD j = (decide (j < typeBits wordT ∧ j ≤ (patternOf 1).toNat % 32) &&
        (patternOf 1).getLsbD ((j + 31) % 32))) ∧
      32 < 31 + ((patternOf 1).toNat % 32 + 1)) ∧
    (inputRRRW wordT ⟨none, .posLit 1⟩ ⟨none, .posLit 31⟩ (R 0) (R 2) w0 = .ok ((1, 31, 1, ⟨.reg 2, wordT⟩), w0) ∧
      (w0.params.fieldWrap = .fault → 31 + ((patternOf 1).toNat % 32 + 1) ≤ 32) ∧ Ready w0 ⟨.reg 2, wordT⟩ 0) :=
  ⟨⟨by decide +kernel, bits_of (c := fun j => decide (j < 32)) (by decide +kernel) (by simp),
      by decide +kernel, by decide +kernel⟩,
    ⟨by decide +kernel, bits_of (c := fun j => decide (j < 32)) (by decide +kernel) (by simp),
      by decide +kernel, ready_reg _ _ _ _ (by decide +kernel)⟩,
    ⟨by decide +kernel, bits_of (c := fun j => decide (j < 32 ∧ j ≤ 1)) (by decide +kernel) (by simp; omega),
      by decide +kernel⟩,
    by decide +kernel, by decide +kernel, ready_reg _ _ _ _ (by decide +kernel)⟩

theorem witness_MoveResults :
    inputRW wordT (D 3) (R 11) w0 = .ok ((7, ⟨.reg 11, wordT⟩), w0) ∧ Ready w0 ⟨.reg 11, wordT⟩ 0 ∧
    inputRW byteT (R 0) (D 3) w0 = .ok ((1, ⟨.mem 0x700300, byteT⟩), w0) ∧ Ready w0 ⟨.mem 0x700300, byteT⟩ 0 :=
  ⟨by decide +kernel, ready_reg _ _ _ _ (by decide +kernel), by decide +kernel, ready_mem _ _ _ _ (by decide +kernel)⟩

theorem witness_AddressAndClearResults :
    (gather2 .addr .write wordT (D 3) (R 2) w0 = .ok ((⟨.mem 0x700300, wordT⟩, ⟨.reg 2, wordT⟩), w0) ∧
      Ready w0 ⟨.reg 2, wordT⟩ 0) ∧
    (gather1 .write halfT (D 3) w0 = .ok (⟨.mem 0x700300, halfT⟩, w0) ∧ Ready w0 ⟨.mem 0x700300, halfT⟩ 0) :=
  ⟨⟨by decide +kernel, ready_reg _ _ _ _ (by decide +kernel)⟩, by decide +kernel, ready_mem _ _ _ _ (by decide +kernel)⟩

theorem w0_room (n : Nat) (hn : n ≤ 7) : Room w0 w0.sp n := by
  have h : ∀ k, k < 7 → dataRoute w0.params (wordUp w0.sp k) .word .write = .ok .ram := by decide +kernel
  exact fun k hk => h k (Nat.lt_of_lt_of_le hk hn)

theorem w0_stack : Readable w0 (w0.sp - 4) ∧ Readable w0 (w0.sp - 8) ∧ w0.mem.wf ∧ NotTraced w0 :=
  ⟨⟨.ram, by decide +kernel, by decide⟩, ⟨.ram, by decide +kernel, by decide⟩, by decide +kernel,
    by unfold NotTraced; decide +kernel⟩

theorem witness_PushResults :
    inputR wordT ⟨none, .negLit 0⟩ w0 = .ok (-16, w0) ∧ inputA (D 3) w0 = .ok (0x700300, w0) ∧ Room w0 w0.sp 1 ∧
      w0.mem.wf ∧ NotTraced w0 :=
  ⟨by decide +kernel, by decide +kernel, w0_room 1 (by decide), w0_stack.2.2⟩

theorem witness_PopAndSwapResults :
    (gather1 .write wordT (R 12) w0 = .ok (⟨.reg 12, wordT⟩, w0) ∧ Readable w0 (w0.sp - 4) ∧
      Ready w0 ⟨.reg 12, wordT⟩ 0) ∧
    (gather1 .memModify wordT (D 3) w0 = .ok (⟨.mem 0x700300, wordT⟩, w0) ∧
      readOpnd ⟨.mem 0x700300, wordT⟩ w0 = .ok (7, w0) ∧ Ready w0 ⟨.mem 0x700300, wordT⟩ 0) :=
  ⟨⟨by decide +kernel, w0_stack.1, ready_reg _ _ _ _ (by decide +kernel)⟩, by decide +kernel, by decide +kernel,
    ready_mem _ _ _ _ (by decide +kernel)⟩

theorem witness_CompareResults :
    inputRR byteT (R 0) (D 3) w0 = .ok ((1, 0), w0) ∧ inputR halfT (R 1) w0 = .ok (2, w0) ∧ NotTraced w0 :=
  ⟨by decide +kernel, by decide +kernel, w0_stack.2.2.2⟩

theorem witness_BranchResults : NotTraced w0 ∧ NotTraced wFlags :=
  ⟨w0_stack.2.2.2, by unfold NotTraced; decide +kernel⟩

theorem witness_ReturnResults :
    NotTraced w0 ∧ (fun f : Flags => !f.n || f.z) (Psw.flags w0.psw) = true ∧ Readable w0 (w0.sp - 4) ∧
      (fun f : Flags => f.z) (Psw.flags w0.psw) = false :=
  ⟨w0_stack.2.2.2, by decide +kernel, w0_stack.1, by decide +kernel⟩

theorem witness_JumpResults :
    inputA (D 3) w0 = .ok (0x700300, w0) ∧ NotTraced w0 ∧ Room w0 w0.sp 1 ∧ w0.mem.wf :=
  ⟨by decide +kernel, w0_stack.2.2.2, w0_room 1 (by decide), w0_stack.2.2.1⟩

theorem w0_call : gather2 .addr .addr wordT ⟨none, .byteDisp 12 0xFC⟩ (D 3) w0 =
    .ok ((⟨.mem 0x7001FC, wordT⟩, ⟨.mem 0x700300, wordT⟩), w0) := by
  decide +kernel

theorem witness_CallResults :
    gather2 .addr .addr wordT ⟨none, .byteDisp 12 0xFC⟩ (D 3) w0 =
      .ok ((⟨.mem 0x7001FC, wordT⟩, ⟨.mem 0x700300, wordT⟩), w0) ∧
    Room w0 w0.sp 2 ∧ w0.mem.wf ∧ NotTraced w0 ∧ Readable w0 (w0.sp - 4) ∧ Readable w0 (w0.sp - 8) :=
  ⟨w0_call, w0_room 2 (by decide), w0_stack.2.2.1, w0_stack.2.2.2, w0_stack.1, w0_stack.2.1⟩

/-- The procedure returns at once: u is the state t that CALL leaves. -/
theorem witness_CallReturn :
    ∃ t, exec (.call ⟨none, .byteDisp 12 0xFC⟩ (D 3)) w0 = .next t ∧ NotTraced t ∧ Room w0 w0.sp 2 ∧ w0.mem.wf ∧
      NotTraced w0 := by
  obtain ⟨t, h, ht⟩ := of_reaches (x := exec (.call ⟨none, .byteDisp 12 0xFC⟩ (D 3)) w0)
    (p := fun t => !Psw.tm t.psw) (by decide +kernel)
  exact ⟨t, h, by simpa [NotTraced] using ht, w0_room 2 (by decide), w0_stack.2.2.1, w0_stack.2.2.2⟩

theorem witness_SaveRestoreResults :
    ((3 : RegNum) ≤ 3 ∧ (3 : RegNum) ≠ 15 ∧ Room w0 w0.sp (1 + (9 - (3 : RegNum).val))) ∧
    ((3 : RegNum) ≤ 14 ∧ (14 : RegNum) ≠ 15 ∧ Room w0 w0.sp (1 + (9 - (14 : RegNum).val))) ∧ w0.mem.wf ∧ NotTraced w0 ∧
    Readable w0 (w0.reg regFP - 28) ∧ ∀ k, k < 9 - (3 : RegNum).val → Readable w0 (wordUp (w0.reg regFP - 24) k) := by
  refine ⟨⟨by decide, by decide, w0_room _ (by decide)⟩, ⟨by decide, by decide, w0_room _ (by decide)⟩, w0_stack.2.2.1,
    w0_stack.2.2.2, ⟨.ram, by decide +kernel, by decide⟩, fun k hk => ⟨.ram, ?_, by decide⟩⟩
  revert k
  decide +kernel

/-- RESTORE right after SAVE: u is the state t that SAVE leaves. -/
theorem witness_SaveRestoreReturn :
    ∃ t, exec (.save (R 3)) w0 = .next t ∧ NotTraced t ∧ Room w0 w0.sp (1 + (9 - (3 : RegNum).val)) ∧ w0.mem.wf ∧
      NotTraced w0 := by
  obtain ⟨t, h, ht⟩ := of_reaches (x := exec (.save (R 3)) w0) (p := fun t => !Psw.tm t.psw) (by decide +kernel)
  exact ⟨t, h, by simpa [NotTraced] using ht, w0_room _ (by decide), w0_stack.2.2.1, w0_stack.2.2.2⟩

/-- r0 = 0x700300, r1 = c, r2 = n. -/
def wBlock (c n : Word) : State := ((w0.setReg 0 0x700300).setReg 1 c).setReg 2 n

/-- No word and two words: apart, one word above the source, onto itself, one word below. -/
theorem witness_BlockMoveResults :
    (wBlock 0x700400 0).reg 2 = 0 ∧
    ∀ c ∈ ([0x700400, 0x700304, 0x700300, 0x7002FC] : List Word),
      ((wBlock c 2).reg 2).toNat = 2 ∧ 4 * 2 ≤ 2 ^ 32 ∧ (wBlock c 2).mem.wf ∧ NotTraced (wBlock c 2) ∧
      (∀ k, k < 2 → Readable (wBlock c 2) (wordUp ((wBlock c 2).reg 0) k)) ∧
      Room (wBlock c 2) ((wBlock c 2).reg 1) 2 := by
  refine ⟨by decide +kernel, fun c hc => ?_⟩
  simp only [List.mem_cons, List.not_mem_nil, or_false] at hc
  have h : ∀ k, k < 2 → dataRoute testParams (wordUp 0x700300 k) .word .read = .ok .ram := by decide +kernel
  rcases hc with rfl | rfl | rfl | rfl <;>
    exact ⟨by decide +kernel, by decide, by decide +kernel, by unfold NotTraced; decide +kernel,
      fun k hk => ⟨.ram, h k hk, by decide⟩, by unfold Room; decide +kernel⟩

/-- The clauses: no word stored over a later source word (apart, onto itself, below), replication, and r0 = r1. -/
theorem witness_BlockMoveResults_overlap :
    (∀ c ∈ ([0x700400, 0x700300, 0x7002FC] : List Word), ∀ j k, j < k → k < 2 →
      ∀ b, covers (wordUp ((wBlock c 2).reg 0) k) 4 b → ¬ covers (wordUp ((wBlock c 2).reg 1) j) 4 b) ∧
    (0 < 1 ∧ 1 < 2 ∧ (wBlock 0x700304 2).reg 1 = wordUp ((wBlock 0x700304 2).reg 0) 1) ∧
    (wBlock 0x700300 2).reg 1 = (wBlock 0x700300 2).reg 0 := by
  refine ⟨fun c hc j k h1 h2 => ?_, by decide +kernel, by decide +kernel⟩
  obtain ⟨rfl, rfl⟩ : j = 0 ∧ k = 1 := by omega
  simp only [List.mem_cons, List.not_mem_nil, or_false] at hc
  rcases hc with rfl | rfl | rfl <;> exact apart_of (by decide +kernel)

/-- R701: with r1 = r0 + 4 the first word is replicated. -/
theorem test_movblw_replicates :
    leaves (boot 0x100 [0x30, 0x19] [(0, 0x700300), (1, 0x700304), (2, 2)]
      [(0x700300, 0x11111111), (0x700304, 0x22222222), (0x700308, 0x33333333)])
      [(0, 0x700308), (1, 0x70030C), (2, 0)]
      [(0x700300, 0x11111111), (0x700304, 0x11111111), (0x700308, 0x11111111)] = true := by
  decide +kernel

/-- MOVBLW: a second source word past RAM, and a destination in ROM. -/
theorem witness_AbandonedInstructions_block :
    (let s := (wBlock 0x700400 2).setReg 0 0x700FFC
    1 < (s.reg 2).toNat ∧
      (∀ j, j < 1 → Reached s (wordUp (s.reg 0) j) .word .read ∧ Reached s (wordUp (s.reg 1) j) .word .write) ∧
      AccessTraps s (wordUp (s.reg 0) 1) .word .read .busFault) ∧
    (let s := wBlock 0x1FFC 2
    0 < (s.reg 2).toNat ∧ Reached s (wordUp (s.reg 0) 0) .word .read ∧
      AccessTraps s (wordUp (s.reg 1) 0) .word .write .busFault) := by
  refine ⟨⟨by decide +kernel, fun j hj => ?_, traps_of (by decide +kernel)⟩, by decide +kernel,
    reached_of (by decide +kernel), traps_of (by decide +kernel)⟩
  obtain rfl : j = 0 := by omega
  exact ⟨reached_of (by decide +kernel), reached_of (by decide +kernel)⟩

/-- r0 = 0x700300, where the bytes 41 42 00 stand, and r1 = 0x700310. -/
def wString : State := boot 0x100 [] [(0, 0x700300), (1, 0x700310)] [(0x700300, 0x41420000)]

theorem witness_StringResults :
    wString.mem.wf ∧ NotTraced wString ∧
    (∀ k, k ≤ 2 → ReadableByte wString (wString.reg 0 + BitVec.ofNat 32 k)) ∧
    (∀ k, k ≤ 2 → dataRoute wString.params (wString.reg 1 + BitVec.ofNat 32 k) .byte .write = .ok .ram) ∧
    (∀ k, k < 2 → wString.mem.read (wString.reg 0 + BitVec.ofNat 32 k).toNat ≠ 0) ∧
    wString.mem.read (wString.reg 0 + BitVec.ofNat 32 2).toNat = 0 ∧
    (∀ i j, i < j → j ≤ 2 → wString.reg 0 + BitVec.ofNat 32 j ≠ wString.reg 1 + BitVec.ofNat 32 i) ∧
    ∀ i j, i < j → j ≤ 2 → wString.reg 0 + BitVec.ofNat 32 j ≠ wString.reg 0 + BitVec.ofNat 32 i := by
  have h : ∀ k, k < 3 → dataRoute wString.params (wString.reg 0 + BitVec.ofNat 32 k) .byte .read = .ok .ram := by
    decide +kernel
  have h1 : ∀ k, k < 3 → dataRoute wString.params (wString.reg 1 + BitVec.ofNat 32 k) .byte .write = .ok .ram := by
    decide +kernel
  have hd : ∀ j, j < 3 → ∀ i, i < j →
      wString.reg 0 + BitVec.ofNat 32 j ≠ wString.reg 1 + BitVec.ofNat 32 i := by decide +kernel
  have he : ∀ j, j < 3 → ∀ i, i < j →
      wString.reg 0 + BitVec.ofNat 32 j ≠ wString.reg 0 + BitVec.ofNat 32 i := by decide +kernel
  exact ⟨by decide +kernel, by unfold NotTraced; decide +kernel,
    fun k hk => ⟨.ram, h k (Nat.lt_succ_of_le hk), by decide⟩, fun k hk => h1 k (Nat.lt_succ_of_le hk),
    by decide +kernel, by decide +kernel, fun i j h1 h2 => hd j (Nat.lt_succ_of_le h2) i h1,
    fun i j h1 h2 => he j (Nat.lt_succ_of_le h2) i h1⟩

/-- STREND and STRCPY at the end of RAM: the last byte is not 0 and the next is unmapped; a destination in ROM, and one
whose second byte is unmapped. -/
theorem witness_AbandonedInstructions_string :
    (let s := boot 0x100 [] [(0, 0x700FFF), (1, 0x700310)] [(0x700FFC, 0x41424344)]
    (∀ j, j < 1 → ReadableByte s (s.reg 0 + BitVec.ofNat 32 j) ∧ s.mem.read (s.reg 0 + BitVec.ofNat 32 j).toNat ≠ 0) ∧
      AccessTraps s (s.reg 0 + BitVec.ofNat 32 1) .byte .read .busFault) ∧
    (let s := wString.setReg 1 0
    ReadableByte s (s.reg 0 + BitVec.ofNat 32 0) ∧ AccessTraps s (s.reg 1 + BitVec.ofNat 32 0) .byte .write .busFault) ∧
    (let s := wString.setReg 1 0x700FFF
    ReadableByte s (s.reg 0 + BitVec.ofNat 32 1) ∧
      AccessTraps s (s.reg 1 + BitVec.ofNat 32 1) .byte .write .busFault ∧
      ∀ j, j < 1 → dataRoute s.params (s.reg 1 + BitVec.ofNat 32 j) .byte .write = .ok .ram) := by
  refine ⟨⟨fun j hj => ?_, traps_of (by decide +kernel)⟩,
    ⟨⟨.ram, by decide +kernel, by decide⟩, traps_of (by decide +kernel)⟩, ⟨.ram, by decide +kernel, by decide⟩,
    traps_of (by decide +kernel), by decide +kernel⟩
  obtain rfl : j = 0 := by omega
  exact ⟨⟨.ram, by decide +kernel, by decide⟩, by decide +kernel⟩

theorem witness_SystemResults : NotTraced w0 ∧ w0.kernel = true :=
  ⟨w0_stack.2.2.2, by decide +kernel⟩

theorem witness_TrappingInstructions :
    (∃ w a b, Instr.spopt2 5 (R 0) (D 3) ∈ ([.spop w, .spoprs w a, .spopt2 w a b] : List Instr)) ∧
    (∃ a b, Instr.movtrw (D 3) (R 0) ∈ ([.intack, .callps, .retps, .enbvjmp, .disvjmp, .movtrw a b] : List Instr)) ∧
    wUser.kernel = false :=
  ⟨⟨5, R 0, D 3, by decide⟩, ⟨D 3, R 0, by decide⟩, by decide +kernel⟩

/-- r1 = 0 and r0 = 0x18, in user mode: the fourth entry of the first table. -/
def wGate : State := (wUser.setReg 1 0).setReg 0 0x18

theorem witness_GateResults :
    (GateReady wGate (wGate.reg 1 &&& 0x7C) (wGate.reg 0 &&& 0x7FF8) ∧ wGate.mem.wf ∧ NotTraced wGate) ∧
    (Readable w0 (w0.sp - 4) ∧ Readable w0 (w0.sp - 8) ∧ NotTraced w0 ∧
      Psw.cm w0.psw ≤ Psw.cm (wordAt w0 (w0.sp - 4) &&& 0x03FFFFFF)) ∧
    (let s := boot 0x100 [] [(12, 0x700200)] [] 0x1800
    Readable s (s.sp - 4) ∧ Readable s (s.sp - 8) ∧ NotTraced s ∧
      Psw.cm (wordAt s (s.sp - 4) &&& 0x03FFFFFF) < Psw.cm s.psw) :=
  ⟨⟨gate_ready (by decide +kernel) (by decide +kernel) (by decide +kernel) (by decide +kernel) (by decide +kernel)
      (by decide +kernel), by decide +kernel, by unfold NotTraced; decide +kernel⟩,
    ⟨w0_stack.1, w0_stack.2.1, w0_stack.2.2.2, by decide +kernel⟩,
    ⟨.ram, by decide +kernel, by decide⟩, ⟨.ram, by decide +kernel, by decide⟩, by unfold NotTraced; decide +kernel,
    by decide +kernel⟩

/-- Both MR pointers, both transmitter enables, and window bytes that no register has. -/
theorem witness_DuartRegisters :
    Channel.reset.mrPtr = .mr1 ∧ { Channel.reset with mrPtr := .mr2 }.mrPtr = .mr2 ∧
    Channel.reset.txEnabled = false ∧ { Channel.reset with txEnabled := true }.txEnabled = true ∧
    (∀ off ∈ [0, 0x0B, 0x13, 0x33], off ∉ [0x03, 0x07, 0x0F, 0x17, 0x1B, 0x1F, 0x23, 0x27, 0x2F, 0x3B, 0x3F]) ∧
    ∀ off ∈ [0, 0x33, 0x3E],
      off ∉ [0x03, 0x07, 0x0B, 0x0F, 0x13, 0x17, 0x1B, 0x1F, 0x23, 0x27, 0x2B, 0x2F, 0x37, 0x3B, 0x3F] := by
  decide +kernel

theorem witness_CharacterPacing :
    (let x := { Channel.reset with rxEnabled := true, rxQueue := [0x41, 0x42] }
    (∀ c ∈ [ChannelId.a, .b], x = (Duart.reset.setChannel c x).channel c) ∧
    x.rxEnabled = true ∧ x.rhr = none ∧ x.rxQueue = [0x41, 0x42] ∧ x.rxCount = 0 ∧ 1 ≤ x.delayRx testParams 0) ∧
    (let x := { Channel.reset with txEnabled := true, thr := some 0x41, txQueue := List.replicate 15 0 }
    (∀ c ∈ [ChannelId.a, .b], x = (Duart.reset.setChannel c x).channel c) ∧
    x.txEnabled = true ∧ x.txShift = none ∧ x.thr = some 0x41 ∧ x.txQueue.length < testParams.txCapacity ∧
      1 ≤ x.delayTx testParams 0x80) := by
  decide +kernel

/-- A transmission that completes in the next advance, and an idle transmitter. -/
theorem witness_CharacterPacing_bell :
    (let x := { Channel.reset with txShift := some 7, txCount := 1 }
    x.txShift = some 7 ∧ x.txCount ≤ 1 ∧ x.txQueue.length < testParams.txCapacity) ∧
    ∀ b' : Byte, ¬ (Channel.reset.txShift = some b' ∧ Channel.reset.txCount ≤ 1 ∧
      Channel.reset.txQueue.length < testParams.txCapacity) :=
  ⟨by decide +kernel, fun b' h => nomatch h.1⟩

theorem witness_CounterPeriod :
    65536 = (if ({ Duart.reset with ctPreload := 0 } : Duart).ctPreload = 0 then 65536
      else ({ Duart.reset with ctPreload := 0 } : Duart).ctPreload.toNat) ∧
    1 = (if ({ Duart.reset with ctPreload := 1 } : Duart).ctPreload = 0 then 65536
      else ({ Duart.reset with ctPreload := 1 } : Duart).ctPreload.toNat) ∧
    Duart.reset.ctRunning = false := by
  decide +kernel

/-- w0 with a byte held by both receivers. -/
def wRx : State :=
  { w0 with duart := { Duart.reset with
      chA := { Channel.reset with rhr := some 0x41, rxQueue := List.replicate 15 0 },
      chB := { Channel.reset with rhr := some 0x42, rxQueue := List.replicate 15 0 } } }

theorem witness_ReceiveSide :
    (wRx.params.valid = true ∧ wRx.duart.chA.rhr = some 0x41 ∧ wRx.duart.chB.rhr = some 0x42 ∧
      w0.params.valid = true ∧ w0.duart.chA.rhr = none ∧ w0.duart.chB.rhr = none) ∧
    wRx.params.rxCapacity ≤ wRx.duart.chA.rxHeld ∧ wRx.params.rxCapacity ≤ wRx.duart.chB.rxHeld ∧
    w0.duart.chA.rxHeld < w0.params.rxCapacity ∧ w0.duart.chB.rxHeld < w0.params.rxCapacity := by
  decide +kernel

/-- w0 with a byte in each TX queue. -/
def wDrain : State :=
  { w0 with duart := { Duart.reset with
      chA := { Channel.reset with txQueue := [0x41, 0x42] }, chB := { Channel.reset with txQueue := [0x43] } } }

/-- The empty and the other queues; host accesses at the ends of ROM and RAM, across both and outside them. -/
theorem witness_HostOperations :
    (∀ c, (w0.duart.channel c).txQueue = []) ∧ (wDrain.duart.channel .a).txQueue = 0x41 :: [0x42] ∧
    (wDrain.duart.channel .b).txQueue = 0x43 :: [] ∧ { w0 with status := .halted }.status ≠ .running ∧
    (∀ k, k < sizeBytes .word → regionOf w0.params ((0x1FFC : Word).toNat + k) = some .rom ∨
      regionOf w0.params ((0x1FFC : Word).toNat + k) = some .ram) ∧
    (∀ k, k < sizeBytes .word → regionOf w0.params ((0x700FFC : Word).toNat + k) = some .ram) ∧
    (1 < sizeBytes .half ∧ regionOf w0.params ((0x1FFF : Word).toNat + 1) ≠ some .rom ∧
      regionOf w0.params ((0x1FFF : Word).toNat + 1) ≠ some .ram) ∧
    (0 < sizeBytes .byte ∧ regionOf w0.params ((0x20003F : Word).toNat + 0) ≠ some .rom ∧
      regionOf w0.params ((0x20003F : Word).toNat + 0) ≠ some .ram) ∧
    w0.mem.wf :=
  ⟨fun c => by cases c <;> rfl, rfl, rfl, by decide +kernel, by decide +kernel, by decide +kernel, by decide +kernel,
    by decide +kernel, by decide +kernel⟩

/-- A run of one step that stays Running, one that halts, and one that ends Faulted (a HALT, and a trap whose gate table
is unmapped). -/
theorem witness_HostOperations_run :
    (∃ t, w0.status = .running ∧ step w0 = .next t ∧ t.status = .running) ∧
    (∃ t, (boot 0x100 [0x00] [] []).status = .running ∧ step (boot 0x100 [0x00] [] []) = .next t ∧
      t.status = .halted) ∧
    ∃ t k, (boot 0x100 [0x2E] [] []).status = .running ∧ step (boot 0x100 [0x2E] [] []) = .next t ∧
      t.status = .faulted k := by
  obtain ⟨t, h, ht⟩ := of_reaches (x := step w0) (p := fun t => t.status == .running) (by decide +kernel)
  obtain ⟨u, h', hu⟩ := of_reaches (x := step (boot 0x100 [0x00] [] [])) (p := fun t => t.status == .halted)
    (by decide +kernel)
  obtain ⟨v, h'', hv⟩ := of_reaches (x := step (boot 0x100 [0x2E] [] [])) (p := fun t => t.status == .faulted .breakpoint)
    (by decide +kernel)
  exact ⟨⟨t, by decide +kernel, h, by simpa using ht⟩, ⟨u, by decide +kernel, h', by simpa using hu⟩,
    v, .breakpoint, by decide +kernel, h'', by simpa using hv⟩

theorem witness_FlagFormulas :
    0 < 32 ∧ flagOvfAdd 32 0x7FFFFFFF 1 = true ∧ flagOvfSub 8 (-128) 1 = true ∧ flagCarry 1 1 1 = true ∧
      flagBorrow 16 0 1 = true := by
  decide +kernel

end Sys2Proof.Tests
end

section
/-! The registers that user mode cannot change. -/
namespace Sys2Proof.Machine

/-! ## What user mode cannot change (10_state.md R103, 60_exceptions.md R801) -/

/-- PCBP, ISP and the IPL field of the PSW as they were. -/
structure PrivilegedKept (s t : State) : Prop where
  pcbp : t.reg regPCBP = s.reg regPCBP
  isp : t.reg regISP = s.reg regISP
  ipl : Psw.ipl t.psw = Psw.ipl s.psw

theorem PrivilegedKept.refl (s : State) : PrivilegedKept s s := ⟨rfl, rfl, rfl⟩

theorem PrivilegedKept.trans {s t u : State} (h : PrivilegedKept s t) (k : PrivilegedKept t u) : PrivilegedKept s u :=
  ⟨k.pcbp.trans h.pcbp, k.isp.trans h.isp, k.ipl.trans h.ipl⟩

theorem PrivilegedKept.of_sameCpu {s t : State} (h : SameCpu s t) : PrivilegedKept s t :=
  ⟨h.reg _, h.reg _, by rw [h.psw]⟩

/-- A gate transfer that sets no IPL, whatever PSW its entry holds (R820). -/
theorem PrivilegedKept.gate {s t : State} {a b l1 off : Word} (e : gateTransfer a b l1 off none s = .ok ((), t)) :
    PrivilegedKept s t := by
  obtain ⟨-, hreg, hipl⟩ := gateTransfer_regs e
  exact ⟨hreg _ (by decide), hreg _ (by decide), hipl⟩

theorem PrivilegedKept.trap (k : FaultKind) (s : State) : PrivilegedKept s (takeTrap k s) := by
  obtain ⟨-, hreg, hipl⟩ := takeTrap_regs k s
  exact ⟨hreg _ (by decide), hreg _ (by decide), hipl⟩

theorem PrivilegedKept.endOfInstr (b : Bool) (s t : State) : PrivilegedKept t (endOfInstr b s t) := by
  unfold Machine.endOfInstr
  split
  · exact .trap ..
  · split
    · exact .trap ..
    · exact .refl t

/-- An instruction keeps them where its completed work does: every trap keeps them. -/
theorem PrivilegedKept.runInstr {b : Bool} {work : M Unit} {s t : State}
    (hw : ∀ u, work s = .ok ((), u) → PrivilegedKept s u) (h : runInstr b work s = .next t) : PrivilegedKept s t := by
  rcases runInstr_cases h with ⟨k, rfl⟩ | ⟨u, hu, rfl⟩
  · exact .trap k s
  · exact (hw u hu).trans (.endOfInstr b s u)

/-! ## The elementary effects -/

theorem not_privilegedReg {n : RegNum} (h : privilegedReg n = false) : n ≠ regPSW ∧ n ≠ regPCBP ∧ n ≠ regISP := by
  simpa [privilegedReg, and_assoc] using h

theorem setFlags_cm (f : Flags) (w : Word) : Psw.cm (Psw.setFlags f w) = Psw.cm w :=
  psw_field_ne _ _ (by decide) (by decide)

theorem setFlags_ipl (f : Flags) (w : Word) : Psw.ipl (Psw.setFlags f w) = Psw.ipl w :=
  psw_field_ne _ _ (by decide) (by decide)

/-- Outside kernel mode the privileged registers stay, and so does the mode. -/
def UserKept (s t : State) : Prop :=
  s.kernel = false → t.kernel = false ∧ PrivilegedKept s t

theorem UserKept.of_sameCpu {s t : State} (h : SameCpu s t) : UserKept s t :=
  fun hk => ⟨h.kernel.trans hk, .of_sameCpu h⟩

theorem UserKept.setReg {s : State} {n : RegNum} (v : Word) (h : privilegedReg n = false) :
    UserKept s (s.setReg n v) := fun hk => by
  obtain ⟨hpsw, hpcbp, hisp⟩ := not_privilegedReg h
  refine ⟨?_, reg_setReg_ne _ _ hpcbp.symm, reg_setReg_ne _ _ hisp.symm, ?_⟩
  · rwa [State.kernel, setReg_psw_ne s v hpsw]
  · rw [setReg_psw_ne s v hpsw]

/-- A destination write outside kernel mode that is made names no privileged register. -/
theorem UserKept.writeDestReg {s t : State} {n : RegNum} {v : Word} (h : writeDestReg n v s = .ok ((), t)) :
    UserKept s t := fun hk => by
  unfold Machine.writeDestReg at h
  cases hn : privilegedReg n with
  | true => simp [hn, hk] at h
  | false =>
    simp only [hn, Bool.false_and, Bool.false_eq_true, if_false] at h
    cases h
    exact UserKept.setReg _ hn hk

theorem UserKept.setFlags (s : State) (f : Flags) : UserKept s (s.setFlags f) := fun hk => by
  refine ⟨?_, setFlags_reg .., setFlags_reg .., ?_⟩
  · rwa [State.kernel, setFlags_psw, setFlags_cm]
  · rw [setFlags_psw, setFlags_ipl]

theorem UserKept.frame : Frame UserKept where
  refl := fun s hk => ⟨hk, .refl s⟩
  trans := fun h k hs => by
    obtain ⟨ht, h⟩ := h hs
    obtain ⟨hu, k⟩ := k ht
    exact ⟨hu, h.trans k⟩
  read := fun e => .of_sameCpu (memRead_sameCore e).cpu
  write := fun e => by
    obtain ⟨_, -, eff⟩ := memWrite_effect e
    exact .of_sameCpu eff.cpu
  reg := .setReg _
  dest := .writeDestReg
  flags := UserKept.setFlags _ _

/-! ## The instructions with effects of their own -/

/-- RETG outside kernel mode takes no IPL from its frame (47_system.md R741). -/
theorem PrivilegedKept.returnFromGate {s t : State} (hk : s.kernel = false) (h : returnFromGate s = .ok ((), t)) :
    PrivilegedKept s t := by
  unfold Machine.returnFromGate at h
  obtain ⟨_, _, e0, h⟩ := of_bind_ok h
  cases e0
  obtain ⟨frame, s₁, e1, h⟩ := of_bind_ok h
  obtain ⟨newPC, s₂, e2, h⟩ := of_bind_ok h
  have c : SameCore s s₂ := (memRead_sameCore e1).trans (memRead_sameCore e2)
  dsimp only at h
  split at h
  · cases h
  · cases h
    refine ⟨?_, ?_, ?_⟩
    · simp [setPc_reg, setPsw_reg, setSp_reg, c.reg, regPCBP, regPC, regPSW, regSP]
    · simp [setPc_reg, setPsw_reg, setSp_reg, c.reg, regISP, regPC, regPSW, regSP]
    · simp only [setPc_psw, setPsw_psw, hk, Bool.false_eq_true, if_false]
      exact psw_field _ _ (by decide)

theorem waitForInterrupt_user {s t : State} (hk : s.kernel = false) : waitForInterrupt s ≠ .ok ((), t) := fun h => by
  obtain ⟨_, _, e, -⟩ := of_bind_ok h
  simp [requireKernel, hk] at e

theorem ownEffect_cases {i : Instr} (h : ownEffect i ≠ false) : i = .gate ∨ i = .retg ∨ i = .wait ∨ i = .halt := by
  unfold ownEffect at h
  split at h
  · exact .inl rfl
  · exact .inr (.inl rfl)
  · exact .inr (.inr (.inl rfl))
  · exact .inr (.inr (.inr rfl))
  · exact absurd rfl h

theorem exec_gate (s : State) : exec .gate s = runInstr false gate s := rfl
theorem exec_retg (s : State) : exec .retg s = runInstr false returnFromGate s := rfl
theorem exec_wait (s : State) : exec .wait s = runInstr false waitForInterrupt s := rfl
theorem exec_halt (s : State) : exec .halt s = .next { s.setPc (s.pc + 1) with status := .halted } := rfl

theorem PrivilegedKept.gateWork {s u : State} (h : Machine.gate s = .ok ((), u)) : PrivilegedKept s u := by
  unfold Machine.gate at h
  rw [bind_ok (getState_apply s)] at h
  exact .gate h

/-- Settles O15: a trap keeps the privileged registers, and so does, outside kernel mode, every elementary effect; GATE,
RETG, WAIT and HALT are looked at one by one. -/
theorem userModeKeepsPrivileged : Obligations.UserModeKeepsPrivileged := by
  intro i s t hk h
  have kept : PrivilegedKept s t := by
    by_cases hi : ownEffect i = false
    · rcases UserKept.frame.exec hi h with ⟨k, rfl⟩ | ⟨b, u, hu, rfl⟩
      · exact .trap k s
      · exact (hu hk).2.trans (.endOfInstr b s u)
    · rcases ownEffect_cases hi with rfl | rfl | rfl | rfl
      · rw [exec_gate] at h
        exact .runInstr (fun _ => .gateWork) h
      · rw [exec_retg] at h
        exact .runInstr (fun _ => .returnFromGate hk) h
      · rw [exec_wait] at h
        exact .runInstr (fun _ e => absurd e (waitForInterrupt_user hk)) h
      · rw [exec_halt] at h
        cases h
        exact ⟨setPc_reg .., setPc_reg .., congrArg Psw.ipl (setPc_psw ..)⟩
  exact ⟨kept.pcbp, kept.isp, kept.ipl⟩

end Sys2Proof.Machine
end

section
/-! What both forms of reset leave. -/
namespace Sys2Proof.Machine

/-! ## The state both forms of reset share (70_reset_and_hazards.md R900) -/

theorem resetAt_pc (pc : Word) (s : State) : (resetAt pc s).pc = pc := rfl
theorem resetAt_psw (pc : Word) (s : State) : (resetAt pc s).psw = s.params.resetPsw &&& Config.pswMask := rfl

theorem cleared_latches (i : Fin 5) : (#v[false, false, false, false, false] : Vector Bool 5)[i] = false := by
  revert i; decide

/-- A reset state differs from the shared one in registers and status only. -/
theorem ResetDevices.of_resetAt {s t : State} {pc : Word}
    (h : t = { resetAt pc s with regs := t.regs, status := t.status }) : ResetDevices s t := by
  rw [h]
  exact ⟨rfl, cleared_latches, rfl, rfl, rfl, rfl⟩

theorem resetMachine_direct {s : State} (h : s.params.resetEntry = .direct) :
    resetMachine s = resetAt (BitVec.ofNat 32 Config.romBase) s := by
  simp only [resetMachine, h, resetDirect]

/-- Settles O17: the Direct reset is the part both forms share, with the PC at `ROM_BASE`. -/
theorem directReset : Obligations.DirectReset := by
  intro s h
  rw [resetMachine_direct h]
  exact ⟨rfl, rfl, rfl, cleared_latches, rfl, rfl, rfl, rfl, rfl, by decide, rfl, rfl, rfl⟩

/-- Settles O12: memory is empty, the PSW masked, the DUART reset, every latch clear. -/
theorem safeReset : Obligations.SafeReset :=
  .of_parts State.reset_mem_wf (fun _ hc => absurd hc List.not_mem_nil) (masked_bit _)
    ⟨.reset _, fun i hi => absurd ((cleared_latches i).symm.trans hi) (by decide)⟩
    (by decide +kernel)

/-! ## The PcbVector reset (R902) -/

theorem resetMachine_vector {s : State} (h : s.params.resetEntry = .pcbVector) : resetMachine s = resetPcbVector s := by
  simp only [resetMachine, h]

/-- A word of ROM or RAM, read in a state that differs from s in neither memory nor parameters. -/
theorem Readable.read_of_same {s u : State} {a : Word} (h : Readable s a) (hp : u.params = s.params)
    (hm : u.mem = s.mem) : memRead a .word u = .ok (wordAt s a, u) := by
  rw [(h.of_params hp).read, wordAt_congr (s := s) fun b _ => by rw [hm]]

theorem memRead_error_of_params {s u : State} {a : Word} {z : Size} {e : Exn}
    (h : dataRoute s.params a z .read = .error e) (hp : u.params = s.params) : memRead a z u = .error e :=
  memRead_error (by rw [hp]; exact h)

theorem resetFault_reg (e : Exn) (s : State) (n : RegNum) : (resetFault e s).reg n = s.reg n := by
  cases e <;> rfl

/-- The last two reads set the PC and SP, wherever they go and whether they fault. -/
theorem resetEntryPoint_reg (a : Word) (s : State) {n : RegNum} (hpc : n ≠ regPC) (hsp : n ≠ regSP) :
    (resetEntryPoint a s).reg n = s.reg n := by
  unfold resetEntryPoint
  split
  · exact resetFault_reg ..
  · next e₁ =>
    have c₁ := memRead_sameCore e₁
    split
    · rw [resetFault_reg, setPc_reg, if_neg hpc, c₁.reg]
    · next e₂ =>
      have c₂ := memRead_sameCore e₂
      rw [setSp_reg, if_neg hsp, c₂.reg, setPc_reg, if_neg hpc, c₁.reg]

theorem resetEntryPoint_pc_fault {a : Word} {s : State} {k : FaultKind} {i : Option AccessInfo}
    (h : memRead (a + 4) .word s = .error (.trap k i)) : resetEntryPoint a s = { s with status := .faulted k } := by
  simp only [resetEntryPoint, h, resetFault]

theorem resetEntryPoint_sp_fault {a pc : Word} {s : State} {k : FaultKind} {i : Option AccessInfo}
    (h4 : memRead (a + 4) .word s = .ok (pc, s)) (h8 : memRead (a + 8) .word (s.setPc pc) = .error (.trap k i)) :
    resetEntryPoint a s = { s.setPc pc with status := .faulted k } := by
  simp only [resetEntryPoint, h4, h8, resetFault]

theorem resetEntryPoint_ok {a pc sp : Word} {s : State} (h4 : memRead (a + 4) .word s = .ok (pc, s))
    (h8 : memRead (a + 8) .word (s.setPc pc) = .ok (sp, s.setPc pc)) :
    resetEntryPoint a s = (s.setPc pc).setSp sp := by
  simp only [resetEntryPoint, h4, h8]

/-- Once the PC is read, the SP read keeps it, wherever it goes and whether it faults. -/
theorem resetEntryPoint_pc {a pc : Word} {s : State} (h4 : memRead (a + 4) .word s = .ok (pc, s)) :
    (resetEntryPoint a s).pc = pc := by
  simp only [resetEntryPoint, h4]
  split
  · exact (resetFault_reg ..).trans (setPc_pc ..)
  · next e => rw [setSp_pc, (memRead_sameCore e).pc, setPc_pc]

/-- The state after the context's PSW is read (R902): PCBP past the initial context where I is set, I clear. -/
def resetInContext (s : State) (pcbp psw : Word) : State :=
  (((resetAt s.pc s).setReg regPCBP (wordAt s 0x80)).setReg regPCBP pcbp).setPsw
    (Psw.setInitial false (psw &&& Config.pswMask))

theorem initial_masked (w : Word) : Psw.initial (w &&& Config.pswMask) = w.getLsbD 7 := by
  rw [Psw.initial, BitVec.getLsbD_and, pswMask_bit]
  simp

theorem resetInContext_pcbp (s : State) (pcbp psw : Word) : (resetInContext s pcbp psw).reg regPCBP = pcbp := by
  rw [resetInContext, setPsw_reg, if_neg (by decide), reg_setReg_self]

theorem resetInContext_pc (s : State) (pcbp psw : Word) : (resetInContext s pcbp psw).pc = s.pc := by
  rw [resetInContext, setPsw_pc, setReg_pc_ne _ _ (by decide), setReg_pc_ne _ _ (by decide), resetAt_pc]

theorem resetInContext_psw_bit (s : State) (pcbp psw : Word) (k : Nat) :
    (resetInContext s pcbp psw).psw.getLsbD k = (decide (k < 26 ∧ k ≠ 7) && psw.getLsbD k) := by
  rw [resetInContext, setPsw_psw, Psw.setInitial, setField_bit _ _ _ _ _ (by decide), BitVec.getLsbD_and, pswMask_bit]
  by_cases h7 : k = 7
  · simp [h7]
  · rw [if_neg (by omega)]
    simp [h7, Bool.and_comm]

theorem resetPcbVector_vector_fault {s : State} {k : FaultKind} {i : Option AccessInfo}
    (h : dataRoute s.params 0x80 .word .read = .error (.trap k i)) :
    resetPcbVector s = { resetAt s.pc s with status := .faulted k } := by
  simp only [resetPcbVector, memRead_error_of_params (u := resetAt s.pc s) h rfl, resetFault]

theorem resetPcbVector_context_fault {s : State} {k : FaultKind} {i : Option AccessInfo} (hv : Readable s 0x80)
    (h : dataRoute s.params (wordAt s 0x80) .word .read = .error (.trap k i)) :
    resetPcbVector s = { (resetAt s.pc s).setReg regPCBP (wordAt s 0x80) with status := .faulted k } := by
  simp only [resetPcbVector, hv.read_of_same (u := resetAt s.pc s) rfl rfl]
  simp only [memRead_error_of_params (u := (resetAt s.pc s).setReg regPCBP (wordAt s 0x80)) h rfl, resetFault]

theorem resetPcbVector_context {s : State} (hv : Readable s 0x80) (hw : Readable s (wordAt s 0x80)) {pcbp : Word}
    (hp : pcbp = wordAt s 0x80 + (if (wordAt s (wordAt s 0x80)).getLsbD 7 then 12 else 0)) :
    resetPcbVector s = resetEntryPoint pcbp (resetInContext s pcbp (wordAt s (wordAt s 0x80))) := by
  have hreg : (if (wordAt s (wordAt s 0x80)).getLsbD 7 then wordAt s 0x80 + 12 else wordAt s 0x80) = pcbp := by
    rw [hp]; split <;> simp
  simp only [resetPcbVector, hv.read_of_same (u := resetAt s.pc s) rfl rfl]
  simp only [hw.read_of_same (u := (resetAt s.pc s).setReg regPCBP (wordAt s 0x80)) rfl rfl, resetContext,
    initial_masked, reg_setReg_self, hreg, resetInContext]

/-- Settles O18: one equation for the state that each read, or its fault, leads to. -/
theorem vectorReset : Obligations.VectorReset := by
  intro s t pcbp hentry ht hp
  rw [resetMachine_vector hentry] at ht
  refine ⟨fun k i h => ?_, fun k i hv h => ?_, fun hv hw => ?_⟩
  · rw [resetPcbVector_vector_fault h] at ht
    subst ht
    exact ⟨.of_resetAt rfl, rfl, rfl, rfl⟩
  · rw [resetPcbVector_context_fault hv h] at ht
    subst ht
    exact ⟨.of_resetAt (pc := s.pc) rfl, rfl, reg_setReg_self ..,
      (setReg_psw_ne _ _ (by decide)).trans (resetAt_psw ..), (setReg_pc_ne _ _ (by decide)).trans (resetAt_pc ..)⟩
  rw [resetPcbVector_context hv hw hp] at ht
  subst ht
  refine ⟨(resetEntryPoint_reg _ _ (by decide) (by decide)).trans (resetInContext_pcbp ..), fun k => ?_,
    fun k i h => ?_, fun h4 => ?_⟩
  · rw [State.psw, resetEntryPoint_reg _ _ (by decide) (by decide)]
    exact resetInContext_psw_bit ..
  · have e4 := memRead_error_of_params (u := resetInContext s pcbp (wordAt s (wordAt s 0x80))) h rfl
    rw [resetEntryPoint_pc_fault e4]
    exact ⟨.of_resetAt (pc := s.pc) rfl, rfl, resetInContext_pc ..⟩
  have r4 := h4.read_of_same (u := resetInContext s pcbp (wordAt s (wordAt s 0x80))) rfl rfl
  refine ⟨resetEntryPoint_pc r4, fun k i h => ?_, fun h8 => ?_⟩
  · rw [resetEntryPoint_sp_fault r4 (memRead_error_of_params h rfl)]
    exact ⟨.of_resetAt (pc := s.pc) rfl, rfl⟩
  · rw [resetEntryPoint_ok r4 (h8.read_of_same rfl rfl)]
    exact ⟨.of_resetAt (pc := s.pc) rfl, rfl, setSp_sp ..⟩

end Sys2Proof.Machine
end

section
/-! What the flag formulas mean, and the bits that writing the flags changes. -/
namespace Sys2Proof.Machine

/-! ## The flag formulas (10_state.md R120) -/

/-- The sign test on the sum's pattern is the library's signed overflow. -/
theorem flagOvfAdd_eq {w : Nat} (hw : 0 < w) (a b : Int) :
    flagOvfAdd w a b = (truncBits w a).saddOverflow (truncBits w b) := by
  have table : ∀ x y z : Bool, (!(x ^^ y) && (x ^^ z)) = (x == y && !z == x) := by decide
  rw [BitVec.saddOverflow_eq, ← table]
  simp [flagOvfAdd, hw]

/-- The sign test on the difference's pattern is the library's signed overflow. -/
theorem flagOvfSub_eq (w : Nat) (a b : Int) : flagOvfSub w a b = (truncBits w a).ssubOverflow (truncBits w b) := by
  have table : ∀ x y z : Bool, ((x ^^ y) && (x ^^ z)) = (!x && y && z || x && !y && !z) := by decide
  rw [BitVec.ssubOverflow_eq, ← table]
  simp [flagOvfSub]

theorem flagOvfAdd_iff {w : Nat} (hw : 0 < w) (a b : Int) :
    flagOvfAdd w a b = true ↔ (truncBits w a).toInt + (truncBits w b).toInt < -2 ^ (w - 1) ∨
      2 ^ (w - 1) ≤ (truncBits w a).toInt + (truncBits w b).toInt := by
  rw [flagOvfAdd_eq hw, BitVec.saddOverflow, Bool.or_eq_true, decide_eq_true_eq, decide_eq_true_eq, or_comm, ge_iff_le]

theorem flagOvfSub_iff (w : Nat) (a b : Int) :
    flagOvfSub w a b = true ↔ (truncBits w a).toInt - (truncBits w b).toInt < -2 ^ (w - 1) ∨
      2 ^ (w - 1) ≤ (truncBits w a).toInt - (truncBits w b).toInt := by
  rw [flagOvfSub_eq, BitVec.ssubOverflow, Bool.or_eq_true, decide_eq_true_eq, decide_eq_true_eq, or_comm, ge_iff_le]

/-- A pattern as an unsigned number. -/
theorem truncBits_toNat (w : Nat) (a : Int) : ((truncBits w a).toNat : Int) = a % 2 ^ w := by
  have hpos : (0 : Int) < 2 ^ w := by positivity
  rw [truncBits, BitVec.toNat_ofInt, Nat.cast_pow, Nat.cast_ofNat, Int.toNat_of_nonneg (Int.emod_nonneg a hpos.ne')]

theorem flagCarry_iff (w : Nat) (a b : Int) : flagCarry w a b = true ↔ (2 : Int) ^ w ≤ a % 2 ^ w + b % 2 ^ w := by
  rw [flagCarry, decide_eq_true_eq, ← truncBits_toNat, ← truncBits_toNat]
  norm_cast

theorem flagBorrow_iff (w : Nat) (a b : Int) : flagBorrow w a b = true ↔ a % 2 ^ w < b % 2 ^ w := by
  rw [flagBorrow, decide_eq_true_eq, ← truncBits_toNat, ← truncBits_toNat]
  norm_cast

theorem flagZ_iff (w : Nat) (a : Int) : flagZ w a = true ↔ (2 : Int) ^ w ∣ a := by
  rw [flagZ, beq_iff_eq, Int.dvd_iff_emod_eq_zero, ← truncBits_toNat, BitVec.toNat_eq]
  simp

theorem flagN_iff (w : Nat) (a : Int) : flagN w a = true ↔ (2 : Int) ^ (w - 1) ≤ a % 2 ^ w := by
  rw [flagN, BitVec.msb_eq_decide, decide_eq_true_eq, ← truncBits_toNat]
  norm_cast

/-! ## Writing the flags (10_state.md R110) -/

theorem flags_setFlags (f : Flags) (w : Word) : Psw.flags (Psw.setFlags f w) = f := by
  obtain ⟨n, z, c, v⟩ := f
  simp only [Psw.flags, Psw.n, Psw.z, Psw.c, Psw.v, Psw.setFlags, setField_bit 18 4 _ w _ (by decide)]
  simp only [Nat.reduceLeDiff, Nat.reduceAdd, Nat.reduceLT, and_self, if_true, Nat.reduceSub]
  revert n z c v
  decide

theorem setFlags_bit (f : Flags) (w : Word) {k : Nat} (h : k < 18 ∨ 22 ≤ k) :
    (Psw.setFlags f w).getLsbD k = w.getLsbD k := by
  rw [Psw.setFlags, setField_bit _ _ _ _ _ (by decide), if_neg (by omega)]

/-- Settles O22: overflow by the library's signed overflow, the others by the pattern as an unsigned number. -/
theorem flagFormulas : Obligations.FlagFormulas :=
  ⟨fun w a b hw => ⟨flagOvfAdd_iff hw a b, flagOvfSub_iff w a b, flagCarry_iff w a b, flagBorrow_iff w a b,
    flagZ_iff w a, flagN_iff w a⟩, fun w f => ⟨flags_setFlags f w, fun _ => setFlags_bit f w⟩⟩

end Sys2Proof.Machine
end

section
/-! Taking each trap. -/
namespace Sys2Proof.Machine

/-! ## Taking a trap (60_exceptions.md R810, R820) -/

/-- Neither the frame nor the table depends on the wait. -/
theorem GateReady.setWaiting {s : State} {l1 off : Word} (h : GateReady s l1 off) (x : Bool) :
    GateReady { s with waiting := x } l1 off :=
  ⟨h.room, h.base, h.psw, h.pc, h.apart⟩

theorem MemHolds.setWaiting {s : State} {a : Word} {ws : List Word} {m : Memory} (h : MemHolds s a ws m) (x : Bool) :
    MemHolds { s with waiting := x } a ws m :=
  ⟨h.wf, h.words, h.others⟩

/-- A trap that can be delivered, in the terms of R820: it leaves what the gate transfer leaves in the state whose wait
has ended. -/
theorem takeTrap_taken {s : State} (k : FaultKind) (h : GateReady s 0 (gateOffset (iscOf k).toNat)) (wf : s.mem.wf) :
    GateTaken s.pc (trapPsw k s.psw) 0 (gateOffset (iscOf k).toNat) (Psw.ipl s.psw) { s with waiting := false }
      (takeTrap k s) := by
  obtain ⟨m, hm, e⟩ := takeTrap_spec k h wf
  exact GateTaken.intro (s := { s with waiting := false }) (ipl := none) (hm.setWaiting false) (.refl _) ⟨rfl, rfl⟩ e

/-- The ISC of each kind (10_state.md R112). -/
theorem iscOf_eq : ∀ x ∈ ([(.zeroDivide, 0), (.trace, 1), (.illegalInstruction, 2), (.reservedOpcode, 3),
    (.invalidDescriptor, 4), (.busFault, 5), (.misalignedAccess, 5), (.illegalLevelChange, 7), (.integerOverflow, 9),
    (.privilegedOpcode, 10), (.breakpoint, 14), (.privilegedRegister, 15)] : List (FaultKind × Nat)),
    (iscOf x.1).toNat = x.2 := by
  decide

/-- Settles O27: a delivered trap, at the ISC of each kind. -/
theorem trapEntry : Obligations.TrapEntry := by
  intro x hx s h wf
  have hisc : (iscOf x.1).toNat = x.2 := iscOf_eq x hx
  have hoff : BitVec.ofNat 32 (8 * x.2) = gateOffset (iscOf x.1).toNat := by rw [hisc, gateOffset]
  have hcode : BitVec.ofNat 4 x.2 = iscOf x.1 := by rw [← hisc, BitVec.ofNat_toNat, BitVec.setWidth_eq]
  rw [hoff] at h ⊢
  rw [hcode]
  exact ⟨trapPsw x.1 s.psw, savedPsw_intro .., takeTrap_taken x.1 h wf⟩

end Sys2Proof.Machine
end

section
/-! An instruction whose destination cannot be written, family by family. -/
namespace Sys2Proof.Machine

/-! ## Works of 41_data_movement.md after gathering -/

theorem move_eq {ty : OpType} {src dst : Operand} {s s₁ : State} {v : Int} {d : Opnd}
    (h : inputRW ty src dst s = .ok ((v, d), s₁)) :
    move ty src dst s =
      finishMov d v (flagsOf d.type v false (flagTrunc d.type v)) (1 + src.len + dst.len) s₁ := by
  unfold move; rw [bind_ok h]

theorem moveAddress_eq {src dst : Operand} {s s₁ : State} {x d : Opnd}
    (h : gather2 .addr .write wordT src dst s = .ok ((x, d), s₁)) :
    moveAddress src dst s =
      finishMov d (addressOf x).toInt (flagsOf d.type (addressOf x).toInt false false) (1 + src.len + dst.len) s₁ := by
  unfold moveAddress; rw [bind_ok h]

theorem clear_eq {ty : OpType} {dst : Operand} {s s₁ : State} {d : Opnd} (h : gather1 .write ty dst s = .ok (d, s₁)) :
    clear ty dst s = finishMov d 0 (flagsOf d.type 0 false false) (1 + dst.len) s₁ := by
  unfold clear; rw [bind_ok h]

theorem popValue_eq {dst : Operand} {s s₁ u : State} {d : Opnd} {v : Word}
    (h : gather1 .write wordT dst s = .ok (d, s₁)) (hp : pop s₁ = .ok (v, u)) :
    popValue dst s = finishMov d v.toInt (flagsOf d.type v.toInt false false) (1 + dst.len) u := by
  unfold popValue; rw [bind_ok h, bind_ok hp]

/-- A pop whose read reaches some region moves SP and changes the DUART at most. -/
theorem pop_reached {s : State} (h : Reached s (s.sp - 4) .word .read) :
    ∃ v u, SameCore s u ∧ pop s = .ok (v, u.setSp (s.sp - 4)) := by
  obtain ⟨g, hg⟩ := h
  obtain ⟨v, u, e, c⟩ := memRead_spec hg
  refine ⟨v, u, c, ?_⟩
  unfold pop
  rw [bind_ok (getReg_apply ..)]
  change ((memRead (s.sp - 4) .word >>= _) _) = _
  rw [bind_ok e, bind_ok (setReg_apply ..)]
  rfl

/-! ## Refused destinations (10_state.md R103, 20_memory.md R212, 60_exceptions.md R812) -/

/-- Reading operands does not change whether a destination is refused. -/
theorem Opnd.Refused.of_reads {α : Type} {x : M α} {d : Opnd} {s s₁ : State} {k : FaultKind} {a : α}
    (hd : d.Refused s k) (hx : Reads x) (h : x s = .ok (a, s₁)) : d.Refused s₁ k :=
  hd.of_mode (hx.sameCore _ _ _ h).params (hx.sameCore _ _ _ h).kernel

/-- Only a division by 0 has no result. -/
theorem aluResult_some {op : AluOp} {a : Int} (b : Int) (h : (op ≠ .div ∧ op ≠ .mod) ∨ a ≠ 0) :
    ∃ r, aluResult op a b = some r := by
  cases op with
  | add | sub | mul => exact ⟨_, rfl⟩
  | div | mod =>
    have ha : a ≠ 0 := by simpa using h
    exact ⟨_, if_neg ha⟩

section

variable {d : Opnd} {s s₁ : State} {k : FaultKind} (hd : d.Refused s k)
include hd

theorem move_refused (ty : OpType) (src dst : Operand) (v : Int) (h : inputRW ty src dst s = .ok ((v, d), s₁)) :
    runInstr false (move ty src dst) s = .next (takeTrap k s) :=
  run_finishMov_refused (hd.of_reads (.inputRW ..) h) (move_eq h)

theorem arithNeg_refused (ty : OpType) (src dst : Operand) (v : Int) (h : inputRW ty src dst s = .ok ((v, d), s₁)) :
    runInstr true (arithNeg ty src dst) s = .next (takeTrap k s) :=
  run_finish_refused (hd.of_reads (.inputRW ..) h) (arithNeg_eq h)

theorem complement_refused (ty : OpType) (src dst : Operand) (v : Int) (h : inputRW ty src dst s = .ok ((v, d), s₁)) :
    runInstr false (complement ty src dst) s = .next (takeTrap k s) :=
  run_finish_refused (hd.of_reads (.inputRW ..) h) (complement_eq h)

theorem arith2_refused (op : AluOp) (ty : OpType) (src dst : Operand) (a b : Int)
    (h : inputRM ty src dst s = .ok ((a, b, d), s₁)) (ha : (op ≠ .div ∧ op ≠ .mod) ∨ a ≠ 0) :
    runInstr true (arith2 op ty src dst) s = .next (takeTrap k s) := by
  obtain ⟨r, hr⟩ := aluResult_some b ha
  exact run_finish_refused (hd.of_reads (.inputRM ..) h) (arith2_eq h hr)

theorem logic2_refused (op : BitOp) (ty : OpType) (src dst : Operand) (a b : Int)
    (h : inputRM ty src dst s = .ok ((a, b, d), s₁)) :
    runInstr false (logic2 op ty src dst) s = .next (takeTrap k s) :=
  run_finish_refused (hd.of_reads (.inputRM ..) h) (logic2_eq h)

theorem arith3_refused (op : AluOp) (ty : OpType) (src1 src2 dst : Operand) (a b : Int)
    (h : inputRRW ty src1 src2 dst s = .ok ((a, b, d), s₁)) (ha : (op ≠ .div ∧ op ≠ .mod) ∨ a ≠ 0) :
    runInstr true (arith3 op ty src1 src2 dst) s = .next (takeTrap k s) := by
  obtain ⟨r, hr⟩ := aluResult_some b ha
  exact run_finish_refused (hd.of_reads (.inputRRW ..) h) (arith3_eq h hr)

theorem logic3_refused (op : BitOp) (ty : OpType) (src1 src2 dst : Operand) (a b : Int)
    (h : inputRRW ty src1 src2 dst s = .ok ((a, b, d), s₁)) :
    runInstr false (logic3 op ty src1 src2 dst) s = .next (takeTrap k s) :=
  run_finish_refused (hd.of_reads (.inputRRW ..) h) (logic3_eq h)

theorem shift3_refused (op : ShiftOp) (ty : OpType) (count src dst : Operand) (n a : Int)
    (h : inputRRW ty count src dst s = .ok ((n, a, d), s₁)) :
    runInstr false (shift3 op ty count src dst) s = .next (takeTrap k s) :=
  run_finish_refused (hd.of_reads (.inputRRW ..) h) (shift3_eq h)

theorem shiftLeftArith_refused (count src dst : Operand) (n a : Int)
    (h : inputRRW wordT count src dst s = .ok ((n, a, d), s₁)) :
    runInstr true (shiftLeftArith count src dst) s = .next (takeTrap k s) :=
  run_finish_refused (hd.of_reads (.inputRRW ..) h) (shiftLeftArith_eq h)

theorem arithOne_refused (op : AluOp) (ty : OpType) (dst : Operand) (b : Int)
    (h : inputM ty dst s = .ok ((b, d), s₁)) :
    runInstr true (arithOne op ty dst) s = .next (takeTrap k s) := by
  obtain ⟨r, hr⟩ := aluResult_some (op := op) (a := 1) b (.inr (by decide))
  exact run_finish_refused (hd.of_reads (.inputM ..) h) (arithOne_eq h hr)

theorem insertBits_refused (ty : OpType) (width offset src dst : Operand) (m n a b : Int)
    (h : inputRRRM ty width offset src dst s = .ok ((m, n, a, b, d), s₁))
    (hf : s.params.fieldWrap = .fault → shiftCount n + fieldLength m ≤ 32) :
    runInstr false (insertBits ty width offset src dst) s = .next (takeTrap k s) := by
  have hp := ((Reads.inputRRRM ty width offset src dst).sameCore _ _ _ h).params
  exact run_finish_refused (hd.of_reads (.inputRRRM ..) h) (insertBits_eq h (by rw [hp]; exact hf))

theorem extractBits_refused (ty : OpType) (width offset src dst : Operand) (m n a : Int)
    (h : inputRRRW ty width offset src dst s = .ok ((m, n, a, d), s₁))
    (hf : s.params.fieldWrap = .fault → shiftCount n + fieldLength m ≤ 32) :
    runInstr false (extractBits ty width offset src dst) s = .next (takeTrap k s) := by
  have hp := ((Reads.inputRRRW ty width offset src dst).sameCore _ _ _ h).params
  exact run_finish_refused (hd.of_reads (.inputRRRW ..) h) (extractBits_eq h (by rw [hp]; exact hf))

theorem moveAddress_refused (src dst : Operand) (x : Opnd)
    (h : gather2 .addr .write wordT src dst s = .ok ((x, d), s₁)) :
    runInstr false (moveAddress src dst) s = .next (takeTrap k s) :=
  run_finishMov_refused (hd.of_reads (.gather2 ..) h) (moveAddress_eq h)

theorem clear_refused (ty : OpType) (dst : Operand) (h : gather1 .write ty dst s = .ok (d, s₁)) :
    runInstr false (clear ty dst) s = .next (takeTrap k s) :=
  run_finishMov_refused (hd.of_reads (.gather1 ..) h) (clear_eq h)

/-- POPW comes to its write after the pop, which changes neither mode nor parameters. -/
theorem popValue_refused (dst : Operand) (h : gather1 .write wordT dst s = .ok (d, s₁))
    (hr : Reached s (s.sp - 4) .word .read) : runInstr false (popValue dst) s = .next (takeTrap k s) := by
  have c := (Reads.gather1 .write wordT dst).sameCore _ _ _ h
  obtain ⟨v, u, cu, e⟩ := pop_reached (s := s₁) (by rw [c.sp]; exact hr.of_params c.params)
  have hd' : d.Refused (u.setSp (s₁.sp - 4)) k := hd.of_mode (cu.params.trans c.params) <| by
    rw [State.kernel, setSp_psw, ← State.kernel, cu.kernel, c.kernel]
  exact run_finishMov_refused hd' (popValue_eq h e)

theorem swapInterlocked_refused (ty : OpType) (dst : Operand) (old : Int) (s₂ : State)
    (h : gather1 .memModify ty dst s = .ok (d, s₂)) (ho : readOpnd d s₂ = .ok (old, s₁)) :
    runInstr false (swapInterlocked ty dst) s = .next (takeTrap k s) := by
  have hd' : d.Refused s₁ k := (hd.of_reads (.gather1 ..) h).of_reads (.readOpnd d) ho
  obtain ⟨i, e⟩ := writeOpnd_refused hd' (s₁.reg 0).toInt
  refine runInstr_trap (i := i) ?_
  unfold swapInterlocked
  rw [bind_ok h, bind_ok ho, bind_ok (getReg_apply ..)]
  exact bind_error e

end

/-- Settles O31: each instruction with a destination is one of the families above, a division one with a divisor that
is not 0. -/
theorem destinationTraps : Obligations.DestinationTraps := by
  intro s s₁ d k hd
  have total2 (op : AluOp) (ty : OpType) (ho : op ≠ .div ∧ op ≠ .mod := by decide) (src dst : Operand) (a b : Int)
      (h : inputRM ty src dst s = .ok ((a, b, d), s₁)) := arith2_refused hd op ty src dst a b h (.inl ho)
  have total3 (op : AluOp) (ty : OpType) (ho : op ≠ .div ∧ op ≠ .mod := by decide) (src1 src2 dst : Operand)
      (a b : Int) (h : inputRRW ty src1 src2 dst s = .ok ((a, b, d), s₁)) :=
    arith3_refused hd op ty src1 src2 dst a b h (.inl ho)
  have div2 (op : AluOp) (ty : OpType) (src dst : Operand) (a b : Int)
      (h : inputRM ty src dst s = .ok ((a, b, d), s₁)) (ha : a ≠ 0) := arith2_refused hd op ty src dst a b h (.inr ha)
  have div3 (op : AluOp) (ty : OpType) (src1 src2 dst : Operand) (a b : Int)
      (h : inputRRW ty src1 src2 dst s = .ok ((a, b, d), s₁)) (ha : a ≠ 0) :=
    arith3_refused hd op ty src1 src2 dst a b h (.inr ha)
  simp only [List.forall_mem_cons, List.not_mem_nil, false_implies, implies_true, and_true]
  refine ⟨?_, ?_, ?_, ?_, ?_, ?_, ?_, ?_, ?_, ?_, ?_, ?_⟩
  · exact ⟨move_refused hd _, move_refused hd _, move_refused hd _, arithNeg_refused hd _, arithNeg_refused hd _,
      arithNeg_refused hd _, complement_refused hd _, complement_refused hd _, complement_refused hd _⟩
  · exact ⟨total2 .add _, total2 .add _, total2 .add _, total2 .sub _, total2 .sub _, total2 .sub _, total2 .mul _,
      total2 .mul _, total2 .mul _, logic2_refused hd .and _, logic2_refused hd .and _, logic2_refused hd .and _,
      logic2_refused hd .or _, logic2_refused hd .or _, logic2_refused hd .or _, logic2_refused hd .xor _,
      logic2_refused hd .xor _, logic2_refused hd .xor _⟩
  · exact ⟨div2 .div _, div2 .div _, div2 .div _, div2 .mod _, div2 .mod _, div2 .mod _⟩
  · exact ⟨total3 .add _, total3 .add _, total3 .add _, total3 .sub _, total3 .sub _, total3 .sub _, total3 .mul _,
      total3 .mul _, total3 .mul _, logic3_refused hd .and _, logic3_refused hd .and _, logic3_refused hd .and _,
      logic3_refused hd .or _, logic3_refused hd .or _, logic3_refused hd .or _, logic3_refused hd .xor _,
      logic3_refused hd .xor _, logic3_refused hd .xor _, shiftLeftArith_refused hd, shift3_refused hd .ars _,
      shift3_refused hd .ars _, shift3_refused hd .ars _, shift3_refused hd .lls _, shift3_refused hd .lls _,
      shift3_refused hd .lls _, shift3_refused hd .lrs _, shift3_refused hd .rot _⟩
  · exact ⟨div3 .div _, div3 .div _, div3 .div _, div3 .mod _, div3 .mod _, div3 .mod _⟩
  · exact ⟨arithOne_refused hd .add _, arithOne_refused hd .add _, arithOne_refused hd .add _,
      arithOne_refused hd .sub _, arithOne_refused hd .sub _, arithOne_refused hd .sub _⟩
  · exact ⟨insertBits_refused hd _, insertBits_refused hd _, insertBits_refused hd _⟩
  · exact ⟨extractBits_refused hd _, extractBits_refused hd _, extractBits_refused hd _⟩
  · exact moveAddress_refused hd
  · exact popValue_refused hd
  · exact ⟨clear_refused hd _, clear_refused hd _, clear_refused hd _⟩
  · exact ⟨swapInterlocked_refused hd _, swapInterlocked_refused hd _, swapInterlocked_refused hd _⟩

end Sys2Proof.Machine
end

section
/-! What every step keeps: one rule for each thing a step does, and from them the invariant `Safe` and the ROM. -/
namespace Sys2Proof.Machine

/-! ## What a step does -/

/-- A step that answers a next state stayed as it was, stopped after its interrupt check, only advanced the DUART, or
executed one instruction (70_reset_and_hazards.md R910). -/
theorem step_cases {s t : State} (h : step s = .next t) :
    t = s ∨ t = checkInterrupt s ∨ t = (checkInterrupt s).advanceDuart ∨
      ∃ u, executeAt exec (checkInterrupt s).startTrace = .next u ∧ t = endOfStep u := by
  unfold step stepWith at h
  dsimp only at h
  split at h
  · split at h
    · split at h
      · cases h; exact .inr (.inr (.inl rfl))
      · split at h
        · next u hu => cases h; exact .inr (.inr (.inr ⟨u, hu, rfl⟩))
        · cases h
        · cases h
    · cases h; exact .inr (.inl rfl)
  · cases h; exact .inl rfl

/-- Executing at the PC takes the trap of an instruction that does not decode, or runs the decoded one; then the trace
record is written. -/
theorem executeAt_cases {s t : State} (h : executeAt exec s = .next t) :
    ∃ u r, t = { u with trace := r } ∧ ((∃ k, u = takeTrap k s) ∨ ∃ i, exec i s = .next u) := by
  cases hd : decode (fetchWindow s) with
  | error e =>
    rw [executeAt_error hd] at h
    cases h
    exact ⟨_, _, rfl, .inl ⟨_, rfl⟩⟩
  | ok x =>
    obtain ⟨i, rest⟩ := x
    rw [executeAt_ok hd] at h
    cases hx : exec i s with
    | next u =>
      simp only [hx] at h
      cases h
      exact ⟨u, _, rfl, .inr ⟨i, hx⟩⟩
    | fault f => simp [hx] at h
    | refused r => simp [hx] at h

/-- Only the status, the wait, the trace record or the latches differ, and no latch is set anew. -/
structure ControlOnly (s t : State) : Prop where
  params : t.params = s.params
  regs : t.regs = s.regs
  mem : t.mem = s.mem
  duart : t.duart = s.duart
  pending : ∀ i : Fin 5, t.pending[i] = true → s.pending[i] = true

theorem ControlOnly.of_pending_eq {s t : State} (hp : t.params = s.params) (hr : t.regs = s.regs) (hm : t.mem = s.mem)
    (hd : t.duart = s.duart) (hq : t.pending = s.pending) : ControlOnly s t :=
  ⟨hp, hr, hm, hd, fun i h => by rwa [hq] at h⟩

/-- Clearing a latch sets none (R843). -/
theorem latch_of_cleared {p : Vector Bool 5} {i j : Fin 5} (h : (p.set i.val false i.isLt)[j] = true) :
    p[j] = true := by
  simp only [Fin.getElem_fin, Vector.getElem_set] at h ⊢
  split at h
  · cases h
  · exact h

/-- A relation that everything in a step keeps: the elementary effects of instructions, and what traps, interrupts,
RETG and the DUART add to them. -/
structure StepFrame (R : State → State → Prop) : Prop extends Frame R where
  gate : ∀ {s t a b l1 off ipl}, gateTransfer a b l1 off ipl s = .ok ((), t) → R s t
  psw : ∀ {s w}, (∀ k, 26 ≤ k → w.getLsbD k = false) → R s (s.setPsw w)
  startTrace : ∀ s, R s s.startTrace
  control : ∀ {s t}, ControlOnly s t → R s t
  advance : ∀ s, R s s.advanceDuart

namespace StepFrame

variable {R : State → State → Prop} (hR : StepFrame R)
include hR

theorem trap (k : FaultKind) (s : State) : R s (takeTrap k s) := by
  unfold takeTrap
  split
  · next t e => exact hR.trans (hR.gate e) (hR.control (.of_pending_eq rfl rfl rfl rfl rfl))
  · exact hR.control (.of_pending_eq rfl rfl rfl rfl rfl)

theorem endOfInstr (b : Bool) (s t : State) : R t (endOfInstr b s t) := by
  unfold Machine.endOfInstr
  split
  · exact hR.trap ..
  · split
    · exact hR.trap ..
    · exact hR.refl t

theorem takeInterrupt (i : Fin 5) (s : State) : R s (takeInterrupt i s) := by
  unfold Machine.takeInterrupt
  split
  · next t e => exact hR.trans (hR.gate e) (hR.control ⟨rfl, rfl, rfl, rfl, fun _ => latch_of_cleared⟩)
  · exact hR.control (.of_pending_eq rfl rfl rfl rfl rfl)

theorem checkInterrupt (s : State) : R s (checkInterrupt s) := by
  unfold Machine.checkInterrupt
  split
  · exact hR.takeInterrupt ..
  · exact hR.refl s

theorem gateWork : Keeps R Machine.gate :=
  hR.bind hR.getState fun _ => ⟨fun _ _ _ e => hR.gate e⟩

/-- RETG writes SP, PC and a PSW whose reserved bits are masked (47_system.md R741). -/
theorem returnFromGate : Keeps R Machine.returnFromGate := by
  refine hR.bind hR.getState fun s => hR.bind (hR.memRead ..) fun frame => hR.bind (hR.memRead ..) fun newPC =>
    Frame.ite (Frame.raise _) ⟨fun u _ t e => ?_⟩
  cases e
  refine hR.trans (hR.trans (hR.reg (n := regSP) rfl) (hR.psw fun k hk => ?_)) (hR.reg (n := regPC) rfl)
  split
  · exact masked_bit frame k hk
  · exact (setField_high _ _ k (by decide) hk).trans (masked_bit frame k hk)

theorem waitForInterrupt : Keeps R Machine.waitForInterrupt :=
  hR.bind hR.requireKernel fun _ => hR.bind (hR.advancePc _) fun _ =>
    ⟨fun s _ t e => by cases e; exact hR.control (.of_pending_eq rfl rfl rfl rfl rfl)⟩

/-- What a trap from the start or an instruction run to its end comes to. -/
theorem ended {s t : State} (h : (∃ k, t = takeTrap k s) ∨ ∃ b u, R s u ∧ t = Machine.endOfInstr b s u) : R s t := by
  rcases h with ⟨k, rfl⟩ | ⟨b, u, hu, rfl⟩
  · exact hR.trap k s
  · exact hR.trans hu (hR.endOfInstr b s u)

theorem exec {i : Instr} {s t : State} (h : exec i s = .next t) : R s t := by
  by_cases hi : ownEffect i = false
  · exact hR.ended (hR.toFrame.exec hi h)
  · rcases ownEffect_cases hi with rfl | rfl | rfl | rfl
    · exact hR.ended (hR.gateWork.runInstr h)
    · exact hR.ended (hR.returnFromGate.runInstr h)
    · exact hR.ended (hR.waitForInterrupt.runInstr h)
    · rw [exec_halt] at h
      cases h
      exact hR.trans (hR.reg (n := regPC) rfl) (hR.control (.of_pending_eq rfl rfl rfl rfl rfl))

theorem executeAt {s t : State} (h : executeAt Machine.exec s = .next t) : R s t := by
  obtain ⟨u, r, rfl, hu⟩ := executeAt_cases h
  refine hR.trans (t := u) ?_ (hR.control (.of_pending_eq rfl rfl rfl rfl rfl))
  rcases hu with ⟨k, rfl⟩ | ⟨i, hi⟩
  · exact hR.trap k s
  · exact hR.exec hi

theorem endOfStep (s : State) : R s (endOfStep s) := by
  unfold Machine.endOfStep
  split
  · exact hR.refl s
  · exact hR.advance s

/-- Every step keeps the relation. -/
theorem step {s t : State} (h : step s = .next t) : R s t := by
  rcases step_cases h with rfl | rfl | rfl | ⟨u, hu, rfl⟩
  · exact hR.refl _
  · exact hR.checkInterrupt s
  · exact hR.trans (hR.checkInterrupt s) (hR.advance _)
  · exact hR.trans (hR.trans (hR.trans (hR.checkInterrupt s) (hR.startTrace _)) (hR.executeAt hu)) (hR.endOfStep u)

end StepFrame

/-! ## The invariant -/

theorem writeDestReg_eq {n : RegNum} {v : Word} {s t : State} (h : writeDestReg n v s = .ok ((), t)) :
    t = s.setReg n (destValue n v) := by
  unfold writeDestReg at h
  split at h
  · cases h
  · cases h; rfl

theorem Safe.setPsw {s : State} (h : Safe s) {w : Word} (hw : ∀ k, 26 ≤ k → w.getLsbD k = false) :
    Safe (s.setPsw w) :=
  h.of_same rfl rfl rfl rfl fun k hk => by rw [setPsw_psw]; exact hw k hk

theorem Safe.setReg {s : State} (h : Safe s) {n : RegNum} (hn : n ≠ regPSW) (v : Word) : Safe (s.setReg n v) :=
  h.of_same rfl rfl rfl rfl (by rw [setReg_psw_ne s v hn]; exact h.psw_high)

/-- A destination write masks the PSW (10_state.md R111). -/
theorem Safe.writeDestReg {s t : State} (h : Safe s) {n : RegNum} {v : Word}
    (e : writeDestReg n v s = .ok ((), t)) : Safe t := by
  rw [writeDestReg_eq e]
  by_cases hn : n = regPSW
  · subst hn
    rw [destValue_psw]
    exact h.setPsw (masked_bit v)
  · exact h.setReg hn _

theorem Safe.control {s t : State} (h : Safe s) (c : ControlOnly s t) : Safe t := by
  have hpsw : t.psw = s.psw := by simp only [State.psw, State.reg, c.regs]
  exact .of_parts (by rw [c.mem]; exact h.memCanonical) (by rw [c.mem, c.params]; exact h.memMapped)
    (by rw [hpsw]; exact h.psw_high)
    ⟨by rw [c.params, c.duart]; exact h.device.duart, fun i hi => by rw [c.duart]; exact h.latched i (c.pending i hi)⟩
    (by rw [c.params]; exact h.paramsValid)

theorem Safe.stepFrame : StepFrame fun s t => Safe s → Safe t where
  refl := fun _ h => h
  trans := fun h k hs => k (h hs)
  read := fun e h => h.read e
  write := fun e h => h.write e
  reg := fun hn h => h.setReg (not_privilegedReg hn).1 _
  dest := fun e h => h.writeDestReg e
  flags := fun h => h.setPsw fun k hk => (setFlags_bit _ _ (.inr (by omega))).trans (h.psw_high k hk)
  gate := fun e h => h.gate e
  psw := fun hw h => h.setPsw hw
  startTrace := fun _ h => h.setPsw fun k hk => (setField_high _ _ k (by decide) hk).trans (h.psw_high k hk)
  control := fun c h => h.control c
  advance := fun _ h => h.advance

/-- Settles O13: `Safe` is kept by each thing a step does. -/
theorem safeStep : Obligations.SafeStep :=
  fun _ _ hs h => Safe.stepFrame.step h hs

/-! ## ROM and parameters -/

theorem RomKept.stepFrame : StepFrame RomKept where
  refl := .refl
  trans := .trans
  read := fun e => .of_same (memRead_sameCore e).params (memRead_sameCore e).mem
  write := .write
  reg := fun _ => .of_same rfl rfl
  dest := fun e => by rw [writeDestReg_eq e]; exact .of_same rfl rfl
  flags := .of_same rfl rfl
  gate := .gate
  psw := fun _ => .of_same rfl rfl
  startTrace := fun _ => .of_same rfl rfl
  control := fun c => .of_same c.params c.mem
  advance := fun _ => .of_same rfl rfl

/-- Settles O14: stores reach RAM and the DUART alone, and nothing else changes memory or the parameters. -/
theorem romUnchanged : Obligations.RomUnchanged :=
  fun _ _ hv h => RomKept.stepFrame.step h hv

end Sys2Proof.Machine
end

section
/-! Data accesses byte by byte. -/
namespace Sys2Proof.Machine

/-! ## Wide accesses are their bytes (20_memory.md R231) -/

/-- One byte of a routed read, made by itself after reads of other bytes. -/
theorem memRead_byte_of_route {s u : State} {a : Word} {z : Size} {g : Region} (hp : s.params.valid = true)
    (h : dataRoute s.params a z .read = .ok g) (hu : u.params = s.params) (j : Nat) (hj : j < sizeBytes z) {b : Byte}
    {t : State} (hb : readByteAt g (a + BitVec.ofNat 32 j) u = .ok (b, t)) :
    memRead (a + BitVec.ofNat 32 j) .byte u = .ok (b.setWidth 32, t) :=
  memRead_byte_at (by rw [hu]; exact byte_route hp h j hj) hb

/-- One byte of a routed write, made by itself after writes of other bytes. -/
theorem memWrite_byte_of_route {s u : State} {a : Word} {z : Size} {g : Region} (hp : s.params.valid = true)
    (h : dataRoute s.params a z .write = .ok g) (hu : u.params = s.params) (j : Nat) (hj : j < sizeBytes z)
    (v : Word) :
    memWrite (a + BitVec.ofNat 32 j) .byte v u = writeByteAt g (a + BitVec.ofNat 32 j) (v.extractLsb' 0 8) u :=
  memWrite_byte_at (by rw [hu]; exact byte_route_write hp h j hj)

theorem memRead_half_bytes {s : State} {a : Word} {g : Region} (hp : s.params.valid = true)
    (h : dataRoute s.params a .half .read = .ok g) :
    memRead a .half s = (do
      let b0 ← memRead a .byte
      let b1 ← memRead (a + 1) .byte
      return b0 <<< 8 ||| b1) s := by
  obtain ⟨b0, t0, e0, c0⟩ := readByteAt_spec g a s
  obtain ⟨b1, t1, e1, -⟩ := readByteAt_spec g (a + 1) t0
  have r0 : memRead a .byte s = .ok (b0.setWidth 32, t0) := by
    simpa using memRead_byte_of_route hp h rfl 0 (by decide) (by simpa using e0)
  have r1 : memRead (a + 1) .byte t0 = .ok (b1.setWidth 32, t1) :=
    memRead_byte_of_route hp h c0.params 1 (by decide) e1
  rw [bind_ok r0, bind_ok r1, pure_apply, ← half_or]
  unfold memRead
  rw [bind_ok (route_ok h)]
  dsimp only
  rw [bind_ok e0, bind_ok e1, pure_apply]

theorem memRead_word_bytes {s : State} {a : Word} {g : Region} (hp : s.params.valid = true)
    (h : dataRoute s.params a .word .read = .ok g) :
    memRead a .word s = (do
      let b0 ← memRead a .byte
      let b1 ← memRead (a + 1) .byte
      let b2 ← memRead (a + 2) .byte
      let b3 ← memRead (a + 3) .byte
      return b0 <<< 24 ||| b1 <<< 16 ||| b2 <<< 8 ||| b3) s := by
  obtain ⟨b0, t0, e0, c0⟩ := readByteAt_spec g a s
  obtain ⟨b1, t1, e1, c1⟩ := readByteAt_spec g (a + 1) t0
  obtain ⟨b2, t2, e2, c2⟩ := readByteAt_spec g (a + 2) t1
  obtain ⟨b3, t3, e3, -⟩ := readByteAt_spec g (a + 3) t2
  have r0 : memRead a .byte s = .ok (b0.setWidth 32, t0) := by
    simpa using memRead_byte_of_route hp h rfl 0 (by decide) (by simpa using e0)
  have r1 : memRead (a + 1) .byte t0 = .ok (b1.setWidth 32, t1) :=
    memRead_byte_of_route hp h c0.params 1 (by decide) e1
  have r2 : memRead (a + 2) .byte t1 = .ok (b2.setWidth 32, t2) :=
    memRead_byte_of_route hp h (c0.trans c1).params 2 (by decide) e2
  have r3 : memRead (a + 3) .byte t2 = .ok (b3.setWidth 32, t3) :=
    memRead_byte_of_route hp h ((c0.trans c1).trans c2).params 3 (by decide) e3
  rw [bind_ok r0, bind_ok r1, bind_ok r2, bind_ok r3, pure_apply, ← word_or]
  unfold memRead
  rw [bind_ok (route_ok h)]
  dsimp only
  rw [bind_ok e0, bind_ok e1, bind_ok e2, bind_ok e3, pure_apply]

/-- A byte of a value, shifted down to the low end. -/
theorem low_byte_ushiftRight (v : Word) (n : Nat) : (v >>> n).extractLsb' 0 8 = v.extractLsb' n 8 := by
  apply BitVec.eq_of_getLsbD_eq
  intro i hi
  simp only [BitVec.getLsbD_extractLsb', BitVec.getLsbD_ushiftRight, Nat.zero_add]

theorem memWrite_half_bytes {s : State} {a : Word} {g : Region} (hp : s.params.valid = true)
    (h : dataRoute s.params a .half .write = .ok g) (v : Word) :
    memWrite a .half v s = (do
      memWrite a .byte (v >>> 8)
      memWrite (a + 1) .byte v) s := by
  obtain ⟨t0, e0, p0⟩ := writeByteAt_params g a (v.extractLsb' 8 8) s
  have w0 : memWrite a .byte (v >>> 8) s = .ok ((), t0) := by
    rw [← e0, ← low_byte_ushiftRight]
    simpa using memWrite_byte_of_route hp h rfl 0 (by decide) (v >>> 8)
  have w1 : memWrite (a + 1) .byte v t0 = writeByteAt g (a + 1) (v.extractLsb' 0 8) t0 :=
    memWrite_byte_of_route hp h p0 1 (by decide) v
  rw [bind_ok w0, w1]
  unfold memWrite
  rw [bind_ok (route_ok h)]
  dsimp only
  rw [bind_ok e0]

theorem memWrite_word_bytes {s : State} {a : Word} {g : Region} (hp : s.params.valid = true)
    (h : dataRoute s.params a .word .write = .ok g) (v : Word) :
    memWrite a .word v s = (do
      memWrite a .byte (v >>> 24)
      memWrite (a + 1) .byte (v >>> 16)
      memWrite (a + 2) .byte (v >>> 8)
      memWrite (a + 3) .byte v) s := by
  obtain ⟨t0, e0, p0⟩ := writeByteAt_params g a (v.extractLsb' 24 8) s
  obtain ⟨t1, e1, p1⟩ := writeByteAt_params g (a + 1) (v.extractLsb' 16 8) t0
  obtain ⟨t2, e2, p2⟩ := writeByteAt_params g (a + 2) (v.extractLsb' 8 8) t1
  have w0 : memWrite a .byte (v >>> 24) s = .ok ((), t0) := by
    rw [← e0, ← low_byte_ushiftRight]
    simpa using memWrite_byte_of_route hp h rfl 0 (by decide) (v >>> 24)
  have w1 : memWrite (a + 1) .byte (v >>> 16) t0 = .ok ((), t1) := by
    rw [← e1, ← low_byte_ushiftRight]
    exact memWrite_byte_of_route hp h p0 1 (by decide) (v >>> 16)
  have w2 : memWrite (a + 2) .byte (v >>> 8) t1 = .ok ((), t2) := by
    rw [← e2, ← low_byte_ushiftRight]
    exact memWrite_byte_of_route hp h (p1.trans p0) 2 (by decide) (v >>> 8)
  have w3 : memWrite (a + 3) .byte v t2 = writeByteAt g (a + 3) (v.extractLsb' 0 8) t2 :=
    memWrite_byte_of_route hp h (p2.trans (p1.trans p0)) 3 (by decide) v
  rw [bind_ok w0, bind_ok w1, bind_ok w2, w3]
  unfold memWrite
  rw [bind_ok (route_ok h)]
  dsimp only
  rw [bind_ok e0, bind_ok e1, bind_ok e2]

/-! ## Reading back a store to RAM -/

/-- A read of bytes that hold a value answers its low bits and changes nothing. -/
theorem HoldsBytes.memRead {t : State} {a v : Word} {z : Size} {g : Region} (h : HoldsBytes t a (sizeBytes z) v)
    (hr : dataRoute t.params a z .read = .ok g) (hg : g ≠ .duart) :
    memRead a z t = .ok ((v.setWidth (sizeBits z)).setWidth 32, t) := by
  cases z with
  | byte =>
    have h0 : t.mem.read a.toNat = v.extractLsb' 0 8 := by simpa [valueByte, sizeBytes] using h 0 (by decide)
    rw [memRead_byte hr hg, h0, ← BitVec.setWidth_eq_extractLsb' (by decide)]
    rfl
  | half =>
    have h0 : t.mem.read a.toNat = valueByte 2 v 0 := by simpa [sizeBytes] using h 0 (by decide)
    have h1 : t.mem.read (a + 1).toNat = valueByte 2 v 1 := h 1 (by decide)
    rw [memRead_half hr hg, h0, h1, half_of_bytes]
    rfl
  | word =>
    rw [memRead_word hr hg, HoldsBytes.word h]
    simp [sizeBits, sizeBytes]

/-- Settles O20: a store leaves the bytes of the value, and the read goes where the store went. -/
theorem readAfterWrite : Obligations.ReadAfterWrite := by
  intro s a v z h wf
  obtain ⟨t, e, eff⟩ := memWrite_spec v h
  have hr : dataRoute t.params a z .read = .ok .ram := by rw [eff.cpu.params]; exact dataRoute_read_of_write h
  exact ⟨t, e, (eff.bytes rfl wf).memRead hr (by decide), eff.others, eff.cpu.regs, (eff.plain (by decide)).1⟩

/-- The low half of a routed word is routed by itself where it is aligned. -/
theorem low_half_route {p : Params} (hp : p.valid = true) {a : Word} {g : Region} {k : AccessKind}
    (h : dataRoute p a .word k = .ok g) (ha : a.toNat % 2 = 0) : dataRoute p (a + 2) .half .read = .ok g := by
  obtain ⟨h0, h3, -⟩ := dataRoute_region h
  have hz : sizeBytes .word = 4 := rfl
  obtain ⟨h2, hlt⟩ := regionOf_between hp h0 h3 (b := a.toNat + 2) (by omega) (by omega)
  have e : (a + 2).toNat = a.toNat + 2 := by
    rw [BitVec.toNat_add, show (2 : Word).toNat = 2 from rfl]; omega
  unfold dataRoute
  rw [if_pos (by simp [aligned, sizeBytes, ha])]
  unfold busRoute
  rw [e, h2]
  exact if_pos ⟨h3, by simp, by simp⟩

/-- The last two bytes of a stored word are those of its low half. -/
theorem HoldsBytes.low_half {t : State} {a v : Word} (h : HoldsBytes t a 4 v) : HoldsBytes t (a + 2) 2 v := by
  intro k hk
  have e : a + 2 + BitVec.ofNat 32 k = a + BitVec.ofNat 32 (2 + k) := by
    rw [BitVec.ofNat_add, ← BitVec.add_assoc]; rfl
  rw [e, h (2 + k) (by omega), valueByte, valueByte, show 4 - 1 - (2 + k) = 2 - 1 - k by omega]

/-- A word stored in RAM, read back by its first byte, its last byte and its low half. -/
theorem mixed_width_read {s : State} {a v : Word} (hp : s.params.valid = true)
    (h : dataRoute s.params a .word .write = .ok .ram) (wf : s.mem.wf) :
    ∃ t, memWrite a .word v s = .ok ((), t) ∧
      memRead a .byte t = .ok ((v.extractLsb' 24 8).setWidth 32, t) ∧
      memRead (a + 3) .byte t = .ok ((v.extractLsb' 0 8).setWidth 32, t) ∧
      (a.toNat % 2 = 0 → memRead (a + 2) .half t = .ok ((v.extractLsb' 0 16).setWidth 32, t)) := by
  obtain ⟨t, e, eff⟩ := memWrite_spec v h
  have hb : HoldsBytes t a 4 v := eff.bytes rfl wf
  rw [← eff.cpu.params] at h hp
  have h0 : t.mem.read a.toNat = v.extractLsb' 24 8 := by simpa [valueByte] using hb 0 (by decide)
  have h3 : t.mem.read (a + 3).toNat = v.extractLsb' 0 8 := hb 3 (by decide)
  refine ⟨t, e, ?_, ?_, fun ha => ?_⟩
  · rw [← h0]
    exact memRead_byte (by simpa using byte_route hp h 0 (by decide)) (by decide)
  · rw [← h3]
    exact memRead_byte (byte_route hp h 3 (by decide)) (by decide)
  · rw [← BitVec.setWidth_eq_extractLsb' (by decide)]
    exact HoldsBytes.memRead (z := .half) hb.low_half (low_half_route hp h ha) (by decide)

end Sys2Proof.Machine

namespace Sys2Proof.Laws

/-- Settles O19: the bytes of a wide access are routed to its region one by one. -/
theorem bigEndian : Obligations.BigEndian :=
  ⟨fun _ _ _ hp h => Machine.memRead_half_bytes hp h, fun _ _ _ hp h => Machine.memRead_word_bytes hp h,
    fun _ _ v _ hp h => Machine.memWrite_half_bytes hp h v, fun _ _ v _ hp h => Machine.memWrite_word_bytes hp h v,
    fun _ _ _ hp h wf => Machine.mixed_width_read hp h wf⟩

end Sys2Proof.Laws
end

section
/-! Where the bus refuses a data access, and where a fetch ends. -/
namespace Sys2Proof.Machine

/-! ## Where an access faults (20_memory.md R210, R211, R220, R230) -/

/-- A bus access goes to the region that holds its first and its last byte, where that takes accesses of its kind. -/
theorem busRoute_ok {p : Params} {a : Word} {n : Nat} {k : AccessKind} {g : Region}
    (h0 : regionOf p a.toNat = some g) (h1 : regionOf p (a.toNat + n - 1) = some g) (hw : ¬ (g = .rom ∧ k = .write))
    (hf : ¬ (g = .duart ∧ k = .fetch)) : busRoute p a n k = .ok g := by
  unfold busRoute
  rw [h0]
  exact if_pos ⟨h1, hw, hf⟩

theorem busRoute_error {p : Params} {a : Word} {n : Nat} {k : AccessKind}
    (h : ∀ g, regionOf p a.toNat = some g →
      ¬ (regionOf p (a.toNat + n - 1) = some g ∧ ¬ (g = .rom ∧ k = .write) ∧ ¬ (g = .duart ∧ k = .fetch))) :
    busRoute p a n k = .error (.trap .busFault (some ⟨a, k⟩)) := by
  unfold busRoute
  cases hg : regionOf p a.toNat with
  | none => rfl
  | some g => exact if_neg (h g hg)

theorem dataRoute_misaligned {p : Params} {a : Word} {z : Size} {k : AccessKind} (hp : p.alignPolicy = .trap)
    (ha : a.toNat % sizeBytes z ≠ 0) : dataRoute p a z k = .error (.trap .misalignedAccess (some ⟨a, k⟩)) := by
  unfold dataRoute
  rw [if_neg (by simp [aligned, hp, ha])]

theorem dataRoute_aligned {p : Params} {a : Word} {z : Size} {k : AccessKind}
    (ha : p.alignPolicy = .permit ∨ a.toNat % sizeBytes z = 0) : dataRoute p a z k = busRoute p a (sizeBytes z) k := by
  unfold dataRoute
  rw [if_pos (by simpa [aligned] using ha)]

/-- A fetch of one byte goes to ROM or RAM. -/
theorem busRoute_fetch_ok {p : Params} {a : Word} {g : Region} (h : regionOf p a.toNat = some g) (hg : g ≠ .duart) :
    busRoute p a 1 .fetch = .ok g :=
  busRoute_ok h h (by simp) fun c => hg c.1

theorem busRoute_fetch_error {p : Params} {a : Word} (h : ∀ g, regionOf p a.toNat = some g → g = .duart) :
    busRoute p a 1 .fetch = .error (.trap .busFault (some ⟨a, .fetch⟩)) :=
  busRoute_error fun g hg c => c.2.2 ⟨h g hg, rfl⟩

theorem fetchStream_ok {s : State} {a : Word} {g : Region} (h : busRoute s.params a 1 .fetch = .ok g) (n : Nat) :
    fetchStream s a (n + 1) = s.mem.read a.toNat :: fetchStream s (a + 1) n := by
  simp only [fetchStream, h]

theorem fetchStream_error {s : State} {a : Word} {e : Exn} (h : busRoute s.params a 1 .fetch = .error e) (n : Nat) :
    fetchStream s a (n + 1) = [] := by
  simp only [fetchStream, h]

/-- Settles O21: the alignment check, then one case for each way in which no region takes the access. -/
theorem accessFaults : Obligations.AccessFaults := by
  refine ⟨fun p a z k hp hk => ⟨dataRoute_misaligned, fun ha => ?_⟩, fun p a => ?_, fun s a n => ?_⟩
  · rw [dataRoute_aligned ha]
    refine ⟨fun h => busRoute_error fun g hg => ?_, fun h => busRoute_error fun g hg c => h (c.1.trans hg.symm),
      fun h => busRoute_error fun g hg c => ?_, fun h hw => busRoute_error fun g hg c => ?_,
      fun g h0 h1 hw => busRoute_ok h0 h1 (fun c => hw c.1 c.2) fun c => hk c.2⟩
    · rw [h] at hg; cases hg
    · have hz := sizeBytes_pos z
      have hlt := (regionOf_between hp hg c.1 (b := a.toNat) (by omega) (by omega)).2
      omega
    · rw [h] at hg
      cases hg
      exact c.2.1 ⟨rfl, hw⟩
  · cases hg : regionOf p a.toNat with
    | none => exact busRoute_fetch_error (by simp [hg])
    | some g =>
      cases g with
      | rom => exact busRoute_fetch_ok hg (by decide)
      | duart => exact busRoute_fetch_error (by simp [hg])
      | ram => exact busRoute_fetch_ok hg (by decide)
  · cases hg : regionOf s.params a.toNat with
    | none => exact fetchStream_error (busRoute_fetch_error (by simp [hg])) n
    | some g =>
      cases g with
      | rom => exact fetchStream_ok (busRoute_fetch_ok hg (by decide)) n
      | duart => exact fetchStream_error (busRoute_fetch_error (by simp [hg])) n
      | ram => exact fetchStream_ok (busRoute_fetch_ok hg (by decide)) n

end Sys2Proof.Machine
end

section
/-! Operand reads, and instructions that cannot be fetched or decoded. -/
namespace Sys2Proof.Machine

/-- Settles O25: each gathering is made of register and memory reads. -/
theorem operandsOnlyRead : Obligations.OperandsOnlyRead := by
  intro s t ty a b c d
  exact ⟨fun _ => (Reads.inputR ty a).sameCore s _ t, fun _ => (Reads.inputRR ty a b).sameCore s _ t,
    fun _ => (Reads.inputM ty a).sameCore s _ t, fun _ => (Reads.inputRW ty a b).sameCore s _ t,
    fun _ => (Reads.inputRM ty a b).sameCore s _ t, fun _ => (Reads.inputRRW ty a b c).sameCore s _ t,
    fun _ => (Reads.inputRRRW ty a b c d).sameCore s _ t, fun _ => (Reads.inputRRRM ty a b c d).sameCore s _ t,
    fun _ => (Reads.inputA a).sameCore s _ t⟩

/-- The trace record of an instruction that does not decode reads the old record alone (10_state.md R132). -/
theorem traceOfError_startTrace (s : State) (e : DecodeError) (bs : List Byte) :
    traceOfError s.startTrace e bs = traceOfError s e bs := rfl

/-- The refusal of a privileged opcode in kernel mode and outside it (47_system.md R720). -/
theorem decodeTrap_kernel {s : State} (h : Psw.cm s.psw = 0) :
    decodeTrap s (.refusedOpcode true) = .illegalInstruction := by
  simp [decodeTrap, State.kernel, h]

theorem decodeTrap_user {s : State} (h : Psw.cm s.psw ≠ 0) : decodeTrap s (.refusedOpcode true) = .privilegedOpcode := by
  simpa [decodeTrap, State.kernel] using h

/-- Settles O7: the step takes the trap that `decodeTrap` names for the reason of the rejection. -/
theorem undecodedTraps : Obligations.UndecodedTraps := by
  intro s e hrun hwait hpick hdec
  refine ⟨decodeTrap s.startTrace e.why, ?_, ?_, ?_, ?_, ?_, ?_, ?_⟩
  · rw [step_eq hrun hwait hpick, executeAt_error (by rw [startTrace_window]; exact hdec), startTrace_window,
      traceOfError_startTrace]
  · intro h; rw [h, decodeTrap]
  · intro h; rw [h, decodeTrap]
  · intro h; rw [h, decodeTrap]
  · intro h; rw [h]; rfl
  · intro h hk; rw [h, decodeTrap_kernel (by rwa [startTrace_cm])]
  · intro h hk; rw [h, decodeTrap_user (by rwa [startTrace_cm])]

end Sys2Proof.Machine
end

section
/-! Whole encodings: the round trip, the length rule, the opcodes of neither map. -/
namespace Sys2Proof

/-! ## The round trip (30_encoding.md R343) -/

/-- Settles O1: one row of the opcode maps for each instruction, and the decoder of its operand fields. -/
theorem decodeEncode : Obligations.DecodeEncode :=
  fun _ rest he => decode_of_encode he rest

/-- Settles O2: the row found holds the opcode and the fields of what it builds. -/
theorem encodeDecode : Obligations.EncodeDecode :=
  ⟨fun _ _ _ h => encode_of_decode h, rfl, rfl⟩

/-- Bytes that are an encoding decode to the instruction encoded. -/
theorem decode_of_eq_encode {bs : List Byte} {i : Instr} (he : i.encodable = true) (rest : List Byte)
    (h : bs = encode i ++ rest) : decode bs = .ok (i, rest) :=
  h ▸ decode_of_encode he rest

/-- Settles O4: each word is the encoding of its instruction, and the round trip decodes it. -/
theorem decodeSanity : Obligations.DecodeSanity :=
  ⟨decode_of_eq_encode rfl _ rfl, decode_of_eq_encode rfl _ rfl, decode_of_eq_encode rfl _ rfl,
    decode_of_eq_encode rfl _ rfl, decode_of_eq_encode rfl _ rfl, decode_of_eq_encode rfl _ rfl,
    decode_of_eq_encode rfl _ rfl, decode_of_eq_encode rfl _ rfl, decode_of_eq_encode rfl _ rfl,
    decode_of_eq_encode rfl _ rfl, decode_of_eq_encode rfl _ rfl, decode_of_eq_encode rfl _ rfl⟩

/-! ## Lengths (R300, R321, R345) -/

theorem field_len_le (f : Field) : f.len ≤ 6 := by
  cases f with
  | g c o => exact (operand_len_le o).2
  | raw8 | raw16 | raw32 => simp [Field.len]

/-- No instruction has more than four operand fields (R302, R340). -/
theorem fields_length_le (i : Instr) : i.fields.length ≤ 4 := by
  cases i <;> simp [Instr.fields]

/-- An opcode has one byte, or two and no operand fields after it (R301, R342). -/
theorem opcode_length (i : Instr) : i.opcode.length = 1 ∨ i.opcode.length = 2 ∧ i.fields = [] := by
  cases i
  case callps | disvjmp | enbvjmp | gate | intack | movblw | mverno | retg | retps | strcpy | strend =>
    exact .inr ⟨rfl, rfl⟩
  all_goals exact .inl rfl

/-- Four operand fields of at most six bytes each. -/
theorem fields_len_sum_le (i : Instr) : (i.fields.map Field.len).sum ≤ 24 :=
  calc (i.fields.map Field.len).sum
    _ ≤ (i.fields.map Field.len).length • 6 := List.sum_le_card_nsmul _ _ (by simp [field_len_le])
    _ ≤ 24 := by
      rw [List.length_map, smul_eq_mul]
      have := fields_length_le i
      omega

theorem instr_length_bounds (i : Instr) : 1 ≤ i.length ∧ i.length ≤ 25 := by
  unfold Instr.length
  rcases opcode_length i with h | ⟨h, hf⟩
  · have := fields_len_sum_le i
    omega
  · simp [h, hf]

/-- Settles O3: field by field, then the opcode byte before at most four fields. -/
theorem encodedLength : Obligations.EncodedLength :=
  fun i => ⟨encode_length i, instr_length_bounds i⟩

/-! ## Undefined opcodes (R341) -/

/-- A byte that is no opcode of a map has no row in it. -/
theorem findRow_none {rows : List OpRow} {b : Byte} (h : b ∉ rows.map OpRow.code) : findRow rows b = none :=
  List.find?_eq_none.2 fun r hr hb => h (List.mem_map.2 ⟨r, hr, eq_of_beq hb⟩)

theorem decode_undefined_one {b : Byte} (h : b ∉ 0x30 :: oneByteRows.map OpRow.code) (rest : List Byte) :
    decode (b :: rest) = .error ⟨.undefinedOpcode, none, rest⟩ := by
  rw [List.mem_cons, not_or] at h
  rw [decode_row h.1, findRow_none h.2, decodeRow]

theorem decode_undefined_two {b : Byte} (h : b ∉ twoByteRows.map OpRow.code) (rest : List Byte) :
    decode (0x30 :: b :: rest) = .error ⟨.undefinedOpcode, none, rest⟩ := by
  have e : decode (0x30 :: b :: rest) = decodeRow (findRow twoByteRows b) rest := rfl
  rw [e, findRow_none h, decodeRow]

namespace Machine

theorem exec_extop (s : State) : exec .extop s = runInstr false (raise .reservedOpcode) s := rfl

/-- A step that finds no opcode takes IllegalInstruction and keeps the trace record (R132, R341). -/
theorem step_undefined {s : State} {rest : List Byte} (hrun : s.status = .running) (hwait : s.waiting = false)
    (hpick : pickIrq s.params s.pending (Psw.ipl s.psw) = none)
    (hdec : decode (fetchWindow s) = .error ⟨.undefinedOpcode, none, rest⟩) :
    step s = .next (endOfStep { takeTrap .illegalInstruction s.startTrace with trace := s.trace }) := by
  obtain ⟨k, hstep, -, -, hk, -⟩ := undecodedTraps s _ hrun hwait hpick hdec
  rw [hstep, hk rfl, traceOfError]

/-- Settles O5: the listed bytes are the opcodes of neither map, and the step takes the trap of a rejected opcode. -/
theorem undefinedOpcodes : Obligations.UndefinedOpcodes := by
  refine ⟨fun b rest hb => decode_undefined_one ?_ rest, fun b rest hb => decode_undefined_two hb rest,
    fun s rest => step_undefined, fun s => ?_, rfl, rfl⟩
  · revert b
    decide +kernel
  · rw [exec_extop]
    exact runInstr_trap rfl

end Machine

end Sys2Proof
end

section
/-! Where operands are, what they are worth and of which type. -/
namespace Sys2Proof.Machine

/-! ## Effective addresses (40_addressing_modes.md R409) -/

/-- A form without a pointer names its place at once. -/
theorem locate_direct {f : Form} (s : State) (h : formDeferred f = false) : locate f s = .ok (formPlace s f, s) := by
  unfold locate
  rw [bind_ok (getState_apply s), h]
  cases formPlace s f <;> rfl

/-- A deferred form names the place its pointer holds. -/
theorem locate_deferred {f : Form} {s : State} {a : Word} (h : formDeferred f = true) (hp : formPlace s f = .mem a)
    (hr : Readable s a) : locate f s = .ok (.mem (wordAt s a), s) := by
  unfold locate
  rw [bind_ok (getState_apply s), h, hp]
  exact bind_ok hr.read

end Sys2Proof.Machine

namespace Sys2Proof.Laws

/-- Settles O23: the direct forms by their place, the deferred forms by the pointer there. -/
theorem effectiveAddresses : Obligations.EffectiveAddresses := fun s _ =>
  ⟨Machine.locate_direct s rfl, fun _ => Machine.locate_direct s rfl, fun _ => Machine.locate_direct s rfl,
    fun _ => Machine.locate_direct s rfl, fun _ => Machine.locate_deferred rfl rfl,
    fun _ => Machine.locate_direct s rfl, fun _ => Machine.locate_direct s rfl, fun _ => Machine.locate_direct s rfl,
    fun _ => Machine.locate_deferred rfl rfl, fun _ => Machine.locate_deferred rfl rfl,
    fun _ => Machine.locate_deferred rfl rfl⟩

end Sys2Proof.Laws

namespace Sys2Proof.Machine

/-! ## The value of an operand (40_addressing_modes.md R404 to R408) -/

theorem requireLegal_ok {l : List (OpClass × Operand)} (s : State) (h : (l.all fun x => operandOk x.1 x.2) = true) :
    requireLegal l s = .ok ((), s) := by
  unfold requireLegal
  rw [if_pos h, pure_apply]

/-- Reading an operand of the instruction's own type is reading its place. -/
theorem inputR_direct {f : Form} (ty : OpType) (s : State) (he : f.encodable = true) (hd : formDeferred f = false) :
    inputR ty ⟨none, f⟩ s = readOpnd ⟨formPlace s f, ty⟩ s := by
  have legal : requireLegal [(.read, ⟨none, f⟩)] s = .ok ((), s) :=
    requireLegal_ok s (by simp [operandOk, Operand.legalFor, he])
  have type : operandType s.params ty [] ⟨none, f⟩ = ty := by simp [operandType, latestEType]
  have gathered : gather1 .read ty ⟨none, f⟩ s = .ok (⟨formPlace s f, ty⟩, s) := by
    unfold gather1 operand
    rw [bind_ok legal, bind_ok (getState_apply s), bind_ok (locate_direct s hd), type, pure_apply]
  unfold inputR
  rw [bind_ok gathered]

theorem readOpnd_mem {a v : Word} {ty : OpType} {s t : State} (h : memRead a ty.size s = .ok (v, t)) :
    readOpnd ⟨.mem a, ty⟩ s = .ok (interpType ty v, t) := by
  unfold readOpnd
  exact bind_ok h

/-! ## The type of an operand (40_addressing_modes.md R401, 30_encoding.md R322) -/

theorem operandType_first (p : Params) (ty : OpType) (o : Operand) :
    operandType p ty [] o = (o.etype.map expandedType).getD ty := by
  unfold operandType
  cases o.etype <;> simp [latestEType]

/-- A later operand without an expanded type has the type of the operand before it where types persist. -/
theorem operandType_later (p : Params) (ty : OpType) (before : Operand) (earlier : List Operand) (o : Operand) :
    operandType p ty (before :: earlier) o =
      (o.etype.map expandedType).getD (if p.etypePersists then operandType p ty earlier before else ty) := by
  unfold operandType
  cases o.etype with
  | some e => rfl
  | none =>
    cases hp : p.etypePersists with
    | false => rfl
    | true => cases hb : before.etype <;> simp [latestEType, hb]

theorem requireLegal_params {l : List (OpClass × Operand)} {s t : State} {u : Unit}
    (h : requireLegal l s = .ok (u, t)) : t.params = s.params :=
  ((Reads.requireLegal l).sameCore _ _ _ h).params

theorem operand_type {p : Params} {ty : OpType} {earlier : List Operand} {o : Operand} {s t : State} {x : Opnd}
    (hp : s.params = p) (h : operand ty earlier o s = .ok (x, t)) :
    x.type = operandType p ty earlier o ∧ t.params = p := by
  refine ⟨?_, ((Reads.operand ..).sameCore _ _ _ h).params.trans hp⟩
  unfold operand at h
  obtain ⟨_, _, e, h⟩ := of_bind_ok h
  cases e
  obtain ⟨_, _, -, h⟩ := of_bind_ok h
  cases h
  rw [hp]

theorem gather1_type {c : OpClass} {ty : OpType} {a : Operand} {s t : State} {x : Opnd}
    (h : gather1 c ty a s = .ok (x, t)) : x.type = operandType s.params ty [] a := by
  obtain ⟨_, _, hl, h⟩ := of_bind_ok h
  exact (operand_type (requireLegal_params hl) h).1

theorem gather2_types {c₁ c₂ : OpClass} {ty : OpType} {a b : Operand} {s t : State} {x y : Opnd}
    (h : gather2 c₁ c₂ ty a b s = .ok ((x, y), t)) :
    x.type = operandType s.params ty [] a ∧ y.type = operandType s.params ty [a] b := by
  obtain ⟨_, _, hl, h⟩ := of_bind_ok h
  obtain ⟨_, _, hx, h⟩ := of_bind_ok h
  obtain ⟨_, _, hy, h⟩ := of_bind_ok h
  cases h
  obtain ⟨hxt, p₁⟩ := operand_type (requireLegal_params hl) hx
  obtain ⟨hyt, -⟩ := operand_type p₁ hy
  exact ⟨hxt, hyt⟩

theorem gather3_types {c₁ c₂ c₃ : OpClass} {ty : OpType} {a b c : Operand} {s t : State} {x y z : Opnd}
    (h : gather3 c₁ c₂ c₃ ty a b c s = .ok ((x, y, z), t)) :
    x.type = operandType s.params ty [] a ∧ y.type = operandType s.params ty [a] b ∧
      z.type = operandType s.params ty [b, a] c := by
  obtain ⟨_, _, hl, h⟩ := of_bind_ok h
  obtain ⟨_, _, hx, h⟩ := of_bind_ok h
  obtain ⟨_, _, hy, h⟩ := of_bind_ok h
  obtain ⟨_, _, hz, h⟩ := of_bind_ok h
  cases h
  obtain ⟨hxt, p₁⟩ := operand_type (requireLegal_params hl) hx
  obtain ⟨hyt, p₂⟩ := operand_type p₁ hy
  obtain ⟨hzt, -⟩ := operand_type p₂ hz
  exact ⟨hxt, hyt, hzt⟩

theorem gather4_types {c₁ c₂ c₃ c₄ : OpClass} {ty : OpType} {a b c d : Operand} {s t : State} {x y z w : Opnd}
    (h : gather4 c₁ c₂ c₃ c₄ ty a b c d s = .ok ((x, y, z, w), t)) :
    x.type = operandType s.params ty [] a ∧ y.type = operandType s.params ty [a] b ∧
      z.type = operandType s.params ty [b, a] c ∧ w.type = operandType s.params ty [c, b, a] d := by
  obtain ⟨_, _, hl, h⟩ := of_bind_ok h
  obtain ⟨_, _, hx, h⟩ := of_bind_ok h
  obtain ⟨_, _, hy, h⟩ := of_bind_ok h
  obtain ⟨_, _, hz, h⟩ := of_bind_ok h
  obtain ⟨_, _, hw, h⟩ := of_bind_ok h
  cases h
  obtain ⟨hxt, p₁⟩ := operand_type (requireLegal_params hl) hx
  obtain ⟨hyt, p₂⟩ := operand_type p₁ hy
  obtain ⟨hzt, p₃⟩ := operand_type p₂ hz
  obtain ⟨hwt, -⟩ := operand_type p₃ hw
  exact ⟨hxt, hyt, hzt, hwt⟩

/-- Settles O24: a read operand is the value at its place, and each operand's type follows from the one before it. -/
theorem operandValues : Obligations.OperandValues := by
  intro s ty
  refine ⟨fun _ => inputR_direct ty s rfl rfl, fun _ => inputR_direct ty s rfl rfl,
    fun _ => inputR_direct ty s rfl rfl, fun _ => inputR_direct ty s rfl rfl, fun _ => inputR_direct ty s rfl rfl,
    fun r hr => inputR_direct ty s (by simpa [Form.encodable] using hr) rfl,
    fun a v t h => (inputR_direct ty s rfl rfl).trans (readOpnd_mem h), fun _ => rfl, ?_, ?_, ?_, ?_⟩
  · intro c₁ a x t h
    rw [gather1_type h, operandType_first]
  · intro c₁ c₂ a b x y t h
    obtain ⟨hx, hy⟩ := gather2_types h
    rw [hy, operandType_later, ← hx]
    exact ⟨hx.trans (operandType_first ..), rfl⟩
  · intro c₁ c₂ c₃ a b c x y z t h
    obtain ⟨hx, hy, hz⟩ := gather3_types h
    rw [hz, operandType_later, ← hy]
    rw [operandType_later, ← hx] at hy
    exact ⟨hx.trans (operandType_first ..), hy, rfl⟩
  · intro c₁ c₂ c₃ c₄ a b c d x y z w t h
    obtain ⟨hx, hy, hz, hw⟩ := gather4_types h
    rw [hw, operandType_later, ← hz]
    rw [operandType_later, ← hy] at hz
    rw [operandType_later, ← hx] at hy
    exact ⟨hx.trans (operandType_first ..), hy, hz, rfl⟩

end Sys2Proof.Machine
end

section
/-! Instructions abandoned before their results. -/
namespace Sys2Proof.Machine

/-! ## Work that is abandoned (60_exceptions.md R810, R812) -/

/-- The work raises this trap in this state. -/
def Raises {α : Type} (k : FaultKind) (x : M α) (s : State) : Prop :=
  ∃ i, x s = .error (.trap k i)

theorem Raises.bind {α β : Type} {k : FaultKind} {x : M α} {f : α → M β} {s : State} (h : Raises k x s) :
    Raises k (x >>= f) s := by
  obtain ⟨i, e⟩ := h
  exact ⟨i, bind_error e⟩

theorem Raises.after {α β : Type} {k : FaultKind} {x : M α} {f : α → M β} {s t : State} {a : α}
    (e : x s = .ok (a, t)) (h : Raises k (f a) t) : Raises k (x >>= f) s := by
  obtain ⟨i, h⟩ := h
  exact ⟨i, (bind_ok e).trans h⟩

/-- An instruction whose work raises takes the trap from its start state. -/
theorem Raises.run {k : FaultKind} {b : Bool} {work : M Unit} {s : State} (h : Raises k work s) :
    runInstr b work s = .next (takeTrap k s) := by
  obtain ⟨_, e⟩ := h
  exact runInstr_trap e

/-- An instruction whose first part raises. -/
theorem run_first_raises {α : Type} {k : FaultKind} {i : Option AccessInfo} {b : Bool} {x : M α} {f : α → M Unit}
    {s : State} (h : x s = .error (.trap k i)) : runInstr b (x >>= f) s = .next (takeTrap k s) :=
  Raises.run (Raises.bind ⟨i, h⟩)

/-! ## Operands illegal in their class (40_addressing_modes.md R411) -/

/-- The work begins with the check of these operands. -/
structure ChecksFirst {α : Type} (l : List (OpClass × Operand)) (x : M α) : Prop where
  raises : (l.all fun y => operandOk y.1 y.2) = false → ∀ s, Raises .invalidDescriptor x s

namespace ChecksFirst

variable {α β : Type} {l : List (OpClass × Operand)}

theorem bind {x : M α} {f : α → M β} (h : ChecksFirst l x) : ChecksFirst l (x >>= f) :=
  ⟨fun hl s => (h.raises hl s).bind⟩

theorem requireLegal : ChecksFirst l (Machine.requireLegal l) := by
  refine ⟨fun hl s => ⟨none, ?_⟩⟩
  unfold Machine.requireLegal
  rw [hl]
  rfl

theorem gather1 {c : OpClass} {t : OpType} {o : Operand} : ChecksFirst [(c, o)] (Machine.gather1 c t o) :=
  requireLegal.bind

theorem gather2 {c₁ c₂ : OpClass} {t : OpType} {o₁ o₂ : Operand} :
    ChecksFirst [(c₁, o₁), (c₂, o₂)] (Machine.gather2 c₁ c₂ t o₁ o₂) :=
  requireLegal.bind

theorem gather3 {c₁ c₂ c₃ : OpClass} {t : OpType} {o₁ o₂ o₃ : Operand} :
    ChecksFirst [(c₁, o₁), (c₂, o₂), (c₃, o₃)] (Machine.gather3 c₁ c₂ c₃ t o₁ o₂ o₃) :=
  requireLegal.bind

theorem gather4 {c₁ c₂ c₃ c₄ : OpClass} {t : OpType} {o₁ o₂ o₃ o₄ : Operand} :
    ChecksFirst [(c₁, o₁), (c₂, o₂), (c₃, o₃), (c₄, o₄)] (Machine.gather4 c₁ c₂ c₃ c₄ t o₁ o₂ o₃ o₄) :=
  requireLegal.bind

theorem inputR {t : OpType} {a : Operand} : ChecksFirst [(.read, a)] (Machine.inputR t a) := gather1.bind

theorem inputRR {t : OpType} {a b : Operand} : ChecksFirst [(.read, a), (.read, b)] (Machine.inputRR t a b) :=
  gather2.bind

theorem inputM {t : OpType} {d : Operand} : ChecksFirst [(.modify, d)] (Machine.inputM t d) := gather1.bind

theorem inputRW {t : OpType} {a d : Operand} : ChecksFirst [(.read, a), (.write, d)] (Machine.inputRW t a d) :=
  gather2.bind

theorem inputRM {t : OpType} {a d : Operand} : ChecksFirst [(.read, a), (.modify, d)] (Machine.inputRM t a d) :=
  gather2.bind

theorem inputRRW {t : OpType} {a b d : Operand} :
    ChecksFirst [(.read, a), (.read, b), (.write, d)] (Machine.inputRRW t a b d) :=
  gather3.bind

theorem inputRRRW {t : OpType} {w o a d : Operand} :
    ChecksFirst [(.read, w), (.read, o), (.read, a), (.write, d)] (Machine.inputRRRW t w o a d) :=
  gather4.bind

theorem inputRRRM {t : OpType} {w o a d : Operand} :
    ChecksFirst [(.read, w), (.read, o), (.read, a), (.modify, d)] (Machine.inputRRRM t w o a d) :=
  gather4.bind

theorem inputA {d : Operand} : ChecksFirst [(.addr, d)] (Machine.inputA d) := gather1.bind

theorem namedReg {o : Operand} : ChecksFirst [(.regName, o)] (Machine.namedReg o) := requireLegal.bind

/-- An instruction that gathers its operands first and has an illegal one. -/
theorem run {x : M α} (h : ChecksFirst l x) {b : Bool} {f : α → M Unit} {s : State}
    (hl : (l.all fun y => operandOk y.1 y.2) = false) :
    runInstr b (x >>= f) s = .next (takeTrap .invalidDescriptor s) :=
  ((h.raises hl s).bind).run

end ChecksFirst

/-- Every instruction whose operands are decoded checks them first, if it has any. -/
theorem exec_illegal {i : Instr} (s : State) (hd : operandsUndecoded i = false) (hi : i.wellFormed = false) :
    exec i s = .next (takeTrap .invalidDescriptor s) := by
  cases i
  case addw2 | addh2 | addb2 | subw2 | subh2 | subb2 | mulw2 | mulh2 | mulb2 | divw2 | divh2 | divb2 | modw2 | modh2
      | modb2 | andw2 | andh2 | andb2 | orw2 | orh2 | orb2 | xorw2 | xorh2 | xorb2 =>
    exact ChecksFirst.inputRM.run hi
  case addw3 | addh3 | addb3 | subw3 | subh3 | subb3 | mulw3 | mulh3 | mulb3 | divw3 | divh3 | divb3 | modw3 | modh3
      | modb3 | andw3 | andh3 | andb3 | orw3 | orh3 | orb3 | xorw3 | xorh3 | xorb3 | alsw3 | arsw3 | arsh3 | arsb3
      | llsw3 | llsh3 | llsb3 | lrsw3 | rotw =>
    exact ChecksFirst.inputRRW.run hi
  case movw | movh | movb | mnegw | mnegh | mnegb | mcomw | mcomh | mcomb =>
    exact ChecksFirst.inputRW.run hi
  case incw | inch | incb | decw | dech | decb =>
    exact ChecksFirst.inputM.run hi
  case insfw | insfh | insfb =>
    exact ChecksFirst.inputRRRM.run hi
  case extfw | extfh | extfb =>
    exact ChecksFirst.inputRRRW.run hi
  case cmpw | cmph | cmpb | bitw | bith | bitb =>
    exact ChecksFirst.inputRR.run hi
  case tstw | tsth | tstb | pushw =>
    exact ChecksFirst.inputR.run hi
  case pushaw | jmp | jsb =>
    exact ChecksFirst.inputA.run hi
  case movaw | call =>
    exact ChecksFirst.gather2.run hi
  case clrw | clrh | clrb | popw | swapwi | swaphi | swapbi =>
    exact ChecksFirst.gather1.run hi
  case save | restore =>
    exact ChecksFirst.namedReg.run hi
  case movtrw | spop | spoprs | spoprd | spoprt | spops2 | spopd2 | spopt2 | spopws | spopwd | spopwt =>
    cases hd
  all_goals cases hi

/-! ## Accesses that the bus refuses -/

theorem AccessTraps.raises_read {s t : State} {a : Word} {z : Size} {k : FaultKind} (h : AccessTraps s a z .read k)
    (hp : t.params = s.params) : Raises k (memRead a z) t :=
  (h.of_params hp).read

theorem AccessTraps.raises_write {s t : State} {a : Word} {z : Size} {k : FaultKind} (h : AccessTraps s a z .write k)
    (hp : t.params = s.params) (v : Word) : Raises k (memWrite a z v) t :=
  (h.of_params hp).write v

/-- An interlocked swap whose address is computed and whose read raises. -/
theorem swapInterlocked_raises {s s₁ : State} {k : FaultKind} {info : Option AccessInfo} {ty : OpType} {dst : Operand}
    {d : Opnd} (h : gather1 .memModify ty dst s = .ok (d, s₁)) (hr : readOpnd d s₁ = .error (.trap k info)) :
    Raises k (swapInterlocked ty dst) s :=
  .after h <| .bind ⟨info, hr⟩

/-! ## The stack (41_data_movement.md R450, 45_call_stack.md R660) -/

section

variable {s : State} {k : FaultKind}

section
variable (hk : AccessTraps s s.sp .word .write k)
include hk

theorem push_raises {t : State} (c : SameCore s t) (v : Word) : Raises k (push v) t :=
  .after (getReg_apply ..) <| .bind <| (c.sp ▸ hk : AccessTraps s t.sp .word .write k).raises_write c.params v

theorem pushValue_raises {src : Operand} {v : Int} {s₁ : State} (h : inputR wordT src s = .ok (v, s₁)) :
    Raises k (pushValue src) s :=
  .after h <| .bind <| push_raises hk ((Reads.inputR ..).sameCore _ _ _ h) _

theorem pushAddress_raises {dst : Operand} {a : Word} {s₁ : State} (h : inputA dst s = .ok (a, s₁)) :
    Raises k (pushAddress dst) s :=
  .after h <| .bind <| push_raises hk ((Reads.inputA dst).sameCore _ _ _ h) _

theorem jumpSubroutine_raises {dst : Operand} {a : Word} {s₁ : State} (h : inputA dst s = .ok (a, s₁)) :
    Raises k (jumpSubroutine dst) s :=
  .after h <| .after (getState_apply _) <| .bind <| push_raises hk ((Reads.inputA dst).sameCore _ _ _ h) _

theorem branchSubroutine_raises {w : Nat} (disp : BitVec w) (len : Nat) : Raises k (branchSubroutine disp len) s :=
  .after (getState_apply s) <| .bind <| push_raises hk (.refl s) _

end

section
variable (hk : AccessTraps s (s.sp - 4) .word .read k)
include hk

theorem pop_raises {t : State} (c : SameCore s t) : Raises k pop t :=
  .after (getReg_apply ..) <| .bind <|
    (c.sp ▸ hk : AccessTraps s (t.sp - 4) .word .read k).raises_read c.params

theorem popValue_raises {dst : Operand} {d : Opnd} {s₁ : State} (h : gather1 .write wordT dst s = .ok (d, s₁)) :
    Raises k (popValue dst) s :=
  .after h <| .bind <| pop_raises hk ((Reads.gather1 ..).sameCore _ _ _ h)

theorem popPc_raises : Raises k popPc s :=
  (pop_raises hk (.refl s)).bind

/-- A return whose condition holds. -/
theorem returnIf_raises {c : Cond} (hc : condHolds c (Psw.flags s.psw) = true) : Raises k (returnIf c) s :=
  .after (getState_apply s) <| by rw [if_pos hc]; exact popPc_raises hk

end

/-- Two reads of which the bus refuses the first, or the second only. -/
theorem read_two_raises {α : Type} {a b : Word} {f : Word → Word → M α}
    (h : AccessTraps s a .word .read k ∨ (Reached s a .word .read ∧ AccessTraps s b .word .read k)) :
    Raises k (do let v ← memRead a .word; let w ← memRead b .word; f v w) s := by
  rcases h with h | ⟨h₁, h⟩
  · exact (h.raises_read rfl).bind
  · obtain ⟨v, t, e, c⟩ := h₁.read
    exact .after e (h.raises_read c.params).bind

/-- Two writes of which the bus refuses the first, or the second only. -/
theorem write_two_raises {t : State} {a b v w : Word} {f : M Unit} (hp : t.params = s.params)
    (h : AccessTraps s a .word .write k ∨ (Reached s a .word .write ∧ AccessTraps s b .word .write k)) :
    Raises k (do memWrite a .word v; memWrite b .word w; f) t := by
  rcases h with h | ⟨h₁, h⟩
  · exact (h.raises_write hp v).bind
  · obtain ⟨u, e, c⟩ := (h₁.of_params hp).write v
    exact .after e (h.raises_write (c.params.trans hp) w).bind

theorem returnProcedure_raises (h : AccessTraps s (s.sp - 4) .word .read k ∨
    (Reached s (s.sp - 4) .word .read ∧ AccessTraps s (s.sp - 8) .word .read k)) : Raises k returnProcedure s :=
  .after (getState_apply s) (read_two_raises h)

theorem returnFromGate_raises (h : AccessTraps s (s.sp - 4) .word .read k ∨
    (Reached s (s.sp - 4) .word .read ∧ AccessTraps s (s.sp - 8) .word .read k)) : Raises k returnFromGate s :=
  .after (getState_apply s) (read_two_raises h)

theorem call_raises {argp dst : Operand} {x y : Opnd} {s₁ : State}
    (h : gather2 .addr .addr wordT argp dst s = .ok ((x, y), s₁))
    (hk : AccessTraps s (s.sp + 4) .word .write k ∨
      (Reached s (s.sp + 4) .word .write ∧ AccessTraps s s.sp .word .write k)) : Raises k (call argp dst) s := by
  have c := (Reads.gather2 ..).sameCore _ _ _ h
  rw [← c.sp] at hk
  exact .after h <| .after (getState_apply s₁) (write_two_raises c.params hk)

theorem saveFrame_raises {n : RegNum} {m : Nat} (h3 : 3 ≤ n) (h15 : n ≠ 15) (hm : m < 1 + (9 - n.val))
    (hr : ∀ j, j < m → Reached s (wordUp s.sp j) .word .write) (hk : AccessTraps s (wordUp s.sp m) .word .write k) :
    Raises k (saveFrame ⟨none, .reg n⟩) s := by
  refine .after (namedReg_ok h3 h15 s) <| .after (getState_apply s) ?_
  cases m with
  | zero =>
    rw [wordUp_zero] at hk
    exact (hk.raises_write rfl _).bind
  | succ m =>
    have h0 := hr 0 (by omega)
    rw [wordUp_zero] at h0
    obtain ⟨t, e, c⟩ := h0.write (s.reg regFP)
    refine .after e (Raises.bind (storeRegs_fails (m := m) _ ?_ (fun j hj => ?_) ?_))
    · rw [savedRegs_length]; omega
    · rw [← wordUp_succ]
      exact (hr (j + 1) (by omega)).of_params c.params
    · rw [← wordUp_succ]
      exact hk.of_params c.params

theorem restoreFrame_raises {n : RegNum} {m : Nat} (h3 : 3 ≤ n) (h15 : n ≠ 15) (hm : m < 1 + (9 - n.val))
    (hr : ∀ j, j < m → Reached s (wordUp (s.reg regFP - 28) j) .word .read)
    (hk : AccessTraps s (wordUp (s.reg regFP - 28) m) .word .read k) :
    Raises k (restoreFrame ⟨none, .reg n⟩) s := by
  refine .after (namedReg_ok h3 h15 s) <| .after (getState_apply s) ?_
  cases m with
  | zero =>
    rw [wordUp_zero] at hk
    exact (hk.raises_read rfl).bind
  | succ m =>
    have h0 := hr 0 (by omega)
    rw [wordUp_zero] at h0
    obtain ⟨v, t, e, c⟩ := h0.read
    have up (j : Nat) : wordUp (s.reg regFP - 24) j = wordUp (s.reg regFP - 28) (j + 1) := by
      rw [wordUp_succ]
      congr 1
      bv_omega
    refine .after e (Raises.bind (loadRegs_fails (m := m) _ ?_ (fun j hj => ?_) ?_))
    · rw [savedRegs_length]; omega
    · rw [up]
      exact (hr (j + 1) (by omega)).of_params c.params
    · rw [up]
      exact hk.of_params c.params

end

/-! ## Every way to be abandoned -/

/-- The loops of STRCPY and STREND reach every byte of the address space. -/
theorem lt_addressCount {m : Nat} (hm : m < 2 ^ 32) : m < addressCount := by
  unfold addressCount
  omega

/-- Settles O26: an illegal operand stops the check that comes first, a refused operand access the gathering, and each
other refused access the stack, gate or block operation that makes it. -/
theorem abandonedInstructions : Obligations.AbandonedInstructions := by
  refine ⟨fun _ s => exec_illegal s, fun s k info => ?_, fun s k => ⟨fun hk => ⟨?_, ?_, ?_, ?_⟩, fun hk => ⟨?_, ?_⟩,
    fun hk => ⟨?_, ?_⟩, ?_, ?_, ?_, ?_, ?_⟩⟩
  · refine ⟨?_, ?_, ?_, ?_, ?_, ?_, ?_, ?_, ?_, fun _ _ h => run_first_raises h, fun _ _ h => run_first_raises h,
      ?_, ?_⟩
    -- The work of each listed instruction is the gathering its clause names, then the rest.
    all_goals simp only [List.forall_mem_cons, List.not_mem_nil, false_implies, implies_true, and_true]
    · and_intros <;> exact fun _ _ h => run_first_raises h
    · and_intros <;> exact fun _ _ _ h => run_first_raises h
    · and_intros <;> exact fun _ _ h => run_first_raises h
    · and_intros <;> exact fun _ h => run_first_raises h
    · and_intros <;> exact fun _ _ _ _ h => run_first_raises h
    · and_intros <;> exact fun _ _ _ _ h => run_first_raises h
    · and_intros <;> exact fun _ _ h => run_first_raises h
    · and_intros <;> exact fun _ h => run_first_raises h
    · and_intros <;> exact fun _ h => run_first_raises h
    · and_intros <;> exact fun _ h => run_first_raises h
    · and_intros <;> exact fun _ _ _ => ⟨fun h => run_first_raises h, fun h hr => (swapInterlocked_raises h hr).run⟩
  · exact fun _ _ _ h => (pushValue_raises hk h).run
  · simp only [List.forall_mem_cons, List.not_mem_nil, false_implies, implies_true, and_true]
    exact ⟨fun _ _ _ h => (pushAddress_raises hk h).run, fun _ _ _ h => (jumpSubroutine_raises hk h).run⟩
  · exact fun disp => (branchSubroutine_raises hk disp 2).run
  · exact fun disp => (branchSubroutine_raises hk disp 3).run
  · exact fun _ _ _ h => (popValue_raises hk h).run
  · have ret (c : Cond) (hc : condHolds c (Psw.flags s.psw) = true) := (returnIf_raises hk hc).run (b := false)
    simp only [List.forall_mem_cons, List.not_mem_nil, false_implies, implies_true, and_true]
    exact ⟨fun _ => (popPc_raises hk).run, ret .geq, ret .gtr, ret .lss, ret .leq, ret .gequ, ret .gtru, ret .lssu,
      ret .lequ, ret .vc, ret .vs, ret .neq, ret .neq, ret .eql, ret .eql⟩
  · exact (returnProcedure_raises hk).run
  · exact (returnFromGate_raises hk).run
  · exact fun _ _ _ _ _ h hk => (call_raises h hk).run
  · exact fun n m h3 h15 hm => ⟨fun hr hk => (saveFrame_raises h3 h15 hm hr hk).run,
      fun hr hk => (restoreFrame_raises h3 h15 hm hr hk).run⟩
  · rintro l1 off rfl rfl h
    have transfer : Raises k gate s := .after (getState_apply s) (gate_traps h _ _ none)
    exact transfer.run
  · intro m hm hr hk
    have loop : Raises k (moveWords (s.reg 2).toNat) s := moveWords_fails _ hm hr hk
    exact Raises.run (.after (getReg_apply ..) loop.bind)
  · intro m hm hr
    refine ⟨fun hk => ?_, fun hw ha hk => ?_⟩
    · have loop : Raises k (findNul addressCount (s.reg 0)) s := findNul_fails m _ (lt_addressCount hm) hr hk
      exact Raises.run (.after (getState_apply s) loop.bind)
    · have loop : Raises k (copyString addressCount (s.reg 0) (s.reg 1)) s :=
        copyString_fails m _ (lt_addressCount hm) hr hw ha hk
      exact Raises.run (.after (getState_apply s) loop.bind)

end Sys2Proof.Machine
end

section
/-! What the instructions of 41_data_movement.md leave once they complete. -/
namespace Sys2Proof.Machine

/-! ## Lengths (30_encoding.md R300, R345) -/

theorem length_one_operand {i : Instr} {c : OpClass} {o : Operand} (hop : i.opcode.length = 1)
    (hf : i.fields = [.g c o]) : i.length = 1 + o.len := by
  simp [Instr.length, hop, hf, Field.len]

theorem length_two_operands {i : Instr} {c₁ c₂ : OpClass} {o₁ o₂ : Operand} (hop : i.opcode.length = 1)
    (hf : i.fields = [.g c₁ o₁, .g c₂ o₂]) : i.length = 1 + o₁.len + o₂.len := by
  simp [Instr.length, hop, hf, Field.len, Nat.add_assoc]

/-! ## Flags of a result (41_data_movement.md R450) -/

theorem truncBits_toInt (v : Word) : truncBits 32 v.toInt = v := BitVec.ofInt_toInt

theorem wordFlags_eq (v : Word) : wordFlags v = ⟨v.msb, v == 0, false, false⟩ := by
  have hn : flagN 32 v.toInt = v.msb := by rw [flagN, truncBits_toInt]
  have hz : flagZ 32 v.toInt = (v == 0) := by rw [flagZ, truncBits_toInt]
  change (⟨flagN 32 v.toInt, flagZ 32 v.toInt, false, false⟩ : Flags) = _
  rw [hn, hz]

theorem flagsOf_zero (t : OpType) : flagsOf t 0 false false = ⟨false, true, false, false⟩ := by
  simp [flagsOf, flagN, flagZ, truncBits]

theorem setPsw_self (s : State) : s.setPsw s.psw = s := by
  have h : s.regs.set regPSW.val s.psw regPSW.isLt = s.regs := Vector.set_getElem_self ..
  rw [State.setPsw, State.setReg, h]

theorem movFlags_apply (f : Flags) (s : State) : movFlags f s = .ok ((), s.setPsw (movFlagsAfter f s)) := by
  rw [movFlags, update_apply, movFlagsAfter]
  split
  · rw [setFlags_eq]
  · rw [setPsw_self]

theorem movFlagsAfter_congr {s t : State} (f : Flags) (hp : t.params = s.params) (hpsw : t.psw = s.psw) :
    movFlagsAfter f t = movFlagsAfter f s := by
  rw [movFlagsAfter, movFlagsAfter, hp, hpsw]

theorem movPswAfter_congr {s t : State} (d : Opnd) (r : Int) (f : Flags) (hp : t.params = s.params)
    (hpsw : t.psw = s.psw) : movPswAfter d r f t = movPswAfter d r f s := by
  rw [movPswAfter, movPswAfter, hp, hpsw]

/-- A destination in memory leaves the PSW to the flags. -/
theorem movPswAfter_mem {d : Opnd} {a : Word} (hd : d.place = .mem a) (r : Int) (f : Flags) (s : State) :
    movPswAfter d r f s = movFlagsAfter f s := by
  simp [movPswAfter, movFlagsAfter, pswAfter, hd]

/-! ## MOV, MOVAW and CLR (R451 to R457) -/

section

variable {i : Instr} {s s₁ : State} {d : Opnd}

theorem move_completed {ty : OpType} {src dst : Operand} {v : Int}
    (hi : exec i s = runInstr false (move ty src dst) s) (hl : i.length = 1 + src.len + dst.len)
    (h : inputRW ty src dst s = .ok ((v, d), s₁)) (hw : d.Writable s₁) (wf : s.mem.wf) (ht : NotTraced s) :
    ∃ t, exec i s = .next t ∧
      Completed d v (movPswAfter d v (flagsOf d.type v false (flagTrunc d.type v)) s)
        (s.pc + BitVec.ofNat 32 i.length) s s₁ t := by
  rw [hi, hl]
  exact run_finishMov (move_eq h) ((Reads.inputRW ..).sameCore _ _ _ h) hw wf ht

theorem clear_completed {ty : OpType} {dst : Operand} (hi : exec i s = runInstr false (clear ty dst) s)
    (hl : i.length = 1 + dst.len) (h : gather1 .write ty dst s = .ok (d, s₁)) (hw : d.Writable s₁) (wf : s.mem.wf)
    (ht : NotTraced s) :
    ∃ t, exec i s = .next t ∧
      Completed d 0 (movPswAfter d 0 ⟨false, true, false, false⟩ s) (s.pc + BitVec.ofNat 32 i.length) s s₁ t := by
  rw [hi, hl, ← flagsOf_zero d.type]
  exact run_finishMov (clear_eq h) ((Reads.gather1 ..).sameCore _ _ _ h) hw wf ht

end

/-- Settles O39: one work at three types, which comes to the write of the value read. -/
theorem moveResults : Obligations.MoveResults := by
  unfold Obligations.MoveResults
  simp only [List.forall_mem_cons, List.not_mem_nil, false_implies, implies_true, and_true]
  exact ⟨fun _ _ _ _ _ _ => move_completed rfl (length_two_operands rfl rfl),
    fun _ _ _ _ _ _ => move_completed rfl (length_two_operands rfl rfl),
    fun _ _ _ _ _ _ => move_completed rfl (length_two_operands rfl rfl)⟩

/-- Settles O40: MOVAW comes to the write of the address, CLR* at its three types to the write of 0. -/
theorem addressAndClearResults : Obligations.AddressAndClearResults := by
  constructor
  · rintro s s₁ src dst x d v h rfl hw wf ht
    rw [length_two_operands (i := .movaw src dst) rfl rfl]
    exact run_finishMov (moveAddress_eq h) ((Reads.gather2 ..).sameCore _ _ _ h) hw wf ht
  · simp only [List.forall_mem_cons, List.not_mem_nil, false_implies, implies_true, and_true]
    exact ⟨fun _ _ _ _ => clear_completed rfl (length_one_operand rfl rfl),
      fun _ _ _ _ => clear_completed rfl (length_one_operand rfl rfl),
      fun _ _ _ _ => clear_completed rfl (length_one_operand rfl rfl)⟩

/-! ## PUSHW and PUSHAW (R458, R459) -/

/-- What pushing a word leaves (R450 items 2 and 4): the word, SP past it, the flags of the word, the PC. -/
structure Pushed (v : Word) (len : Nat) (s s₁ t : State) : Prop where
  stored : StoredWords [regPC, regSP, regPSW] s.sp [v] s s₁ t
  sp : t.sp = s.sp + 4
  pc : t.pc = s.pc + BitVec.ofNat 32 len
  psw : t.psw = movFlagsAfter ⟨v.msb, v == 0, false, false⟩ s

theorem pushFlags_spec {s s₁ : State} (v : Word) (len : Nat) (hs : SameCore s s₁) (hr : Room s s.sp 1)
    (wf : s.mem.wf) : ∃ t, pushFlags v len s₁ = .ok ((), t) ∧ Pushed v len s s₁ t := by
  obtain ⟨m, hm, e⟩ := push_spec v hs hr wf
  unfold pushFlags
  rw [bind_ok e, bind_ok (movFlags_apply ..), advancePc_apply]
  refine ⟨_, rfl, hm.stored hs rfl fun n hn => ?_, ?_, ?_, ?_⟩
  · simp only [List.mem_cons, List.not_mem_nil, or_false, not_or] at hn
    obtain ⟨hpc, hsp, hpsw⟩ := hn
    rw [setPc_reg, if_neg hpc, setPsw_reg, if_neg hpsw, setSp_reg, if_neg hsp, setMem_reg, hs.reg]
  · rw [setPc_sp, setPsw_sp, setSp_sp]
  · rw [setPc_pc, setPsw_pc, setSp_pc, setMem_pc, hs.pc]
  · rw [setPc_psw, setPsw_psw, wordFlags_eq]
    exact movFlagsAfter_congr _ hs.params ((setSp_psw ..).trans hs.psw)

/-- An instruction whose work comes to a push. -/
theorem run_pushFlags {work : M Unit} {s s₁ : State} {v : Word} {len : Nat} (hw : work s = pushFlags v len s₁)
    (hs : SameCore s s₁) (hr : Room s s.sp 1) (wf : s.mem.wf) (ht : NotTraced s) :
    ∃ t, runInstr false work s = .next t ∧ Pushed v len s s₁ t := by
  obtain ⟨t, e, p⟩ := pushFlags_spec v len hs hr wf
  exact ⟨t, runInstr_plain (hw.trans e) ht (.inl rfl), p⟩

/-- Settles O41: both come to the push of a word, PUSHW of the operand's pattern, PUSHAW of the address. -/
theorem pushResults : Obligations.PushResults := by
  constructor
  · intro s s₁ src v h hr wf ht
    have c := (Reads.inputR ..).sameCore _ _ _ h
    obtain ⟨t, e, p⟩ := run_pushFlags (work := pushValue src) (bind_ok h) c hr wf ht
    rw [length_one_operand (i := .pushw src) rfl rfl]
    exact ⟨t, e, p.stored, p.sp, p.pc, p.psw⟩
  · intro s s₁ src v h hr wf ht
    have c := (Reads.inputA ..).sameCore _ _ _ h
    obtain ⟨t, e, p⟩ := run_pushFlags (work := pushAddress src) (bind_ok h) c hr wf ht
    rw [length_one_operand (i := .pushaw src) rfl rfl]
    exact ⟨t, e, p.stored, p.sp, p.pc, p.psw⟩

/-! ## A register changed before the destination is written -/

theorem SameCore.setReg {s t : State} (h : SameCore s t) (n : RegNum) (v : Word) :
    SameCore (s.setReg n v) (t.setReg n v) :=
  ⟨h.params, by simp only [State.setReg, h.regs], h.status, h.waiting, h.trace, h.mem⟩

/-- Whether a destination can be written depends on the mode and the parameters only. -/
theorem Opnd.Writable.of_mode {d : Opnd} {s t : State} (h : d.Writable s) (hp : t.params = s.params)
    (hk : t.kernel = s.kernel) : d.Writable t := by
  obtain ⟨pl, ty⟩ := d
  cases pl with
  | value w => exact h
  | reg n =>
    obtain ⟨hpc, hpriv⟩ := h
    exact ⟨hpc, fun hn => hk.trans (hpriv hn)⟩
  | mem a =>
    obtain ⟨g, hg⟩ := h
    exact ⟨g, by rw [hp]; exact hg⟩

theorem setReg_kernel_ne (s : State) {n : RegNum} (v : Word) (h : n ≠ regPSW) : (s.setReg n v).kernel = s.kernel := by
  rw [State.kernel, setReg_psw_ne s v h, State.kernel]

/-- Of the state after the operands were read, `Completed` sees the DUART and the latches alone. -/
theorem Completed.of_device {d : Opnd} {r : Int} {psw pc : Word} {s s₁ s₂ t : State}
    (c : Completed d r psw pc s s₁ t) (hd : s₁.duart = s₂.duart) (hp : s₁.pending = s₂.pending) :
    Completed d r psw pc s s₂ t :=
  { c with
    device := fun h => by rw [← hd, ← hp]; exact c.device h
    deviceStore := fun a ha hr => by
      obtain ⟨hduart, hpending⟩ := duartStore_congr
        (bigEndianBytes (sizeBytes d.type.size) (patternOf r)) (a.toNat - Config.duartBase) hd hp
      rw [← hduart, ← hpending]
      exact c.deviceStore a ha hr }

/-- An instruction whose work comes to `finishMov` after the operands were read and a register was set: it completes as
from the start state with that register set, so a destination that is this register wins. -/
theorem run_finishMov_setReg {work : M Unit} {s s₁ : State} {d : Opnd} {r : Int} {f : Flags} {len : Nat} {n : RegNum}
    {v : Word} (hpsw : n ≠ regPSW) (hpc : n ≠ regPC) (hwork : work s = finishMov d r f len (s₁.setReg n v))
    (hs : SameCore s s₁) (hw : d.Writable s₁) (wf : s.mem.wf) (ht : NotTraced s) :
    ∃ t, runInstr false work s = .next t ∧
      Completed d r (movPswAfter d r f s) (s.pc + BitVec.ofNat 32 len) (s.setReg n v) s₁ t := by
  have hw' : d.Writable (s₁.setReg n v) := hw.of_mode rfl (setReg_kernel_ne s₁ v hpsw)
  obtain ⟨t, e, c⟩ := finishMov_spec r f len (hs.setReg n v) hw' wf
  rw [movPswAfter_congr (s := s) (t := s.setReg n v) d r f rfl (setReg_psw_ne s v hpsw), setReg_pc_ne s v hpc] at c
  exact ⟨t, runInstr_plain (hwork.trans e) ht (.inl rfl), c.of_device rfl rfl⟩

/-! ## POPW (R460) -/

theorem popValue_completed {dst : Operand} {s s₁ : State} {d : Opnd} (h : gather1 .write wordT dst s = .ok (d, s₁))
    (hr : Readable s (s.sp - 4)) (hw : d.Writable s₁) (wf : s.mem.wf) (ht : NotTraced s) :
    ∃ t, runInstr false (popValue dst) s = .next t ∧
      Completed d (wordAt s (s.sp - 4)).toInt
        (movPswAfter d (wordAt s (s.sp - 4)).toInt (flagsOf d.type (wordAt s (s.sp - 4)).toInt false false) s)
        (s.pc + BitVec.ofNat 32 (1 + dst.len)) (s.setSp (s.sp - 4)) s₁ t := by
  have c := (Reads.gather1 .write wordT dst).sameCore _ _ _ h
  have hword : wordAt s₁ (s.sp - 4) = wordAt s (s.sp - 4) := wordAt_congr fun b _ => by rw [c.mem]
  have hpop : pop s₁ = .ok (wordAt s (s.sp - 4), s₁.setSp (s.sp - 4)) := by
    rw [← hword, ← c.sp]
    exact pop_spec (by rw [c.sp]; exact hr.of_params c.params)
  have hwork := popValue_eq h hpop
  rw [setSp_eq] at hwork ⊢
  exact run_finishMov_setReg (by decide) (by decide) hwork c hw wf ht

/-! ## The interlocked swaps (R462 to R464) -/

theorem writeDuart_setReg (s : State) (off : Nat) (b : Byte) (n : RegNum) (v : Word) :
    (s.setReg n v).writeDuart off b = (s.writeDuart off b).setReg n v := rfl

theorem writeByteAt_setReg (g : Region) (a : Word) (b : Byte) (n : RegNum) (v : Word) (s : State) :
    ∃ t, writeByteAt g a b s = .ok ((), t) ∧ writeByteAt g a b (s.setReg n v) = .ok ((), t.setReg n v) := by
  cases g with
  | rom => exact ⟨s, rfl, rfl⟩
  | duart => exact ⟨_, writeByteAt_duart .., by rw [writeByteAt_duart, writeDuart_setReg]⟩
  | ram => exact ⟨_, writeByteAt_ram .., writeByteAt_ram ..⟩

theorem storeBytes_setReg (g : Region) (bs : List Byte) (a : Word) (n : RegNum) (v : Word) (s : State) :
    ∃ t, storeBytes g a bs s = .ok ((), t) ∧ storeBytes g a bs (s.setReg n v) = .ok ((), t.setReg n v) := by
  induction bs generalizing a s with
  | nil => exact ⟨s, rfl, rfl⟩
  | cons b rest ih =>
    obtain ⟨u, e, e'⟩ := writeByteAt_setReg g a b n v s
    rw [storeBytes, bind_ok e, bind_ok e']
    exact ih ..

/-- A store to memory and a register update can be exchanged. -/
theorem writeOpnd_setReg {d : Opnd} {a : Word} (hd : d.place = .mem a) {s : State} (hw : d.Writable s) (r : Int)
    (n : RegNum) (v : Word) :
    ∃ t, writeOpnd d r s = .ok ((), t) ∧ writeOpnd d r (s.setReg n v) = .ok ((), t.setReg n v) := by
  obtain ⟨pl, ty⟩ := d
  subst hd
  obtain ⟨g, hg⟩ := hw
  simp only [writeOpnd, memWrite_eq hg, memWrite_eq (s := s.setReg n v) hg]
  exact storeBytes_setReg ..

theorem finishMov_mem {d : Opnd} {a : Word} (hd : d.place = .mem a) (r : Int) (f : Flags) (len : Nat) :
    finishMov d r f len = (do writeOpnd d r; movFlags f; advancePc len) := by
  have hb : isPswDest d = false := by simp [isPswDest, hd]
  simp [finishMov, movDestFlags, hb]

/-- A swap comes to the write of the old r0, as if r0 had taken the old value before it. -/
theorem swapInterlocked_eq {ty : OpType} {dst : Operand} {s s₁ s₂ : State} {d : Opnd} {old : Int}
    (h : gather1 .memModify ty dst s = .ok (d, s₁)) (ho : readOpnd d s₁ = .ok (old, s₂)) (hw : d.Writable s₂) :
    swapInterlocked ty dst s = finishMov d (s₂.reg 0).toInt (flagsOf d.type old false false) (1 + dst.len)
      (s₂.setReg 0 (extendType d.type old)) := by
  obtain ⟨a, hd⟩ := gather1_memory h
  obtain ⟨t, e, e'⟩ := writeOpnd_setReg hd hw (s₂.reg 0).toInt 0 (extendType d.type old)
  unfold swapInterlocked
  rw [bind_ok h, bind_ok ho, bind_ok (getReg_apply ..), bind_ok e, bind_ok (setReg_apply ..), finishMov_mem hd,
    bind_ok e']

theorem swapInterlocked_completed {i : Instr} {ty : OpType} {dst : Operand} {s s₁ s₂ : State} {d : Opnd} {old : Int}
    (hi : exec i s = runInstr false (swapInterlocked ty dst) s) (hl : i.length = 1 + dst.len)
    (h : gather1 .memModify ty dst s = .ok (d, s₁)) (ho : readOpnd d s₁ = .ok (old, s₂)) (hw : d.Writable s₂)
    (wf : s.mem.wf) (ht : NotTraced s) :
    ∃ t, exec i s = .next t ∧
      Completed d (s.reg 0).toInt (movFlagsAfter (flagsOf d.type old false false) s)
        (s.pc + BitVec.ofNat 32 i.length) (s.setReg 0 (extendType d.type old)) s₂ t := by
  obtain ⟨a, hd⟩ := gather1_memory h
  have c : SameCore s s₂ := ((Reads.gather1 ..).sameCore _ _ _ h).trans ((Reads.readOpnd d).sameCore _ _ _ ho)
  have hwork := swapInterlocked_eq h ho hw
  rw [c.reg] at hwork
  rw [hi, hl, ← movPswAfter_mem hd (s.reg 0).toInt]
  exact run_finishMov_setReg (by decide) (by decide) hwork c hw wf ht

/-- Settles O42: POPW sets SP, a swap r0, before the destination is written. -/
theorem popAndSwapResults : Obligations.PopAndSwapResults := by
  constructor
  · rintro s s₁ dst d v h hr rfl hw wf ht
    rw [length_one_operand (i := .popw dst) rfl rfl]
    exact popValue_completed h hr hw wf ht
  · simp only [List.forall_mem_cons, List.not_mem_nil, false_implies, implies_true, and_true]
    exact ⟨fun _ _ _ _ _ _ => swapInterlocked_completed rfl (length_one_operand rfl rfl),
      fun _ _ _ _ _ _ => swapInterlocked_completed rfl (length_one_operand rfl rfl),
      fun _ _ _ _ _ _ => swapInterlocked_completed rfl (length_one_operand rfl rfl)⟩

end Sys2Proof.Machine
end

section
/-! What the instructions of 42_arithmetic.md leave once they complete. -/
namespace Sys2Proof.Machine

theorem length_three_operands {i : Instr} {c₁ c₂ c₃ : OpClass} {o₁ o₂ o₃ : Operand} (hop : i.opcode.length = 1)
    (hf : i.fields = [.g c₁ o₁, .g c₂ o₂, .g c₃ o₃]) : i.length = 1 + o₁.len + o₂.len + o₃.len := by
  simp [Instr.length, hop, hf, Field.len, Nat.add_assoc]

/-! ## The results of R500 -/

theorem aluResult_div {a b r : Int} (ha : a ≠ 0) (hr : r = b.tdiv a) : aluResult .div a b = some r := by
  rw [aluResult, if_neg ha, hr]

theorem aluResult_mod {a b r : Int} (ha : a ≠ 0) (hr : r = b.tmod a) : aluResult .mod a b = some r := by
  rw [aluResult, if_neg ha, hr]

/-- A divisor of 0 gives no result. -/
theorem aluResult_zero {op : AluOp} (b : Int) (ho : op = .div ∨ op = .mod) : aluResult op 0 b = none := by
  obtain rfl | rfl := ho <;> rfl

theorem aluResult_neg (a : Int) : aluResult .sub a 0 = some (-a) := congrArg some (Int.zero_sub a)

theorem flagCarry_comm (w : Nat) (a b : Int) : flagCarry w a b = flagCarry w b a := by
  rw [flagCarry, flagCarry, Nat.add_comm]

/-- INC* names the destination first in its carry, the shared rule of R500 the other operand. -/
theorem aluFlags_add_one (t : OpType) (b r : Int) :
    aluFlags .add t 1 b r = flagsOf t r (flagCarry (typeBits t) b 1) (flagOvfAdd (typeBits t) b 1) := by
  rw [flagCarry_comm]
  rfl

theorem aluStore_raises {op : AluOp} {a b : Int} (hr : aluResult op a b = none) (d : Opnd) (len : Nat) (s : State) :
    Raises .zeroDivide (aluStore op a b d len) s := by
  rw [aluStore, hr]
  exact ⟨none, raise_apply ..⟩

/-! ## One completion rule for each operand shape -/

section

variable {i : Instr} {s s₁ : State} {d : Opnd} {op : AluOp} {ty : OpType} {a b r : Int} {psw : Word}

theorem arith2_completed {src dst : Operand} (hi : exec i s = runInstr true (arith2 op ty src dst) s)
    (hl : i.length = 1 + src.len + dst.len) (hr : aluResult op a b = some r)
    (h : inputRM ty src dst s = .ok ((a, b, d), s₁)) (hw : d.Writable s₁) (wf : s.mem.wf) (ht : NotTraced s)
    (hp : psw = pswAfter d r (aluFlags op d.type a b r) s.psw) (hn : NoOverflow psw) :
    ∃ t, exec i s = .next t ∧ Completed d r psw (s.pc + BitVec.ofNat 32 i.length) s s₁ t := by
  rw [hi, hl]
  exact run_finish (arith2_eq h hr) ((Reads.inputRM ..).sameCore _ _ _ h) hw wf ht hp (.inr hn)

theorem arith3_completed {src1 src2 dst : Operand} (hi : exec i s = runInstr true (arith3 op ty src1 src2 dst) s)
    (hl : i.length = 1 + src1.len + src2.len + dst.len) (hr : aluResult op a b = some r)
    (h : inputRRW ty src1 src2 dst s = .ok ((a, b, d), s₁)) (hw : d.Writable s₁) (wf : s.mem.wf) (ht : NotTraced s)
    (hp : psw = pswAfter d r (aluFlags op d.type a b r) s.psw) (hn : NoOverflow psw) :
    ∃ t, exec i s = .next t ∧ Completed d r psw (s.pc + BitVec.ofNat 32 i.length) s s₁ t := by
  rw [hi, hl]
  exact run_finish (arith3_eq h hr) ((Reads.inputRRW ..).sameCore _ _ _ h) hw wf ht hp (.inr hn)

/-- INC* and DEC*: the first operand is 1. -/
theorem arithOne_completed {dst : Operand} (hi : exec i s = runInstr true (arithOne op ty dst) s)
    (hl : i.length = 1 + dst.len) (hr : aluResult op 1 b = some r) (h : inputM ty dst s = .ok ((b, d), s₁))
    (hw : d.Writable s₁) (wf : s.mem.wf) (ht : NotTraced s)
    (hp : psw = pswAfter d r (aluFlags op d.type 1 b r) s.psw) (hn : NoOverflow psw) :
    ∃ t, exec i s = .next t ∧ Completed d r psw (s.pc + BitVec.ofNat 32 i.length) s s₁ t := by
  rw [hi, hl]
  exact run_finish (arithOne_eq h hr) ((Reads.inputM ..).sameCore _ _ _ h) hw wf ht hp (.inr hn)

/-- MNEG*: the difference is taken from 0. -/
theorem arithNeg_completed {src dst : Operand} (hi : exec i s = runInstr true (arithNeg ty src dst) s)
    (hl : i.length = 1 + src.len + dst.len) (h : inputRW ty src dst s = .ok ((a, d), s₁)) (hw : d.Writable s₁)
    (wf : s.mem.wf) (ht : NotTraced s) (hp : psw = pswAfter d (-a) (aluFlags .sub d.type a 0 (-a)) s.psw)
    (hn : NoOverflow psw) :
    ∃ t, exec i s = .next t ∧ Completed d (-a) psw (s.pc + BitVec.ofNat 32 i.length) s s₁ t := by
  rw [hi, hl]
  rw [← Int.zero_sub] at hp ⊢
  exact run_finish (arithNeg_eq h) ((Reads.inputRW ..).sameCore _ _ _ h) hw wf ht hp (.inr hn)

/-! ## Division by 0 (R519 to R530, 60_exceptions.md R812) -/

theorem arith2_zeroDivide {src dst : Operand} (ho : op = .div ∨ op = .mod)
    (hi : exec i s = runInstr true (arith2 op ty src dst) s) (h : inputRM ty src dst s = .ok ((0, b, d), s₁)) :
    exec i s = .next (takeTrap .zeroDivide s) :=
  hi.trans (Raises.after h (aluStore_raises (aluResult_zero b ho) ..)).run

theorem arith3_zeroDivide {src1 src2 dst : Operand} (ho : op = .div ∨ op = .mod)
    (hi : exec i s = runInstr true (arith3 op ty src1 src2 dst) s)
    (h : inputRRW ty src1 src2 dst s = .ok ((0, b, d), s₁)) : exec i s = .next (takeTrap .zeroDivide s) :=
  hi.trans (Raises.after h (aluStore_raises (aluResult_zero b ho) ..)).run

end

/-! ## The obligations: each list holds one work at three types -/

/-- Settles O32: the two- and three-operand shapes with the sum, INC* with 1 as the first operand. -/
theorem addResults : Obligations.AddResults := by
  unfold Obligations.AddResults
  simp only [List.forall_mem_cons, List.not_mem_nil, false_implies, implies_true, and_true]
  refine ⟨?_, ?_, ?_⟩
  · and_intros <;>
      exact fun _ _ _ _ _ _ _ _ => arith2_completed (op := .add) rfl (length_two_operands rfl rfl) rfl
  · and_intros <;>
      exact fun _ _ _ _ _ _ _ _ _ => arith3_completed (op := .add) rfl (length_three_operands rfl rfl) rfl
  · and_intros <;>
      exact fun _ _ _ _ _ _ h hw wf ht hp =>
        arithOne_completed (op := .add) rfl (length_one_operand rfl rfl) rfl h hw wf ht (by rwa [aluFlags_add_one])

/-- Settles O33: the shapes of the sum with the difference, and MNEG* as the difference from 0. -/
theorem subResults : Obligations.SubResults := by
  unfold Obligations.SubResults
  simp only [List.forall_mem_cons, List.not_mem_nil, false_implies, implies_true, and_true]
  refine ⟨?_, ?_, ?_, ?_⟩
  · and_intros <;>
      exact fun _ _ _ _ _ _ _ _ => arith2_completed (op := .sub) rfl (length_two_operands rfl rfl) rfl
  · and_intros <;>
      exact fun _ _ _ _ _ _ _ _ _ => arith3_completed (op := .sub) rfl (length_three_operands rfl rfl) rfl
  · and_intros <;>
      exact fun _ _ _ _ _ _ => arithOne_completed (op := .sub) rfl (length_one_operand rfl rfl) rfl
  · and_intros <;> exact fun _ _ _ _ _ _ _ => arithNeg_completed rfl (length_two_operands rfl rfl)

/-- Settles O34: the two- and three-operand shapes with the product. -/
theorem mulResults : Obligations.MulResults := by
  unfold Obligations.MulResults
  simp only [List.forall_mem_cons, List.not_mem_nil, false_implies, implies_true, and_true]
  refine ⟨?_, ?_⟩
  · and_intros <;>
      exact fun _ _ _ _ _ _ _ _ => arith2_completed (op := .mul) rfl (length_two_operands rfl rfl) rfl
  · and_intros <;>
      exact fun _ _ _ _ _ _ _ _ _ => arith3_completed (op := .mul) rfl (length_three_operands rfl rfl) rfl

/-- Settles O35: with a divisor that is not 0, the two shapes with the quotient and the remainder; with 0, the trap. -/
theorem divResults : Obligations.DivResults := by
  unfold Obligations.DivResults
  simp only [List.forall_mem_cons, List.not_mem_nil, false_implies, implies_true, and_true]
  refine ⟨?_, ?_, ?_, ?_⟩
  · and_intros
    iterate 3
      exact fun _ _ _ _ _ _ _ _ _ h ha hr =>
        arith2_completed (op := .div) rfl (length_two_operands rfl rfl) (aluResult_div ha hr) h
    iterate 3
      exact fun _ _ _ _ _ _ _ _ _ h ha hr =>
        arith2_completed (op := .mod) rfl (length_two_operands rfl rfl) (aluResult_mod ha hr) h
  · and_intros
    iterate 3
      exact fun _ _ _ _ _ _ _ _ _ _ h ha hr =>
        arith3_completed (op := .div) rfl (length_three_operands rfl rfl) (aluResult_div ha hr) h
    iterate 3
      exact fun _ _ _ _ _ _ _ _ _ _ h ha hr =>
        arith3_completed (op := .mod) rfl (length_three_operands rfl rfl) (aluResult_mod ha hr) h
  · and_intros
    iterate 3 exact fun _ _ _ _ _ _ => arith2_zeroDivide (op := .div) (.inl rfl) rfl
    iterate 3 exact fun _ _ _ _ _ _ => arith2_zeroDivide (op := .mod) (.inr rfl) rfl
  · and_intros
    iterate 3 exact fun _ _ _ _ _ _ _ => arith3_zeroDivide (op := .div) (.inl rfl) rfl
    iterate 3 exact fun _ _ _ _ _ _ _ => arith3_zeroDivide (op := .mod) (.inr rfl) rfl

end Sys2Proof.Machine
end

section
/-! What the instructions of 43_logical_shift_field.md leave once they complete, and where a field stops the machine. -/
namespace Sys2Proof.Machine

/-! ## Patterns (R550, R573 to R586) -/

/-- ARS* shifts the source's low bits as a signed number. -/
theorem shiftResult_ars (t : OpType) (a : Int) (k : Nat) :
    shiftResult .ars t a k = ((truncBits (typeBits t) a).sshiftRight k).setWidth 32 := rfl

/-- LLS* keeps the low bits of the shifted pattern. -/
theorem shiftResult_lls (t : OpType) (a : Int) (k : Nat) :
    shiftResult .lls t a k = ((patternOf a <<< k).setWidth (typeBits t)).setWidth 32 :=
  narrow_toInt ..

theorem shiftResult_ars_word (a : Int) (k : Nat) : shiftResult .ars wordT a k = (patternOf a).sshiftRight k :=
  narrow_wordT _

theorem shiftResult_lls_word (a : Int) (k : Nat) : shiftResult .lls wordT a k = patternOf a <<< k :=
  (narrow_wordT _).trans (truncBits_toInt _)

theorem shiftResult_rot (t : OpType) (a n : Int) :
    shiftResult .rot t a (shiftCount n) = (patternOf a).rotateRight (shiftCount n) :=
  rot_eq _ _ (count_lt n)

/-- Bit j after an insertion: the source's bit where the field, rotated to its offset, covers j. -/
theorem insertField_bit (n : Nat) {o : Nat} (a b : Word) (j : Nat) (ho : o < 32) :
    (insertField n o a b).getLsbD j =
      (decide (j < 32) && if (j + 32 - o) % 32 < n then a.getLsbD ((j + 32 - o) % 32) else b.getLsbD j) := by
  have hi : (j + 32 - o) % 32 < 32 := Nat.mod_lt _ (by decide)
  simp only [insertField, BitVec.getLsbD_or, BitVec.getLsbD_and, BitVec.getLsbD_not, rotl_bit _ _ _ ho, mask_bit, hi,
    true_and]
  by_cases hj : j < 32 <;> by_cases hn : (j + 32 - o) % 32 < n <;> simp [hj, hn]

/-- Bit j of an extracted field. -/
theorem extractField_bit (n : Nat) {o : Nat} (a : Word) (j : Nat) (ho : o < 32) :
    (extractField n o a).getLsbD j = (decide (j < 32 ∧ j < n) && a.getLsbD ((j + o) % 32)) := by
  simp only [extractField, BitVec.getLsbD_and, rotr_bit _ _ _ ho, mask_bit]
  by_cases hj : j < 32 <;> simp [hj, Bool.and_comm]

/-- The pattern that INSF* stores, from its bits. -/
theorem insertField_narrow {t : OpType} {m n a b : Int} {p : Word}
    (hp : ∀ j, p.getLsbD j = (decide (j < typeBits t) &&
      if (j + 32 - shiftCount n) % 32 ≤ shiftCount m then (patternOf a).getLsbD ((j + 32 - shiftCount n) % 32)
      else (patternOf b).getLsbD j)) :
    narrow t (insertField (fieldLength m) (shiftCount n) (patternOf a) (patternOf b)).toInt = p := by
  refine bits_eq fun j => ?_
  rw [hp, narrow_bit, insertField_bit _ _ _ _ (count_lt n)]
  simp only [fieldLength, Nat.lt_succ_iff (n := shiftCount m)]
  by_cases hj : j < typeBits t
  · have : j < 32 := Nat.lt_of_lt_of_le hj (typeBits_le t)
    simp [this]
  · simp [hj]

/-- The pattern that EXTF* stores, from its bits. -/
theorem extractField_narrow {t : OpType} {m n a : Int} {p : Word}
    (hp : ∀ j, p.getLsbD j = (decide (j < typeBits t ∧ j ≤ shiftCount m) &&
      (patternOf a).getLsbD ((j + shiftCount n) % 32))) :
    narrow t (extractField (fieldLength m) (shiftCount n) (patternOf a)).toInt = p := by
  refine bits_eq fun j => ?_
  rw [hp, narrow_bit, extractField_bit _ _ _ (count_lt n)]
  simp only [fieldLength, Nat.lt_succ_iff (n := shiftCount m)]
  by_cases hj : j < typeBits t
  · have : j < 32 := Nat.lt_of_lt_of_le hj (typeBits_le t)
    simp [hj, this]
  · simp [hj]

/-! ## One completion rule for each operand shape -/

theorem length_four_operands {i : Instr} {c₁ c₂ c₃ c₄ : OpClass} {o₁ o₂ o₃ o₄ : Operand} (hop : i.opcode.length = 1)
    (hf : i.fields = [.g c₁ o₁, .g c₂ o₂, .g c₃ o₃, .g c₄ o₄]) :
    i.length = 1 + o₁.len + o₂.len + o₃.len + o₄.len := by
  simp [Instr.length, hop, hf, Field.len, Nat.add_assoc]

/-- Instruction i, whose operands were read up to s₁, completes with the integer r of a stored pattern: NZ of it, C and V
0 (R550). -/
def StoresPattern (i : Instr) (d : Opnd) (r : Int) (s s₁ : State) : Prop :=
  d.Writable s₁ → s.mem.wf → NotTraced s →
    ∃ t, exec i s = .next t ∧
      Completed d r (pswAfter d r (flagsOf d.type r false false) s.psw) (s.pc + BitVec.ofNat 32 i.length) s s₁ t

/-- An instruction with a field of k bits at offset o stops where the field runs past bit 31 under `FIELD_WRAP` = Fault,
and completes otherwise (R581). -/
def FieldOutcome (i : Instr) (d : Opnd) (r : Int) (o k : Nat) (s s₁ : State) : Prop :=
  (s.params.fieldWrap = .fault ∧ 32 < o + k → exec i s = .fault .fieldPastBit31) ∧
    ((s.params.fieldWrap = .fault → o + k ≤ 32) → StoresPattern i d r s s₁)

section

variable {i : Instr} {s s₁ : State} {d : Opnd} {ty : OpType} {m n a b r : Int} {p : Word}

/-- An instruction whose work comes to storing a pattern. -/
theorem finishPattern_completed {work : M Unit} {len : Nat} (hi : exec i s = runInstr false work s)
    (hl : i.length = len) (hwork : work s = finishPattern d p len s₁) (c : SameCore s s₁)
    (hr : r = interpType d.type p) : StoresPattern i d r s s₁ := by
  subst hr
  intro hw wf ht
  rw [hi, hl]
  exact run_finish hwork c hw wf ht rfl (.inl rfl)

theorem logic2_completed {op : BitOp} {src dst : Operand} (hi : exec i s = runInstr false (logic2 op ty src dst) s)
    (hl : i.length = 1 + src.len + dst.len) (h : inputRM ty src dst s = .ok ((a, b, d), s₁))
    (hr : r = interpType d.type (bitResult op (patternOf a) (patternOf b))) : StoresPattern i d r s s₁ :=
  finishPattern_completed hi hl (logic2_eq h) ((Reads.inputRM ..).sameCore _ _ _ h) hr

theorem logic3_completed {op : BitOp} {src1 src2 dst : Operand}
    (hi : exec i s = runInstr false (logic3 op ty src1 src2 dst) s)
    (hl : i.length = 1 + src1.len + src2.len + dst.len) (h : inputRRW ty src1 src2 dst s = .ok ((a, b, d), s₁))
    (hr : r = interpType d.type (bitResult op (patternOf a) (patternOf b))) : StoresPattern i d r s s₁ :=
  finishPattern_completed hi hl (logic3_eq h) ((Reads.inputRRW ..).sameCore _ _ _ h) hr

theorem complement_completed {src dst : Operand} (hi : exec i s = runInstr false (complement ty src dst) s)
    (hl : i.length = 1 + src.len + dst.len) (h : inputRW ty src dst s = .ok ((a, d), s₁))
    (hr : r = interpType d.type (~~~patternOf a)) : StoresPattern i d r s s₁ :=
  finishPattern_completed hi hl (complement_eq h) ((Reads.inputRW ..).sameCore _ _ _ h) hr

/-- The pattern p is the shift's as the rule of the instruction writes it. -/
theorem shift3_completed {op : ShiftOp} {count src dst : Operand} (hp : shiftResult op ty a (shiftCount n) = p)
    (hi : exec i s = runInstr false (shift3 op ty count src dst) s)
    (hl : i.length = 1 + count.len + src.len + dst.len) (h : inputRRW ty count src dst s = .ok ((n, a, d), s₁))
    (hr : r = interpType d.type p) : StoresPattern i d r s s₁ := by
  subst hp
  exact finishPattern_completed hi hl (shift3_eq h) ((Reads.inputRRW ..).sameCore _ _ _ h) hr

/-- ALSW3 stores the exact product and can overflow (R572). -/
theorem shiftLeftArith_completed {count src dst : Operand} {psw : Word}
    (h : inputRRW wordT count src dst s = .ok ((n, a, d), s₁)) (hr : r = a * 2 ^ shiftCount n) (hw : d.Writable s₁)
    (wf : s.mem.wf) (ht : NotTraced s)
    (hp : psw = pswAfter d r (flagsOf d.type r false (flagTrunc d.type r)) s.psw) (hn : NoOverflow psw) :
    ∃ t, exec (.alsw3 count src dst) s = .next t ∧
      Completed d r psw (s.pc + BitVec.ofNat 32 (Instr.alsw3 count src dst).length) s s₁ t := by
  subst hr
  rw [length_three_operands (i := .alsw3 count src dst) rfl rfl]
  exact run_finish (shiftLeftArith_eq h) ((Reads.inputRRW ..).sameCore _ _ _ h) hw wf ht hp (.inr hn)

/-! ## Fields: completed, or stopped past bit 31 (R581) -/

theorem runInstr_stop {u : Bool} {work : M Unit} {f : Fault} (h : work s = .error (.fault f)) :
    runInstr u work s = .fault f := by
  rw [runInstr, h]

theorem insertBits_stop {width offset src dst : Operand}
    (h : inputRRRM ty width offset src dst s = .ok ((m, n, a, b, d), s₁))
    (hf : s₁.params.fieldWrap = .fault ∧ 32 < shiftCount n + fieldLength m) :
    insertBits ty width offset src dst s = .error (.fault .fieldPastBit31) :=
  (bind_ok h).trans (bind_error (checkField_stop hf))

theorem extractBits_stop {width offset src dst : Operand}
    (h : inputRRRW ty width offset src dst s = .ok ((m, n, a, d), s₁))
    (hf : s₁.params.fieldWrap = .fault ∧ 32 < shiftCount n + fieldLength m) :
    extractBits ty width offset src dst s = .error (.fault .fieldPastBit31) :=
  (bind_ok h).trans (bind_error (checkField_stop hf))

/-- The two cases meet: the field check stops the machine or lets the pattern be stored. -/
theorem fieldOutcome_of_work {work : M Unit} {len o k : Nat} (hi : exec i s = runInstr false work s)
    (hl : i.length = len) (c : SameCore s s₁)
    (hstop : s₁.params.fieldWrap = .fault ∧ 32 < o + k → work s = .error (.fault .fieldPastBit31))
    (hwork : (s₁.params.fieldWrap = .fault → o + k ≤ 32) → work s = finishPattern d p len s₁)
    (hr : r = interpType d.type p) : FieldOutcome i d r o k s s₁ := by
  rw [c.params] at hstop hwork
  exact ⟨fun hf => hi.trans (runInstr_stop (hstop hf)), fun hf => finishPattern_completed hi hl (hwork hf) c hr⟩

theorem insertBits_outcome {width offset src dst : Operand}
    (hp : narrow ty (insertField (fieldLength m) (shiftCount n) (patternOf a) (patternOf b)).toInt = p)
    (hi : exec i s = runInstr false (insertBits ty width offset src dst) s)
    (hl : i.length = 1 + width.len + offset.len + src.len + dst.len)
    (h : inputRRRM ty width offset src dst s = .ok ((m, n, a, b, d), s₁)) (hr : r = interpType d.type p) :
    FieldOutcome i d r (shiftCount n) (fieldLength m) s s₁ := by
  subst hp
  exact fieldOutcome_of_work hi hl ((Reads.inputRRRM ..).sameCore _ _ _ h) (insertBits_stop h) (insertBits_eq h) hr

theorem extractBits_outcome {width offset src dst : Operand}
    (hp : narrow ty (extractField (fieldLength m) (shiftCount n) (patternOf a)).toInt = p)
    (hi : exec i s = runInstr false (extractBits ty width offset src dst) s)
    (hl : i.length = 1 + width.len + offset.len + src.len + dst.len)
    (h : inputRRRW ty width offset src dst s = .ok ((m, n, a, d), s₁)) (hr : r = interpType d.type p) :
    FieldOutcome i d r (shiftCount n) (fieldLength m) s s₁ := by
  subst hp
  exact fieldOutcome_of_work hi hl ((Reads.inputRRRW ..).sameCore _ _ _ h) (extractBits_stop h) (extractBits_eq h) hr

end

/-! ## The obligations: each list holds a few works at their types -/

/-- Settles O36: three operations, with two and with three operands, and the complement. -/
theorem bitwiseResults : Obligations.BitwiseResults := by
  unfold Obligations.BitwiseResults
  simp only [List.forall_mem_cons, List.not_mem_nil, false_implies, implies_true, and_true]
  refine ⟨?_, ?_, ?_⟩
  · and_intros
    iterate 3 exact fun _ _ _ _ _ _ _ _ => logic2_completed (op := .and) rfl (length_two_operands rfl rfl)
    iterate 3 exact fun _ _ _ _ _ _ _ _ => logic2_completed (op := .or) rfl (length_two_operands rfl rfl)
    iterate 3 exact fun _ _ _ _ _ _ _ _ => logic2_completed (op := .xor) rfl (length_two_operands rfl rfl)
  · and_intros
    iterate 3 exact fun _ _ _ _ _ _ _ _ _ => logic3_completed (op := .and) rfl (length_three_operands rfl rfl)
    iterate 3 exact fun _ _ _ _ _ _ _ _ _ => logic3_completed (op := .or) rfl (length_three_operands rfl rfl)
    iterate 3 exact fun _ _ _ _ _ _ _ _ _ => logic3_completed (op := .xor) rfl (length_three_operands rfl rfl)
  · and_intros <;> exact fun _ _ _ _ _ _ _ => complement_completed rfl (length_two_operands rfl rfl)

/-- Settles O37: ALSW3 by its product, each other shift by the pattern of its rule. -/
theorem shiftResults : Obligations.ShiftResults := by
  unfold Obligations.ShiftResults
  simp only [List.forall_mem_cons, List.not_mem_nil, false_implies, implies_true, and_true]
  refine ⟨fun _ _ _ _ _ _ _ _ _ _ => shiftLeftArith_completed, ?_, ?_, ?_, ?_, ?_, ?_, ?_, ?_⟩
  · exact fun _ _ _ _ _ _ _ _ _ => shift3_completed (shiftResult_ars_word ..) rfl (length_three_operands rfl rfl)
  · exact fun _ _ _ _ _ _ _ _ _ => shift3_completed (shiftResult_ars halfT ..) rfl (length_three_operands rfl rfl)
  · exact fun _ _ _ _ _ _ _ _ _ => shift3_completed (shiftResult_ars byteT ..) rfl (length_three_operands rfl rfl)
  · exact fun _ _ _ _ _ _ _ _ _ => shift3_completed (shiftResult_lls_word ..) rfl (length_three_operands rfl rfl)
  · exact fun _ _ _ _ _ _ _ _ _ => shift3_completed (shiftResult_lls halfT ..) rfl (length_three_operands rfl rfl)
  · exact fun _ _ _ _ _ _ _ _ _ => shift3_completed (shiftResult_lls byteT ..) rfl (length_three_operands rfl rfl)
  · exact fun _ _ _ _ _ _ _ _ _ => shift3_completed (op := .lrs) rfl rfl (length_three_operands rfl rfl)
  · exact fun _ _ _ _ _ _ _ _ _ => shift3_completed (shiftResult_rot ..) rfl (length_three_operands rfl rfl)

/-- Settles O38: the bits given determine the stored pattern, and the field check decides between the two clauses. -/
theorem fieldResults : Obligations.FieldResults := by
  unfold Obligations.FieldResults
  simp only [List.forall_mem_cons, List.not_mem_nil, false_implies, implies_true, and_true]
  refine ⟨?_, ?_⟩
  · and_intros <;> rintro _ _ _ _ _ _ _ _ _ _ _ _ _ _ h rfl hp hr <;>
      exact insertBits_outcome (insertField_narrow hp) rfl (length_four_operands rfl rfl) h hr
  · and_intros <;> rintro _ _ _ _ _ _ _ _ _ _ _ _ _ h rfl hp hr <;>
      exact extractBits_outcome (extractField_narrow hp) rfl (length_four_operands rfl rfl) h hr

end Sys2Proof.Machine
end

section
/-! What the instructions of 44_compare_branch.md leave, and with them the return and the subroutine calls of
45_call_stack.md that need no frame of their own: RSB, JSB and BSB*. -/
namespace Sys2Proof.Machine

/-! ## Flags of a compare, a test and a bit test (44_compare_branch.md R601 to R609) -/

theorem compareFlags_eq (w : Nat) (a b : Int) : compareFlags w a b =
    ⟨decide ((truncBits w b).toInt < (truncBits w a).toInt), decide (truncBits w b = truncBits w a),
      decide ((truncBits w b).toNat < (truncBits w a).toNat), false⟩ := rfl

theorem testFlags_eq (t : OpType) (a : Int) : flagsOf t a false false =
    ⟨(truncBits (typeBits t) a).msb, decide (truncBits (typeBits t) a = 0), false, false⟩ := rfl

/-- Narrowing an operand's 32-bit pattern gives its pattern at the width. -/
theorem patternOf_setWidth {w : Nat} (hw : w ≤ 32) (a : Int) : (patternOf a).setWidth w = truncBits w a := by
  refine BitVec.eq_of_toInt_eq ?_
  rw [← trunc_toInt _ hw, BitVec.toInt_ofInt, patternOf, truncBits, truncBits, BitVec.toInt_ofInt, BitVec.toInt_ofInt]
  exact Int.bmod_bmod_of_dvd (Nat.pow_dvd_pow 2 hw)

/-- The conjunction of two patterns, narrowed, is that of the narrow patterns. -/
theorem truncBits_and {w : Nat} (hw : w ≤ 32) (a b : Int) :
    truncBits w (patternOf a &&& patternOf b).toInt = truncBits w a &&& truncBits w b :=
  calc truncBits w (patternOf a &&& patternOf b).toInt
    _ = (patternOf a &&& patternOf b).setWidth w := trunc_toInt _ hw
    _ = truncBits w a &&& truncBits w b := by
      rw [BitVec.setWidth_and, patternOf_setWidth hw, patternOf_setWidth hw]

theorem bitTestFlags_eq (t : OpType) (a b : Int) : flagsOf t (patternOf a &&& patternOf b).toInt false false =
    ⟨(truncBits (typeBits t) a &&& truncBits (typeBits t) b).msb,
      decide (truncBits (typeBits t) a &&& truncBits (typeBits t) b = 0), false, false⟩ := by
  rw [testFlags_eq, truncBits_and (typeBits_le t)]

/-! ## CMP, TST and BIT (R601 to R609) -/

section

variable {i : Instr} {s s₁ : State} {ty : OpType} {a b : Int}

/-- The two updates that end an instruction which writes only the flags. -/
theorem setFlags_advancePc (f : Flags) (len : Nat) (s : State) :
    (update (·.setFlags f) >>= fun _ => advancePc len) s =
      .ok ((), (s.setFlags f).setPc (s.pc + BitVec.ofNat 32 len)) := by
  rw [bind_ok (update_apply ..), advancePc_apply, setFlags_pc]

theorem compare_eq {src1 src2 : Operand} (h : inputRR ty src1 src2 s = .ok ((a, b), s₁)) :
    compare ty src1 src2 s = .ok ((), (s₁.setFlags (compareFlags (typeBits ty) a b)).setPc
      (s₁.pc + BitVec.ofNat 32 (1 + src1.len + src2.len))) :=
  (bind_ok h).trans (setFlags_advancePc ..)

theorem test_eq {src : Operand} (h : inputR ty src s = .ok (a, s₁)) :
    test ty src s = .ok ((), (s₁.setFlags (flagsOf ty a false false)).setPc
      (s₁.pc + BitVec.ofNat 32 (1 + src.len))) :=
  (bind_ok h).trans (setFlags_advancePc ..)

theorem bitTest_eq {src1 src2 : Operand} (h : inputRR ty src1 src2 s = .ok ((a, b), s₁)) :
    bitTest ty src1 src2 s = .ok ((), (s₁.setFlags (flagsOf ty (patternOf a &&& patternOf b).toInt false false)).setPc
      (s₁.pc + BitVec.ofNat 32 (1 + src1.len + src2.len))) :=
  (bind_ok h).trans (setFlags_advancePc ..)

/-- Instruction i, whose operands were read up to s₁, sets these flags, goes on to the next instruction and changes
nothing else. -/
def SetsFlags (i : Instr) (f : Flags) (s s₁ : State) : Prop :=
  SameCore s s₁ ∧ exec i s = .next ((s₁.setFlags f).setPc (s.pc + BitVec.ofNat 32 i.length))

theorem setsFlags_of_work {work : M Unit} {f : Flags} {len : Nat} (hi : exec i s = runInstr false work s)
    (hl : i.length = len) (hwork : work s = .ok ((), (s₁.setFlags f).setPc (s₁.pc + BitVec.ofNat 32 len)))
    (c : SameCore s s₁) (ht : NotTraced s) : SetsFlags i f s s₁ := by
  rw [c.pc] at hwork
  exact ⟨c, by rw [hi, hl, runInstr_plain hwork ht (.inl rfl)]⟩

theorem compare_setsFlags {src1 src2 : Operand} (hi : exec i s = runInstr false (compare ty src1 src2) s)
    (hl : i.length = 1 + src1.len + src2.len) (h : inputRR ty src1 src2 s = .ok ((a, b), s₁)) (ht : NotTraced s) :
    SetsFlags i (compareFlags (typeBits ty) a b) s s₁ :=
  setsFlags_of_work hi hl (compare_eq h) ((Reads.inputRR ..).sameCore _ _ _ h) ht

theorem test_setsFlags {src : Operand} (hi : exec i s = runInstr false (test ty src) s)
    (hl : i.length = 1 + src.len) (h : inputR ty src s = .ok (a, s₁)) (ht : NotTraced s) :
    SetsFlags i (flagsOf ty a false false) s s₁ :=
  setsFlags_of_work hi hl (test_eq h) ((Reads.inputR ..).sameCore _ _ _ h) ht

theorem bitTest_setsFlags {src1 src2 : Operand} (hi : exec i s = runInstr false (bitTest ty src1 src2) s)
    (hl : i.length = 1 + src1.len + src2.len) (h : inputRR ty src1 src2 s = .ok ((a, b), s₁)) (ht : NotTraced s) :
    SetsFlags i (flagsOf ty (patternOf a &&& patternOf b).toInt false false) s s₁ :=
  setsFlags_of_work hi hl (bitTest_eq h) ((Reads.inputRR ..).sameCore _ _ _ h) ht

end

/-- Settles O43: three works, each at three types, and their flags as the rules write them. -/
theorem compareResults : Obligations.CompareResults := by
  unfold Obligations.CompareResults
  simp only [← compareFlags_eq, ← bitTestFlags_eq, ← testFlags_eq]
  simp only [List.forall_mem_cons, List.not_mem_nil, false_implies, implies_true, and_true]
  refine ⟨?_, ?_, ?_⟩
  · and_intros <;> exact fun _ _ _ _ _ _ => compare_setsFlags rfl (length_two_operands rfl rfl)
  · and_intros <;> exact fun _ _ _ _ => test_setsFlags rfl (length_one_operand rfl rfl)
  · and_intros <;> exact fun _ _ _ _ _ _ => bitTest_setsFlags rfl (length_two_operands rfl rfl)

/-! ## Branches (R610 to R640) -/

theorem branchIf_apply {w : Nat} (c : Cond) (disp : BitVec w) (len : Nat) (s : State) :
    branchIf c disp len s = .ok ((), s.setPc
      (s.pc + if condHolds c (Psw.flags s.psw) then disp.signExtend 32 else BitVec.ofNat 32 len)) := by
  unfold branchIf
  rw [bind_ok (getState_apply s)]
  split
  · rw [branchPc_apply]
  · rw [advancePc_apply]

/-- An instruction with a displacement and len bytes goes to its target where `taken` holds of the flags, and on to the
next instruction otherwise. -/
def Branches {w : Nat} (i : BitVec w → Instr) (taken : Flags → Bool) (len : Nat) (s : State) : Prop :=
  ∀ disp, exec (i disp) s =
    .next (s.setPc (s.pc + if taken (Psw.flags s.psw) then disp.signExtend 32 else BitVec.ofNat 32 len))

theorem branchAlways_branches {w : Nat} {i : BitVec w → Instr} {len : Nat} {s : State} (ht : NotTraced s)
    (hi : ∀ disp, exec (i disp) s = runInstr false (branchAlways disp) s) : Branches i (fun _ => true) len s := by
  intro disp
  rw [hi, if_pos rfl]
  exact runInstr_plain (branchPc_apply disp s) ht (.inl rfl)

theorem branchIf_branches {w : Nat} {i : BitVec w → Instr} {len : Nat} {s : State} (c : Cond) (ht : NotTraced s)
    (hi : ∀ disp, exec (i disp) s = runInstr false (branchIf c disp len) s) : Branches i (condHolds c) len s := by
  intro disp
  rw [hi]
  exact runInstr_plain (branchIf_apply ..) ht (.inl rfl)

/-- The two sizes of a branch on a condition. -/
theorem branchIf_pair {ib : Byte → Instr} {ih : Half → Instr} (c : Cond)
    (hb : (fun disp => exec (ib disp)) = fun disp => runInstr false (branchIf c disp 2))
    (hh : (fun disp => exec (ih disp)) = fun disp => runInstr false (branchIf c disp 3)) (s : State)
    (ht : NotTraced s) : Branches ib (condHolds c) 2 s ∧ Branches ih (condHolds c) 3 s :=
  ⟨branchIf_branches c ht fun disp => congrFun (congrFun hb disp) s,
    branchIf_branches c ht fun disp => congrFun (congrFun hh disp) s⟩

/-- Settles O44: the branch without a condition, then each condition of R610 in its two sizes. -/
theorem branchResults : Obligations.BranchResults := by
  have always : ∀ s, NotTraced s → Branches .brb (fun _ => true) 2 s ∧ Branches .brh (fun _ => true) 3 s :=
    fun _ ht => ⟨branchAlways_branches ht fun _ => rfl, branchAlways_branches ht fun _ => rfl⟩
  refine List.forall_mem_cons.2 ⟨always, ?_⟩
  simp only [List.forall_mem_cons, List.not_mem_nil, false_implies, implies_true, and_true]
  exact ⟨branchIf_pair .geq rfl rfl, branchIf_pair .gtr rfl rfl, branchIf_pair .lss rfl rfl, branchIf_pair .leq rfl rfl,
    branchIf_pair .gequ rfl rfl, branchIf_pair .gtru rfl rfl, branchIf_pair .lssu rfl rfl, branchIf_pair .lequ rfl rfl,
    branchIf_pair .vc rfl rfl, branchIf_pair .vs rfl rfl, branchIf_pair .neq rfl rfl, branchIf_pair .neq rfl rfl,
    branchIf_pair .eql rfl rfl, branchIf_pair .eql rfl rfl⟩

/-! ## Returns (R641 to R654, 45_call_stack.md R666) -/

theorem popPc_eq {s : State} (hr : Readable s (s.sp - 4)) :
    popPc s = .ok ((), (s.setSp (s.sp - 4)).setPc (wordAt s (s.sp - 4))) := by
  unfold popPc
  rw [bind_ok (pop_spec hr), setReg_apply, setPc_eq]

theorem returnIf_taken {c : Cond} {s : State} (hc : condHolds c (Psw.flags s.psw) = true) :
    returnIf c s = popPc s := by
  unfold returnIf
  rw [bind_ok (getState_apply s), if_pos hc]

theorem returnIf_not_taken {c : Cond} {s : State} (hc : condHolds c (Psw.flags s.psw) = false) :
    returnIf c s = .ok ((), s.setPc (s.pc + 1)) := by
  unfold returnIf
  rw [bind_ok (getState_apply s), if_neg (Bool.eq_false_iff.mp hc)]
  exact advancePc_apply 1 s

/-- An instruction pops the PC where `taken` holds of the flags, and goes on to the next instruction otherwise. -/
def Returns (i : Instr) (taken : Flags → Bool) (s : State) : Prop :=
  (taken (Psw.flags s.psw) = true → Readable s (s.sp - 4) →
    exec i s = .next ((s.setSp (s.sp - 4)).setPc (wordAt s (s.sp - 4)))) ∧
  (taken (Psw.flags s.psw) = false → exec i s = .next (s.setPc (s.pc + 1)))

theorem rsb_returns (s : State) (ht : NotTraced s) : Returns .rsb (fun _ => true) s :=
  ⟨fun _ hr => runInstr_plain (popPc_eq hr) ht (.inl rfl), nofun⟩

theorem returnIf_returns {i : Instr} (c : Cond) (hi : exec i = runInstr false (returnIf c)) (s : State)
    (ht : NotTraced s) : Returns i (condHolds c) s := by
  refine ⟨fun hc hr => ?_, fun hc => ?_⟩ <;> rw [hi]
  · exact runInstr_plain ((returnIf_taken hc).trans (popPc_eq hr)) ht (.inl rfl)
  · exact runInstr_plain (returnIf_not_taken hc) ht (.inl rfl)

/-- Settles O45: RSB, then the return on each condition of R610. -/
theorem returnResults : Obligations.ReturnResults := by
  refine List.forall_mem_cons.2 ⟨rsb_returns, ?_⟩
  simp only [List.forall_mem_cons, List.not_mem_nil, false_implies, implies_true, and_true]
  exact ⟨returnIf_returns .geq rfl, returnIf_returns .gtr rfl, returnIf_returns .lss rfl, returnIf_returns .leq rfl,
    returnIf_returns .gequ rfl, returnIf_returns .gtru rfl, returnIf_returns .lssu rfl, returnIf_returns .lequ rfl,
    returnIf_returns .vc rfl, returnIf_returns .vs rfl, returnIf_returns .neq rfl, returnIf_returns .neq rfl,
    returnIf_returns .eql rfl, returnIf_returns .eql rfl⟩

/-! ## Jumps and subroutine calls (R655, 45_call_stack.md R665, R667, R668) -/

theorem jump_eq {dst : Operand} {s s₁ : State} {a : Word} (h : inputA dst s = .ok (a, s₁)) :
    jump dst s = .ok ((), s₁.setPc a) := by
  unfold jump
  rw [bind_ok h, setReg_apply, setPc_eq]

/-- What a subroutine call leaves: the return address at the old SP, SP past it, the PC at the target. -/
structure SubroutineCalled (ret target : Word) (s s₁ t : State) : Prop where
  stored : StoredWords [regPC, regSP] s.sp [ret] s s₁ t
  sp : t.sp = s.sp + 4
  pc : t.pc = target

section

variable {s s₁ : State} {ret target : Word} {transfer : M Unit}

/-- A push of the return address, then a transfer to the target. -/
theorem push_transfer_spec (htransfer : ∀ u, u.pc = s.pc → transfer u = .ok ((), u.setPc target))
    (c : SameCore s s₁) (hr : Room s s.sp 1) (wf : s.mem.wf) :
    ∃ t, (push ret >>= fun _ => transfer) s₁ = .ok ((), t) ∧ SubroutineCalled ret target s s₁ t := by
  obtain ⟨m, hm, e⟩ := push_spec ret c hr wf
  rw [bind_ok e, htransfer _ (by rw [setSp_pc, setMem_pc, c.pc])]
  refine ⟨_, rfl, hm.stored c rfl fun n hn => ?_, ?_, setPc_pc ..⟩
  · simp only [List.mem_cons, List.not_mem_nil, or_false, not_or] at hn
    obtain ⟨hpc, hsp⟩ := hn
    rw [setPc_reg, if_neg hpc, setSp_reg, if_neg hsp, setMem_reg, c.reg]
  · rw [setPc_sp, setSp_sp]

/-- An instruction whose work comes to a subroutine call. -/
theorem run_push_transfer {work : M Unit} (hwork : work s = (push ret >>= fun _ => transfer) s₁)
    (htransfer : ∀ u, u.pc = s.pc → transfer u = .ok ((), u.setPc target)) (c : SameCore s s₁) (hr : Room s s.sp 1)
    (wf : s.mem.wf) (ht : NotTraced s) :
    ∃ t, runInstr false work s = .next t ∧ SubroutineCalled ret target s s₁ t := by
  obtain ⟨t, e, p⟩ := push_transfer_spec htransfer c hr wf
  exact ⟨t, runInstr_plain (hwork.trans e) ht (.inl rfl), p⟩

end

theorem jumpSubroutine_eq {dst : Operand} {s s₁ : State} {a : Word} (h : inputA dst s = .ok (a, s₁)) :
    jumpSubroutine dst s = (push (s₁.pc + BitVec.ofNat 32 (1 + dst.len)) >>= fun _ => setReg regPC a) s₁ := by
  unfold jumpSubroutine
  rw [bind_ok h, bind_ok (getState_apply s₁)]

theorem jsb_called {dst : Operand} {s s₁ : State} {a : Word} (h : inputA dst s = .ok (a, s₁)) (hr : Room s s.sp 1)
    (wf : s.mem.wf) (ht : NotTraced s) :
    ∃ t, exec (.jsb dst) s = .next t ∧
      SubroutineCalled (s.pc + BitVec.ofNat 32 (Instr.jsb dst).length) a s s₁ t := by
  have c := (Reads.inputA dst).sameCore _ _ _ h
  have hwork := jumpSubroutine_eq h
  rw [c.pc] at hwork
  rw [length_one_operand (i := .jsb dst) rfl rfl]
  exact run_push_transfer hwork (fun u _ => setReg_apply regPC a u) c hr wf ht

theorem branchSubroutine_called {w : Nat} {i : Instr} {disp : BitVec w} {len : Nat} {s : State}
    (hi : exec i s = runInstr false (branchSubroutine disp len) s) (hr : Room s s.sp 1) (wf : s.mem.wf)
    (ht : NotTraced s) :
    ∃ t, exec i s = .next t ∧
      SubroutineCalled (s.pc + BitVec.ofNat 32 len) (s.pc + disp.signExtend 32) s s t := by
  rw [hi]
  exact run_push_transfer (bind_ok (getState_apply s)) (fun u hu => by rw [branchPc_apply, hu]) (.refl s) hr wf ht

/-- Settles O46: the jump, and the three subroutine calls as one push and a transfer. -/
theorem jumpResults : Obligations.JumpResults := by
  refine ⟨fun s s₁ dst a h ht => ?_, fun s s₁ dst a h hr wf ht => ?_, fun s disp hr wf ht => ?_,
    fun s disp hr wf ht => ?_⟩
  · exact ⟨(Reads.inputA dst).sameCore _ _ _ h, runInstr_plain (jump_eq h) ht (.inl rfl)⟩
  · obtain ⟨t, e, p⟩ := jsb_called h hr wf ht
    exact ⟨t, e, p.stored, p.sp, p.pc⟩
  · obtain ⟨t, e, p⟩ := branchSubroutine_called (i := .bsbb disp) rfl hr wf ht
    exact ⟨t, e, p.stored, p.sp, p.pc⟩
  · obtain ⟨t, e, p⟩ := branchSubroutine_called (i := .bsbh disp) rfl hr wf ht
    exact ⟨t, e, p.stored, p.sp, p.pc⟩

end Sys2Proof.Machine
end

section
/-! What the calls and the register frames of 45_call_stack.md leave, and that RET undoes CALL and RESTORE undoes SAVE. -/
namespace Sys2Proof.Machine

/-! ## Words that are still on the stack -/

/-- These words can be read, one above the other, from a up. -/
def WordsOn (u : State) (a : Word) (ws : List Word) : Prop :=
  ∀ k (h : k < ws.length), Readable u (wordUp a k) ∧ wordAt u (wordUp a k) = ws[k]

/-- The lowest word, and the words above it. -/
theorem WordsOn.uncons {u : State} {a v : Word} {ws : List Word} (h : WordsOn u a (v :: ws)) :
    (Readable u a ∧ wordAt u a = v) ∧ WordsOn u (a + 4) ws := by
  refine ⟨?_, fun k hk => ?_⟩
  · have h0 := h 0 (Nat.zero_lt_succ _)
    rwa [wordUp_zero] at h0
  · rw [← wordUp_succ]
    exact h (k + 1) (Nat.succ_lt_succ hk)

/-- Stored words are there in any later state with the same parameters that kept the n words of their place. -/
theorem StoredWords.wordsOn {changed : List RegNum} {a : Word} {ws : List Word} {n : Nat} {s s₁ t u : State}
    (h : StoredWords changed a ws s s₁ t) (hr : Room s a ws.length) (hn : ws.length ≤ n) (hp : u.params = t.params)
    (hm : ∀ b, covers a (4 * n) b → u.mem.read b = t.mem.read b) : WordsOn u a ws := by
  refine fun k hk => ⟨(hr.readable hk).of_params (hp.trans h.params), ?_⟩
  have hsame : wordAt u (wordUp a k) = wordAt t (wordUp a k) :=
    wordAt_congr fun b hb => hm b (covers_word (Nat.lt_of_lt_of_le hk hn) hb)
  exact hsame.trans (h.words k hk).word

/-! ## CALL and RET (R661, R662) -/

/-- CALL leaves its two words, and the registers that R661 names. -/
theorem call_stored {s s₁ : State} {argp dst : Operand} {x y : Opnd}
    (h : gather2 .addr .addr wordT argp dst s = .ok ((x, y), s₁)) (hr : Room s s.sp 2) (wf : s.mem.wf)
    (ht : NotTraced s) :
    ∃ t, exec (.call argp dst) s = .next t ∧
      StoredWords [regPC, regSP, regAP] s.sp
        [s.pc + BitVec.ofNat 32 (Instr.call argp dst).length, s.reg regAP] s s₁ t ∧
      t.sp = s.sp + 8 ∧ t.reg regAP = addressOf x ∧ t.pc = addressOf y := by
  have c : SameCore s s₁ := (Reads.gather2 ..).sameCore _ _ _ h
  obtain ⟨m, hm, e⟩ := call_spec h hr wf
  rw [length_two_operands (i := .call argp dst) rfl rfl]
  refine ⟨_, runInstr_plain e ht (.inl rfl), hm.stored c rfl fun n hn => ?_, ?_, ?_, setPc_pc ..⟩
  · simp only [List.mem_cons, List.not_mem_nil, or_false, not_or] at hn
    obtain ⟨hpc, hsp, hap⟩ := hn
    rw [setPc_reg, if_neg hpc, reg_setReg_ne _ _ hap, setSp_reg, if_neg hsp, setMem_reg, c.reg]
  · rw [setPc_sp, setReg_sp_ne _ _ (by decide), setSp_sp]
  · rw [setPc_reg, if_neg (by decide), reg_setReg_self]

/-- Settles O47: the linkage words with their frame, and the return through them. -/
theorem callResults : Obligations.CallResults :=
  ⟨fun _ _ _ _ _ _ => call_stored, fun _ h4 h8 ht => runInstr_plain (ret_spec h4 h8) ht (.inl rfl)⟩

/-- RET where the two words of R661 are below SP. -/
theorem ret_of_linkage {u : State} {a ret ap : Word} (hsp : u.sp = a + 8) (h : WordsOn u a [ret, ap])
    (ht : NotTraced u) :
    exec .ret u = .next (((u.setReg regAP ap).setPc ret).setSp (u.reg regAP)) := by
  obtain ⟨⟨hret, rfl⟩, h'⟩ := h.uncons
  obtain ⟨⟨hap, rfl⟩, -⟩ := h'.uncons
  have h4 : a + 4 = u.sp - 4 := by rw [hsp]; bv_omega
  have h8 : a = u.sp - 8 := by rw [hsp]; bv_omega
  rw [h4] at hap ⊢
  rw [h8] at hret ⊢
  exact callResults.2 u hap hret ht

/-- Settles O48: the two words that CALL stored are those that RET reads. -/
theorem callReturn : Obligations.CallReturn := by
  intro s s₁ t u argp dst x y h hr wf ht hcall hsp hap hp htu hm
  obtain ⟨t', e, stored, sp, ap, -⟩ := call_stored h hr wf ht
  obtain rfl : t' = t := Host.Outcome.next.inj (e.symm.trans hcall)
  have linkage := stored.wordsOn (n := 2) hr (Nat.le_refl 2) hp hm
  refine ⟨_, ret_of_linkage (hsp.trans sp) linkage htu, ?_, ?_, ?_, fun n hn => ?_, rfl, rfl⟩
  · rw [setSp_pc, setPc_pc]
  · rw [setSp_reg, if_neg (by decide), setPc_reg, if_neg (by decide), reg_setReg_self]
  · rw [setSp_sp, hap, ap]
  · simp only [List.mem_cons, List.not_mem_nil, or_false, not_or] at hn
    obtain ⟨hnpc, hnsp, hnap⟩ := hn
    rw [setSp_reg, if_neg hnsp, setPc_reg, if_neg hnpc, reg_setReg_ne _ _ hnap]

/-! ## SAVE and RESTORE (R663, R664) -/

/-- SAVE leaves its frame of registers, with SP and FP past it. -/
theorem save_stored {s : State} {n : RegNum} (h3 : 3 ≤ n) (h15 : n ≠ 15) (hr : Room s s.sp (1 + (9 - n.val)))
    (wf : s.mem.wf) (ht : NotTraced s) :
    ∃ t, exec (.save ⟨none, .reg n⟩) s = .next t ∧
      StoredWords [regPC, regSP, regFP] s.sp (s.reg regFP :: (savedRegs n).map s.reg) s s t ∧
      t.sp = s.sp + 28 ∧ t.reg regFP = s.sp + 28 ∧ t.pc = s.pc + 2 := by
  obtain ⟨m, hm, e⟩ := save_spec h3 h15 hr wf
  refine ⟨_, runInstr_plain e ht (.inl rfl), hm.stored (.refl s) rfl fun r hn => ?_, ?_, ?_, setPc_pc ..⟩
  · simp only [List.mem_cons, List.not_mem_nil, or_false, not_or] at hn
    obtain ⟨hpc, hsp, hfp⟩ := hn
    rw [setPc_reg, if_neg hpc, reg_setReg_ne _ _ hfp, setSp_reg, if_neg hsp, setMem_reg]
  · rw [setPc_sp, setReg_sp_ne _ _ (by decide), setSp_sp]
  · rw [setPc_reg, if_neg (by decide), reg_setReg_self]

/-- Settles O49: the stored frame of registers, and the registers loaded from below FP. -/
theorem saveRestoreResults : Obligations.SaveRestoreResults := by
  refine ⟨fun _ _ => save_stored, fun s n h3 h15 h28 hrest ht => ?_⟩
  obtain ⟨t, e, results⟩ := restore_spec h3 h15 h28 hrest
  exact ⟨t, runInstr_plain e ht (.inl rfl), results⟩

/-- A frame of SAVE fits the seven words by which it moves SP. -/
theorem saveFrame_length_le {n : RegNum} (h3 : 3 ≤ n) (v : Word) (f : RegNum → Word) :
    (v :: (savedRegs n).map f).length ≤ 7 := by
  rw [List.length_cons, List.length_map, savedRegs_length]
  have : 3 ≤ n.val := h3
  omega

/-- RESTORE where the frame of R663 is below FP. -/
theorem restore_of_frame {u : State} {a fp : Word} {n : RegNum} {f : RegNum → Word} (h3 : 3 ≤ n) (h15 : n ≠ 15)
    (hfp : u.reg regFP = a + 28) (h : WordsOn u a (fp :: (savedRegs n).map f)) (ht : NotTraced u) :
    ∃ v, exec (.restore ⟨none, .reg n⟩) u = .next v ∧ v.reg regFP = fp ∧ v.sp = a ∧
      (∀ r : RegNum, n ≤ r → r ≤ 8 → v.reg r = f r) ∧ v.mem = u.mem := by
  obtain ⟨⟨hread, rfl⟩, hregs⟩ := h.uncons
  have h28 : u.reg regFP - 28 = a := by rw [hfp]; bv_omega
  have h24 : u.reg regFP - 24 = a + 4 := by rw [hfp]; bv_omega
  obtain ⟨v, e, loaded, -, vfp, vsp, -, hv⟩ := saveRestoreResults.2 u n h3 h15 (by rwa [h28])
    (fun k hk => by rw [h24]; exact (hregs k (by rwa [List.length_map, savedRegs_length])).1) ht
  rw [h28] at vfp vsp
  rw [h24] at loaded
  refine ⟨v, e, vfp, vsp, fun r hn h8 => ?_, by rw [hv]⟩
  obtain ⟨hk, hget⟩ := savedRegs_get n r hn h8
  rw [loaded r hn h8, (hregs _ (by rwa [List.length_map])).2, List.getElem_map, hget]

/-- Settles O50: the frame that SAVE stored is the one that RESTORE loads. -/
theorem saveRestoreReturn : Obligations.SaveRestoreReturn := by
  intro s t u n h3 h15 hr wf ht hsave hfp hp htu hm
  obtain ⟨t', e, stored, -, fp, -⟩ := save_stored h3 h15 hr wf ht
  obtain rfl : t' = t := Host.Outcome.next.inj (e.symm.trans hsave)
  have hroom : Room s s.sp (s.reg regFP :: (savedRegs n).map s.reg).length := by
    rwa [List.length_cons, List.length_map, savedRegs_length, Nat.add_comm]
  have frame := stored.wordsOn (n := 7) hroom (saveFrame_length_le h3 ..) hp hm
  exact restore_of_frame h3 h15 (hfp.trans fp) frame htu

end Sys2Proof.Machine
end

section
/-! What the block and string instructions of 46_block_string.md leave once they complete. -/
namespace Sys2Proof.Machine

/-! ## MOVBLW (R701) -/

section

variable {s t : State} {a c : Word} {n k : Nat}

/-- Where no word is stored over a later source word, a destination word is its source word. -/
theorem wordAt_of_copiedByte_apart (hm : ∀ b : Word, t.mem.read b.toNat = copiedByte s.mem a c n b)
    (hn : 4 * n ≤ 2 ^ 32)
    (ha : ∀ j k, j < k → k < n → ∀ b, covers (wordUp a k) 4 b → ¬ covers (wordUp c j) 4 b) (hk : k < n) :
    wordAt t (wordUp c k) = wordAt s (wordUp a k) :=
  wordAt_of_bytes fun _ hx => (hm _).trans (copiedByte_apart hn ha hk hx)

/-- With the destination d words above the source, the destination repeats the first d source words. -/
theorem wordAt_of_copiedByte_replicated (hm : ∀ b : Word, t.mem.read b.toNat = copiedByte s.mem a c n b)
    (hn : 4 * n ≤ 2 ^ 32) {d : Nat} (h0 : 0 < d) (hd : d < n) (hc : c = wordUp a d) (hk : k < n) :
    wordAt t (wordUp c k) = wordAt s (wordUp a (k % d)) :=
  wordAt_of_bytes fun x hx => by
    rw [hm, copiedByte_dest hn hk hx, copiedByte_replicated hn h0 hd hc hx k hk]

end

/-- The state after MOVBLW of n words: memory m, r0 and r1 past the words, r2 counted down to 0. -/
def blockMoved (s : State) (n : Nat) (m : Memory) : State :=
  ((({ s with mem := m }.setReg 0 (wordUp (s.reg 0) n)).setReg 1 (wordUp (s.reg 1) n)).setReg 2 0).setPc (s.pc + 2)

theorem blockMoved_reg (s : State) (n : Nat) (m : Memory) (r : RegNum) :
    (blockMoved s n m).reg r =
      if r = regPC then s.pc + 2 else if r = 2 then 0 else if r = 1 then wordUp (s.reg 1) n
      else if r = 0 then wordUp (s.reg 0) n else s.reg r := by
  simp only [blockMoved, setPc_reg, reg_setReg, setMem_reg]

/-- MOVBLW is its loop, then the PC. -/
theorem moveBlock_spec {s : State} {n : Nat} (h2 : (s.reg 2).toNat = n) (wf : s.mem.wf)
    (hr : ∀ k, k < n → Readable s (wordUp (s.reg 0) k)) (hw : Room s (s.reg 1) n) :
    ∃ m, (∀ b : Word, Memory.read m b.toNat = copiedByte s.mem (s.reg 0) (s.reg 1) n b) ∧
      (∀ b, ¬ covers (s.reg 1) (4 * n) b → Memory.read m b = s.mem.read b) ∧
      moveBlock s = .ok ((), blockMoved s n m) := by
  obtain ⟨m, -, hm, ho, loop⟩ := moveWords_spec n wf hr hw
  have counted : s.reg 2 - BitVec.ofNat 32 n = 0 := by
    rw [← h2, BitVec.ofNat_toNat, BitVec.setWidth_eq, BitVec.sub_self]
    rfl
  refine ⟨m, hm, ho, ?_⟩
  rw [moveBlock, bind_ok (getReg_apply ..), h2, bind_ok loop, advancePc_apply, counted,
    setReg_pc_ne _ _ (by decide), setReg_pc_ne _ _ (by decide), setReg_pc_ne _ _ (by decide)]
  rfl

/-- Settles O51: the loop leaves `copiedByte` everywhere, and the other clauses on memory are what `copiedByte` is for
each position of the destination. -/
theorem blockMoveResults : Obligations.BlockMoveResults := by
  intro s n h2 hn wf ht hr hw
  obtain ⟨m, hm, ho, e⟩ := moveBlock_spec h2 wf hr hw
  refine ⟨blockMoved s n m, runInstr_plain e ht (.inl rfl), hm, fun ha k => wordAt_of_copiedByte_apart hm hn ha,
    fun d h0 hd hc k => wordAt_of_copiedByte_replicated hm hn h0 hd hc, fun hself b => ?_, ho,
    blockMoved_reg s n m 0, blockMoved_reg s n m 1, blockMoved_reg s n m 2, blockMoved_reg s n m regPC,
    fun r hr => ?_, rfl⟩
  · exact (hm b).trans (by rw [hself, copiedByte_self])
  · simp only [List.mem_cons, List.not_mem_nil, or_false, not_or] at hr
    obtain ⟨h0, h1, h2, hpc⟩ := hr
    rw [blockMoved_reg, if_neg hpc, if_neg h2, if_neg h1, if_neg h0]

/-! ## STRCPY and STREND (R702, R703) -/

section

variable {s : State} {n : Nat}

/-- STRCPY is its loop, then the PC; a string ends before the bound of the loop. -/
theorem stringCopy_spec (wf : s.mem.wf) (hr : ∀ k, k ≤ n → ReadableByte s (s.reg 0 + BitVec.ofNat 32 k))
    (hw : ∀ k, k ≤ n → dataRoute s.params (s.reg 1 + BitVec.ofNat 32 k) .byte .write = .ok .ram)
    (hne : ∀ k, k < n → s.mem.read (s.reg 0 + BitVec.ofNat 32 k).toNat ≠ 0)
    (h0 : s.mem.read (s.reg 0 + BitVec.ofNat 32 n).toNat = 0)
    (ha : ∀ i j, i < j → j ≤ n → s.reg 0 + BitVec.ofNat 32 j ≠ s.reg 1 + BitVec.ofNat 32 i) :
    ∃ m, (∀ k, k ≤ n →
        Memory.read m (s.reg 1 + BitVec.ofNat 32 k).toNat = s.mem.read (s.reg 0 + BitVec.ofNat 32 k).toNat) ∧
      (∀ b, ¬ covers (s.reg 1) (n + 1) b → Memory.read m b = s.mem.read b) ∧
      stringCopy s = .ok ((), { s with mem := m }.setPc (s.pc + 2)) := by
  have hlt := nul_lt hne h0
  obtain ⟨m, loop, -, hm, ho⟩ := copyString_spec n _ (lt_addressCount hlt) hlt wf hr hw hne h0 ha
  exact ⟨m, hm, ho, by rw [stringCopy, bind_ok (getState_apply s), bind_ok loop, advancePc_apply]; rfl⟩

/-- STREND is its loop, then r0 and the PC. -/
theorem stringEnd_spec (hr : ∀ k, k ≤ n → ReadableByte s (s.reg 0 + BitVec.ofNat 32 k))
    (hne : ∀ k, k < n → s.mem.read (s.reg 0 + BitVec.ofNat 32 k).toNat ≠ 0)
    (h0 : s.mem.read (s.reg 0 + BitVec.ofNat 32 n).toNat = 0) :
    stringEnd s = .ok ((), (s.setReg 0 (s.reg 0 + BitVec.ofNat 32 n)).setPc (s.pc + 2)) := by
  have loop := findNul_spec n _ (lt_addressCount (nul_lt hne h0)) hr hne h0
  rw [stringEnd, bind_ok (getState_apply s), bind_ok loop, bind_ok (setReg_apply ..), advancePc_apply,
    setReg_pc_ne _ _ (by decide)]
  rfl

end

/-- Settles O52: each instruction is its loop up to the first 0 byte, and neither writes the PSW. -/
theorem stringResults : Obligations.StringResults := by
  refine ⟨fun s n wf ht hr hw hne h0 ha => ?_, fun s n ht hr hne h0 => ?_⟩
  · obtain ⟨m, hm, ho, e⟩ := stringCopy_spec wf hr hw hne h0 ha
    exact ⟨_, runInstr_plain e ht (.inl rfl), hm, ho, rfl⟩
  · exact runInstr_plain (stringEnd_spec hr hne h0) ht (.inl rfl)

end Sys2Proof.Machine
end

section
/-! What the system instructions of 47_system.md leave or raise, and that RETG undoes a trap entry. -/
namespace Sys2Proof.Machine

/-! ## HALT, NOP, CFLUSH, MVERNO and WAIT (R721 to R724, R727, R745, R748) -/

theorem moveVersion_eq (s : State) :
    moveVersion s = .ok ((), (s.setReg 0 s.params.mvernoValue).setPc (s.pc + 2)) := by
  rw [moveVersion, bind_ok (getState_apply s), bind_ok (setReg_apply ..), advancePc_apply,
    setReg_pc_ne _ _ (by decide)]
  rfl

theorem requireKernel_ok {s : State} (hk : s.kernel = true) : requireKernel s = .ok ((), s) := by
  rw [requireKernel, if_pos hk]

theorem requireKernel_raises {s : State} (hk : s.kernel = false) : Raises .privilegedOpcode requireKernel s :=
  ⟨none, by rw [requireKernel, hk, if_neg Bool.false_ne_true]⟩

theorem waitForInterrupt_kernel {s : State} (hk : s.kernel = true) :
    waitForInterrupt s = .ok ((), { s.setPc (s.pc + 1) with waiting := true }) := by
  rw [waitForInterrupt, bind_ok (requireKernel_ok hk), bind_ok (advancePc_apply ..), update_apply]
  rfl

/-- Settles O53: HALT has no end-of-instruction trap, and every other one is one or two updates. -/
theorem systemResults : Obligations.SystemResults := by
  refine ⟨exec_halt, fun s ht => ?_⟩
  have advances (len : Nat) : runInstr false (advancePc len) s = .next (s.setPc (s.pc + BitVec.ofNat 32 len)) :=
    runInstr_plain (advancePc_apply len s) ht (.inl rfl)
  exact ⟨advances 1, fun _ => advances 2, fun _ => advances 3, advances 1,
    runInstr_plain (moveVersion_eq s) ht (.inl rfl),
    fun hk => runInstr_plain (waitForInterrupt_kernel hk) ht (.inl rfl)⟩

/-! ## The instructions whose effect is a trap (R720, R725, R726, R750 to R766) -/

theorem runInstr_raise (b : Bool) (k : FaultKind) (s : State) : runInstr b (raise k) s = .next (takeTrap k s) :=
  runInstr_trap (raise_apply k s)

theorem exec_bpt (s : State) : exec .bpt s = runInstr false (raise .breakpoint) s := rfl

/-- The support processor's opcodes raise IllegalInstruction in either mode. -/
theorem exec_support {i : Instr} {w : Word} {a b : Operand} (s : State)
    (h : i ∈ ([.spop w, .spoprs w a, .spoprd w a, .spoprt w a, .spops2 w a b, .spopd2 w a b, .spopt2 w a b,
      .spopws w a, .spopwd w a, .spopwt w a] : List Instr)) :
    exec i s = runInstr false (raise .illegalInstruction) s := by
  revert i
  simp only [List.forall_mem_cons, List.not_mem_nil, false_implies, implies_true, and_true]
  and_intros <;> rfl

theorem exec_refusedPrivileged {i : Instr} {a b : Operand} (s : State)
    (h : i ∈ ([.intack, .callps, .retps, .enbvjmp, .disvjmp, .movtrw a b] : List Instr)) :
    exec i s = runInstr false refusePrivileged s := by
  revert i
  simp only [List.forall_mem_cons, List.not_mem_nil, false_implies, implies_true, and_true]
  and_intros <;> rfl

/-- The mode is checked before the refusal. -/
theorem refusePrivileged_raises (s : State) :
    Raises (if s.kernel then .illegalInstruction else .privilegedOpcode) refusePrivileged s := by
  cases hk : s.kernel with
  | true => exact .after (requireKernel_ok hk) ⟨none, raise_apply ..⟩
  | false => exact (requireKernel_raises hk).bind

/-- Settles O54: the work of each is a raise, behind the mode check where the opcode is privileged. -/
theorem trappingInstructions : Obligations.TrappingInstructions := by
  refine fun s => ⟨?_, ?_, ?_, ?_, fun hk => ?_⟩
  · rw [exec_bpt, runInstr_raise]
  · rw [exec_extop, runInstr_raise]
  · rintro i ⟨w, a, b, hi⟩
    rw [exec_support s hi, runInstr_raise]
  · rintro i ⟨a, b, hi⟩
    rw [exec_refusedPrivileged s hi]
    exact (refusePrivileged_raises s).run
  · rw [exec_wait]
    exact (requireKernel_raises hk).bind.run

/-! ## GATE and RETG (R728, R741, 60_exceptions.md R820) -/

/-- GATE is a gate transfer at the masked indexes that saves the PSW as it was. -/
theorem gate_taken {s : State} (h : GateReady s (s.reg 1 &&& 0x7C) (s.reg 0 &&& 0x7FF8)) (wf : s.mem.wf)
    (ht : NotTraced s) :
    ∃ t, exec .gate s = .next t ∧
      GateTaken (s.pc + 2) s.psw (s.reg 1 &&& 0x7C) (s.reg 0 &&& 0x7FF8) (Psw.ipl s.psw) s t := by
  obtain ⟨m, hm, e⟩ := gateTransfer_spec (s.pc + 2) s.psw none h wf
  have work : gate s = _ := (bind_ok (getState_apply s)).trans e
  exact ⟨_, runInstr_plain work ht (.inl rfl), GateTaken.intro (ipl := none) hm (.refl s) ⟨rfl, rfl⟩ rfl⟩

/-- The PSW that RETG restores from a frame's word: its IPL is the frame's in kernel mode only. -/
def restoredPsw (s : State) (saved : Word) : Word :=
  if s.kernel then saved &&& Config.pswMask else Psw.setIpl (Psw.ipl s.psw) (saved &&& Config.pswMask)

theorem restoredPsw_kernel {s : State} (hk : s.kernel = true) (saved : Word) :
    restoredPsw s saved = saved &&& Config.pswMask :=
  if_pos hk

theorem restoredPsw_user {s : State} (hk : s.kernel = false) (saved : Word) :
    restoredPsw s saved = Psw.setIpl (Psw.ipl s.psw) (saved &&& Config.pswMask) := by
  rw [restoredPsw, hk, if_neg Bool.false_ne_true]

theorem restoredPsw_ipl (s : State) (saved : Word) : Psw.ipl (restoredPsw s saved) =
    if s.kernel then Psw.ipl (saved &&& Config.pswMask) else Psw.ipl s.psw := by
  cases hk : s.kernel with
  | true => rw [restoredPsw_kernel hk, if_pos rfl]
  | false =>
    rw [restoredPsw_user hk, if_neg Bool.false_ne_true]
    exact psw_field _ _ (by decide)

theorem restoredPsw_bit (s : State) (saved : Word) {k : Nat} (h : k < 13 ∨ 17 ≤ k) :
    (restoredPsw s saved).getLsbD k = (saved &&& Config.pswMask).getLsbD k := by
  cases hk : s.kernel with
  | true => rw [restoredPsw_kernel hk]
  | false => rw [restoredPsw_user hk, Psw.setIpl, setField_bit _ _ _ _ _ (by decide), if_neg (by omega)]

section

variable {s : State}

/-- RETG to the same level or a less privileged one restores PSW and PC. -/
theorem retg_returns (h4 : Readable s (s.sp - 4)) (h8 : Readable s (s.sp - 8)) (ht : NotTraced s)
    (hl : Psw.cm s.psw ≤ Psw.cm (wordAt s (s.sp - 4) &&& Config.pswMask)) :
    exec .retg s = .next (((s.setSp (s.sp - 8)).setPsw (restoredPsw s (wordAt s (s.sp - 4)))).setPc
      (wordAt s (s.sp - 8))) :=
  runInstr_plain ((retg_eq h4 h8).trans (if_neg (BitVec.not_lt.2 hl))) ht (.inl rfl)

/-- RETG to a more privileged level is refused. -/
theorem retg_refused (h4 : Readable s (s.sp - 4)) (h8 : Readable s (s.sp - 8))
    (hl : Psw.cm (wordAt s (s.sp - 4) &&& Config.pswMask) < Psw.cm s.psw) :
    exec .retg s = .next (takeTrap .illegalLevelChange s) :=
  runInstr_trap ((retg_eq h4 h8).trans (if_pos hl))

end

/-- Settles O55: the gate transfer of GATE, and the two outcomes of RETG's level check. -/
theorem gateResults : Obligations.GateResults := by
  refine ⟨fun _ => gate_taken, ?_⟩
  rintro s _ h4 h8 ht rfl
  exact ⟨fun hl => ⟨restoredPsw s (wordAt s (s.sp - 4)), retg_returns h4 h8 ht hl, restoredPsw_ipl ..,
    fun _ => restoredPsw_bit s _⟩, retg_refused h4 h8⟩

/-! ## RETG after a trap entry (R741, 60_exceptions.md R810, R820, R821) -/

/-- Kernel mode is the most privileged level: no level is refused from it. -/
theorem cm_le_of_kernel {u : State} (hk : u.kernel = true) (w : Word) : Psw.cm u.psw ≤ Psw.cm w := by
  have zero : Psw.cm u.psw = 0 := eq_of_beq hk
  rw [zero]
  exact Nat.zero_le _

/-- RETG in kernel mode where the two words of a TrapFrame are below SP. -/
theorem retg_of_frame {u : State} {a pc psw : Word} (hsp : u.sp = a + 8) (h : WordsOn u a [pc, psw])
    (hk : u.kernel = true) (ht : NotTraced u) :
    exec .retg u = .next (((u.setSp a).setPsw (psw &&& Config.pswMask)).setPc pc) := by
  obtain ⟨⟨hpc, rfl⟩, h'⟩ := h.uncons
  obtain ⟨⟨hpsw, rfl⟩, -⟩ := h'.uncons
  have h4 : a + 4 = u.sp - 4 := by rw [hsp]; bv_omega
  have h8 : a = u.sp - 8 := by rw [hsp]; bv_omega
  rw [h4] at hpsw ⊢
  rw [h8] at hpc ⊢
  rw [retg_returns hpsw hpc ht (cm_le_of_kernel hk _), restoredPsw_kernel hk]

theorem and_pswMask_of_reserved {w : Word} (h : w &&& ~~~Config.pswMask = 0) : w &&& Config.pswMask = w := by
  rw [reserved_iff] at h
  refine BitVec.eq_of_getLsbD_eq fun k _ => ?_
  rw [BitVec.getLsbD_and, pswMask_bit]
  by_cases hk : k < 26
  · rw [decide_eq_true hk, Bool.and_true]
  · rw [h k (Nat.le_of_not_lt hk), Bool.false_and]

/-- A trap saves a PSW whose reserved bits are 0 with them 0. -/
theorem trapPsw_reserved {psw : Word} (k : FaultKind) (h : psw &&& ~~~Config.pswMask = 0) :
    trapPsw k psw &&& ~~~Config.pswMask = 0 := by
  rw [reserved_iff] at h ⊢
  intro j hj
  rw [trapPsw, Psw.setIsc, setField_high _ _ _ (by decide) hj, Psw.setEt, setField_high _ _ _ (by decide) hj, h j hj]

/-- Settles O29: the frame that the trap stored is the one that RETG reads. -/
theorem trapReturn : Obligations.TrapReturn := by
  intro k s u hg wf hres hmem hp hsp hk ht
  have entry := takeTrap_taken k hg wf
  have frame : WordsOn u s.sp [s.pc, trapPsw k s.psw] :=
    entry.frame.wordsOn (n := 2) hg.room (Nat.le_refl 2) (hp.trans entry.frame.params.symm) fun b _ => by rw [hmem]
  refine ⟨_, retg_of_frame (a := s.sp) (hsp.trans entry.sp) frame hk ht, ?_, ?_, ?_, fun n hn => ?_, rfl, rfl⟩
  · rw [setPc_pc]
  · rw [setPc_sp, setPsw_sp, setSp_sp]
  · rw [setPc_psw, setPsw_psw, and_pswMask_of_reserved (trapPsw_reserved k hres)]
    exact savedPsw_intro ..
  · simp only [List.mem_cons, List.not_mem_nil, or_false, not_or] at hn
    obtain ⟨hnpc, hnsp, hnpsw⟩ := hn
    rw [setPc_reg, if_neg hnpc, setPsw_reg, if_neg hnpsw, setSp_reg, if_neg hnsp]

end Sys2Proof.Machine
end

section
/-! What a step does around an instruction, and the interrupt it accepts. -/
namespace Sys2Proof.Machine

/-! ## Steps with and without an instruction (70_reset_and_hazards.md R910, R911, R920) -/

/-- Settles O6: the step executes at the start-trace state, whose fetch window is that of s. -/
theorem stepRunsDecoded : Obligations.StepRunsDecoded := by
  intro s i rest hrun hwait hpick hdec
  rw [step_eq hrun hwait hpick, executeAt_ok (i := i) (rest := rest) (by rwa [startTrace_window]), startTrace_window]
  cases exec i s.startTrace <;> rfl

theorem step_stopped {s : State} (h : s.status ≠ .running) : step s = .next s := if_neg h

theorem checkInterrupt_none {s : State} (h : pickIrq s.params s.pending (Psw.ipl s.psw) = none) :
    checkInterrupt s = s := by
  rw [checkInterrupt, h]

theorem checkInterrupt_some {s : State} {i : Fin 5} (h : pickIrq s.params s.pending (Psw.ipl s.psw) = some i) :
    checkInterrupt s = takeInterrupt i s := by
  rw [checkInterrupt, h]

/-- A waiting machine whose interrupt check leaves it waiting advances the DUART. -/
theorem step_waiting {s : State} (hrun : s.status = .running) (hwait : s.waiting = true)
    (hpick : pickIrq s.params s.pending (Psw.ipl s.psw) = none) : step s = .next s.advanceDuart := by
  simp only [step, stepWith, checkInterrupt_none hpick, if_pos hrun, hwait, if_true]

/-- Settles O8: a stopped machine fails the first test of the step, a waiting one the third. -/
theorem stepsWithoutInstruction : Obligations.StepsWithoutInstruction :=
  ⟨fun _ => step_stopped, fun s hrun hwait hpick =>
    ⟨s.advanceDuart, step_waiting hrun hwait hpick, rfl, rfl, rfl, rfl, hrun, hwait, rfl, rfl⟩⟩

/-! ## Interrupts (60_exceptions.md R842, R843) -/

/-- Settles O10: the choice among all five sources, without the bound on the source. -/
theorem highestPriority : Obligations.HighestPriority := by
  intro p pending threshold
  have h := pickIrq_best p pending threshold
  refine ⟨fun i hi => ?_, fun hn j hj hlt => h.none hn j j.isLt ⟨hj, hlt⟩⟩
  obtain ⟨-, ⟨hpend, hprio⟩, hbest⟩ := h.best i hi
  exact ⟨hpend, hprio, fun j hj hlt => hbest j j.isLt ⟨hj, hlt⟩⟩

/-- The machine that an interrupt entry for source i starts from: the wait ended, the latch cleared. -/
def interruptStart (s : State) (i : Fin 5) : State :=
  { s with waiting := false, pending := s.pending.set i.val false i.isLt }

/-- An interrupt that can be delivered, in the terms of R820. -/
theorem takeInterrupt_taken {s : State} (i : Fin 5) (h : GateReady s 0 (gateOffset (irqVectorIndex i)))
    (wf : s.mem.wf) :
    GateTaken s.pc (interruptPsw s.psw) 0 (gateOffset (irqVectorIndex i)) s.params.irqPriority[i]
      (interruptStart s i) (takeInterrupt i s) := by
  obtain ⟨m, hm, e⟩ := takeInterrupt_spec i h wf
  have hm' : MemHolds (interruptStart s i) (interruptStart s i).sp [s.pc, interruptPsw s.psw] m :=
    ⟨hm.wf, hm.words, hm.others⟩
  exact GateTaken.intro (ipl := some s.params.irqPriority[i]) hm' (.refl _) ⟨rfl, rfl⟩ e

/-- A step whose interrupt check leaves a running machine that does not wait executes one instruction. -/
theorem step_after_check {s : State} (hrun : s.status = .running) (hrun' : (checkInterrupt s).status = .running)
    (hwait : (checkInterrupt s).waiting = false) :
    step s = match executeAt exec (checkInterrupt s).startTrace with
      | .next u => .next (endOfStep u)
      | .fault f => .fault f
      | .refused r => .refused r := by
  unfold step stepWith
  rw [if_pos hrun]
  dsimp only
  rw [if_pos hrun', hwait]
  all_goals rfl

/-- Settles O9: the interrupt entry is a gate transfer, after which the step goes on with the handler. -/
theorem interruptTaken : Obligations.InterruptTaken := by
  intro s i hrun wf hpick ready
  have taken := takeInterrupt_taken i ready wf
  have check : checkInterrupt s = takeInterrupt i s := checkInterrupt_some hpick
  have run := step_after_check hrun (by rw [check]; exact taken.frame.status.trans hrun)
    (by rw [check]; exact taken.frame.waiting)
  rw [check] at run
  exact ⟨takeInterrupt i s, interruptPsw s.psw, savedPsw_intro .., taken, run⟩

/-! ## Deliveries that fail (R814, R843) -/

theorem takeInterrupt_failed {s : State} {i : Fin 5} {e : Exn}
    (h : gateTransfer s.pc (interruptPsw s.psw) 0 (gateOffset (irqVectorIndex i)) (some s.params.irqPriority[i]) s =
      .error e) : takeInterrupt i s = { s with status := .faulted .busFault } := by
  rw [takeInterrupt, h]

/-- Settles O28: a trap and an interrupt are delivered by the same gate transfer, which faults at the word that cannot
be reached. -/
theorem deliveryFails : Obligations.DeliveryFails := by
  refine fun s => ⟨fun h => ⟨fun k => ?_, fun i => ?_⟩, fun off hr hb hap he => ⟨?_, ?_⟩⟩
  · obtain ⟨e, he⟩ := gate_fails h s.pc (trapPsw k s.psw) (gateOffset (iscOf k).toNat) none
    exact takeTrap_failed he
  · obtain ⟨e, he⟩ := gate_fails h s.pc (interruptPsw s.psw) (gateOffset (irqVectorIndex i))
      (some s.params.irqPriority[i])
    exact takeInterrupt_failed he
  · rintro k rfl
    obtain ⟨e, he⟩ := gate_fails_entry hr hb hap he s.pc (trapPsw k s.psw) none
    exact takeTrap_failed he
  · rintro i rfl
    obtain ⟨e, he⟩ := gate_fails_entry hr hb hap he s.pc (interruptPsw s.psw) (some s.params.irqPriority[i])
    exact takeInterrupt_failed he

end Sys2Proof.Machine
end

section
/-! The traps at the end of an instruction. -/
namespace Sys2Proof.Machine

/-! ## Traps after the results of a destination operand (60_exceptions.md R811, R815, R816) -/

/-- Instruction i, whose operands were read up to s₁, stores r, leaves this PSW, and then takes the trap k. -/
def EndsInTrap (k : FaultKind) (i : Instr) (d : Opnd) (r : Int) (psw : Word) (s s₁ : State) : Prop :=
  ∃ t, exec i s = .next (takeTrap k t) ∧ Completed d r psw (s.pc + BitVec.ofNat 32 i.length) s s₁ t

/-- The trap that is due at the end of an instruction that can overflow: IntegerOverflow by the PSW it leaves, else
Trace by the TM it began with. -/
def EndTrapDue (i : Instr) (d : Opnd) (r : Int) (psw : Word) (s s₁ : State) : Prop :=
  (Psw.v psw = true → Psw.oe psw = true → EndsInTrap .integerOverflow i d r psw s s₁) ∧
    (NoOverflow psw → Psw.tm s.psw = true → EndsInTrap .trace i d r psw s s₁)

section

variable {i : Instr} {s s₁ : State} {d : Opnd} {op : AluOp} {ty : OpType} {n a b r : Int} {psw : Word}

theorem finish_endTrapDue {work : M Unit} {f : Flags} {len : Nat} (hi : exec i s = runInstr true work s)
    (hl : i.length = len) (hwork : work s = finish d r f len s₁) (c : SameCore s s₁) (hw : d.Writable s₁)
    (wf : s.mem.wf) (hp : psw = pswAfter d r f s.psw) : EndTrapDue i d r psw s s₁ := by
  unfold EndTrapDue EndsInTrap
  rw [hi, hl]
  exact ⟨run_finish_overflow hwork c hw wf hp, fun hn ht => run_finish_traced hwork c hw wf ht hp (.inr hn)⟩

theorem arith2_endTrapDue {src dst : Operand} (hi : exec i s = runInstr true (arith2 op ty src dst) s)
    (hl : i.length = 1 + src.len + dst.len) (h : inputRM ty src dst s = .ok ((a, b, d), s₁))
    (hr : aluResult op a b = some r) (hw : d.Writable s₁) (wf : s.mem.wf)
    (hp : psw = pswAfter d r (aluFlags op d.type a b r) s.psw) : EndTrapDue i d r psw s s₁ :=
  finish_endTrapDue hi hl (arith2_eq h hr) ((Reads.inputRM ..).sameCore _ _ _ h) hw wf hp

theorem arith3_endTrapDue {src1 src2 dst : Operand} (hi : exec i s = runInstr true (arith3 op ty src1 src2 dst) s)
    (hl : i.length = 1 + src1.len + src2.len + dst.len) (h : inputRRW ty src1 src2 dst s = .ok ((a, b, d), s₁))
    (hr : aluResult op a b = some r) (hw : d.Writable s₁) (wf : s.mem.wf)
    (hp : psw = pswAfter d r (aluFlags op d.type a b r) s.psw) : EndTrapDue i d r psw s s₁ :=
  finish_endTrapDue hi hl (arith3_eq h hr) ((Reads.inputRRW ..).sameCore _ _ _ h) hw wf hp

theorem arithOne_endTrapDue {dst : Operand} (hi : exec i s = runInstr true (arithOne op ty dst) s)
    (hl : i.length = 1 + dst.len) (h : inputM ty dst s = .ok ((b, d), s₁)) (hr : aluResult op 1 b = some r)
    (hw : d.Writable s₁) (wf : s.mem.wf) (hp : psw = pswAfter d r (aluFlags op d.type 1 b r) s.psw) :
    EndTrapDue i d r psw s s₁ :=
  finish_endTrapDue hi hl (arithOne_eq h hr) ((Reads.inputM ..).sameCore _ _ _ h) hw wf hp

theorem arithNeg_endTrapDue {src dst : Operand} (hi : exec i s = runInstr true (arithNeg ty src dst) s)
    (hl : i.length = 1 + src.len + dst.len) (h : inputRW ty src dst s = .ok ((a, d), s₁)) (hw : d.Writable s₁)
    (wf : s.mem.wf) (hp : psw = pswAfter d (-a) (aluFlags .sub d.type a 0 (-a)) s.psw) :
    EndTrapDue i d (-a) psw s s₁ := by
  rw [← Int.zero_sub] at hp ⊢
  exact finish_endTrapDue hi hl (arithNeg_eq h) ((Reads.inputRW ..).sameCore _ _ _ h) hw wf hp

theorem shiftLeftArith_endTrapDue {count src dst : Operand} (h : inputRRW wordT count src dst s = .ok ((n, a, d), s₁))
    (hr : r = a * 2 ^ shiftCount n) (hw : d.Writable s₁) (wf : s.mem.wf)
    (hp : psw = pswAfter d r (flagsOf d.type r false (flagTrunc d.type r)) s.psw) :
    EndTrapDue (.alsw3 count src dst) d r psw s s₁ := by
  subst hr
  exact finish_endTrapDue rfl (length_three_operands rfl rfl) (shiftLeftArith_eq h)
    ((Reads.inputRRW ..).sameCore _ _ _ h) hw wf hp

/-- MOV* is no instruction of R816: Trace alone can follow it. -/
theorem move_traced {src dst : Operand} {v : Int} (hi : exec i s = runInstr false (move ty src dst) s)
    (hl : i.length = 1 + src.len + dst.len) (h : inputRW ty src dst s = .ok ((v, d), s₁)) (hw : d.Writable s₁)
    (wf : s.mem.wf) (ht : Psw.tm s.psw = true) :
    EndsInTrap .trace i d v (movPswAfter d v (flagsOf d.type v false (flagTrunc d.type v)) s) s s₁ := by
  obtain ⟨t, e, c⟩ := finishMov_spec v (flagsOf d.type v false (flagTrunc d.type v)) (1 + src.len + dst.len)
    ((Reads.inputRW ..).sameCore _ _ _ h) hw wf
  refine ⟨t, hi.trans (runInstr_traced ((move_eq h).trans e) ht (.inl rfl)), ?_⟩
  rwa [hl]

theorem logic2_traced {op : BitOp} {src dst : Operand} (hi : exec i s = runInstr false (logic2 op ty src dst) s)
    (hl : i.length = 1 + src.len + dst.len) (h : inputRM ty src dst s = .ok ((a, b, d), s₁))
    (hr : r = interpType d.type (bitResult op (patternOf a) (patternOf b))) (hw : d.Writable s₁) (wf : s.mem.wf)
    (ht : Psw.tm s.psw = true) :
    EndsInTrap .trace i d r (pswAfter d r (flagsOf d.type r false false) s.psw) s s₁ := by
  subst hr
  rw [EndsInTrap, hi, hl]
  exact run_finish_traced (logic2_eq h) ((Reads.inputRM ..).sameCore _ _ _ h) hw wf ht rfl (.inl rfl)

end

/-! ## Trace after a transfer of control (R815) -/

/-- A work that raises no IntegerOverflow, run from a state with TM = 1. -/
theorem run_traced {i : Instr} {work : M Unit} {s t : State} (ht : Psw.tm s.psw = true)
    (hi : exec i s = runInstr false work s) (hwork : work s = .ok ((), t)) :
    exec i s = .next (takeTrap .trace t) :=
  hi.trans (runInstr_traced hwork ht (.inl rfl))

/-- The two sizes of a branch on a condition, traced. -/
theorem branchIf_pair_traced {ib : Byte → Instr} {ih : Half → Instr} (c : Cond)
    (hb : (fun disp => exec (ib disp)) = fun disp => runInstr false (branchIf c disp 2))
    (hh : (fun disp => exec (ih disp)) = fun disp => runInstr false (branchIf c disp 3)) (s : State)
    (ht : Psw.tm s.psw = true) :
    (∀ disp : Byte, exec (ib disp) s = .next (takeTrap .trace
      (s.setPc (s.pc + if condHolds c (Psw.flags s.psw) then disp.signExtend 32 else 2)))) ∧
    (∀ disp : Half, exec (ih disp) s = .next (takeTrap .trace
      (s.setPc (s.pc + if condHolds c (Psw.flags s.psw) then disp.signExtend 32 else 3)))) :=
  ⟨fun disp => run_traced ht (congrFun (congrFun hb disp) s) (branchIf_apply ..),
    fun disp => run_traced ht (congrFun (congrFun hh disp) s) (branchIf_apply ..)⟩

/-! ## Every instruction -/

/-- Whatever an instruction does, it takes a trap from its start state or runs to its end, HALT apart. -/
theorem exec_ended {i : Instr} {s t : State} (hi : i ≠ .halt) (h : exec i s = .next t) :
    (∃ k, t = takeTrap k s) ∨ ∃ b u, t = endOfInstr b s u := by
  have any : Frame fun _ _ => True :=
    ⟨fun _ => trivial, fun _ _ => trivial, fun _ => trivial, fun _ => trivial, fun _ => trivial, fun _ => trivial,
      trivial⟩
  have ended {work : M Unit} (h : runInstr false work s = .next t) :
      (∃ k, t = takeTrap k s) ∨ ∃ b u, t = endOfInstr b s u :=
    (runInstr_cases h).imp_right fun ⟨u, _, e⟩ => ⟨false, u, e⟩
  by_cases ho : ownEffect i = false
  · exact (any.exec ho h).imp_right fun ⟨b, u, _, e⟩ => ⟨b, u, e⟩
  · rcases ownEffect_cases ho with rfl | rfl | rfl | rfl
    · exact ended h
    · exact ended h
    · exact ended h
    · exact absurd rfl hi

/-- The end of an instruction that began with TM = 1 always takes a trap. -/
theorem endOfInstr_traced {s : State} (ht : Psw.tm s.psw = true) (b : Bool) (u : State) :
    endOfInstr b s u = takeTrap .trace u ∨
      (endOfInstr b s u = takeTrap .integerOverflow u ∧ Psw.v u.psw = true ∧ Psw.oe u.psw = true) := by
  rw [endOfInstr, if_pos ht]
  split
  · next h =>
    simp only [Bool.and_eq_true] at h
    obtain ⟨⟨-, hv⟩, ho⟩ := h
    exact .inr ⟨rfl, hv, ho⟩
  · exact .inl rfl

theorem exec_traced {i : Instr} {s t : State} (hi : i ≠ .halt) (ht : Psw.tm s.psw = true) (h : exec i s = .next t) :
    (∃ k, t = takeTrap k s) ∨ (∃ u, t = takeTrap .trace u) ∨
      (∃ u, t = takeTrap .integerOverflow u ∧ Psw.v u.psw = true ∧ Psw.oe u.psw = true) := by
  rcases exec_ended hi h with hk | ⟨b, u, rfl⟩
  · exact .inl hk
  · exact .inr ((endOfInstr_traced ht b u).imp (fun e => ⟨u, e⟩) fun e => ⟨u, e⟩)

/-- Settles O30: the rules above for each family, and for every instruction the traps its end can take. -/
theorem endOfInstructionTraps : Obligations.EndOfInstructionTraps := by
  unfold Obligations.EndOfInstructionTraps
  simp only [List.forall_mem_cons, List.not_mem_nil, false_implies, implies_true, and_true]
  refine ⟨?_, ?_, ?_, ?_, ?_, ?_, ?_, ?_, fun s ht => ⟨?_, fun dst a s₁ h => ?_, fun hr => ?_, exec_halt s⟩,
    fun _ _ _ => exec_traced⟩
  · and_intros <;> exact fun _ _ _ _ _ _ _ _ _ => arith2_endTrapDue rfl (length_two_operands rfl rfl)
  · and_intros <;> exact fun _ _ _ _ _ _ _ _ _ _ h hr hw wf hp =>
      (arith3_endTrapDue rfl (length_three_operands rfl rfl) h hr hw wf hp).1
  · and_intros <;> exact fun _ _ _ _ _ _ _ h hr hw wf hp =>
      (arithOne_endTrapDue rfl (length_one_operand rfl rfl) h hr hw wf hp).1
  · and_intros <;> exact fun _ _ _ _ _ _ _ h hw wf hp =>
      (arithNeg_endTrapDue rfl (length_two_operands rfl rfl) h hw wf hp).1
  · exact fun _ _ _ _ _ _ _ _ _ _ h hr hw wf hp => (shiftLeftArith_endTrapDue h hr hw wf hp).1
  · and_intros <;> exact fun _ _ _ _ _ _ => move_traced rfl (length_two_operands rfl rfl)
  · and_intros
    iterate 3 exact fun _ _ _ _ _ _ _ _ => logic2_traced (op := .and) rfl (length_two_operands rfl rfl)
    iterate 3 exact fun _ _ _ _ _ _ _ _ => logic2_traced (op := .or) rfl (length_two_operands rfl rfl)
    iterate 3 exact fun _ _ _ _ _ _ _ _ => logic2_traced (op := .xor) rfl (length_two_operands rfl rfl)
  · exact ⟨branchIf_pair_traced .geq rfl rfl, branchIf_pair_traced .gtr rfl rfl, branchIf_pair_traced .lss rfl rfl,
      branchIf_pair_traced .leq rfl rfl, branchIf_pair_traced .gequ rfl rfl, branchIf_pair_traced .gtru rfl rfl,
      branchIf_pair_traced .lssu rfl rfl, branchIf_pair_traced .lequ rfl rfl, branchIf_pair_traced .vc rfl rfl,
      branchIf_pair_traced .vs rfl rfl, branchIf_pair_traced .neq rfl rfl, branchIf_pair_traced .eql rfl rfl⟩
  · exact run_traced ht rfl (advancePc_apply 1 s)
  · exact run_traced ht rfl (jump_eq h)
  · exact run_traced ht rfl (popPc_eq hr)

end Sys2Proof.Machine
end

section
/-! Characters and the counter over the advances of the DUART. -/
namespace Sys2Proof.Machine

/-! ## The counter (60_exceptions.md R878) -/

/-- The counter at the end of its period: ready, and reloaded. -/
theorem counter_period (d : Duart) (n : Nat) (hn : n = (if d.ctPreload = 0 then 65536 else d.ctPreload.toNat)) :
    Nat.iterate Duart.advanceCounter n d.startCounter =
      { d.startCounter with ctValue := d.ctPreload, ctReady := true } := by
  have hpos : 0 < n := by
    rw [hn]
    split
    · decide
    · next h => exact Nat.pos_of_ne_zero fun h0 => h (BitVec.eq_of_toNat_eq h0)
  obtain ⟨k, rfl⟩ := Nat.exists_eq_add_of_lt hpos
  rw [Nat.zero_add] at hn ⊢
  have hlast : BitVec.ofNat 16 (k + 1 - k) - 1 = 0 := by rw [Nat.add_sub_cancel_left]; rfl
  rw [Function.iterate_succ_apply', counter_run d (k + 1) hn k (Nat.lt_succ_self k), Duart.advanceCounter,
    if_pos (show d.startCounter.ctRunning = true from rfl), if_pos hlast]
  rfl

theorem counter_fields {d e : Duart} (h : counterPart d = counterPart e) :
    d.ctValue = e.ctValue ∧ d.ctReady = e.ctReady := by
  simp only [counterPart, Prod.mk.injEq] at h
  obtain ⟨-, hvalue, -, -, hready⟩ := h
  exact ⟨hvalue, hready⟩

/-- Settles O58: over advances of the DUART the counter sees its own rule alone. -/
theorem counterPeriod : Obligations.CounterPeriod := by
  refine ⟨fun p d n hn => ⟨fun k hk => ?_, ?_⟩, fun p d hstop => ?_⟩
  · obtain ⟨hvalue, hready⟩ := counter_fields (iterate_counterPart p d.startCounter k)
    rw [hvalue, hready, counter_run d n hn k hk]
    exact ⟨rfl, rfl⟩
  · obtain ⟨hvalue, hready⟩ := counter_fields (iterate_counterPart p d.startCounter n)
    rw [hvalue, hready, counter_period d n hn]
    exact ⟨rfl, rfl⟩
  · have idle : d.advanceCounter = d := by rw [Duart.advanceCounter, hstop]; rfl
    have h := counter_fields (advance_counterPart p d)
    rwa [idle] at h

/-! ## The bell (R885) -/

/-- A byte completes its transmission in the next advance of the channel (R871). -/
def Completing (p : Params) (x : Channel) (b : Byte) : Prop :=
  x.txShift = some b ∧ x.txCount ≤ 1 ∧ x.txQueue.length < p.txCapacity

/-- The byte whose transmission completes is the one that TX pacing answers: RX pacing does not touch it. -/
theorem finishTx_completed_iff (p : Params) (acr : Byte) (x : Channel) (b : Byte) :
    ((x.advanceRx p acr).finishTx p).2 = some b ↔ Completing p x b := by
  have h := advanceRx_txPart p acr x
  simp only [txPart, Prod.mk.injEq] at h
  obtain ⟨-, -, hshift, hcount, hqueue, -⟩ := h
  unfold Channel.finishTx Completing
  rw [hshift, hcount, hqueue]
  cases x.txShift with
  | none => simp
  | some b' =>
    dsimp only
    split
    · next hc => simp [show x.txCount ≤ 1 by omega, hc.2]
    · next hc =>
      simp only [reduceCtorEq, false_iff]
      exact fun ⟨_, hle, hlen⟩ => hc ⟨by omega, hlen⟩

theorem finishTx_not_completed {p : Params} {acr : Byte} {x : Channel} (h : ∀ b, ¬ Completing p x b) :
    ((x.advanceRx p acr).finishTx p).2 = none :=
  Option.eq_none_iff_forall_ne_some.2 fun b hb => h b ((finishTx_completed_iff p acr x b).1 hb)

theorem advance_bell (p : Params) (d : Duart) : (d.advance p).bell =
    (((d.chB.advanceRx p d.acr).finishTx p).2.map (· == p.bellByte)).getD
      ((((d.chA.advanceRx p d.acr).finishTx p).2.map (· == p.bellByte)).getD d.bell) :=
  congrArg Duart.bell (advance_eq p d)

/-- A byte that channel B completes decides the bell, else one that channel A completes (R876). -/
theorem advance_bell_cases (p : Params) (d : Duart) :
    (∀ b, Completing p d.chB b → (d.advance p).bell = (b == p.bellByte)) ∧
    (∀ b, Completing p d.chA b → (∀ b', ¬ Completing p d.chB b') → (d.advance p).bell = (b == p.bellByte)) ∧
    ((∀ b, ¬ Completing p d.chA b) → (∀ b, ¬ Completing p d.chB b) → (d.advance p).bell = d.bell) := by
  refine ⟨fun b hb => ?_, fun b ha hb => ?_, fun ha hb => ?_⟩ <;> rw [advance_bell]
  · rw [(finishTx_completed_iff p d.acr d.chB b).2 hb]; rfl
  · rw [finishTx_not_completed hb, (finishTx_completed_iff p d.acr d.chA b).2 ha]; rfl
  · rw [finishTx_not_completed hb, finishTx_not_completed ha]; rfl

/-! ## Advances (R876) -/

theorem advanceSteps_eq (n : Nat) (s : State) : advanceSteps n s = Nat.iterate State.advanceDuart n s := by
  induction n generalizing s with
  | zero => rfl
  | succ n ih => exact ih s.advanceDuart

section

variable {p : Params} {d : Duart} {c : ChannelId} {b : Byte}

/-- The receiver of a channel over n advances of the DUART sees RX pacing alone. -/
theorem iterate_advance_rx (p : Params) (d : Duart) (c : ChannelId) (n : Nat) :
    rxPart ((Nat.iterate (Duart.advance p) n d).channel c) =
      rxPart (Nat.iterate (Channel.advanceRx p d.acr) n (d.channel c)) := by
  rw [(iterate_advance_channel p d c n).1, iterate_rxPart]

/-- The transmitter of a channel over n advances of the DUART sees TX pacing alone. -/
theorem iterate_advance_tx (p : Params) (d : Duart) (c : ChannelId) (n : Nat) :
    txPart ((Nat.iterate (Duart.advance p) n d).channel c) =
      txPart (Nat.iterate (fun y => (Channel.finishTx p y).1.loadTx p d.acr) n (d.channel c)) := by
  rw [(iterate_advance_channel p d c n).1, iterate_txPart]

theorem rx_fields {x y : Channel} (h : rxPart x = rxPart y) : x.rhr = y.rhr ∧ x.rxQueue = y.rxQueue := by
  simp only [rxPart, Prod.mk.injEq] at h
  obtain ⟨-, hrhr, hqueue, -⟩ := h
  exact ⟨hrhr, hqueue⟩

theorem tx_fields {x y : Channel} (h : txPart x = txPart y) :
    x.txShift = y.txShift ∧ x.thr = y.thr ∧ x.txQueue = y.txQueue := by
  simp only [txPart, Prod.mk.injEq] at h
  obtain ⟨-, hthr, hshift, -, hqueue, -⟩ := h
  exact ⟨hshift, hthr, hqueue⟩

/-- The head of the RX queue arrives in the last advance of its delay (R870). -/
theorem rx_arrives {acr : Byte} {rest : List Byte} {x : Channel} (henabled : x.rxEnabled = true) (hrhr : x.rhr = none)
    (hqueue : x.rxQueue = b :: rest) (hcount : x.rxCount = 0) (hdelay : 1 ≤ x.delayRx p acr) :
    Nat.iterate (Channel.advanceRx p acr) (x.delayRx p acr) x =
      { x with rxCount := 0, rhr := some b, rxQueue := rest } := by
  obtain ⟨m, hm⟩ := Nat.exists_eq_add_of_le' hdelay
  have hlast : (if (if m = 0 then 0 else m + 1 - m) = 0 then x.delayRx p acr
      else if m = 0 then 0 else m + 1 - m) = 1 := by
    by_cases h : m = 0
    · simp [h, hm]
    · simp [h]
  have run := rx_run (p := p) (acr := acr) henabled hrhr hqueue hcount m (by omega)
  rw [hm] at run ⊢
  rw [Function.iterate_succ_apply', run,
    advanceRx_eq (x := { x with rxCount := if m = 0 then 0 else m + 1 - m }) henabled hrhr hqueue hlast]
  rfl

/-- The byte loaded leaves in the advance after its delay, where the TX queue has room (R871). -/
theorem tx_leaves {acr : Byte} {x : Channel} (henabled : x.txEnabled = true) (hshift : x.txShift = none)
    (hthr : x.thr = some b) (hroom : x.txQueue.length < p.txCapacity) (hdelay : 1 ≤ x.delayTx p acr) :
    Nat.iterate (fun y => (Channel.finishTx p y).1.loadTx p acr) (1 + x.delayTx p acr) x =
      { x with txShift := none, thr := none, txCount := 0, txQueue := x.txQueue ++ [b] } := by
  have hlast : x.delayTx p acr - (x.delayTx p acr - 1) - 1 = 0 := by omega
  rw [Nat.add_comm, Function.iterate_succ_apply', tx_run henabled hshift hthr _ hdelay (Nat.le_refl _)]
  simp only [Channel.finishTx, hlast, hroom, and_self, if_true, Channel.loadTx]

end

/-- Settles O57: the parts of an advance, and over many advances one channel's pacing alone. -/
theorem characterPacing : Obligations.CharacterPacing := by
  refine ⟨?_, advanceSteps_eq, ?_, ?_⟩
  · rintro p d _ _ rfl rfl
    exact ⟨by rw [advance_bell]; exact advance_eq p d, advance_bell_cases p d⟩
  · rintro p d c b rest _ rfl henabled hrhr hqueue hcount hdelay
    refine ⟨fun n hn => ?_, ?_⟩
    · rw [(rx_fields (iterate_advance_rx p d c n)).1, rx_run henabled hrhr hqueue hcount n hn]
      exact hrhr
    · obtain ⟨e, e'⟩ := rx_fields (iterate_advance_rx p d c ((d.channel c).delayRx p d.acr))
      rw [e, e', rx_arrives henabled hrhr hqueue hcount hdelay]
      exact ⟨rfl, rfl⟩
  · rintro p d c b _ rfl henabled hshift hthr hroom hdelay
    refine ⟨fun n h1 hn => ?_, ?_⟩
    · obtain ⟨e, e', e''⟩ := tx_fields (iterate_advance_tx p d c n)
      rw [e, e', e'', tx_run henabled hshift hthr n h1 hn]
      exact ⟨rfl, rfl, rfl⟩
    · obtain ⟨e, -, e''⟩ := tx_fields (iterate_advance_tx p d c (1 + (d.channel c).delayTx p d.acr))
      rw [e, e'', tx_leaves henabled hshift hthr hroom hdelay]
      exact ⟨rfl, rfl⟩

end Sys2Proof.Machine
end

section
/-! The registers of the DUART's window, the latches, and the receive side. -/
namespace Sys2Proof.Machine

/-! ## Bits of the status registers (60_exceptions.md R864, R874) -/

theorem byteOfBits_getLsbD (b7 b6 b5 b4 b3 b2 b1 b0 : Bool) (k : Nat) :
    (byteOfBits b7 b6 b5 b4 b3 b2 b1 b0).getLsbD k = [b0, b1, b2, b3, b4, b5, b6, b7].getD k false := by
  by_cases hk : k < 8
  · interval_cases k <;> revert b7 b6 b5 b4 b3 b2 b1 b0 <;> decide
  · rw [BitVec.getLsbD_of_ge _ _ (Nat.le_of_not_lt hk), List.getD_eq_default _ _ (Nat.le_of_not_lt hk)]

theorem sr_bit (p : Params) (x : Channel) (k : Nat) : (x.sr p).getLsbD k = match k with
    | 0 => x.rhr.isSome
    | 1 => x.rhr.isSome && decide (x.rxQueue.length + 1 = p.rxCapacity)
    | 2 => x.txEnabled && x.thr.isNone
    | 3 => x.txEnabled && x.thr.isNone && x.txShift.isNone
    | _ => false := by
  rw [Channel.sr, byteOfBits_getLsbD]
  match k with
  | 0 | 1 | 2 | 3 | 4 | 5 | 6 | 7 => rfl
  | k + 8 => rfl

theorem isr_bit (d : Duart) (k : Nat) : d.isr.getLsbD k = match k with
    | 0 => d.chA.txEnabled && d.chA.thr.isNone
    | 1 => d.chA.rhr.isSome
    | 3 => d.ctReady
    | 4 => d.chB.txEnabled && d.chB.thr.isNone
    | 5 => d.chB.rhr.isSome
    | _ => false := by
  rw [Duart.isr, byteOfBits_getLsbD]
  match k with
  | 0 | 1 | 2 | 3 | 4 | 5 | 6 | 7 => rfl
  | k + 8 => rfl

/-! ## The channels' registers in the window (R860 to R868) -/

/-- Where a channel's registers begin in the window (R860). -/
def channelOffset : ChannelId → Nat
  | .a => 0
  | .b => 0x20

theorem setChannel_channel (d : Duart) (c : ChannelId) : d.setChannel c (d.channel c) = d := by
  cases c <;> rfl

section

variable (p : Params) (d : Duart) (c : ChannelId) (v : Byte)

theorem readByte_mr : d.readByte p (channelOffset c + 0x03) =
    ((d.channel c).readMr.1, d.setChannel c (d.channel c).readMr.2) := by
  cases c <;> rfl

theorem readByte_sr : d.readByte p (channelOffset c + 0x07) = ((d.channel c).sr p, d) := by
  cases c <;> rfl

theorem readByte_rhr : d.readByte p (channelOffset c + 0x0F) =
    ((d.channel c).readRhr.1, d.setChannel c (d.channel c).readRhr.2) := by
  cases c <;> rfl

theorem writeByte_mr : d.writeByte (channelOffset c + 0x03) v = d.setChannel c ((d.channel c).writeMr v) := by
  cases c <;> rfl

theorem writeByte_csr : d.writeByte (channelOffset c + 0x07) v = d.setChannel c { d.channel c with csr := v } := by
  cases c <;> rfl

theorem writeByte_cr : d.writeByte (channelOffset c + 0x0B) v = d.setChannel c ((d.channel c).writeCr v) := by
  cases c <;> rfl

theorem writeByte_thr : d.writeByte (channelOffset c + 0x0F) v = d.setChannel c ((d.channel c).writeThr v) := by
  cases c <;> rfl

end

/-- An enable field of CR (R865). -/
theorem enableField_eq : ∀ (f : BitVec 2) (old : Bool), enableField f old = (f == 1 || (f != 2 && old)) := by
  decide

/-- The miscellaneous command of CR, component by component (R865). -/
theorem miscCommand_eq (x : Channel) (cmd : BitVec 3) : x.miscCommand cmd = { x with
    mrPtr := if cmd = 1 then .mr1 else x.mrPtr
    rxEnabled := cmd != 2 && x.rxEnabled
    rxQueue := if cmd = 2 then [] else x.rxQueue
    rhr := if cmd = 2 then none else x.rhr
    rxCount := if cmd = 2 then 0 else x.rxCount
    txEnabled := cmd != 3 && x.txEnabled
    thr := if cmd = 3 then none else x.thr
    txShift := if cmd = 3 then none else x.txShift
    txQueue := if cmd = 3 then [] else x.txQueue
    txCount := if cmd = 3 then 0 else x.txCount } := by
  by_cases h1 : cmd = 1
  · subst h1; rfl
  by_cases h2 : cmd = 2
  · subst h2; rfl
  by_cases h3 : cmd = 3
  · subst h3; rfl
  have no_command : x.miscCommand cmd = x := by
    unfold Channel.miscCommand
    split
    · next h => exact absurd (BitVec.eq_of_toNat_eq h) h1
    · next h => exact absurd (BitVec.eq_of_toNat_eq h) h2
    · next h => exact absurd (BitVec.eq_of_toNat_eq h) h3
    · rfl
  simp only [no_command, if_neg h1, if_neg h2, if_neg h3, bne_iff_ne.2 h2, bne_iff_ne.2 h3, Bool.true_and]

/-- A write of CR, component by component (R865). -/
theorem writeCr_eq (x : Channel) {v : Byte} {cmd : BitVec 3} {rx tx : BitVec 2} (hcmd : cmd = v.extractLsb' 4 3)
    (hrx : rx = v.extractLsb' 0 2) (htx : tx = v.extractLsb' 2 2) : x.writeCr v = { x with
      mrPtr := if cmd = 1 then .mr1 else x.mrPtr
      rxEnabled := rx == 1 || (rx != 2 && cmd != 2 && x.rxEnabled)
      rxQueue := if cmd = 2 then [] else x.rxQueue
      rhr := if cmd = 2 then none else x.rhr
      rxCount := if cmd = 2 then 0 else x.rxCount
      txEnabled := tx == 1 || (tx != 2 && cmd != 3 && x.txEnabled)
      thr := if cmd = 3 then none else x.thr
      txShift := if cmd = 3 then none else x.txShift
      txQueue := if cmd = 3 then [] else x.txQueue
      txCount := if cmd = 3 then 0 else x.txCount } := by
  simp only [Channel.writeCr, ← hcmd, ← hrx, ← htx, miscCommand_eq, enableField_eq, Bool.and_assoc]

/-! ## The other registers (R860, R861, R873 to R875, R878) -/

/-- A register without a read meaning reads 0 (R860). -/
theorem readRegister_other (p : Params) (d : Duart) {i : Nat} (h : i ∉ [0, 1, 3, 5, 6, 7, 8, 9, 11, 14, 15]) :
    d.readRegister p i = (0, d) := by
  unfold Duart.readRegister
  split
  iterate 11 exact absurd (by decide) h
  · rfl

/-- A register without a write meaning ignores writes (R860). -/
theorem writeRegister_other (d : Duart) {i : Nat} (v : Byte)
    (h : i ∉ [0, 1, 2, 3, 4, 5, 6, 7, 8, 9, 10, 11, 13, 14, 15]) : d.writeRegister i v = d := by
  unfold Duart.writeRegister
  split
  iterate 15 exact absurd (by decide) h
  · rfl

/-- A register stands in the last byte of its word (R861). -/
theorem not_mem_registers {off : Nat} {l : List Nat} (hoff : off % 4 = 3) (h : off ∉ l.map (4 * · + 3)) :
    off / 4 ∉ l :=
  fun hm => h (List.mem_map.2 ⟨off / 4, hm, by omega⟩)

theorem readByte_other (p : Params) (d : Duart) {off : Nat}
    (h : off ∉ [0x03, 0x07, 0x0F, 0x17, 0x1B, 0x1F, 0x23, 0x27, 0x2F, 0x3B, 0x3F]) : d.readByte p off = (0, d) := by
  unfold Duart.readByte
  split
  · next hoff => exact readRegister_other p d (not_mem_registers hoff h)
  · rfl

theorem writeByte_other (d : Duart) {off : Nat} (v : Byte)
    (h : off ∉ [0x03, 0x07, 0x0B, 0x0F, 0x13, 0x17, 0x1B, 0x1F, 0x23, 0x27, 0x2B, 0x2F, 0x37, 0x3B, 0x3F]) :
    d.writeByte off v = d := by
  unfold Duart.writeByte
  split
  · next hoff => exact writeRegister_other d v (not_mem_registers hoff h)
  · rfl

theorem counterRead_eq (d : Duart) :
    d.counterRead = if d.ctRunning = false ∧ d.ctStarted = false then d.ctPreload else d.ctValue := by
  simp [Duart.counterRead]

/-- Settles O56: one equation for each register of a channel, in either channel, and one for each of the others. -/
theorem duartRegisters : Obligations.DuartRegisters := by
  refine ⟨fun p d c x o hx ho => ?_, fun p d => ⟨rfl, isr_bit d, fun n hn => ?_, rfl, rfl,
    fun off => readByte_other p d, fun v => ⟨rfl, rfl, rfl, rfl, rfl, rfl, rfl, fun off => writeByte_other d v⟩⟩⟩
  · have ho' : o = channelOffset c := by cases c <;> exact ho
    subst hx ho'
    refine ⟨fun h => ?_, fun h => ?_, ?_, ?_, fun v => ⟨fun h => ?_, fun h => ?_, writeByte_csr d c v,
      fun cmd rx tx hcmd hrx htx => ?_, fun h => ?_, fun h => ?_⟩⟩
    · rw [readByte_mr, Channel.readMr, h]
    · rw [readByte_mr, Channel.readMr, h, setChannel_channel]
    · rw [readByte_sr]
    · rw [readByte_sr]
      exact sr_bit p _
    · rw [writeByte_mr, Channel.writeMr, h]
    · rw [writeByte_mr, Channel.writeMr, h]
    · rw [writeByte_cr, writeCr_eq _ hcmd hrx htx]
    · rw [writeByte_thr, Channel.writeThr, if_pos h]
    · rw [writeByte_thr, Channel.writeThr, if_neg (by rw [h]; decide), setChannel_channel]
  · rw [← counterRead_eq] at hn
    subst hn
    exact ⟨rfl, rfl⟩

/-! ## The latches (R841, R865, R877) -/

theorem updateLatches_get (before after : Duart) (q : Vector Bool 5) (i : Fin 5) :
    (updateLatches before after q)[i] = (after.cond i && (q[i] || !before.cond i)) := by
  simp [updateLatches]

theorem clearReset_get (off : Nat) (v : Byte) (q : Vector Bool 5) (i : Fin 5) :
    (clearReset off v q)[i] = (q[i] && !resetsSource off v i) := by
  simp [clearReset]

/-- What the edge detection leaves of a latch that stood at q before the event (R841). -/
theorem updateLatches_cases (before after : Duart) (q : Vector Bool 5) (i : Fin 5) :
    (before.cond i = false → after.cond i = true → (updateLatches before after q)[i] = true) ∧
    (after.cond i = false → (updateLatches before after q)[i] = false) ∧
    (before.cond i = true → after.cond i = true → (updateLatches before after q)[i] = q[i]) := by
  rw [updateLatches_get]
  exact ⟨fun hb ha => by simp [hb, ha], fun ha => by simp [ha], fun hb ha => by simp [hb, ha]⟩

/-- The reset commands: 2 for the receiver, an even source, and 3 for the transmitter, an odd one, of CRA for sources 0
and 1 and of CRB for 2 and 3. -/
theorem resetsSource_eq (off : Nat) (v : Byte) (i : Fin 5) : resetsSource off v i =
    decide (i.val < 4 ∧ off = 0x0B + 0x20 * (i.val / 2) ∧ v.extractLsb' 4 3 = BitVec.ofNat 3 (2 + i.val % 2)) := by
  rw [Bool.eq_iff_iff, decide_eq_true_iff]
  fin_cases i <;> simp [resetsSource]

/-- A byte access of the window is routed to the DUART. -/
theorem window_route {p : Params} {a : Word} {k : AccessKind} (h : regionOf p a.toNat = some .duart)
    (hk : k ≠ .fetch) : dataRoute p a .byte k = .ok .duart := by
  rw [dataRoute_aligned (.inr (Nat.mod_one _))]
  exact busRoute_ok h h (fun c => nomatch c.1) fun c => hk c.2

section

variable {s : State} {a : Word} {off : Nat} (h : regionOf s.params a.toNat = some .duart)
  (ho : off = a.toNat - Config.duartBase)
include h ho

theorem memRead_window : memRead a .byte s = .ok ((s.duart.readByte s.params off).1.setWidth 32,
    s.withDuart (s.duart.readByte s.params off).2) := by
  rw [ho]
  exact memRead_byte_at (window_route h (by decide)) rfl

theorem memWrite_window (v : Word) : memWrite a .byte v s = .ok ((), s.writeDuart off (v.extractLsb' 0 8)) := by
  rw [ho]
  exact (memWrite_byte_at (window_route h (by decide))).trans (writeByteAt_duart ..)

end

theorem extract_command (v : Word) : (v.extractLsb' 0 8).extractLsb' 4 3 = v.extractLsb' 4 3 := by
  refine BitVec.eq_of_getLsbD_eq fun k hk => ?_
  simp only [BitVec.getLsbD_extractLsb', hk, show 4 + k < 8 by omega, decide_true, Bool.true_and, Nat.zero_add]

/-- Settles O11: the edge detection at each event, with the reset latches cleared before that of a write. -/
theorem latchRule : Obligations.LatchRule := by
  refine ⟨fun s d => updateLatches_cases s.duart d s.pending, fun _ => rfl, fun s a off hreg hoff => ?_⟩
  refine ⟨memRead_window hreg hoff, fun v =>
    ⟨_, memWrite_window hreg hoff v, writeDuart_sameCore .., rfl, fun i => ?_⟩⟩
  obtain ⟨rises, falls, stays⟩ := updateLatches_cases s.duart (s.duart.writeByte off (v.extractLsb' 0 8))
    (clearReset off (v.extractLsb' 0 8) s.pending) i
  refine ⟨rises, falls, fun hb ha => (stays hb ha).trans ?_⟩
  rw [clearReset_get, resetsSource_eq, extract_command]

/-! ## The receive side (R866, R869) -/

/-- The DUART's window is its own region under parameters R8 allows. -/
theorem regionOf_window {p : Params} (hp : p.valid = true) {a : Nat} (h0 : Config.duartBase ≤ a)
    (h1 : a < Config.duartBase + Config.duartSize) : regionOf p a = some .duart := by
  have hrom : p.romSize ≤ 2097152 := (valid_sizes hp).1
  have notRom : ¬ (Config.romBase ≤ a ∧ a < Config.romBase + p.romSize) := by
    simp only [Config.romBase, Config.duartBase] at h0 ⊢
    omega
  rw [regionOf, if_neg notRom, if_pos ⟨h0, h1⟩]

/-- The address of a channel's RX holding register (R860). -/
def rhrAddress : ChannelId → Word
  | .a => 0x0020000F
  | .b => 0x0020002F

/-- The interrupt source of a channel's receiver (R840). -/
def rxSource : ChannelId → Fin 5
  | .a => 0
  | .b => 2

theorem rhrAddress_offset (c : ChannelId) : (rhrAddress c).toNat - Config.duartBase = channelOffset c + 0x0F := by
  cases c <;> rfl

/-- A receiver whose holding register is empty requests no interrupt. -/
theorem rxSource_cond {d : Duart} {c : ChannelId} (h : (d.channel c).rhr = none) : d.cond (rxSource c) = false := by
  obtain ⟨ha, -, hb, -⟩ := cond_eq d
  cases c
  · rw [rxSource, ha, Channel.rxReady, show d.chA.rhr = none from h]; rfl
  · rw [rxSource, hb, Channel.rxReady, show d.chB.rhr = none from h]; rfl

theorem channel_setChannel (d : Duart) (c : ChannelId) (x : Channel) : (d.setChannel c x).channel c = x := by
  cases c <;> rfl

section

variable {s : State} (hp : s.params.valid = true) (c : ChannelId)
include hp

theorem read_rhr : memRead (rhrAddress c) .byte s = .ok ((s.duart.channel c).readRhr.1.setWidth 32,
    s.withDuart (s.duart.setChannel c (s.duart.channel c).readRhr.2)) := by
  have window : regionOf s.params (rhrAddress c).toNat = some .duart := by
    cases c <;> exact regionOf_window hp (by decide) (by decide)
  rw [memRead_window window (rhrAddress_offset c).symm, readByte_rhr]

theorem read_rhr_held {b : Byte} (h : (s.duart.channel c).rhr = some b) :
    ∃ t, memRead (rhrAddress c) .byte s = .ok (b.setWidth 32, t) ∧
      t.duart = s.duart.setChannel c { s.duart.channel c with rhr := none, rhrLast := b } ∧
      t.pending[rxSource c] = false ∧ SameCore s t := by
  rw [read_rhr hp c, Channel.readRhr, h]
  refine ⟨_, rfl, rfl, latch_cleared _ (rxSource_cond ?_), withDuart_sameCore ..⟩
  rw [channel_setChannel]

theorem read_rhr_empty (h : (s.duart.channel c).rhr = none) :
    ∃ t, memRead (rhrAddress c) .byte s = .ok ((s.duart.channel c).rhrLast.setWidth 32, t) ∧ t.duart = s.duart := by
  rw [read_rhr hp c, Channel.readRhr, h]
  exact ⟨_, rfl, setChannel_channel ..⟩

end

theorem channelOfId_none {id : Nat} (h : 2 ≤ id) : channelOfId id = none := by
  unfold channelOfId
  split
  · omega
  · omega
  · rfl

section

variable {s : State} {c : ChannelId} {id : Nat} (hid : channelOfId id = some c) (b : Byte)
include hid

theorem pushRx_ok (h : (s.duart.channel c).rxHeld < s.params.rxCapacity) : pushRx s id b = .ok { s with
      duart := s.duart.setChannel c { s.duart.channel c with rxQueue := (s.duart.channel c).rxQueue ++ [b] } } := by
  simp only [pushRx, hid, if_pos h]

theorem pushRx_full (h : s.params.rxCapacity ≤ (s.duart.channel c).rxHeld) : pushRx s id b = .error .duartOverrun := by
  simp only [pushRx, hid, if_neg (Nat.not_lt.2 h)]

end

theorem pushRx_invalid (s : State) (b : Byte) {id : Nat} (h : 2 ≤ id) : pushRx s id b = .error .invalidChannel := by
  simp only [pushRx, channelOfId_none h]

/-- Settles O59: the read of either channel's register, held or empty, and the cases of `push_rx`. -/
theorem receiveSide : Obligations.ReceiveSide := by
  refine ⟨fun s hp => ⟨fun b h => ?_, fun b h => ?_, read_rhr_empty hp .a, read_rhr_empty hp .b⟩,
    fun s b => ⟨fun id => pushRx_invalid s b, pushRx_full (c := .a) rfl b, pushRx_full (c := .b) rfl b,
      fun h => ⟨_, pushRx_ok (c := .a) rfl b h, rfl, rfl, rfl⟩,
      fun h => ⟨_, pushRx_ok (c := .b) rfl b h, rfl, rfl, rfl⟩⟩⟩
  · obtain ⟨t, e, hd, hq, core⟩ := read_rhr_held hp .a h
    exact ⟨t, e, by rw [hd]; rfl, by rw [hd]; rfl, hq, core⟩
  · obtain ⟨t, e, hd, hq, core⟩ := read_rhr_held hp .b h
    exact ⟨t, e, by rw [hd]; rfl, by rw [hd]; rfl, hq, core⟩

end Sys2Proof.Machine
end

section
/-! The host's operations: what they answer, and that they keep the invariant. -/
namespace Sys2Proof.Machine

/-! ## Debug accesses (70_reset_and_hazards.md R934) -/

theorem all_hostAddrs {f : Nat → Bool} {a n : Nat} :
    ((List.range n).map (a + ·)).all f = true ↔ ∀ k, k < n → f (a + k) = true := by
  simp

theorem hostReadable_iff {p : Params} {a : Nat} :
    hostReadable p a = true ↔ regionOf p a = some .rom ∨ regionOf p a = some .ram := by
  simp [hostReadable]

theorem hostWritable_iff {p : Params} {a : Nat} : hostWritable p a = true ↔ regionOf p a = some .ram := by
  simp [hostWritable]

/-- The big-endian number that a debug read answers. -/
def hostWord (s : State) (a : Word) (z : Size) : Word :=
  BitVec.ofNat 32 (bigEndian 0 (((List.range (sizeBytes z)).map (a.toNat + ·)).map s.mem.read))

/-- It has as many bits as were read, and its bytes are those of memory. -/
theorem hostWord_bytes (s : State) (a : Word) (z : Size) : (hostWord s a z).toNat < 2 ^ sizeBits z ∧
    ∀ k, k < sizeBytes z → valueByte (sizeBytes z) (hostWord s a z) k = s.mem.read (a.toNat + k) := by
  cases z with
  | byte =>
    obtain ⟨hlt, hbyte⟩ := bigEndian_one (s.mem.read (a.toNat + 0))
    refine ⟨hlt, fun k hk => (hbyte k hk).trans ?_⟩
    rw [Nat.lt_one_iff.1 hk]
  | half =>
    obtain ⟨hlt, hbyte⟩ := bigEndian_two (s.mem.read (a.toNat + 0)) (s.mem.read (a.toNat + 1))
    refine ⟨hlt, fun k hk => (hbyte k hk).trans ?_⟩
    match k, hk with
    | 0, _ | 1, _ => rfl
  | word =>
    obtain ⟨hlt, hbyte⟩ := bigEndian_four (s.mem.read (a.toNat + 0)) (s.mem.read (a.toNat + 1))
      (s.mem.read (a.toNat + 2)) (s.mem.read (a.toNat + 3))
    refine ⟨hlt, fun k hk => (hbyte k hk).trans ?_⟩
    match k, hk with
    | 0, _ | 1, _ | 2, _ | 3, _ => rfl

section

variable {s : State} {a : Word} {z : Size}

theorem hostRead_ok (h : ∀ k, k < sizeBytes z →
    regionOf s.params (a.toNat + k) = some .rom ∨ regionOf s.params (a.toNat + k) = some .ram) :
    hostRead s a z = .ok (hostWord s a z) :=
  if_pos (all_hostAddrs.2 fun k hk => hostReadable_iff.2 (h k hk))

theorem hostRead_error {k : Nat} (hk : k < sizeBytes z) (hrom : regionOf s.params (a.toNat + k) ≠ some .rom)
    (hram : regionOf s.params (a.toNat + k) ≠ some .ram) : hostRead s a z = .error .memoryBoundsError :=
  if_neg fun h => (hostReadable_iff.1 (all_hostAddrs.1 h k hk)).elim hrom hram

theorem hostWrite_ok (v : Word) (h : ∀ k, k < sizeBytes z → regionOf s.params (a.toNat + k) = some .ram) :
    hostWrite s a z v = .ok { s with mem := s.mem.load a.toNat (bigEndianBytes (sizeBytes z) v) } :=
  if_pos (all_hostAddrs.2 fun k hk => hostWritable_iff.2 (h k hk))

theorem hostWrite_error {k : Nat} (v : Word) (hk : k < sizeBytes z)
    (hram : regionOf s.params (a.toNat + k) ≠ some .ram) : hostWrite s a z v = .error .memoryBoundsError :=
  if_neg fun h => hram (hostWritable_iff.1 (all_hostAddrs.1 h k hk))

theorem hostWrite_cases {v : Word} {t : State} (h : hostWrite s a z v = .ok t) :
    (∀ k, k < sizeBytes z → regionOf s.params (a.toNat + k) = some .ram) ∧
      t = { s with mem := s.mem.load a.toNat (bigEndianBytes (sizeBytes z) v) } := by
  by_cases hram : ∀ k, k < sizeBytes z → regionOf s.params (a.toNat + k) = some .ram
  · rw [hostWrite_ok v hram] at h
    cases h
    exact ⟨hram, rfl⟩
  · push Not at hram
    obtain ⟨k, hk, hne⟩ := hram
    rw [hostWrite_error v hk hne] at h
    cases h

/-- What a debug write stores, and what it leaves. -/
theorem read_hostWritten (v : Word) (wf : s.mem.wf) :
    (∀ k, k < sizeBytes z → Memory.read (s.mem.load a.toNat (bigEndianBytes (sizeBytes z) v)) (a.toNat + k) =
      valueByte (sizeBytes z) v k) ∧
    ∀ b, b < a.toNat ∨ a.toNat + sizeBytes z ≤ b →
      Memory.read (s.mem.load a.toNat (bigEndianBytes (sizeBytes z) v)) b = s.mem.read b := by
  have len := bigEndianBytes_length (sizeBytes z) v
  refine ⟨fun k hk => ?_, fun b hb => Memory.read_load_ne _ _ _ (by rwa [len])⟩
  have hk' : k < (bigEndianBytes (sizeBytes z) v).length := by rwa [len]
  rw [Memory.read_load wf _ _ hk', bigEndianBytes_get v hk']

end

/-! ## run (R915) -/

section

variable {s t : State}

theorem runSteps_stopped {n : Nat} (h : n = 0 ∨ s.status ≠ .running) : runSteps n s = .next (0, s) := by
  cases n with
  | zero => rfl
  | succ n => exact if_neg (h.resolve_left (Nat.succ_ne_zero n))

theorem runSteps_running {n k : Nat} {u : State} (hs : s.status = .running) (e : step s = .next t)
    (ht : t.status = .running) (h : runSteps n t = .next (k, u)) : runSteps (n + 1) s = .next (k + 1, u) := by
  simp only [runSteps, if_pos hs, e, ht, h]

/-- The step that halts is counted. -/
theorem runSteps_halted (n : Nat) (hs : s.status = .running) (e : step s = .next t) (ht : t.status = .halted) :
    runSteps (n + 1) s = .next (1, t) := by
  simp only [runSteps, if_pos hs, e, ht]

/-- The step that ends Faulted is not. -/
theorem runSteps_faulted (n : Nat) {k : FaultKind} (hs : s.status = .running) (e : step s = .next t)
    (ht : t.status = .faulted k) : runSteps (n + 1) s = .next (0, t) := by
  simp only [runSteps, if_pos hs, e, ht]

end

/-- A run goes on after n steps between running states from the state they lead to. -/
theorem runSteps_add {n m k : Nat} {f : Nat → State} {u : State}
    (h : ∀ j, j < n → (f j).status = .running ∧ step (f j) = .next (f (j + 1))) (hn : (f n).status = .running)
    (hrun : runSteps m (f n) = .next (k, u)) : runSteps (m + n) (f 0) = .next (k + n, u) := by
  induction n generalizing f with
  | zero => exact hrun
  | succ n ih =>
    have running (j : Nat) (hj : j ≤ n + 1) : (f j).status = .running := by
      rcases Nat.lt_or_eq_of_le hj with hlt | rfl
      · exact (h j hlt).1
      · exact hn
    have rest : runSteps (m + n) (f 1) = .next (k + n, u) :=
      ih (f := fun j => f (j + 1)) (fun j hj => h (j + 1) (Nat.succ_lt_succ hj)) hn hrun
    exact runSteps_running (running 0 (Nat.zero_le _)) (h 0 (Nat.succ_pos n)).2
      (running 1 (Nat.succ_le_succ (Nat.zero_le n))) rest

/-- A run over the states f, by the status of the state it ends in (R915). -/
theorem runSteps_ends {n m : Nat} {f : Nat → State} (hle : n ≤ m)
    (h : ∀ k, k < n → (f k).status = .running ∧ step (f k) = .next (f (k + 1))) :
    (n = m → (f n).status = .running → runSteps m (f 0) = .next (n, f n)) ∧
    (1 ≤ n → (f n).status = .halted → runSteps m (f 0) = .next (n, f n)) ∧
    (∀ k, 1 ≤ n → (f n).status = .faulted k → runSteps m (f 0) = .next (n - 1, f n)) := by
  obtain ⟨j, rfl⟩ := Nat.exists_eq_add_of_le' hle
  refine ⟨fun hj hn => ?_, fun h1 hn => ?_, fun k h1 hn => ?_⟩
  · have run := runSteps_add (m := j) h hn (runSteps_stopped (.inl (by omega)))
    rwa [Nat.zero_add] at run
  all_goals
    obtain ⟨i, rfl⟩ := Nat.exists_eq_add_of_le' h1
    obtain ⟨hs, e⟩ := h i (Nat.lt_succ_self i)
    have before : ∀ k, k < i → (f k).status = .running ∧ step (f k) = .next (f (k + 1)) :=
      fun k hk => h k (Nat.lt_succ_of_lt hk)
    rw [show j + (i + 1) = j + 1 + i by omega]
  · rw [runSteps_add before hs (runSteps_halted j hs e hn), Nat.add_comm]
  · rw [runSteps_add before hs (runSteps_faulted j hs e hn), Nat.zero_add, Nat.add_sub_cancel]

/-! ## drain_tx (60_exceptions.md R871) -/

section

variable {s : State} {c : ChannelId} {id : Nat} (hid : channelOfId id = some c)
include hid

theorem drainTx_empty (h : (s.duart.channel c).txQueue = []) : drainTx s id = .ok (none, s) := by
  simp only [drainTx, hid, h]

theorem drainTx_head {b : Byte} {rest : List Byte} (h : (s.duart.channel c).txQueue = b :: rest) :
    drainTx s id = .ok (some b,
      { s with duart := s.duart.setChannel c { s.duart.channel c with txQueue := rest } }) := by
  simp only [drainTx, hid, h]

end

/-- Settles O60: the cases of each operation, and the run by the status it ends in. -/
theorem hostOperations : Obligations.HostOperations := by
  refine ⟨fun s c id hid => ?_, fun s id h => by simp only [drainTx, channelOfId_none h], fun _ => ⟨rfl, rfl⟩,
    fun n s => runSteps_stopped, fun n m f => runSteps_ends, fun s a z => ⟨fun h => ?_, fun k => hostRead_error⟩,
    fun s a v z wf => ⟨fun h => ?_, fun k => hostWrite_error v⟩⟩
  · have hc : channelOfId id = some c := by rw [hid]; cases c <;> rfl
    exact ⟨drainTx_empty hc, fun b rest => drainTx_head hc⟩
  · obtain ⟨hlt, hbytes⟩ := hostWord_bytes s a z
    exact ⟨_, hostRead_ok h, hlt, hbytes⟩
  · exact ⟨_, hostWrite_ok v h, read_hostWritten v wf⟩

/-! ## The invariant -/

section

variable {s : State} (h : Safe s)
include h

theorem Safe.setStatus (x : Status) : Safe { s with status := x } := h.of_same rfl rfl rfl rfl h.psw_high

/-- Reset empties the DUART, clears the latches and masks the PSW (70_reset_and_hazards.md R900). -/
theorem Safe.resetAt (pc : Word) : Safe (resetAt pc s) :=
  .of_parts h.memCanonical h.memMapped (masked_bit _)
    ⟨.reset _, fun i hi => absurd ((cleared_latches i).symm.trans hi) (by decide)⟩ h.paramsValid

theorem Safe.resetFault (e : Exn) : Safe (resetFault e s) := by
  cases e with
  | trap k i => exact h.setStatus _
  | fault f => exact h

theorem Safe.resetEntryPoint (a : Word) : Safe (resetEntryPoint a s) := by
  unfold Machine.resetEntryPoint
  split
  · exact h.resetFault _
  · next e =>
    have h' := (h.read e).setReg (n := regPC) (by decide)
    split
    · exact (h' _).resetFault _
    · next e' => exact ((h' _).read e').setReg (n := regSP) (by decide) _

theorem Safe.resetContext (w : Word) : Safe (resetContext w s) :=
  ((h.setReg (n := regPCBP) (by decide) _).setPsw fun k hk =>
    (setField_high _ _ k (by decide) hk).trans (masked_bit w k hk)).resetEntryPoint _

/-- Every read of the PcbVector reset, and its fault, leaves a safe state (R902). -/
theorem Safe.resetPcbVector : Safe (resetPcbVector s) := by
  unfold Machine.resetPcbVector
  split
  · exact (h.resetAt _).resetFault _
  · next e =>
    have h' := ((h.resetAt s.pc).read e).setReg (n := regPCBP) (by decide)
    split
    · exact (h' _).resetFault _
    · next e' => exact ((h' _).read e').resetContext _

theorem Safe.resetMachine : Safe (resetMachine s) := by
  unfold Machine.resetMachine
  split
  · exact h.resetAt _
  · exact h.resetPcbVector

end

theorem Memory.mem_load {m : Memory} {a : Nat} {bs : List Byte} {c : Host.Cell} (h : c ∈ m.load a bs) :
    c ∈ m ∨ ∃ k, k < bs.length ∧ c.1 = a + k := by
  induction bs generalizing m a with
  | nil => exact .inl h
  | cons b bs ih =>
    rcases ih h with hw | ⟨k, hk, e⟩
    · exact (Memory.mem_write hw).imp_right fun ⟨e, _⟩ => ⟨0, Nat.succ_pos _, congrArg Prod.fst e⟩
    · exact .inr ⟨k + 1, Nat.succ_lt_succ hk, by omega⟩

/-- A debug write reaches RAM only (R934). -/
theorem Safe.hostWrite {s t : State} {a v : Word} {z : Size} (h : Safe s) (e : hostWrite s a z v = .ok t) :
    Safe t := by
  obtain ⟨hram, rfl⟩ := hostWrite_cases e
  refine .of_parts (Memory.wf_load h.memCanonical ..) (fun c hc => ?_) h.psw_high ⟨h.device.duart, h.latched⟩
    h.paramsValid
  rcases Memory.mem_load hc with hc | ⟨k, hk, hcell⟩
  · exact h.memMapped c hc
  · rw [bigEndianBytes_length] at hk
    exact .inr (by rw [hcell]; exact hram k hk)

/-- The conditions see a channel through RxRDY and TxRDY alone (60_exceptions.md R840, R874). -/
theorem cond_setChannel (d : Duart) (c : ChannelId) {x : Channel} (hrx : x.rxReady = (d.channel c).rxReady)
    (htx : x.txReady = (d.channel c).txReady) (i : Fin 5) : (d.setChannel c x).cond i = d.cond i := by
  have hisr : (d.setChannel c x).isr = d.isr := by
    cases c <;> simp only [Duart.isr, Duart.setChannel, hrx, htx] <;> rfl
  have himr : (d.setChannel c x).imr = d.imr := by cases c <;> rfl
  rw [Duart.cond, hisr, himr, Duart.cond]

theorem DuartOk.channel {p : Params} {d : Duart} (h : DuartOk p d) (c : ChannelId) : ChannelOk p (d.channel c) := by
  cases c
  · exact h.a
  · exact h.b

theorem DuartOk.setChannel {p : Params} {d : Duart} (h : DuartOk p d) (c : ChannelId) {x : Channel}
    (hx : ChannelOk p x) : DuartOk p (d.setChannel c x) := by
  cases c
  · exact ⟨hx, h.b⟩
  · exact ⟨h.a, hx⟩

/-- A change of a channel's queues keeps `Safe` where they stay within their capacities. -/
theorem Safe.setChannel {s : State} (h : Safe s) (c : ChannelId) {x : Channel} (hx : ChannelOk s.params x)
    (hrx : x.rxReady = (s.duart.channel c).rxReady) (htx : x.txReady = (s.duart.channel c).txReady) :
    Safe { s with duart := s.duart.setChannel c x } :=
  .of_parts h.memCanonical h.memMapped h.psw_high
    ⟨h.device.duart.setChannel c hx, fun i hi => (cond_setChannel s.duart c hrx htx i).trans (h.latched i hi)⟩
    h.paramsValid

theorem Safe.pushRx {s t : State} {id : Nat} {b : Byte} (h : Safe s) (e : pushRx s id b = .ok t) : Safe t := by
  unfold Machine.pushRx at e
  split at e
  · cases e
  · next c _ =>
    dsimp only at e
    split at e
    · next hroom =>
      cases e
      have ok := h.device.duart.channel c
      refine h.setChannel c ⟨?_, ok.tx, ok.idle⟩ rfl rfl
      simp only [Channel.rxHeld, List.length_append, List.length_singleton] at hroom ⊢
      omega
    · cases e

theorem Safe.drainTx {s t : State} {id : Nat} {r : Option Byte} (h : Safe s) (e : drainTx s id = .ok (r, t)) :
    Safe t := by
  unfold Machine.drainTx at e
  split at e
  · cases e
  · next c _ =>
    dsimp only at e
    split at e
    · cases e
      exact h
    · next b rest hq =>
      cases e
      have ok := h.device.duart.channel c
      refine h.setChannel c ⟨ok.rx, ?_, ok.idle⟩ rfl rfl
      have := ok.tx
      rw [hq, List.length_cons] at this
      exact Nat.le_of_succ_le this

/-- Settles O16: each host operation keeps `Safe`. -/
theorem hostKeepsSafe : Obligations.HostKeepsSafe :=
  fun _ h => ⟨h.resetMachine, fun _ _ _ _ => h.hostWrite, fun _ _ _ => h.pushRx, fun _ _ _ => h.drainTx⟩

end Sys2Proof.Machine
end
